-- ==== Sys2Proof/Word.lean ====
section
/-! DEFINITION. Word.lean: the word types of the block and the plainest arithmetic on them (00_scope.md R10,
30_encoding.md R110, R111). -/

namespace Sys2Proof

/-- A byte: a data register, a framebuffer byte, an operand latch (R22, R30, R36). -/
abbrev Byte := BitVec 8

/-- A 16-bit operand view of the command word: `p` or `n` (R22, R111). -/
abbrev Half := BitVec 16

/-- A 48-bit host command word (R21, R110). -/
abbrev Word := BitVec 48

/-- The command word whose six bytes are `op a b c d e`, the opcode most significant (R110, R111). -/
def Word.ofBytes (op a b c d e : Byte) : Word := op ++ a ++ b ++ c ++ d ++ e

/-- The command word of format P: opcode, `a`, the address `p`, the count `n` (R111, R112). -/
def Word.ofHalves (op a : Byte) (p n : Half) : Word := op ++ a ++ p ++ n

/-- The framebuffer index of column `col`, page `page` (20_memory.md R89). -/
def fbIndex (col page : Nat) : Nat := col + 128 * page

end Sys2Proof
end

