-- ==== Sys2Proof/Syntax.lean ====
section
/-! DEFINITION. Syntax.lean: the 32 operations of 30_encoding.md R113, one constructor per row of
spec/opcode_table.json. Operands are the raw bytes and halves of the command word (R112); which values an
operation accepts is WellFormed.lean's matter and the meaning's. -/

namespace Sys2Proof

/-- The operations of the block (00_scope.md R3), operands in command-word order. -/
inductive Instr where
  /-- 0x01 BC_INIT `p` (R200). -/
  | bcInit (p : Half)
  /-- 0x02 START (R210). -/
  | start
  /-- 0x03 STOP (R212). -/
  | stop
  /-- 0x04 REQ `a` (R214). -/
  | req (a : Byte)
  /-- 0x05 WRB `a` (R218). -/
  | wrb (a : Byte)
  /-- 0x06 WRBURST `a` = role, `p`, `n` (R230). -/
  | wrburst (a : Byte) (p n : Half)
  /-- 0x07 RDB (R222). -/
  | rdb
  /-- 0x08 RDBURST `a` = role, `p`, `n` (R240). -/
  | rdburst (a : Byte) (p n : Half)
  /-- 0x10 D_INIT (R305). -/
  | dInit
  /-- 0x11 MOVECUR `col`, `page` (R270). -/
  | movecur (a b : Byte)
  /-- 0x12 DRAWCHAR `p` (R365). -/
  | drawchar (p : Half)
  /-- 0x13 DRAWBITMAP `p` (R367). -/
  | drawbitmap (p : Half)
  /-- 0x14 DRAWPIXEL `x`, `y` (R342). -/
  | drawpixel (a b : Byte)
  /-- 0x15 CLEARPIXEL `x`, `y` (R343). -/
  | clearpixel (a b : Byte)
  /-- 0x16 DRAWLINE `x1`, `y1`, `x2`, `y2` (R346). -/
  | drawline (a b c d : Byte)
  /-- 0x17 DRAWVLINE `x`, `y1`, `y2` (R350). -/
  | drawvline (a b c : Byte)
  /-- 0x18 DRAWHLINE `x1`, `x2`, `y` (R351). -/
  | drawhline (a b c : Byte)
  /-- 0x19 DRAWCIRCLE `cx`, `cy`, `r` (R354). -/
  | drawcircle (a b c : Byte)
  /-- 0x20 CONTRAST `level` (R310). -/
  | contrast (a : Byte)
  /-- 0x21 INVERT `flag` (R311). -/
  | invert (a : Byte)
  /-- 0x22 DISPON `flag` (R312). -/
  | dispon (a : Byte)
  /-- 0x23 FLIP `flag` (R313). -/
  | flip (a : Byte)
  /-- 0x24 ADDRMODE `mode` (R314). -/
  | addrmode (a : Byte)
  /-- 0x28 SCROLLH `dir`, `freq`, `page_start`, `page_end` (R320). -/
  | scrollh (a b c d : Byte)
  /-- 0x29 SCROLLDIAG `dir`, `freq`, `page_start`, `page_end`, `offset` (R322). -/
  | scrolldiag (a b c d e : Byte)
  /-- 0x2A SETVAREA `frozen`, `scrolling` (R324). -/
  | setvarea (a b : Byte)
  /-- 0x2B SCROLLSTATE `flag` (R326). -/
  | scrollstate (a : Byte)
  /-- 0x2C SCROLLV `vdir`, `freq`, `page_start`, `page_end`, `frozen_page` (R328). -/
  | scrollv (a b c d e : Byte)
  /-- 0x30 RAMWRITE `col`, `page`, `byte` (R275). -/
  | ramwrite (a b c : Byte)
  /-- 0x31 RAMUPDATEBYTE `col`, `page`, `byte` (R277). -/
  | ramupdatebyte (a b c : Byte)
  /-- 0x32 RAMUPDATEFULL (R279). -/
  | ramupdatefull
  /-- 0x33 RAMCLEAR (R276). -/
  | ramclear
  deriving DecidableEq, Repr

end Sys2Proof
end

