-- ==== Sys2Proof/WellFormed.lean ====
section
/-! DEFINITION. WellFormed.lean: the operand domains the spec states for the command word alone (R114, R115, R118,
R230, R240, R270, R275, R277, R302, R314, R320 to R328, R367), and the closed list of refusal reasons (60_exceptions.md
R404). What a refused operation does is `refuse` of Machine/Ops.lean; the order of the tests (R403) is
Machine/Operands.lean's. -/

namespace Sys2Proof

/-- Why an operation is refused before it starts, the closed list of R404. Each is recorded in
`State.refusal` and leaves every other piece of state alone (R401). -/
inductive RefuseReason where
  /-- `op` is not one of the 32 opcodes (R116). -/
  | unknownOpcode
  /-- an unused field of the command word, or a reserved byte or bit of the record, is not zero (R117, R118). -/
  | reservedField
  /-- an operand, a record field or a computed field is outside its domain (R114, R115, R118, R203 to R205, ..). -/
  | operandRange
  /-- a buffer operand reaches past BUF address 0xFFFF (R85). -/
  | bufferRange
  /-- BC_INIT with an instance outside `SUPPORTED_INSTANCES` (R201). -/
  | unsupportedInstance
  /-- RDBURST, initiator, `n` < 2, with `STRICT_PRECONDITIONS` (R243, R406). -/
  | countTooSmall
  deriving DecidableEq, Repr

/-- The operand domains of the command word: role selectors and flags are 0 or 1 (R114, R115); a cursor is in
[0,127] × [0,7] (R270, R275, R277); `freq`, pages and `frozen_page` are 0..7 (R302, R320, R328); the diagonal offset
is at most 0x3F (R322); the vertical area fits 64 rows (R324); a buffer ends at or below 0xFFFF (R85, R118, R367).
Drawing coordinates have no bound: out of range is a skip (R404). -/
def Instr.wellFormed : Instr → Bool
  | .bcInit p => decide (p.toNat ≤ 65524)
  | .start => true
  | .stop => true
  | .req _ => true
  | .wrb _ => true
  | .wrburst a p n => decide (a.toNat ≤ 1 ∧ p.toNat + n.toNat ≤ 65536)
  | .rdb => true
  | .rdburst a p n => decide (a.toNat ≤ 1 ∧ p.toNat + n.toNat ≤ 65536)
  | .dInit => true
  | .movecur a b => decide (a.toNat ≤ 127 ∧ b.toNat ≤ 7)
  | .drawchar _ => true
  | .drawbitmap p => decide (p.toNat ≤ 64512)
  | .drawpixel _ _ => true
  | .clearpixel _ _ => true
  | .drawline _ _ _ _ => true
  | .drawvline _ _ _ => true
  | .drawhline _ _ _ => true
  | .drawcircle _ _ _ => true
  | .contrast _ => true
  | .invert a => decide (a.toNat ≤ 1)
  | .dispon a => decide (a.toNat ≤ 1)
  | .flip a => decide (a.toNat ≤ 1)
  | .addrmode a => decide (a.toNat ≤ 2)
  | .scrollh a b c d => decide (a.toNat ≤ 1 ∧ b.toNat ≤ 7 ∧ c.toNat ≤ 7 ∧ d.toNat ≤ 7)
  | .scrolldiag a b c d e =>
      decide (a.toNat ≤ 1 ∧ b.toNat ≤ 7 ∧ c.toNat ≤ 7 ∧ d.toNat ≤ 7 ∧ e.toNat ≤ 63)
  | .setvarea a b => decide (a.toNat ≤ 64 ∧ b.toNat ≤ 64 ∧ a.toNat + b.toNat ≤ 64)
  | .scrollstate a => decide (a.toNat ≤ 1)
  | .scrollv a b c d e =>
      decide (a.toNat ≤ 1 ∧ b.toNat ≤ 7 ∧ c.toNat ≤ 7 ∧ d.toNat ≤ 7 ∧ e.toNat ≤ 7)
  | .ramwrite a b _ => decide (a.toNat ≤ 127 ∧ b.toNat ≤ 7)
  | .ramupdatebyte a b _ => decide (a.toNat ≤ 127 ∧ b.toNat ≤ 7)
  | .ramupdatefull => true
  | .ramclear => true

end Sys2Proof
end

