-- ==== Sys2Proof/Decode.lean ====
section
/-! DEFINITION. Decode.lean: the 48-bit command word and its operations (30_encoding.md R110 to R117). Decoding is
total and refuses by name: an opcode outside the table is `unknownOpcode` (R116), a non-zero unused field is
`reservedField` (R117). Operand domains are checked later (R403), so every word that passes decodes to its row's
operation. -/

namespace Sys2Proof

/-- `op` = `CMDW[47:40]` (R22, R111). -/
def Word.op (w : Word) : Byte := w.extractLsb' 40 8
/-- `a` = `CMDW[39:32]`. -/
def Word.a (w : Word) : Byte := w.extractLsb' 32 8
/-- `b` = `CMDW[31:24]`. -/
def Word.b (w : Word) : Byte := w.extractLsb' 24 8
/-- `c` = `CMDW[23:16]`. -/
def Word.c (w : Word) : Byte := w.extractLsb' 16 8
/-- `d` = `CMDW[15:8]`. -/
def Word.d (w : Word) : Byte := w.extractLsb' 8 8
/-- `e` = `CMDW[7:0]`. -/
def Word.e (w : Word) : Byte := w.extractLsb' 0 8
/-- `p` = `CMDW[31:16]`, the same bits as `{b, c}`. -/
def Word.p (w : Word) : Half := w.extractLsb' 16 16
/-- `n` = `CMDW[15:0]`, the same bits as `{d, e}`. -/
def Word.n (w : Word) : Half := w.extractLsb' 0 16

/-- The operation `i`, unless a field it leaves unused (`unused`, the concatenated unused fields) is non-zero (R117). -/
def unusedZero {k : Nat} (unused : BitVec k) (i : Instr) : Except RefuseReason Instr :=
  if unused = 0#k then .ok i else .error .reservedField

/-- The operation a command word stands for (R113), or the reason it is refused (R116, R117). -/
def decode (w : Word) : Except RefuseReason Instr :=
  let op := w.op
  if op = 0x01#8 then unusedZero (w.a ++ w.n) (.bcInit w.p)
  else if op = 0x02#8 then unusedZero (w.extractLsb' 0 40) .start
  else if op = 0x03#8 then unusedZero (w.extractLsb' 0 40) .stop
  else if op = 0x04#8 then unusedZero (w.extractLsb' 0 32) (.req w.a)
  else if op = 0x05#8 then unusedZero (w.extractLsb' 0 32) (.wrb w.a)
  else if op = 0x06#8 then .ok (.wrburst w.a w.p w.n)
  else if op = 0x07#8 then unusedZero (w.extractLsb' 0 40) .rdb
  else if op = 0x08#8 then .ok (.rdburst w.a w.p w.n)
  else if op = 0x10#8 then unusedZero (w.extractLsb' 0 40) .dInit
  else if op = 0x11#8 then unusedZero (w.extractLsb' 0 24) (.movecur w.a w.b)
  else if op = 0x12#8 then unusedZero (w.a ++ w.n) (.drawchar w.p)
  else if op = 0x13#8 then unusedZero (w.a ++ w.n) (.drawbitmap w.p)
  else if op = 0x14#8 then unusedZero (w.extractLsb' 0 24) (.drawpixel w.a w.b)
  else if op = 0x15#8 then unusedZero (w.extractLsb' 0 24) (.clearpixel w.a w.b)
  else if op = 0x16#8 then unusedZero (w.extractLsb' 0 8) (.drawline w.a w.b w.c w.d)
  else if op = 0x17#8 then unusedZero (w.extractLsb' 0 16) (.drawvline w.a w.b w.c)
  else if op = 0x18#8 then unusedZero (w.extractLsb' 0 16) (.drawhline w.a w.b w.c)
  else if op = 0x19#8 then unusedZero (w.extractLsb' 0 16) (.drawcircle w.a w.b w.c)
  else if op = 0x20#8 then unusedZero (w.extractLsb' 0 32) (.contrast w.a)
  else if op = 0x21#8 then unusedZero (w.extractLsb' 0 32) (.invert w.a)
  else if op = 0x22#8 then unusedZero (w.extractLsb' 0 32) (.dispon w.a)
  else if op = 0x23#8 then unusedZero (w.extractLsb' 0 32) (.flip w.a)
  else if op = 0x24#8 then unusedZero (w.extractLsb' 0 32) (.addrmode w.a)
  else if op = 0x28#8 then unusedZero (w.extractLsb' 0 8) (.scrollh w.a w.b w.c w.d)
  else if op = 0x29#8 then .ok (.scrolldiag w.a w.b w.c w.d w.e)
  else if op = 0x2A#8 then unusedZero (w.extractLsb' 0 24) (.setvarea w.a w.b)
  else if op = 0x2B#8 then unusedZero (w.extractLsb' 0 32) (.scrollstate w.a)
  else if op = 0x2C#8 then .ok (.scrollv w.a w.b w.c w.d w.e)
  else if op = 0x30#8 then unusedZero (w.extractLsb' 0 16) (.ramwrite w.a w.b w.c)
  else if op = 0x31#8 then unusedZero (w.extractLsb' 0 16) (.ramupdatebyte w.a w.b w.c)
  else if op = 0x32#8 then unusedZero (w.extractLsb' 0 40) .ramupdatefull
  else if op = 0x33#8 then unusedZero (w.extractLsb' 0 40) .ramclear
  else .error .unknownOpcode

/-- The command word of an operation, unused fields zero (R112, R113, R117). -/
def encode : Instr → Word
  | .bcInit p => Word.ofHalves 0x01 0 p 0
  | .start => Word.ofBytes 0x02 0 0 0 0 0
  | .stop => Word.ofBytes 0x03 0 0 0 0 0
  | .req a => Word.ofBytes 0x04 a 0 0 0 0
  | .wrb a => Word.ofBytes 0x05 a 0 0 0 0
  | .wrburst a p n => Word.ofHalves 0x06 a p n
  | .rdb => Word.ofBytes 0x07 0 0 0 0 0
  | .rdburst a p n => Word.ofHalves 0x08 a p n
  | .dInit => Word.ofBytes 0x10 0 0 0 0 0
  | .movecur a b => Word.ofBytes 0x11 a b 0 0 0
  | .drawchar p => Word.ofHalves 0x12 0 p 0
  | .drawbitmap p => Word.ofHalves 0x13 0 p 0
  | .drawpixel a b => Word.ofBytes 0x14 a b 0 0 0
  | .clearpixel a b => Word.ofBytes 0x15 a b 0 0 0
  | .drawline a b c d => Word.ofBytes 0x16 a b c d 0
  | .drawvline a b c => Word.ofBytes 0x17 a b c 0 0
  | .drawhline a b c => Word.ofBytes 0x18 a b c 0 0
  | .drawcircle a b c => Word.ofBytes 0x19 a b c 0 0
  | .contrast a => Word.ofBytes 0x20 a 0 0 0 0
  | .invert a => Word.ofBytes 0x21 a 0 0 0 0
  | .dispon a => Word.ofBytes 0x22 a 0 0 0 0
  | .flip a => Word.ofBytes 0x23 a 0 0 0 0
  | .addrmode a => Word.ofBytes 0x24 a 0 0 0 0
  | .scrollh a b c d => Word.ofBytes 0x28 a b c d 0
  | .scrolldiag a b c d e => Word.ofBytes 0x29 a b c d e
  | .setvarea a b => Word.ofBytes 0x2A a b 0 0 0
  | .scrollstate a => Word.ofBytes 0x2B a 0 0 0 0
  | .scrollv a b c d e => Word.ofBytes 0x2C a b c d e
  | .ramwrite a b c => Word.ofBytes 0x30 a b c 0 0
  | .ramupdatebyte a b c => Word.ofBytes 0x31 a b c 0 0
  | .ramupdatefull => Word.ofBytes 0x32 0 0 0 0 0
  | .ramclear => Word.ofBytes 0x33 0 0 0 0 0

/-- A command word delivered as bytes: six of them, the opcode first (R110). The rest of the list is returned;
fewer than six bytes are no command word. -/
def decodeBytes : List Byte → Option (Except RefuseReason Instr × List Byte)
  | op :: a :: b :: c :: d :: e :: rest => some (decode (Word.ofBytes op a b c d e), rest)
  | _ => none

/-- The rows of spec/opcode_table.json: the pattern and the mask of each of the 32 operations (R113, R117). -/
def opcodeTable : List (Word × Word) :=
  [(0x010000000000, 0xFFFF0000FFFF), (0x020000000000, 0xFFFFFFFFFFFF), (0x030000000000, 0xFFFFFFFFFFFF),
   (0x040000000000, 0xFF00FFFFFFFF), (0x050000000000, 0xFF00FFFFFFFF), (0x060000000000, 0xFF0000000000),
   (0x070000000000, 0xFFFFFFFFFFFF), (0x080000000000, 0xFF0000000000)]
  ++ [(0x100000000000, 0xFFFFFFFFFFFF), (0x110000000000, 0xFF0000FFFFFF), (0x120000000000, 0xFFFF0000FFFF),
   (0x130000000000, 0xFFFF0000FFFF), (0x140000000000, 0xFF0000FFFFFF), (0x150000000000, 0xFF0000FFFFFF),
   (0x160000000000, 0xFF00000000FF), (0x170000000000, 0xFF000000FFFF), (0x180000000000, 0xFF000000FFFF),
   (0x190000000000, 0xFF000000FFFF)]
  ++ [(0x200000000000, 0xFF00FFFFFFFF), (0x210000000000, 0xFF00FFFFFFFF), (0x220000000000, 0xFF00FFFFFFFF),
   (0x230000000000, 0xFF00FFFFFFFF), (0x240000000000, 0xFF00FFFFFFFF), (0x280000000000, 0xFF00000000FF),
   (0x290000000000, 0xFF0000000000), (0x2A0000000000, 0xFF0000FFFFFF), (0x2B0000000000, 0xFF00FFFFFFFF),
   (0x2C0000000000, 0xFF0000000000)]
  ++ [(0x300000000000, 0xFF000000FFFF), (0x310000000000, 0xFF000000FFFF), (0x320000000000, 0xFFFFFFFFFFFF),
   (0x330000000000, 0xFFFFFFFFFFFF)]

/-- The instruction the decoder reads from the command word `w`, numbered as spec/opcode_table.json numbers its 48
bits (`op` is 47:40). `nbits` is 48 for every row; a shorter word has zeros above, which are then the opcode. -/
def decodeTableWord (nbits w : Nat) : Option Instr :=
  match decode (BitVec.ofNat 48 (w % 2 ^ nbits)) with
  | .ok i => some i
  | .error _ => none

end Sys2Proof
end

