-- ==== Sys2Proof/Config.lean ====
section
/-! DEFINITION. Config.lean: the parameters of 00_scope.md R9 as a record of plain data, and the free values of the
model, constants with no body. The record stands in State (a machine has one; no step changes it), so a claim about
every state holds for every value of every parameter; the defaults the spec proposes are in Machine/Params.lean. -/

namespace Sys2Proof

/-- An agent of R20 that may take the next step: the sequencer (with the DC engine, one thread of control), the line
agent, or the peer. The host is not among them: it moves only between operations. -/
inductive Agent where
  | seq | line | peer
  deriving DecidableEq, Repr, Inhabited

/-- `DATA_FRAMING` (R9, R264). -/
inductive Framing where
  | perByte | continuous
  deriving DecidableEq, Repr

/-- `SCHED` (R9, R152). -/
inductive SchedMode where
  | runToWait | free
  deriving DecidableEq, Repr

/-- The table of R301 as one record (D22): the command byte values of the panel, the argument bytes D_INIT sends, and
the named mode and direction values, one field a name. `modeVertical`, `modePage`, `dirRight` and `dirLeft` name values
a host puts into operands; no rule's pseudocode reads them (R314, R320, R322). -/
structure PanelCmds where
  displayOff : Byte
  displayOn : Byte
  clockDiv : Byte
  initClockDiv : Byte
  precharge : Byte
  initPrecharge : Byte
  vcomh : Byte
  initVcomh : Byte
  chargePump : Byte
  initChargePump : Byte
  addrMode : Byte
  modeHorizontal : Byte
  modeVertical : Byte
  modePage : Byte
  startLine : Byte
  segRemapOff : Byte
  segRemapOn : Byte
  muxRatio : Byte
  initMuxRatio : Byte
  comScanInc : Byte
  comScanDec : Byte
  displayOffset : Byte
  initDisplayOffset : Byte
  comPins : Byte
  initComPins : Byte
  contrast : Byte
  initContrast : Byte
  resumeRam : Byte
  normal : Byte
  inverse : Byte
  scrollOff : Byte
  scrollOn : Byte
  scrollH : Byte
  dirRight : Byte
  dirLeft : Byte
  dummy00 : Byte
  dummyFF : Byte
  scrollDiagRight : Byte
  scrollDiagLeft : Byte
  vArea : Byte
  colRange : Byte
  pageRange : Byte
  offsetUp : Byte
  offsetDown : Byte
  deriving DecidableEq, Repr

/-- `FRAME.*` (R9, R302): the eight frame-frequency values; the number in a name is the count of display frames between
scroll steps. A host puts them into the `freq` operand, which goes into the frame unchanged; no rule reads them by
name. -/
structure FrameRates where
  frame5 : Byte
  frame64 : Byte
  frame128 : Byte
  frame256 : Byte
  frame3 : Byte
  frame4 : Byte
  frame25 : Byte
  frame2 : Byte
  deriving DecidableEq, Repr

/-- The parameters of R9. `ctrlCmd` is the control byte R8 fixes at 0x00. `font` lists the glyph bytes of the external
font table that are known, by index `(code - 0x20) * 5 + k` (R93). -/
structure Params where
  pclkHz : Nat
  supported : List Nat
  dispAddrW : Byte
  ctrlCmd : Byte
  ctrlData : Byte
  framing : Framing
  cmds : PanelCmds
  frames : FrameRates
  font : List Host.Cell
  waitBudget : Option Nat
  strict : Bool
  sched : SchedMode
  deriving DecidableEq, Repr

/-- `PCLK_HZ`, which R9 gives no default: what the clock collaborator supplies (R203, R436). Free. -/
opaque Config.pclkHz : Nat
/-- `RES` at power-on, unspecified (R21, R431). Free. -/
opaque Config.powerOnRes : Byte
/-- `SHIFT` at power-on, unspecified (R30, R431). Free. -/
opaque Config.powerOnShift : Byte
/-- `SHIFT` after a software reset, unspecified (R431): a value for each reset. Free. -/
opaque Config.shiftAfterReset : Nat → Byte
/-- `FB[i]` at power-on, arbitrary and fixed (R36, R432), never 0 by rule. Free. -/
opaque Config.powerOnFb : Nat → Byte
/-- `BUF[q]` before the host writes it (R431, R432). Free. -/
opaque Config.powerOnBuf : Nat → Byte
/-- Byte `i` of the reference panel's `GD`, by epoch: epoch 0 is power-on (R381, R432), a later one begins each time
the panel is sent something that has no meaning in it (R385, R387). Free. -/
opaque Config.unknownGd : Nat → Nat → Byte
/-- The reference panel's cursor, ranges and mode (numbered 0 to 6) after it is sent something that has no meaning in
it (R385, R387). Free. -/
opaque Config.unknownCursor : Nat → Nat → Nat
/-- Byte `i` of the font table, whose content is not in the source (R41, R93). Free. -/
opaque Config.fontByte : Nat → Byte
/-- The peer's answer to a byte, where the state's script gives none (R151). Free. -/
opaque Config.peerAck : Nat → Bool
/-- A byte the peer supplies, where the state's script gives none (R151). Free. -/
opaque Config.peerByte : Nat → Byte
/-- Which agent moves where several may and the state's script does not say (R150, R152). Free. -/
opaque Config.schedule : Nat → Agent
/-- A draw of the responder WRBURST past the end of its data: any byte (R234). Free. -/
opaque Config.draw : Nat → Byte

end Sys2Proof
end

