-- ==== Sys2Proof/Machine/Params.lean ====
section
/-! DEFINITION. Machine/Params.lean: the default values the spec proposes for the parameters (00_scope.md R9,
44_display_commands.md R301, R302). A value whose origin column says GK is the spec's, from general knowledge of the
SSD1306 and the STM32F1; the source confirms only `scrollH`, `dummy00`, `dummyFF`, `initMuxRatio`,
`initDisplayOffset` and the two offset values. -/

namespace Sys2Proof

/-- The defaults of R301. -/
def PanelCmds.defaults : PanelCmds where
  displayOff := 0xAE
  displayOn := 0xAF
  clockDiv := 0xD5
  initClockDiv := 0x80
  precharge := 0xD9
  initPrecharge := 0xF1
  vcomh := 0xDB
  initVcomh := 0x40
  chargePump := 0x8D
  initChargePump := 0x14
  addrMode := 0x20
  modeHorizontal := 0x00
  modeVertical := 0x01
  modePage := 0x02
  startLine := 0x40
  segRemapOff := 0xA0
  segRemapOn := 0xA1
  muxRatio := 0xA8
  initMuxRatio := 0x3F
  comScanInc := 0xC0
  comScanDec := 0xC8
  displayOffset := 0xD3
  initDisplayOffset := 0x00
  comPins := 0xDA
  initComPins := 0x12
  contrast := 0x81
  initContrast := 0x7F
  resumeRam := 0xA4
  normal := 0xA6
  inverse := 0xA7
  scrollOff := 0x2E
  scrollOn := 0x2F
  scrollH := 0x26
  dirRight := 0x00
  dirLeft := 0x01
  dummy00 := 0x00
  dummyFF := 0xFF
  scrollDiagRight := 0x29
  scrollDiagLeft := 0x2A
  vArea := 0xA3
  colRange := 0x21
  pageRange := 0x22
  offsetUp := 0x01
  offsetDown := 0x3F

/-- The defaults of R302. -/
def FrameRates.defaults : FrameRates where
  frame5 := 0
  frame64 := 1
  frame128 := 2
  frame256 := 3
  frame3 := 4
  frame4 := 5
  frame25 := 6
  frame2 := 7

/-- The defaults of R9; `PCLK_HZ` has none and stays free. -/
def Params.defaults : Params where
  pclkHz := Config.pclkHz
  supported := [1, 2]
  dispAddrW := 0x78
  ctrlCmd := 0x00
  ctrlData := 0x40
  framing := .perByte
  cmds := PanelCmds.defaults
  frames := FrameRates.defaults
  font := []
  waitBudget := none
  strict := false
  sched := .runToWait

end Sys2Proof
end

