-- ==== Sys2Proof/Machine/State.lean ====
section
/-! DEFINITION. Machine/State.lean: everything the spec gives the machine, as plain data (10_state.md, 40 R150,
46_panel_peer.md, 60 R401, 70 R431), and the machine right after reset. Beside it stand the model's own inputs: the
host's pending actions, the peer's script, the schedule, and a counter for free values. -/

namespace Sys2Proof.Machine

/-- A byte-addressed space as the list of its known bytes: addresses strictly rising. An unlisted address has no
known value; reading it gives the space's free power-on value (R432). -/
abbrev Memory := List Host.Cell

/-- A wire token (R15): `S`, `Sr`, `P`, `B(v, k)` with `ack` true for `A`. -/
inductive Token where
  | start
  | restart
  | stop
  | byte (v : Byte) (ack : Bool)
  deriving DecidableEq, Repr

/-- `MODE` (R27). -/
inductive BusMode where
  | plain | smbusDevice | smbusHost
  deriving DecidableEq, Repr

/-- `role` (R31). -/
inductive Role where
  | idle | master | slave
  deriving DecidableEq, Repr

/-- `dir` (R31), seen from the block. -/
inductive Dir where
  | tx | rx
  deriving DecidableEq, Repr

/-- `phase` (R31). -/
inductive Phase where
  | idle | started | addrAcked | addrNacked | data
  deriving DecidableEq, Repr

/-- The nine registers of the bus interface, by the names of R25. -/
inductive BusReg where
  | cr1 | cr2 | oar1 | oar2 | dr | sr1 | sr2 | ccr | trise
  deriving DecidableEq, Repr

/-- The configuration fields BC_INIT writes (R27). -/
structure BifConfig where
  mode : BusMode
  enarp : Bool
  enpec : Bool
  engc : Bool
  nostretch : Bool
  addmode : Bool
  own1 : BitVec 10
  endual : Bool
  own2 : BitVec 7
  freq : BitVec 6
  fs : Bool
  duty : Bool
  ccr : BitVec 12
  trise : BitVec 6
  deriving DecidableEq, Repr

/-- The configuration fields after a reset: all 0 except `TRISE` = 2 (R27, R43). -/
def BifConfig.reset : BifConfig where
  mode := .plain
  enarp := false
  enpec := false
  engc := false
  nostretch := false
  addmode := false
  own1 := 0
  endual := false
  own2 := 0
  freq := 0
  fs := false
  duty := false
  ccr := 0
  trise := 2

/-- The bus interface: control bits (R26), configuration (R27), stored flags (R28), datapath (R30), transfer state
(R31). `opened` is the spec's `open`. `TXE`, `RXNE` and `BTF` are computed (Machine/Flags.lean, R29). -/
structure Bif where
  pe : Bool
  swrst : Bool
  start : Bool
  stop : Bool
  ack : Bool
  pos : Bool
  cfg : BifConfig
  sb : Bool
  addr : Bool
  af : Bool
  stopf : Bool
  dr : Byte
  drFull : Bool
  shift : Byte
  shFull : Bool
  role : Role
  dir : Dir
  phase : Phase
  opened : Bool
  more : Bool
  sent : Nat
  ackLatch : Bool
  deriving DecidableEq, Repr

/-- The bus interface after power-on or a software reset (R43, R202, R431), with `shift` what the shift register then
holds, which the spec leaves unspecified. -/
def Bif.reset (shift : Byte) : Bif where
  pe := false
  swrst := false
  start := false
  stop := false
  ack := false
  pos := false
  cfg := BifConfig.reset
  sb := false
  addr := false
  af := false
  stopf := false
  dr := 0
  drFull := false
  shift := shift
  shFull := false
  role := .idle
  dir := .tx
  phase := .idle
  opened := false
  more := false
  sent := 0
  ackLatch := false

/-- A control bit that `set` and `clr` name (R12). -/
inductive CtrlBit where
  | pe | swrst | start | stop | ack | pos
  deriving DecidableEq, Repr

/-- What a `wait` waits for (R13, and the waits of R214 to R244). `never` is the unconditional `hang` of R243. -/
inductive Cond where
  | sb | addr | txe | rxne | btf | btfAndTxe | rxneOrStopf | never
  deriving DecidableEq, Repr

/-- Where a transmitted byte comes from: a constant of the frame builder, `FB[i]`, `BUF[q]`, or a draw (R234). Each is
read at the micro-operation that sends it (R99, R279). -/
inductive Src where
  | const (v : Byte)
  | fb (i : Nat)
  | buf (q : Nat)
  | draw
  deriving DecidableEq, Repr

/-- Why an operation stopped for good midway, the closed list of R407. Each is recorded in `State.faulted`, and the
machine goes on with `busy` = 1 and only the line agent and the peer moving (R14, R401, R409). -/
inductive FaultReason where
  /-- RDBURST, responder: a byte arrives when `n` bytes are stored (R244). -/
  | bufferOverrun
  /-- DRAWCHAR: the text reaches BUF address 0x10000 (R365). -/
  | bufferRange
  /-- DRAWCHAR: a code outside 0x20..0x7E (R365). -/
  | charRange
  /-- a wait outlives a finite `WAIT_BUDGET` (R405). -/
  | waitTimeout
  deriving DecidableEq, Repr

/-- A micro-operation of the sequencer or the DC engine (R12, R24). The loop micro-operations carry the working
registers of R23 (`idx`, the text address) as their arguments; the raster's and the counted burst's are spent when the
operation is unrolled at issue. -/
inductive Micro where
  /-- `wait(c)` (R13). -/
  | wait (c : Cond)
  /-- `set(F)` (R159); `set(SWRST)` is the software reset (R202). -/
  | set (f : CtrlBit)
  /-- `clr(F)` (R159). -/
  | clr (f : CtrlBit)
  /-- `clr(AF)` (R159). -/
  | clrAf
  /-- `rd_SR2()` (R156). -/
  | rdSr2
  /-- `wr_DR(v)` (R155). -/
  | wrDr (v : Src)
  /-- `wr_CR1()` (R158). -/
  | wrCr1
  /-- `RES <- rd_DR()` (R222). -/
  | rdDrRes
  /-- `BUF[q] <- rd_DR()` (R241, R242). -/
  | rdDrBuf (q : Nat)
  /-- the configuration writes of BC_INIT (R200). -/
  | program (c : BifConfig)
  /-- `FB[i] <- v` (R275). -/
  | fbPut (i : Nat) (v : Byte)
  /-- `FB[i] <- FB[i] | v` (R277, R344). -/
  | fbOr (i : Nat) (v : Byte)
  /-- `FB[i] <- FB[i] & ~v` (R344). -/
  | fbClr (i : Nat) (v : Byte)
  /-- `for i in 0..1023: FB[i] <- 0x00` (R276). -/
  | fbZero
  /-- one pass of the responder WRBURST's loop, from its byte choice on (R232). -/
  | txPass (p n idx : Nat)
  /-- its test `until AF = 1`. -/
  | txUntil (p n idx : Nat)
  /-- the responder RDBURST's test of `RXNE` (R244). -/
  | rxTest (p n idx : Nat)
  /-- its `BUF[p + idx] <- rd_DR()`. -/
  | rxTake (p n idx : Nat)
  /-- its test `until STOPF = 1`. -/
  | rxUntil (p n idx : Nat)
  /-- one pass of DRAWCHAR's loop at text address `q` (R365). -/
  | text (q : Nat)
  deriving DecidableEq, Repr

/-- The operand latches (R22). `p` and `n` are views of them (Machine/Ops.lean). -/
structure Latches where
  op : Byte
  a : Byte
  b : Byte
  c : Byte
  d : Byte
  e : Byte
  deriving DecidableEq, Repr

/-- What the host does next, one entry per move of the host (R20, R21, R99): write a command word, or write a byte of
BUF. It moves only while `busy` = 0 and has no other way in (R37). -/
inductive HostAction where
  | issue (w : Word)
  | write (q : Half) (v : Byte)
  deriving DecidableEq, Repr

/-- Which own address a peer uses to address the block (R175). -/
inductive OwnSel where
  | own1 | own2 | general
  deriving DecidableEq, Repr

/-- A move the peer chooses to make (R153): address the block (`read`: the peer reads), send it a byte, end the
transfer (R175, R177, R178). -/
inductive PeerMove where
  | address (sel : OwnSel) (read : Bool)
  | send (v : Byte)
  | stop
  deriving DecidableEq, Repr

/-- An input sequence: the answers that are given, then the one given for ever after, or, with `rest` none, free
values (R151). -/
structure Script (α : Type) where
  next : List α
  rest : Option α
  deriving DecidableEq, Repr

/-- The peer (R20, R151): its answers to the bytes the block transmits, the bytes it supplies, the moves it chooses
to make in order (it then stays silent), and whether it is the reference panel (R380). -/
structure Peer where
  acks : Script Bool
  data : Script Byte
  moves : List PeerMove
  isPanel : Bool
  deriving DecidableEq, Repr

/-- Where the reference panel stands in a transaction: not in one addressed to it, waiting for the address byte, for the
control byte, inside a command frame with the bytes of an unfinished command, inside a data frame, or in a frame it
gives no meaning (R384, R385). -/
inductive PanelRx where
  | off | listening | control | command (got : List Byte) | data | noMeaning
  deriving DecidableEq, Repr

/-- What the reference panel is told but the ranges and the mode (R383): each a group of commands of which the last one
received holds. -/
inductive PanelSetting where
  | contrast | inversion | power | segments | comScan | clock | precharge | vcomh | chargePump | muxRatio
  | displayOffset | startLine | comPins | source | verticalArea | scrollSetup | scrollState
  deriving DecidableEq, Repr

/-- The reference panel (46_panel_peer.md R381 to R383). `epoch` numbers what is unknown of `gd` (Config.unknownGd);
`told` is the last argument bytes of each command, one entry a command, the command received last first (R383): its order
says which of two commands without arguments, such as scroll on and scroll off, came later (R388). -/
structure Panel where
  gd : Memory
  epoch : Nat
  cs : Nat
  ce : Nat
  ps : Nat
  pe : Nat
  pcol : Nat
  ppage : Nat
  amode : Nat
  told : List (Byte × List Byte)
  rx : PanelRx
  deriving DecidableEq, Repr

/-- The panel at power-on (R382, R431). That it has been told nothing yet (`told` empty), which R383 and R431 leave open,
and `rx` and `epoch` are the model's (DESIGN CHOICE, log 11). -/
def Panel.reset : Panel where
  gd := []
  epoch := 0
  cs := 0
  ce := 127
  ps := 0
  pe := 7
  pcol := 0
  ppage := 0
  amode := 2
  told := []
  rx := .off

/-- The whole machine. `upc` is the micro-program counter with its return stack: the micro-operations still to run,
next first, and [] is `IDLE` (R24). `polls` counts the false evaluations of the current wait under a finite
`WAIT_BUDGET` (R405). `refusal` and `faulted` are the model's marks, the first refusal and the fault (R401).
`draws` numbers the free values used so far. -/
structure State where
  cmdw : Word
  latch : Latches
  busy : Bool
  res : Byte
  upc : List Micro
  polls : Nat
  bus : Bif
  wire : List Token
  fb : Memory
  buf : Memory
  refusal : Option RefuseReason
  faulted : Option FaultReason
  params : Params
  host : List HostAction
  peer : Peer
  panel : Panel
  sched : Script Agent
  draws : Nat
  deriving DecidableEq, Repr

/-- The only way a step leaves the machine. -/
inductive Fault where
  /-- Raised by every meaning when it is asked to issue an operation while `busy` = 1. The spec gives the host no such
  move (R21; 93_implementation_defined.md U23). Safe: the run stops where the hardware has no step, and `step` never
  asks it, since the host moves only while `busy` = 0. -/
  | commandWhileBusy
  deriving DecidableEq, Repr

/-- Why `exec` gives an instruction no meaning. -/
inductive Refusal where
  /-- Raised by an arm of `exec` for an instruction not yet modelled. No arm does. Safe. -/
  | notModelled (mnemonic : String)
  deriving DecidableEq, Repr

/-- The machine right after power-on (R43, R431). What the spec leaves unspecified there is a free value of Config:
`RES`, `SHIFT`, the unlisted bytes of `FB`, BUF and `GD`. The host has nothing to issue yet. -/
def State.reset : State where
  cmdw := 0
  latch := ⟨0, 0, 0, 0, 0, 0⟩
  busy := false
  res := Config.powerOnRes
  upc := []
  polls := 0
  bus := Bif.reset Config.powerOnShift
  wire := []
  fb := []
  buf := []
  refusal := none
  faulted := none
  params := Params.defaults
  host := []
  peer := ⟨⟨[], none⟩, ⟨[], none⟩, [], false⟩
  panel := Panel.reset
  sched := ⟨[], none⟩
  draws := 0

end Sys2Proof.Machine
end

