-- ==== Sys2Proof/Machine/Ops.lean ====
section
/-! DEFINITION. Machine/Ops.lean: the named operations over memory, registers and marks. Memory access (20_memory.md
R85, R89), the register-access primitives of the sequencer (00_scope.md R12; 40 R154 to R159, R202), and what stands
in place of exceptions: the refusal and the fault (60_exceptions.md R401, R408). -/

namespace Sys2Proof.Machine

/-! ### Memory -/

/-- The known byte at address `a`, if there is one. -/
def Memory.lookup : Memory → Nat → Option Byte
  | [], _ => none
  | (b, v) :: m, a => if a = b then some v else Memory.lookup m a

/-- Write one byte, keeping the addresses strictly rising. -/
def Memory.write : Memory → Nat → Byte → Memory
  | [], a, v => [(a, v)]
  | (b, w) :: m, a, v =>
    if a < b then (a, v) :: (b, w) :: m
    else if a = b then (a, v) :: m
    else (b, w) :: Memory.write m a v

/-- The addresses strictly rise and lie below `size`. No entry equals what an unlisted address reads as, since an
unlisted address has no known value. -/
def Memory.wf (size : Nat) : Memory → Bool
  | [] => true
  | [(a, _)] => decide (a < size)
  | (a, _) :: (b, v) :: m => decide (a < b) && Memory.wf size ((b, v) :: m)

/-- The first `n` bytes of a space, all zero (R276). -/
def Memory.zeros (n : Nat) : Memory := (List.range n).map fun i => (i, 0)

/-- `FB[i]` (R36): an unwritten byte is the arbitrary power-on value (R432). -/
def State.fbByte (s : State) (i : Nat) : Byte := (s.fb.lookup i).getD (Config.powerOnFb i)

/-- `BUF[q]` (R41, R432). -/
def State.bufByte (s : State) (q : Nat) : Byte := (s.buf.lookup q).getD (Config.powerOnBuf q)

/-- `GD[i]` of the reference panel (R381). -/
def Panel.gdByte (p : Panel) (i : Nat) : Byte := (p.gd.lookup i).getD (Config.unknownGd p.epoch i)

/-- `FONT[g]` (R41, R93). -/
def fontByte (p : Params) (g : Nat) : Byte := (Memory.lookup p.font g).getD (Config.fontByte g)

/-- `FB[i] <- v`. -/
def State.fbWrite (i : Nat) (v : Byte) (s : State) : State := { s with fb := s.fb.write i v }

/-- `BUF[q] <- v`. -/
def State.bufWrite (q : Nat) (v : Byte) (s : State) : State := { s with buf := s.buf.write q v }

/-- Every `FB` byte becomes 0x00 (R276). -/
def State.fbClear (s : State) : State := { s with fb := Memory.zeros 1024 }

/-! ### Register accesses -/

/-- The state with another bus interface. -/
def State.withBif (b : Bif) (s : State) : State := { s with bus := b }

/-- `wr_DR(v)` (R155): the address byte while `SB` is set, a data byte in an open transmit data phase, and otherwise
only the register. -/
def Bif.wrDr (v : Byte) (b : Bif) : Bif :=
  if b.sb then { b with dr := v, sb := false, drFull := true }
  else if b.phase = .data ∧ b.dir = .tx then { b with dr := v, drFull := true }
  else { b with dr := v }

/-- `rd_SR2()` (R156): clears `ADDR` and opens the data phase. -/
def Bif.rdSr2 (b : Bif) : Bif :=
  if b.addr then { b with addr := false, phase := .data, more := true, sent := 0, ackLatch := b.ack } else b

/-- `rd_DR()`'s effect (R157): when receiving, the shift register moves up or the data register empties. -/
def Bif.rdDr (b : Bif) : Bif :=
  if b.dir = .rx then
    if b.shFull then { b with dr := b.shift, shFull := false } else { b with drFull := false }
  else b

/-- `wr_CR1()` (R158). -/
def Bif.wrCr1 (b : Bif) : Bif := { b with stopf := false }

/-- `clr(AF)` (R159). -/
def Bif.clrAf (b : Bif) : Bif := { b with af := false }

/-- Write a control bit other than `SWRST` (R159). -/
def Bif.setBit (f : CtrlBit) (v : Bool) (b : Bif) : Bif :=
  match f with
  | .pe => { b with pe := v }
  | .swrst => { b with swrst := v }
  | .start => { b with start := v }
  | .stop => { b with stop := v }
  | .ack => { b with ack := v }
  | .pos => { b with pos := v }

/-- `set(SWRST)` (R202): every piece of BIF state at its reset value, `SWRST` held; `shift` is the unspecified content
of the shift register. -/
def Bif.softReset (shift : Byte) : Bif := { Bif.reset shift with swrst := true }

/-! ### Host interface -/

/-- The six bytes of a command word (R22). -/
def Latches.ofWord (w : Word) : Latches := ⟨w.op, w.a, w.b, w.c, w.d, w.e⟩

/-- The view `p` of the latches (R22). -/
def Latches.p (l : Latches) : Half := l.b ++ l.c

/-- The view `n` of the latches (R22). -/
def Latches.n (l : Latches) : Half := l.d ++ l.e

/-- The sequencer's next micro-operations; with none left the operation is complete: `upc` = IDLE, `busy` = 0 (R24). -/
def State.goto (code : List Micro) (s : State) : State :=
  { s with upc := code, busy := !code.isEmpty, polls := 0 }

/-- Issue (R21, R22, R24): the command word is latched and `upc` is set to the operation's first micro-operation. -/
def State.load (w : Word) (code : List Micro) (s : State) : State :=
  { s with cmdw := w, latch := Latches.ofWord w }.goto code

/-- `refuse(r)` (R14, R401): nothing changes but the mark, which keeps the first refusal of the run. -/
def State.refuse (r : RefuseReason) (s : State) : State := { s with refusal := s.refusal <|> some r }

/-- `fault(r)` (R14, R401, R408): `busy` stays 1 and `upc` stays at the faulting micro-operation, for good. -/
def State.fault (r : FaultReason) (s : State) : State := { s with faulted := some r }

/-! ### Free values -/

/-- The next answer of a script, `free` where it gives none, and the script after it. -/
def Script.pop {α : Type} (free : α) (s : Script α) : α × Script α :=
  match s.next with
  | x :: xs => (x, { s with next := xs })
  | [] => (s.rest.getD free, s)

/-- One free value has been used. -/
def State.drawn (s : State) : State := { s with draws := s.draws + 1 }

/-- Ask the peer to acknowledge a byte (R151). -/
def State.askAck (s : State) : Bool × State :=
  let r := s.peer.acks.pop (Config.peerAck s.draws)
  (r.1, { s with peer := { s.peer with acks := r.2 } }.drawn)

/-- Ask the peer for a byte (R151). -/
def State.askByte (s : State) : Byte × State :=
  let r := s.peer.data.pop (Config.peerByte s.draws)
  (r.1, { s with peer := { s.peer with data := r.2 } }.drawn)

/-- Which of the agents that can move does (R150, R152): the only one there is, or else the one the schedule names,
the first of the list where it names one that cannot move. -/
def State.choose (opts : List Agent) (s : State) : Agent × State :=
  match opts with
  | [] => (.seq, s)
  | [x] => (x, s)
  | x :: _ =>
    let r := s.sched.pop (Config.schedule s.draws)
    (if r.1 ∈ opts then r.1 else x, { s with sched := r.2 }.drawn)

end Sys2Proof.Machine
end

