-- ==== Sys2Proof/Machine/Flags.lean ====
section
/-! DEFINITION. Machine/Flags.lean: the three status flags that are computed (10_state.md R29), the conditions a
`wait` polls (00_scope.md R13), and the register-level view of the interface that R45 gives for reference. -/

namespace Sys2Proof.Machine

/-- `TXE` (R29): the data register can take a byte. -/
def Bif.txe (b : Bif) : Bool := b.phase == .data && b.dir == .tx && !b.addr && !b.drFull

/-- `RXNE` (R29): the data register holds an unread received byte. -/
def Bif.rxne (b : Bif) : Bool := b.dir == .rx && b.drFull

/-- `BTF` (R29). -/
def Bif.btf (b : Bif) : Bool :=
  if b.dir = .rx then b.drFull && b.shFull
  else b.phase == .data && !b.addr && !b.drFull && !b.shFull && decide (0 < b.sent) && b.more

/-- The condition of a wait, evaluated on the flags an `rd_SR1()` returns (R13, R154). -/
def Cond.holds (c : Cond) (b : Bif) : Bool :=
  match c with
  | .sb => b.sb
  | .addr => b.addr
  | .txe => b.txe
  | .rxne => b.rxne
  | .btf => b.btf
  | .btfAndTxe => b.btf && b.txe
  | .rxneOrStopf => b.rxne || b.stopf
  | .never => false

/-! ### The register file of R45, for reference: a view, which no rule reads -/

/-- A 16-bit register from its fields: each value at its lowest bit. -/
def regOf (fields : List (Nat × Nat)) : BitVec 16 :=
  BitVec.ofNat 16 (fields.foldl (fun acc f => acc + f.2 * 2 ^ f.1) 0)

/-- CR1 (R45); `MODE` is SMBUS and SMBTYPE; the bits R33 excludes read 0. -/
def Bif.regCr1 (b : Bif) : BitVec 16 :=
  regOf [(0, b.pe.toNat), (1, (b.cfg.mode != .plain).toNat), (3, (b.cfg.mode == .smbusHost).toNat),
    (4, b.cfg.enarp.toNat), (5, b.cfg.enpec.toNat), (6, b.cfg.engc.toNat), (7, b.cfg.nostretch.toNat),
    (8, b.start.toNat), (9, b.stop.toNat), (10, b.ack.toNat), (11, b.pos.toNat), (15, b.swrst.toNat)]

/-- CR2 (R45): FREQ; the interrupt and DMA enables read 0 (R33, R402). -/
def Bif.regCr2 (b : Bif) : BitVec 16 := regOf [(0, b.cfg.freq.toNat)]

/-- BC_INIT has written the configuration since the last reset: `CCR` is then at least 1 (R204), and 0 after a reset
(R27). -/
def Bif.configured (b : Bif) : Bool := b.cfg.ccr != 0

/-- OAR1 (R45): the 10-bit own address at 9:0 in 10-bit mode, at 7:1 otherwise. Bit 14 is 0 after a reset and kept at 1
by BC_INIT, the one operation that writes the register (log 12). -/
def Bif.regOar1 (b : Bif) : BitVec 16 :=
  regOf [if b.cfg.addmode then (0, b.cfg.own1.toNat) else (1, b.cfg.own1.toNat % 128), (14, b.configured.toNat),
    (15, b.cfg.addmode.toNat)]

/-- OAR2 (R45). -/
def Bif.regOar2 (b : Bif) : BitVec 16 := regOf [(0, b.cfg.endual.toNat), (1, b.cfg.own2.toNat)]

/-- DR (R45). -/
def Bif.regDr (b : Bif) : BitVec 16 := regOf [(0, b.dr.toNat)]

/-- SR1 (R45), the seven flags `rd_SR1()` returns (R154); the error flags R33 excludes read 0. -/
def Bif.regSr1 (b : Bif) : BitVec 16 :=
  regOf [(0, b.sb.toNat), (1, b.addr.toNat), (2, b.btf.toNat), (4, b.stopf.toNat), (6, b.rxne.toNat),
    (7, b.txe.toNat), (10, b.af.toNat)]

/-- SR2 (R45): R33 excludes every field of it, so it reads 0. -/
def Bif.regSr2 (_ : Bif) : BitVec 16 := 0

/-- CCR (R45). -/
def Bif.regCcr (b : Bif) : BitVec 16 := regOf [(0, b.cfg.ccr.toNat), (14, b.cfg.duty.toNat), (15, b.cfg.fs.toNat)]

/-- TRISE (R45). -/
def Bif.regTrise (b : Bif) : BitVec 16 := regOf [(0, b.cfg.trise.toNat)]

/-- The offset of a register from the peripheral's base (R45). -/
def BusReg.offset : BusReg → Nat
  | .cr1 => 0x00
  | .cr2 => 0x04
  | .oar1 => 0x08
  | .oar2 => 0x0C
  | .dr => 0x10
  | .sr1 => 0x14
  | .sr2 => 0x18
  | .ccr => 0x1C
  | .trise => 0x20

/-- The register at an offset (R45). -/
def BusReg.at (off : Nat) : Option BusReg :=
  [BusReg.cr1, .cr2, .oar1, .oar2, .dr, .sr1, .sr2, .ccr, .trise].find? (·.offset == off)

/-- A register as a 16-bit word (R45). -/
def Bif.reg (b : Bif) : BusReg → BitVec 16
  | .cr1 => b.regCr1
  | .cr2 => b.regCr2
  | .oar1 => b.regOar1
  | .oar2 => b.regOar2
  | .dr => b.regDr
  | .sr1 => b.regSr1
  | .sr2 => b.regSr2
  | .ccr => b.regCcr
  | .trise => b.regTrise

/-- The register file by offset (R45); no register lies at another offset. -/
def Bif.regAt (b : Bif) (off : Nat) : Option (BitVec 16) := (BusReg.at off).map b.reg

end Sys2Proof.Machine
end

