-- ==== Sys2Proof/Machine/Operands.lean ====
section
/-! DEFINITION. Machine/Operands.lean: operand forms. The tests an operation makes before it starts, in the order of
60_exceptions.md R403; the BusConfiguration record of BC_INIT (30_encoding.md R118) and the fields computed from it
(41 R203 to R205); where a transmitted byte comes from (R99). -/

namespace Sys2Proof.Machine

/-! ### Tests on the command word -/

/-- The reason of the first test that fails, if one does (R403). -/
def firstFailing : List (Bool × RefuseReason) → Option RefuseReason
  | [] => none
  | (ok, r) :: rest => if ok then firstFailing rest else some r

/-- An operand byte is at most `max`, else `OperandRange` (R404). -/
def atMost (x : Byte) (max : Nat) : Bool × RefuseReason := (decide (x.toNat ≤ max), .operandRange)

/-- The buffer operand `(p, n)` ends at or below 0xFFFF, else `BufferRange` (R85). -/
def fits (p : Half) (n : Nat) : Bool × RefuseReason := (decide (p.toNat + n ≤ 65536), .bufferRange)

/-- The cursor operand `(col, page)` (R91, R270, R275, R277). -/
def cursorTests (col page : Byte) : List (Bool × RefuseReason) := [atMost col 127, atMost page 7]

/-- The operands `dir`, `freq`, `page_start`, `page_end` of the scroll operations (R302, R320, R322, R328). -/
def scrollTests (a b c d : Byte) : List (Bool × RefuseReason) := [atMost a 1, atMost b 7, atMost c 7, atMost d 7]

/-- The row operands of SETVAREA (R324). -/
def areaTests (a b : Byte) : List (Bool × RefuseReason) :=
  [atMost a 64, atMost b 64, (decide (a.toNat + b.toNat ≤ 64), .operandRange)]

/-! ### The BusConfiguration record -/

/-- The record of R118 as it stands in BUF. `inst` is its `instance`. -/
structure BusRecord where
  inst : Nat
  mode : Nat
  speed : Nat
  flags : Byte
  res7 : Byte
  own1 : Nat
  own2 : Nat
  res11 : Byte
  deriving DecidableEq, Repr

/-- Flag bit `k` of the record (R118): 0 `fast`, 1 `duty_alt`, 2 `nostretch`, 3 `addr10`, 4 `dual`, 5 `gencall`,
6 `pec`, 7 `arp`. -/
def BusRecord.flag (r : BusRecord) (k : Nat) : Bool := r.flags.getLsbD k

/-- `MemRead(BUF, q, n)`: `n` bytes, the lower address the less significant (R11, R84). -/
def State.bufRead (s : State) (q : Nat) : Nat → Nat
  | 0 => 0
  | n + 1 => (s.bufByte q).toNat + 256 * State.bufRead s (q + 1) n

/-- The record at BUF address `q` (R118). -/
def State.busRecord (s : State) (q : Nat) : BusRecord where
  inst := (s.bufByte q).toNat
  mode := (s.bufByte (q + 1)).toNat
  speed := s.bufRead (q + 2) 4
  flags := s.bufByte (q + 6)
  res7 := s.bufByte (q + 7)
  own1 := s.bufRead (q + 8) 2
  own2 := (s.bufByte (q + 10)).toNat
  res11 := s.bufByte (q + 11)

/-- `freq_field` (R203). -/
def freqField (pclk : Nat) : Nat := pclk / 1000000

/-- The protocol minimum of the clock-control divisor (R204). -/
def ccrMin (fast dutyAlt : Bool) : Nat := if fast && dutyAlt then 1 else 4

/-- `ccr_value` (R204). -/
def ccrValue (pclk speed : Nat) (fast dutyAlt : Bool) : Nat := max (pclk / (4 * speed)) (ccrMin fast dutyAlt)

/-- `trise_value` (R205). -/
def triseValue (fast : Bool) (freq : Nat) : Nat := ((if fast then 300 else 1000) * freq) / 1000 + 1

/-- The divisor BC_INIT computes for a record. -/
def BusRecord.ccr (r : BusRecord) (p : Params) : Nat := ccrValue p.pclkHz r.speed (r.flag 0) (r.flag 1)

/-- The rise-time value BC_INIT computes for a record. -/
def BusRecord.trise (r : BusRecord) (p : Params) : Nat := triseValue (r.flag 0) (freqField p.pclkHz)

/-- The tests on the record and on the computed fields, in the order of R403: the record's fields in offset order,
then `FREQ`, `CCR`, `TRISE` (R118, R201, R203 to R205). -/
def BusRecord.tests (r : BusRecord) (p : Params) : List (Bool × RefuseReason) :=
  [(p.supported.contains r.inst, .unsupportedInstance),
   (decide (r.mode ≤ 2), .operandRange),
   (decide (1 ≤ r.speed ∧ r.speed ≤ 400000), .operandRange),
   (decide (r.res7 = 0), .reservedField),
   (decide (r.own1 < 1024), .reservedField),
   (decide (r.own2 < 128), .reservedField),
   (decide (r.res11 = 0), .reservedField),
   (decide (freqField p.pclkHz ≤ 63), .operandRange),
   (decide (r.ccr p ≤ 4095), .operandRange),
   (decide (r.trise p ≤ 63), .operandRange)]

/-- `MODE` from the record's `mode` byte (R118). -/
def busModeOf : Nat → BusMode
  | 0 => .plain
  | 1 => .smbusDevice
  | _ => .smbusHost

/-- The configuration BC_INIT writes after the software reset (R200): `ENDUAL` and `OWN2` only if `dual` is set. -/
def BusRecord.config (r : BusRecord) (p : Params) : BifConfig where
  mode := busModeOf r.mode
  enarp := r.flag 7
  enpec := r.flag 6
  engc := r.flag 5
  nostretch := r.flag 2
  addmode := r.flag 3
  own1 := BitVec.ofNat 10 r.own1
  endual := r.flag 4
  own2 := if r.flag 4 then BitVec.ofNat 7 r.own2 else 0
  freq := BitVec.ofNat 6 (freqField p.pclkHz)
  fs := r.flag 0
  duty := r.flag 1
  ccr := BitVec.ofNat 12 (r.ccr p)
  trise := BitVec.ofNat 6 (r.trise p)

/-! ### Transmitted bytes -/

/-- The byte a source gives now (R99, R234, R279). -/
def Src.value (v : Src) (s : State) : Byte :=
  match v with
  | .const x => x
  | .fb i => s.fbByte i
  | .buf q => s.bufByte q
  | .draw => Config.draw s.draws

/-- The source of pass `idx` of the responder WRBURST: the single byte again, the next byte, or a draw
(R232 to R234). -/
def txSource (p n idx : Nat) : Src :=
  if n = 1 then .buf p else if idx < n then .buf (p + idx) else .draw

end Sys2Proof.Machine
end

