-- ==== Sys2Proof/Machine/Panel.lean ====
section
/-! DEFINITION. Machine/Panel.lean: the reference panel, one possible peer (46_panel_peer.md R380 to R388). What has no
meaning in it (R385, R387) makes its memory, cursor, ranges and mode free, and the block goes on. -/

namespace Sys2Proof.Machine

/-- The length of a command with its command byte, for the default values of R301 (R385). -/
def cmdLength (c : Byte) : Option Nat :=
  if c ∈ [0x2E#8, 0x2F#8, 0xA0#8, 0xA1#8, 0xA4#8, 0xA5#8, 0xA6#8, 0xA7#8, 0xAE#8, 0xAF#8, 0xC0#8, 0xC8#8] then some 1
  else if 0x40 ≤ c.toNat ∧ c.toNat ≤ 0x7F then some 1
  else if c ∈ [0x20#8, 0x81#8, 0x8D#8, 0xA8#8, 0xD3#8, 0xD5#8, 0xD9#8, 0xDA#8, 0xDB#8] then some 2
  else if c ∈ [0x21#8, 0x22#8, 0xA3#8] then some 3
  else if c ∈ [0x29#8, 0x2A#8] then some 6
  else if c ∈ [0x26#8, 0x27#8] then some 7
  else none

/-- The panel was sent something that has no meaning in it: its pixel memory, cursor, ranges and mode are free from
here (R385, R387). That its record of the other commands (`told`, R383) still stands is a DESIGN CHOICE (log 11): the
spec is silent on it. -/
def Panel.lose (p : Panel) : Panel :=
  let k := p.epoch + 1
  { p with
    gd := [], epoch := k, rx := .noMeaning,
    cs := Config.unknownCursor k 0, ce := Config.unknownCursor k 1, ps := Config.unknownCursor k 2,
    pe := Config.unknownCursor k 3, pcol := Config.unknownCursor k 4, ppage := Config.unknownCursor k 5,
    amode := Config.unknownCursor k 6 }

/-- The transaction is over (stop or restart). A frame that ends inside a command has no meaning (R385). -/
def Panel.ended (p : Panel) : Panel :=
  match p.rx with
  | .command (_ :: _) => { p.lose with rx := .off }
  | _ => { p with rx := .off }

/-- Keep the last argument bytes of a command, one entry a command, the command received last first (R383). -/
def recordTold (c : Byte) (args : List Byte) (told : List (Byte × List Byte)) : List (Byte × List Byte) :=
  (c, args) :: told.filter (·.1 != c)

/-- The last command received of those in `cs`, with its argument bytes (R383); none if there was none. -/
def Panel.latest (cs : List Byte) (p : Panel) : Option (Byte × List Byte) := p.told.find? (cs.contains ·.1)

/-- The commands that set a setting (R301, R385), their byte values those of `m`. The panel also knows the command 0xA5
beside `CMD.RESUME_RAM`, and the start lines 0x40 to 0x7F. Which commands belong together is DEDUCED (log 11). -/
def PanelSetting.commands (m : PanelCmds) : PanelSetting → List Byte
  | .contrast => [m.contrast]
  | .inversion => [m.normal, m.inverse]
  | .power => [m.displayOff, m.displayOn]
  | .segments => [m.segRemapOff, m.segRemapOn]
  | .comScan => [m.comScanInc, m.comScanDec]
  | .clock => [m.clockDiv]
  | .precharge => [m.precharge]
  | .vcomh => [m.vcomh]
  | .chargePump => [m.chargePump]
  | .muxRatio => [m.muxRatio]
  | .displayOffset => [m.displayOffset]
  | .startLine => (List.range 64).map fun k => BitVec.ofNat 8 (0x40 + k)
  | .comPins => [m.comPins]
  | .source => [m.resumeRam, 0xA5]
  | .verticalArea => [m.vArea]
  | .scrollSetup => [m.scrollH ||| m.dirRight, m.scrollH ||| m.dirLeft, m.scrollDiagRight, m.scrollDiagLeft]
  | .scrollState => [m.scrollOff, m.scrollOn]

/-- What the panel was last told of a setting (R383, R388): the command and its argument bytes. -/
def Panel.setting (m : PanelCmds) (g : PanelSetting) (p : Panel) : Option (Byte × List Byte) := p.latest (g.commands m)

/-- A data byte in horizontal mode (R384): it lands at the cursor, which moves right, wrapping to the range's start on
the next page. -/
def Panel.store (v : Byte) (p : Panel) : Panel :=
  let p := { p with gd := p.gd.write (p.pcol + 128 * p.ppage) v }
  if p.pcol + 1 > p.ce then
    { p with pcol := p.cs, ppage := if p.ppage + 1 > p.pe then p.ps else p.ppage + 1 }
  else { p with pcol := p.pcol + 1 }

/-- A complete command, its arguments `args` (R385): the column range, the page range, the addressing mode, and for any
other the record of R383. A range outside the display or a fourth mode has no meaning. -/
def Panel.obey (cmds : PanelCmds) (c : Byte) (args : List Byte) (p : Panel) : Panel :=
  match args with
  | [s, e] =>
    if c = cmds.colRange then
      if s.toNat ≤ 127 ∧ e.toNat ≤ 127 then { p with cs := s.toNat, ce := e.toNat, pcol := s.toNat } else p.lose
    else if c = cmds.pageRange then
      if s.toNat ≤ 7 ∧ e.toNat ≤ 7 then { p with ps := s.toNat, pe := e.toNat, ppage := s.toNat } else p.lose
    else { p with told := recordTold c args p.told }
  | [m] =>
    if c = cmds.addrMode then
      if m.toNat ≤ 2 then { p with amode := m.toNat } else p.lose
    else { p with told := recordTold c args p.told }
  | _ => { p with told := recordTold c args p.told }

/-- A byte of a command frame, after the bytes `got` of an unfinished command (R385). -/
def Panel.commandByte (cmds : PanelCmds) (got : List Byte) (v : Byte) (p : Panel) : Panel :=
  let got := got ++ [v]
  match got with
  | [] => p
  | c :: args =>
    match cmdLength c with
    | none => p.lose
    | some n => if got.length = n then { p with rx := .command [] }.obey cmds c args else { p with rx := .command got }

/-- A byte of a transaction addressed to the panel (R384, R385, R387). -/
def Panel.byte (q : Params) (v : Byte) (p : Panel) : Panel :=
  match p.rx with
  | .off => p
  | .listening => p
  | .noMeaning => p
  | .control =>
    if v = q.ctrlCmd then { p with rx := .command [] }
    else if v = q.ctrlData then { p with rx := .data }
    else p.lose
  | .data => if p.amode = 0 ∧ p.pcol ≤ 127 ∧ p.ppage ≤ 7 then p.store v else p.lose
  | .command got => p.commandByte q.cmds got v

/-- The panel sees a token go by: a start opens a transaction, whose first byte is the address, a stop ends it; the
bytes behind `DISP_ADDR_W` are for it (R380, R384, R385). -/
def Panel.see (q : Params) (t : Token) (p : Panel) : Panel :=
  match t with
  | .start => { p.ended with rx := .listening }
  | .restart => { p.ended with rx := .listening }
  | .stop => p.ended
  | .byte v _ =>
    match p.rx with
    | .listening => { p with rx := if v = q.dispAddrW then .control else .off }
    | _ => p.byte q v

end Sys2Proof.Machine
end

