-- ==== Sys2Proof/Machine/Line.lean ====
section
/-! DEFINITION. Machine/Line.lean: the line agent and the peer's moves (40_bus_interface_line.md R150 to R179). A step
is enabled by a Bool of the bus interface; its effect takes the peer's answers from the state's scripts, or from the
reference panel where the peer is one (R151, R380). While `PE` = 0 the line agent has no step (R26). -/

namespace Sys2Proof.Machine

/-! ### Which steps are enabled -/

/-- L-ADDR (R161). -/
def Bif.addrOn (b : Bif) : Bool := b.pe && b.role == .master && b.phase == .started && !b.sb && b.drFull

/-- L-LOAD (R163). -/
def Bif.loadOn (b : Bif) : Bool :=
  b.pe && b.phase == .data && b.dir == .tx && !b.addr && b.drFull && !b.shFull && b.more

/-- L-TXBYTE (R164). -/
def Bif.txByteOn (b : Bif) : Bool := b.pe && b.phase == .data && b.dir == .tx && b.shFull

/-- L-RXBYTE (R165). -/
def Bif.rxByteOn (b : Bif) : Bool :=
  b.pe && b.role == .master && b.phase == .data && b.dir == .rx && !b.addr && b.more && !b.shFull

/-- One of the four steps that move an address or data byte; L-START and L-STOP wait for them (R160, R167). -/
def Bif.byteOn (b : Bif) : Bool := b.addrOn || b.loadOn || b.txByteOn || b.rxByteOn

/-- L-START (R160). -/
def Bif.startOn (b : Bif) : Bool :=
  b.pe && b.start && b.role != .slave && !b.sb && !b.addr && !(b.role == .master && b.stop) && !b.byteOn

/-- L-STOP (R167). -/
def Bif.stopOn (b : Bif) : Bool := b.pe && b.role == .master && b.stop && !b.byteOn

/-- Some step of the line agent is enabled. -/
def Bif.lineOn (b : Bif) : Bool := b.byteOn || b.startOn || b.stopOn

/-- A move of the peer is enabled: L-SL-MATCH (R175; not in 10-bit own-address mode, whose matching is not modelled),
L-SL-RXBYTE (R177), L-SL-STOP (R178). -/
def PeerMove.on (m : PeerMove) (b : Bif) : Bool :=
  match m with
  | .address sel read =>
    b.pe && b.role == .idle && !b.opened && b.ack && !b.start && !b.cfg.addmode &&
      match sel with
      | .own1 => true
      | .own2 => b.cfg.endual
      | .general => b.cfg.engc && !read
  | .send _ => b.pe && b.role == .slave && b.phase == .data && b.dir == .rx && !b.addr && b.more && !b.shFull
  | .stop => b.pe && b.role == .slave && b.phase == .data && !b.addr && !b.shFull

/-- The peer's next move is enabled. -/
def State.peerOn (s : State) : Bool :=
  match s.peer.moves with
  | [] => false
  | m :: _ => m.on s.bus

/-- The agents other than the sequencer that can move. -/
def State.others (s : State) : List Agent :=
  (if s.bus.lineOn then [.line] else []) ++ (if s.peerOn then [.peer] else [])

/-! ### Effects on the bus interface -/

/-- L-START (R160). An unread byte is dropped. -/
def Bif.lineStart (b : Bif) : Bif :=
  { b with
    opened := true, role := .master, phase := .started, sb := true, start := false,
    sent := 0, more := false, drFull := false, shFull := false }

/-- L-ADDR with the peer's answer (R161). Bit 0 of the address byte is the direction, 1 = read (R83). -/
def Bif.lineAddr (k : Bool) (b : Bif) : Bif :=
  if k then
    { b with drFull := false, addr := true, dir := if b.dr.getLsbD 0 then .rx else .tx, phase := .addrAcked }
  else { b with drFull := false, af := true, phase := .addrNacked }

/-- L-LOAD (R163). -/
def Bif.lineLoad (b : Bif) : Bif := { b with shift := b.dr, shFull := true, drFull := false }

/-- L-TXBYTE with the peer's answer (R164). In the responder role a NACK drops the byte waiting behind it. -/
def Bif.lineTxByte (k : Bool) (b : Bif) : Bif :=
  let b := { b with shFull := false, sent := b.sent + 1 }
  if k then b
  else { b with af := true, more := false, drFull := if b.role = .slave then false else b.drFull }

/-- The acknowledge a received byte gets (R165, R166). -/
def Bif.rxAck (b : Bif) : Bool := if b.pos then b.ackLatch else b.ack

/-- L-RXBYTE and L-SL-RXBYTE with the byte supplied (R165, R177). -/
def Bif.lineRxByte (v : Byte) (b : Bif) : Bif :=
  let r := b.rxAck
  let b := { b with ackLatch := b.ack, more := b.more && r }
  if b.drFull then { b with shift := v, shFull := true } else { b with dr := v, drFull := true }

/-- L-STOP (R167). In receive direction the bytes survive the stop. -/
def Bif.lineStop (b : Bif) : Bif :=
  let b := { b with opened := false, stop := false, role := .idle, phase := .idle, sent := 0, more := false }
  if b.dir = .tx then { b with drFull := false, shFull := false } else b

/-- L-SL-MATCH (R175): `read` is the direction bit the peer sent. -/
def Bif.slaveMatch (read : Bool) (b : Bif) : Bif :=
  { b with
    opened := true, role := .slave, phase := .addrAcked, addr := true, dir := if read then .tx else .rx }

/-- L-SL-STOP (R178). -/
def Bif.slaveStop (b : Bif) : Bif :=
  { b with opened := false, role := .idle, stopf := b.stopf || b.more, more := false }

/-- The address byte a peer sends to the own address it chose (R175). -/
def BifConfig.matchByte (c : BifConfig) (sel : OwnSel) (read : Bool) : Byte :=
  let m : BitVec 7 :=
    match sel with
    | .own1 => c.own1.setWidth 7
    | .own2 => c.own2
    | .general => 0
  m ++ BitVec.ofBool read

/-! ### The steps on the state -/

/-- A token goes out: it is appended to the wire log (R32), and the panel, where it is the peer, sees it. -/
def State.emit (t : Token) (s : State) : State :=
  { s with
    wire := s.wire ++ [t]
    panel := if s.peer.isPanel then s.panel.see s.params t else s.panel }

/-- The peer's answer to the address byte `v`: the reference panel acknowledges `DISP_ADDR_W` and nothing else
(R380). -/
def State.answerAddr (v : Byte) (s : State) : Bool × State :=
  if s.peer.isPanel then (decide (v = s.params.dispAddrW), s) else s.askAck

/-- The peer's answer to a data byte: the reference panel acknowledges every byte of a transaction the block opened
(R380); it is not the peer that addresses the block. -/
def State.answerByte (s : State) : Bool × State :=
  if s.peer.isPanel ∧ s.bus.role = .master then (true, s) else s.askAck

/-- L-START (R160). -/
def State.lineStart (s : State) : State :=
  (if s.bus.opened then s.emit .restart else s.emit .start).withBif s.bus.lineStart

/-- L-ADDR (R161). -/
def State.lineAddr (s : State) : State :=
  let r := s.answerAddr s.bus.dr
  (r.2.emit (.byte s.bus.dr r.1)).withBif (s.bus.lineAddr r.1)

/-- L-LOAD (R163). -/
def State.lineLoad (s : State) : State := s.withBif s.bus.lineLoad

/-- L-TXBYTE (R164, R176). -/
def State.lineTxByte (s : State) : State :=
  let r := s.answerByte
  (r.2.emit (.byte s.bus.shift r.1)).withBif (s.bus.lineTxByte r.1)

/-- L-RXBYTE (R165). -/
def State.lineRxByte (s : State) : State :=
  let r := s.askByte
  (r.2.emit (.byte r.1 s.bus.rxAck)).withBif (s.bus.lineRxByte r.1)

/-- L-STOP (R167). -/
def State.lineStop (s : State) : State := (s.emit .stop).withBif s.bus.lineStop

/-- The enabled step of the line agent; at most one is (R168). -/
def State.lineStep (s : State) : State :=
  if s.bus.addrOn then s.lineAddr
  else if s.bus.loadOn then s.lineLoad
  else if s.bus.txByteOn then s.lineTxByte
  else if s.bus.rxByteOn then s.lineRxByte
  else if s.bus.startOn then s.lineStart
  else if s.bus.stopOn then s.lineStop
  else s

/-- The peer makes its next move (R175, R177, R178). -/
def State.peerStep (s : State) : State :=
  match s.peer.moves with
  | [] => s
  | m :: rest =>
    let t := { s with peer := { s.peer with moves := rest } }
    match m with
    | .address sel read =>
      ((t.emit .start).emit (.byte (s.bus.cfg.matchByte sel read) true)).withBif (s.bus.slaveMatch read)
    | .send v => (t.emit (.byte v s.bus.rxAck)).withBif (s.bus.lineRxByte v)
    | .stop => (t.emit .stop).withBif s.bus.slaveStop

/-- The step of an agent other than the sequencer. -/
def State.agentStep (a : Agent) (s : State) : State :=
  match a with
  | .seq => s
  | .line => s.lineStep
  | .peer => s.peerStep

end Sys2Proof.Machine
end

