-- ==== Sys2Proof/Machine/Frames.lean ====
section
/-! DEFINITION. Machine/Frames.lean: the frame builder of DC (43_display_transport_ram.md R260 to R270). A frame is
START, REQ `DISP_ADDR_W`, an initiator WRBURST over the control byte and the payload, STOP (R263). -/

namespace Sys2Proof.Machine

/-- The data loop of an initiator burst and its closing wait (R231): wait transmit-empty, write, for each source; then
wait byte-transfer-finished and transmit-empty. -/
def sendBytes (srcs : List Src) : List Micro :=
  (srcs.flatMap fun v => [Micro.wait .txe, .wrDr v]) ++ [Micro.wait .btfAndTxe]

/-- `send_frame(ctrl, bytes)` (R263). -/
def sendFrame (q : Params) (ctrl : Byte) (srcs : List Src) : List Micro :=
  [Micro.set .start, .wait .sb, .wrDr (.const q.dispAddrW), .wait .addr, .rdSr2] ++ sendBytes (.const ctrl :: srcs)
    ++ [Micro.set .stop]

/-- `send_cmd(cmds)` (R264): one command frame. -/
def sendCmd (q : Params) (cmds : List Byte) : List Micro := sendFrame q q.ctrlCmd (cmds.map .const)

/-- `send_data(data)` (R264): one frame a byte, or one frame. -/
def sendData (q : Params) (srcs : List Src) : List Micro :=
  match q.framing with
  | .perByte => srcs.flatMap fun v => sendFrame q q.ctrlData [v]
  | .continuous => sendFrame q q.ctrlData srcs

/-- The cursor frame of MOVECUR `col`, `page` (R270). -/
def cursorFrame (q : Params) (col page : Nat) : List Micro :=
  sendCmd q [q.cmds.colRange, BitVec.ofNat 8 col, 127, q.cmds.pageRange, BitVec.ofNat 8 page, 7]

/-- The glyph of a character as the sources of its five column bytes (R93, R365). -/
def glyph (q : Params) (code : Nat) : List Src :=
  (List.range 5).map fun k => .const (fontByte q ((code - 0x20) * 5 + k))

end Sys2Proof.Machine
end

