-- ==== Sys2Proof/Machine/Sequencer.lean ====
section
/-! DEFINITION. Machine/Sequencer.lean: how an operation runs. The sequencer takes one micro-operation at a time
(10_state.md R24); between sequencer steps the line agent and the peer move (40 R152); a wait that does not hold is a
hold (R13), or the fault of a finite `WAIT_BUDGET` (R405). An operation runs until it completes, faults, or nobody
can move: the hang. -/

namespace Sys2Proof.Machine

/-- The effect of the micro-operation at the head of `upc`; `rest` are those behind it (R12, R24). -/
def Micro.run (m : Micro) (rest : List Micro) (s : State) : State :=
  match m with
  | .wait _ => s.goto rest
  | .set .swrst => ((s.withBif (Bif.softReset (Config.shiftAfterReset s.draws))).drawn).goto rest
  | .set f => (s.withBif (s.bus.setBit f true)).goto rest
  | .clr f => (s.withBif (s.bus.setBit f false)).goto rest
  | .clrAf => (s.withBif s.bus.clrAf).goto rest
  | .rdSr2 => (s.withBif s.bus.rdSr2).goto rest
  | .wrDr .draw => ((s.withBif (s.bus.wrDr (Src.draw.value s))).drawn).goto rest
  | .wrDr v => (s.withBif (s.bus.wrDr (v.value s))).goto rest
  | .wrCr1 => (s.withBif s.bus.wrCr1).goto rest
  | .rdDrRes => { s.withBif s.bus.rdDr with res := s.bus.dr }.goto rest
  | .rdDrBuf q => ((s.bufWrite q s.bus.dr).withBif s.bus.rdDr).goto rest
  | .program c => (s.withBif { s.bus with cfg := c }).goto rest
  | .fbPut i v => (s.fbWrite i v).goto rest
  | .fbOr i v => (s.fbWrite i (s.fbByte i ||| v)).goto rest
  | .fbClr i v => (s.fbWrite i (s.fbByte i &&& ~~~v)).goto rest
  | .fbZero => s.fbClear.goto rest
  | .txPass p n idx => s.goto (.wrDr (txSource p n idx) :: .wait .txe :: .txUntil p n (idx + 1) :: rest)
  | .txUntil p n idx => s.goto (if s.bus.af then rest else .txPass p n idx :: rest)
  | .rxTest p n idx =>
    if s.bus.rxne then
      if n ≤ idx then s.fault .bufferOverrun else s.goto (.rxTake p n idx :: rest)
    else s.goto (.rxUntil p n idx :: rest)
  | .rxTake p n idx => ((s.bufWrite (p + idx) s.bus.dr).withBif s.bus.rdDr).goto (.rxUntil p n (idx + 1) :: rest)
  | .rxUntil p n idx =>
    s.goto (if s.bus.stopf then rest else .wait .rxneOrStopf :: .rxTest p n idx :: rest)
  | .text q =>
    if 0xFFFF < q then s.fault .bufferRange
    else
      let ch := (s.bufByte q).toNat
      if ch = 0 then s.goto rest
      else if ch < 0x20 ∨ 0x7E < ch then s.fault .charRange
      else s.goto (sendData s.params (glyph s.params ch) ++ .text (q + 1) :: rest)

/-- The sequencer runs the micro-operation at the head of `upc`. -/
def State.seqStep (s : State) : State :=
  match s.upc with
  | [] => s
  | m :: rest => m.run rest s

/-- A wait whose condition does not hold is at the head of `upc` (R13). -/
def State.waiting (s : State) : Bool :=
  match s.upc with
  | .wait c :: _ => !c.holds s.bus
  | _ => false

/-- Other agents may move before the sequencer does: always under `SCHED` = `free`, and under `run_to_wait` only at a
wait (R152). -/
def State.yields (s : State) : Bool :=
  s.params.sched == .free ||
    match s.upc with
    | .wait _ :: _ => true
    | _ => false

/-- The agents `opts` may move; the one chosen does, `act` standing for the sequencer's step. -/
def State.moveOne (opts : List Agent) (act : State → State) (s : State) : State :=
  let r := s.choose opts
  match r.1 with
  | .seq => act r.2
  | .line => r.2.lineStep
  | .peer => r.2.peerStep

/-- One more false evaluation of the wait (R405). -/
def State.polled (s : State) : State := { s with polls := s.polls + 1 }

/-- The next move while an operation runs, or `none` if nobody has one: the operation is complete, faulted or hung.
A finite `WAIT_BUDGET` counts the false evaluations of the wait, one at each move of another agent, and one alone
where nobody can move (R405). -/
def State.tick (s : State) : Option State :=
  if !s.busy || s.faulted.isSome || s.upc.isEmpty then none
  else if s.waiting then
    match s.params.waitBudget with
    | none => if s.others.isEmpty then none else some (s.moveOne s.others id)
    | some b =>
      if b ≤ s.polled.polls then some (s.polled.fault .waitTimeout)
      else if s.others.isEmpty then some s.polled
      else some (s.polled.moveOne s.others id)
  else if s.yields then some (s.moveOne (.seq :: s.others) State.seqStep)
  else some s.seqStep

/-- At most `k` moves, stopping where nobody has one. -/
def State.runFor : Nat → State → State
  | 0, s => s
  | k + 1, s =>
    match s.tick with
    | none => s
    | some t => State.runFor k t

/-- The most moves one step makes of an operation; one that needs more goes on in the next step. -/
def sliceTicks : Nat := 4294967296

/-- Run the operation in progress until it completes, faults or hangs. -/
def State.runOp (s : State) : State := s.runFor sliceTicks

/-- What every operation does with its command word: refused if a test fails (R403), else issued (R21, R24) and run.
An operation cannot be issued while `busy` = 1. -/
def command (i : Instr) (tests : List (Bool × RefuseReason)) (code : List Micro) (s : State) :
    Host.Outcome State Fault Refusal :=
  if s.busy then .fault .commandWhileBusy
  else .next
    (match firstFailing tests with
     | some r => s.refuse r
     | none => (s.load (encode i) code).runOp)

end Sys2Proof.Machine
end

