-- ==== Sys2Proof/Machine/Between.lean ====
section
/-! DEFINITION. Machine/Between.lean: what happens around operations: the moves of the line agent and the peer between
them (40 R152), the hold of a hung or faulted operation (60 R409), and the host's writes (10 R21; 20 R99). -/

namespace Sys2Proof.Machine

/-- One move of the line agent or the peer, or nothing where neither has one. -/
def State.idleMove (s : State) : State :=
  if s.others.isEmpty then s else s.moveOne s.others id

/-- Any number of moves of the line agent and the peer, up to `k`, before the host's: the schedule says when the
sequencer's turn comes. -/
def State.moveAhead : Nat → State → State
  | 0, s => s
  | k + 1, s =>
    if s.others.isEmpty then s
    else
      let r := s.choose (.seq :: s.others)
      match r.1 with
      | .seq => r.2
      | a => State.moveAhead k (r.2.agentStep a)

/-- The most moves before an operation. Without a step of the sequencer, fewer than this many are ever enabled in a
row. -/
def aheadMoves : Nat := 16

/-- The machine as an operation finds it: the host's entry is spent, and the line agent and the peer have moved as
often as the schedule lets them. -/
def State.beforeIssue (q : List HostAction) (s : State) : State := { s with host := q }.moveAhead aheadMoves

/-- A step while `busy` = 1: the operation goes on; a faulted one never does, and only the line agent and the peer
move (R401, R409). -/
def State.whileBusy (s : State) : State := if s.faulted.isSome then s.idleMove else s.runOp

/-- The host writes a byte of BUF (R41, R99). -/
def State.hostWrite (q : List HostAction) (a : Half) (v : Byte) (s : State) : State :=
  { s with host := q }.bufWrite a.toNat v

end Sys2Proof.Machine
end

