-- ==== Sys2Proof/Machine/Bus.lean ====
section
/-! DEFINITION. Machine/Bus.lean: the bus operations (41_bus_primitives.md, 42_bus_bursts.md), each as its tests and
its micro-operations. -/

namespace Sys2Proof.Machine

/-- BC_INIT (R200): the record at `p` is range-checked (R118, R201), then the software reset, the configuration
writes and the enable. -/
def execBcInit (p : Half) (s : State) : Host.Outcome State Fault Refusal :=
  command (.bcInit p)
    (fits p 12 :: (s.busRecord p.toNat).tests s.params)
    [.set .swrst, .clr .swrst, .program ((s.busRecord p.toNat).config s.params), .set .pe] s

/-- START (R210). -/
def execStart (s : State) : Host.Outcome State Fault Refusal := command .start [] [.set .start] s

/-- STOP (R212). -/
def execStop (s : State) : Host.Outcome State Fault Refusal := command .stop [] [.set .stop] s

/-- REQ (R214). -/
def execReq (a : Byte) (s : State) : Host.Outcome State Fault Refusal :=
  command (.req a) [] [.wait .sb, .wrDr (.const a), .wait .addr] s

/-- WRB (R218). -/
def execWrb (a : Byte) (s : State) : Host.Outcome State Fault Refusal :=
  command (.wrb a) [] [.rdSr2, .wait .txe, .wrDr (.const a), .wait .btf] s

/-- RDB (R222). -/
def execRdb (s : State) : Host.Outcome State Fault Refusal :=
  command .rdb [] [.clr .ack, .rdSr2, .set .stop, .wait .rxne, .rdDrRes] s

/-- The `n` bytes of BUF from `p` on, as sources. -/
def bufSources (p n : Nat) : List Src := (List.range n).map fun k => .buf (p + k)

/-- WRBURST, initiator role (R231). -/
def burstWrite (p n : Nat) : List Micro := .rdSr2 :: sendBytes (bufSources p n)

/-- WRBURST, responder role (R232). -/
def responderWrite (p n : Nat) : List Micro := [Micro.set .ack, .wait .addr, .rdSr2, .txPass p n 0, .clrAf]

/-- WRBURST (R230): `a` = 0 initiator, 1 responder (R114). -/
def execWrburst (a : Byte) (p n : Half) (s : State) : Host.Outcome State Fault Refusal :=
  command (.wrburst a p n) [atMost a 1, fits p n.toNat]
    (if a = 0 then burstWrite p.toNat n.toNat else responderWrite p.toNat n.toNat) s

/-- RDBURST, initiator, `n` = 2 (R241). -/
def burstRead2 (p : Nat) : List Micro :=
  [.set .pos, .set .ack, .rdSr2, .clr .ack, .wait .btf, .set .stop, .rdDrBuf p, .rdDrBuf (p + 1)]

/-- `k` bytes received by polling, stored from `q` on (R242). -/
def polledReads (q : Nat) : Nat → List Micro
  | 0 => []
  | k + 1 => .wait .rxne :: .rdDrBuf q :: polledReads (q + 1) k

/-- RDBURST, initiator, `n` > 2 (R242): polled until three are left, then the three-byte tail. -/
def burstReadMany (p n : Nat) : List Micro :=
  [Micro.set .ack, .rdSr2] ++ polledReads p (n - 3)
    ++ [Micro.wait .btf, .clr .ack, .rdDrBuf (p + (n - 3)), .set .stop, .wait .btf, .rdDrBuf (p + (n - 2)),
        .rdDrBuf (p + (n - 1))]

/-- RDBURST, initiator role, by count (R240); `n` < 2 never completes and touches no register (R243). -/
def burstRead (p n : Nat) : List Micro :=
  if n < 2 then [.wait .never] else if n = 2 then burstRead2 p else burstReadMany p n

/-- RDBURST, responder role (R244). -/
def responderRead (p n : Nat) : List Micro :=
  [Micro.set .ack, .wait .addr, .rdSr2, .wait .rxneOrStopf, .rxTest p n 0, .wrCr1]

/-- RDBURST (R240): `a` = 0 initiator, 1 responder (R114). With `STRICT_PRECONDITIONS` an initiator count below 2 is
refused, last of the tests (R243, R403, R406). -/
def execRdburst (a : Byte) (p n : Half) (s : State) : Host.Outcome State Fault Refusal :=
  command (.rdburst a p n)
    [atMost a 1, fits p n.toNat,
      (!(s.params.strict && decide (a = 0) && decide (n.toNat < 2)), .countTooSmall)]
    (if a = 0 then burstRead p.toNat n.toNat else responderRead p.toNat n.toNat) s

end Sys2Proof.Machine
end

