-- ==== Sys2Proof/Machine/Display.lean ====
section
/-! DEFINITION. Machine/Display.lean: cursor, shadow memory and display command operations (43_display_transport_ram.md
R270 to R279; 44_display_commands.md). -/

namespace Sys2Proof.Machine

/-- MOVECUR (R270). -/
def execMovecur (a b : Byte) (s : State) : Host.Outcome State Fault Refusal :=
  command (.movecur a b) (cursorTests a b) (cursorFrame s.params a.toNat b.toNat) s

/-- RAMWRITE (R275). -/
def execRamwrite (a b c : Byte) (s : State) : Host.Outcome State Fault Refusal :=
  command (.ramwrite a b c) (cursorTests a b) [.fbPut (fbIndex a.toNat b.toNat) c] s

/-- RAMCLEAR (R276). -/
def execRamclear (s : State) : Host.Outcome State Fault Refusal := command .ramclear [] [.fbZero] s

/-- RAMUPDATEBYTE (R277): merge, then cursor, then the merged byte. -/
def execRamupdatebyte (a b c : Byte) (s : State) : Host.Outcome State Fault Refusal :=
  command (.ramupdatebyte a b c) (cursorTests a b)
    (.fbOr (fbIndex a.toNat b.toNat) c
      :: (cursorFrame s.params a.toNat b.toNat ++ sendData s.params [.fb (fbIndex a.toNat b.toNat)])) s

/-- The push of RAMUPDATEFULL (R279): cursor to the origin, then the 1024 shadow bytes, each read when it is sent. -/
def fullPush (q : Params) : List Micro := cursorFrame q 0 0 ++ sendData q ((List.range 1024).map .fb)

/-- RAMUPDATEFULL (R279). -/
def execRamupdatefull (s : State) : Host.Outcome State Fault Refusal :=
  command .ramupdatefull [] (fullPush s.params) s

/-- The seventeen commands of D_INIT, 26 bytes (R305). -/
def initCommands (m : PanelCmds) : List Byte :=
  [m.displayOff, m.clockDiv, m.initClockDiv, m.precharge, m.initPrecharge, m.vcomh, m.initVcomh,
   m.chargePump, m.initChargePump, m.addrMode, m.modeHorizontal, m.startLine, m.segRemapOn,
   m.muxRatio, m.initMuxRatio, m.comScanDec, m.displayOffset, m.initDisplayOffset, m.comPins, m.initComPins,
   m.contrast, m.initContrast, m.resumeRam, m.normal, m.scrollOff, m.displayOn]

/-- D_INIT (R305). The startup delay has no effect in a model without time. -/
def execDInit (s : State) : Host.Outcome State Fault Refusal :=
  command .dInit [] (sendCmd s.params (initCommands s.params.cmds) ++ .fbZero :: fullPush s.params) s

/-- CONTRAST (R310). -/
def execContrast (a : Byte) (s : State) : Host.Outcome State Fault Refusal :=
  command (.contrast a) [] (sendCmd s.params [s.params.cmds.contrast, a]) s

/-- INVERT (R311). -/
def execInvert (a : Byte) (s : State) : Host.Outcome State Fault Refusal :=
  command (.invert a) [atMost a 1]
    (sendCmd s.params [if a = 1 then s.params.cmds.inverse else s.params.cmds.normal]) s

/-- DISPON (R312). -/
def execDispon (a : Byte) (s : State) : Host.Outcome State Fault Refusal :=
  command (.dispon a) [atMost a 1]
    (sendCmd s.params [if a = 1 then s.params.cmds.displayOn else s.params.cmds.displayOff]) s

/-- FLIP (R313): segment remap and scan direction in one frame. -/
def execFlip (a : Byte) (s : State) : Host.Outcome State Fault Refusal :=
  command (.flip a) [atMost a 1]
    (sendCmd s.params
      (if a = 0 then [s.params.cmds.segRemapOn, s.params.cmds.comScanDec]
       else [s.params.cmds.segRemapOff, s.params.cmds.comScanInc])) s

/-- ADDRMODE (R314). -/
def execAddrmode (a : Byte) (s : State) : Host.Outcome State Fault Refusal :=
  command (.addrmode a) [atMost a 2] (sendCmd s.params [s.params.cmds.addrMode, a]) s

/-- The command bytes of SCROLLH (R320): page_start, then frequency, then page_end. -/
def scrollHBytes (m : PanelCmds) (a b c d : Byte) : List Byte :=
  [m.scrollH ||| a, m.dummy00, c, b, d, m.dummy00, m.dummyFF]

/-- SCROLLH (R320). -/
def execScrollh (a b c d : Byte) (s : State) : Host.Outcome State Fault Refusal :=
  command (.scrollh a b c d) (scrollTests a b c d) (sendCmd s.params (scrollHBytes s.params.cmds a b c d)) s

/-- The command bytes of SCROLLDIAG (R322). -/
def scrollDiagBytes (m : PanelCmds) (a b c d e : Byte) : List Byte :=
  [if a = 1 then m.scrollDiagLeft else m.scrollDiagRight, m.dummy00, c, b, d, e]

/-- SCROLLDIAG (R322). -/
def execScrolldiag (a b c d e : Byte) (s : State) : Host.Outcome State Fault Refusal :=
  command (.scrolldiag a b c d e) (scrollTests a b c d ++ [atMost e 63])
    (sendCmd s.params (scrollDiagBytes s.params.cmds a b c d e)) s

/-- The command bytes of SETVAREA (R324). -/
def areaBytes (m : PanelCmds) (a b : Byte) : List Byte := [m.vArea, a, b]

/-- SETVAREA (R324). -/
def execSetvarea (a b : Byte) (s : State) : Host.Outcome State Fault Refusal :=
  command (.setvarea a b) (areaTests a b) (sendCmd s.params (areaBytes s.params.cmds a b)) s

/-- SCROLLSTATE (R326). -/
def execScrollstate (a : Byte) (s : State) : Host.Outcome State Fault Refusal :=
  command (.scrollstate a) [atMost a 1]
    (sendCmd s.params [if a = 1 then s.params.cmds.scrollOn else s.params.cmds.scrollOff]) s

/-- The frozen rows of SCROLLV: `8 * (frozen_page + 1)` (R328). -/
def frozenRows (e : Byte) : Nat := 8 * (e.toNat + 1)

/-- SCROLLV (R328): SETVAREA, then SCROLLDIAG right with the offset of the direction. -/
def execScrollv (a b c d e : Byte) (s : State) : Host.Outcome State Fault Refusal :=
  command (.scrollv a b c d e) (scrollTests a b c d ++ [atMost e 7])
    (sendCmd s.params
        (areaBytes s.params.cmds (BitVec.ofNat 8 (frozenRows e)) (BitVec.ofNat 8 (64 - frozenRows e)))
      ++ sendCmd s.params
        (scrollDiagBytes s.params.cmds 0 b c d
          (if a = 0 then s.params.cmds.offsetUp else s.params.cmds.offsetDown))) s

end Sys2Proof.Machine
end

