-- ==== Sys2Proof/Machine/Raster.lean ====
section
/-! DEFINITION. Machine/Raster.lean: the raster engine (45_raster.md). Lines and circles are lists of points in the
order they are plotted, on mathematical integers (R340); each point goes through `plot` (R344). -/

namespace Sys2Proof.Machine

/-- A point with integer coordinates. -/
abbrev Point := Int × Int

/-- The point is on the display (R341). -/
def onDisplay (p : Point) : Bool := decide (0 ≤ p.1 ∧ p.1 ≤ 127 ∧ 0 ≤ p.2 ∧ p.2 ≤ 63)

/-- The framebuffer index of a pixel on the display (R90). -/
def pixelIndex (p : Point) : Nat := fbIndex p.1.toNat (p.2.toNat / 8)

/-- The mask of a pixel in its byte (R90): bit `y mod 8`. -/
def pixelMask (p : Point) : Byte := 1#8 <<< (p.2.toNat % 8)

/-- `plot(x, y, v)` (R344): out of range is a skip (R341); else the shadow byte is updated, the cursor set, and the
whole byte pushed. -/
def plot (q : Params) (v : Bool) (p : Point) : List Micro :=
  if onDisplay p then
    (if v then .fbOr (pixelIndex p) (pixelMask p) else .fbClr (pixelIndex p) (pixelMask p))
      :: (cursorFrame q p.1.toNat (p.2.toNat / 8) ++ sendData q [.fb (pixelIndex p)])
  else []

/-- Draw a list of points in order (R346 to R354). -/
def plotAll (q : Params) (ps : List Point) : List Micro := ps.flatMap (plot q true)

/-- The unit step toward `b` (R346, R350). -/
def stepSign (a b : Int) : Int := if b < a then -1 else 1

/-- The loop of a line whose x is dominant (R346); `fuel` bounds the passes, of which there are `abs(dx)`. -/
def walkX (sx sy dx2 dy2 x2 : Int) : Nat → Int → Int → Int → List Point
  | 0, _, _, _ => []
  | fuel + 1, px, py, err =>
    if px = x2 then []
    else
      let py' := if 0 ≤ err then py + sy else py
      let err' := if 0 ≤ err then err - dx2 else err
      (px + sx, py') :: walkX sx sy dx2 dy2 x2 fuel (px + sx) py' (err' + dy2)

/-- The loop of a line whose y is dominant, or whose deltas are equal (R346). -/
def walkY (sx sy dx2 dy2 y2 : Int) : Nat → Int → Int → Int → List Point
  | 0, _, _, _ => []
  | fuel + 1, px, py, err =>
    if py = y2 then []
    else
      let px' := if 0 ≤ err then px + sx else px
      let err' := if 0 ≤ err then err - dy2 else err
      (px', py + sy) :: walkY sx sy dx2 dy2 y2 fuel px' (py + sy) (err' + dx2)

/-- The points of DRAWLINE in order (R346). -/
def linePoints (x1 y1 x2 y2 : Int) : List Point :=
  let dx := x2 - x1
  let dy := y2 - y1
  let dx2 : Int := 2 * dx.natAbs
  let dy2 : Int := 2 * dy.natAbs
  (x1, y1) ::
    if dy2 < dx2 then
      walkX (stepSign x1 x2) (stepSign y1 y2) dx2 dy2 x2 dx.natAbs x1 y1 (dy2 - dx2 / 2)
    else
      walkY (stepSign x1 x2) (stepSign y1 y2) dx2 dy2 y2 dy.natAbs x1 y1 (dx2 - dy2 / 2)

/-- `k` steps of `s` from `a`, exclusive of `a` (R350, R351). -/
def walkAxis (s : Int) : Nat → Int → List Int
  | 0, _ => []
  | k + 1, a => (a + s) :: walkAxis s k (a + s)

/-- From `a` to `b`, both included, stepping backward if `b` < `a` (R350, R351). -/
def axis (a b : Int) : List Int := a :: walkAxis (stepSign a b) (b - a).natAbs a

/-- The points of DRAWVLINE in order (R350). -/
def vlinePoints (x y1 y2 : Int) : List Point := (axis y1 y2).map fun y => (x, y)

/-- The points of DRAWHLINE in order (R351). -/
def hlinePoints (x1 x2 y : Int) : List Point := (axis x1 x2).map fun x => (x, y)

/-- The eight points of a pass, in order (R354). -/
def octants (cx cy xo yo : Int) : List Point :=
  [(cx + xo, cy + yo), (cx - xo, cy + yo), (cx + xo, cy - yo), (cx - xo, cy - yo),
   (cx + yo, cy + xo), (cx - yo, cy + xo), (cx + yo, cy - xo), (cx - yo, cy - xo)]

/-- The loop of the midpoint circle (R354); `fuel` bounds the passes, of which there are at most `r`. -/
def walkCircle (cx cy : Int) : Nat → Int → Int → Int → Int → Int → List Point
  | 0, _, _, _, _, _ => []
  | fuel + 1, cf, cddx, cddy, xo, yo =>
    if xo < yo then
      let yo' := if 0 ≤ cf then yo - 1 else yo
      let cddy' := if 0 ≤ cf then cddy + 2 else cddy
      let cf' := if 0 ≤ cf then cf + cddy' else cf
      octants cx cy (xo + 1) yo'
        ++ walkCircle cx cy fuel (cf' + (cddx + 2)) (cddx + 2) cddy' (xo + 1) yo'
    else []

/-- The points of DRAWCIRCLE in order: the passes, then the four extrema (R354). -/
def circlePoints (cx cy r : Int) : List Point :=
  walkCircle cx cy r.toNat (1 - r) 1 (-2 * r) 0 r ++ [(cx, cy + r), (cx, cy - r), (cx + r, cy), (cx - r, cy)]

/-- An operand byte as an integer 0..255 (R340). -/
def coord (a : Byte) : Int := a.toNat

/-- DRAWPIXEL (R342). -/
def execDrawpixel (a b : Byte) (s : State) : Host.Outcome State Fault Refusal :=
  command (.drawpixel a b) [] (plot s.params true (coord a, coord b)) s

/-- CLEARPIXEL (R343). -/
def execClearpixel (a b : Byte) (s : State) : Host.Outcome State Fault Refusal :=
  command (.clearpixel a b) [] (plot s.params false (coord a, coord b)) s

/-- DRAWLINE (R346). -/
def execDrawline (a b c d : Byte) (s : State) : Host.Outcome State Fault Refusal :=
  command (.drawline a b c d) [] (plotAll s.params (linePoints (coord a) (coord b) (coord c) (coord d))) s

/-- DRAWVLINE (R350). -/
def execDrawvline (a b c : Byte) (s : State) : Host.Outcome State Fault Refusal :=
  command (.drawvline a b c) [] (plotAll s.params (vlinePoints (coord a) (coord b) (coord c))) s

/-- DRAWHLINE (R351). -/
def execDrawhline (a b c : Byte) (s : State) : Host.Outcome State Fault Refusal :=
  command (.drawhline a b c) [] (plotAll s.params (hlinePoints (coord a) (coord b) (coord c))) s

/-- DRAWCIRCLE (R354). -/
def execDrawcircle (a b c : Byte) (s : State) : Host.Outcome State Fault Refusal :=
  command (.drawcircle a b c) [] (plotAll s.params (circlePoints (coord a) (coord b) (coord c))) s

/-- DRAWCHAR (R365). -/
def execDrawchar (p : Half) (s : State) : Host.Outcome State Fault Refusal :=
  command (.drawchar p) [] [.text p.toNat] s

/-- DRAWBITMAP (R367). -/
def execDrawbitmap (p : Half) (s : State) : Host.Outcome State Fault Refusal :=
  command (.drawbitmap p) [fits p 1024]
    (cursorFrame s.params 0 0 ++ sendData s.params ((List.range 1024).map fun k => .buf (p.toNat + k))) s

end Sys2Proof.Machine
end

