-- ==== Sys2Proof/Machine/Dispatch.lean ====
section
/-! DEFINITION. Machine/Dispatch.lean: one arm per operation of spec/opcode_table.json, each one call of its
meaning. -/

namespace Sys2Proof.Machine

def exec (i : Instr) (s : State) : Host.Outcome State Fault Refusal :=
  match i with
  -- bus operations (41, 42)
  | .bcInit p => Sys2Proof.Machine.execBcInit p s
  | .start => Sys2Proof.Machine.execStart s
  | .stop => Sys2Proof.Machine.execStop s
  | .req a => Sys2Proof.Machine.execReq a s
  | .wrb a => Sys2Proof.Machine.execWrb a s
  | .wrburst a p n => Sys2Proof.Machine.execWrburst a p n s
  | .rdb => Sys2Proof.Machine.execRdb s
  | .rdburst a p n => Sys2Proof.Machine.execRdburst a p n s
  -- cursor, text, bitmap, raster (43, 44, 45)
  | .dInit => Sys2Proof.Machine.execDInit s
  | .movecur a b => Sys2Proof.Machine.execMovecur a b s
  | .drawchar p => Sys2Proof.Machine.execDrawchar p s
  | .drawbitmap p => Sys2Proof.Machine.execDrawbitmap p s
  | .drawpixel a b => Sys2Proof.Machine.execDrawpixel a b s
  | .clearpixel a b => Sys2Proof.Machine.execClearpixel a b s
  | .drawline a b c d => Sys2Proof.Machine.execDrawline a b c d s
  | .drawvline a b c => Sys2Proof.Machine.execDrawvline a b c s
  | .drawhline a b c => Sys2Proof.Machine.execDrawhline a b c s
  | .drawcircle a b c => Sys2Proof.Machine.execDrawcircle a b c s
  -- display mode and scroll (44)
  | .contrast a => Sys2Proof.Machine.execContrast a s
  | .invert a => Sys2Proof.Machine.execInvert a s
  | .dispon a => Sys2Proof.Machine.execDispon a s
  | .flip a => Sys2Proof.Machine.execFlip a s
  | .addrmode a => Sys2Proof.Machine.execAddrmode a s
  | .scrollh a b c d => Sys2Proof.Machine.execScrollh a b c d s
  | .scrolldiag a b c d e => Sys2Proof.Machine.execScrolldiag a b c d e s
  | .setvarea a b => Sys2Proof.Machine.execSetvarea a b s
  | .scrollstate a => Sys2Proof.Machine.execScrollstate a s
  | .scrollv a b c d e => Sys2Proof.Machine.execScrollv a b c d e s
  -- shadow memory (43)
  | .ramwrite a b c => Sys2Proof.Machine.execRamwrite a b c s
  | .ramupdatebyte a b c => Sys2Proof.Machine.execRamupdatebyte a b c s
  | .ramupdatefull => Sys2Proof.Machine.execRamupdatefull s
  | .ramclear => Sys2Proof.Machine.execRamclear s

end Sys2Proof.Machine
end

