-- ==== Sys2Proof/Machine/Step.lean ====
section
/-! DEFINITION. Machine/Step.lean: one step of the machine. There is no instruction memory and no fetch (20_memory.md
R99): the next operation is the command word the host issues next. -/

namespace Sys2Proof.Machine

/-- One step. While an operation is in progress it goes on. Otherwise the host makes its next move: a byte of BUF
written, or a command word issued, which is refused by name if it decodes to no operation (R116, R117) and is else run
to its end. With nothing for the host to do, the line agent or the peer moves, or nothing happens. -/
def step (s : State) : Host.Outcome State Fault Refusal :=
  if s.busy then .next s.whileBusy
  else
    match s.host with
    | [] => .next s.idleMove
    | .write a v :: q => .next (s.hostWrite q a v)
    | .issue w :: q =>
      match decode w with
      | .error r => .next ((s.beforeIssue q).refuse r)
      | .ok i => exec i (s.beforeIssue q)

/-- The state with the command word `w` (48 bits, as spec/opcode_table.json numbers them) as the host's next move. -/
def State.withFetchWord (s : State) (nbits w : Nat) : State :=
  { s with host := .issue (BitVec.ofNat 48 (w % 2 ^ nbits)) :: s.host }

end Sys2Proof.Machine
end

