-- ==== Sys2Proof/Safety.lean ====
section
/-! DEFINITION. Safety.lean: what counts as a safe run, in the terms the claims use: when an operation can be issued
and complete, what is on the wire once a requested stop is out, the wire image of a frame, and the machine's
invariant. -/

namespace Sys2Proof.Machine

/-- The host can issue an operation (R21): none is in progress. A machine that has faulted never is in this state
(R401). -/
def State.ready (s : State) : Prop := s.busy = false ∧ s.faulted = none

/-- Nothing has been refused and nothing has faulted (R401: what "the program runs correctly" must include). -/
def State.unmarked (s : State) : Prop := s.refusal = none ∧ s.faulted = none

/-- An operation that came to its end (R24). -/
def State.completed (s : State) : Prop := s.busy = false ∧ s.upc = [] ∧ s.faulted = none

/-- An operation that waits for the condition `c` and that nobody can help: the hang (R13, R401). -/
def State.hungAt (c : Cond) (s : State) : Prop :=
  s.busy = true ∧ s.faulted = none ∧ s.upc.head? = some (.wait c) ∧ c.holds s.bus = false ∧ s.others = []

/-- No transaction is open, or the block's own one has its stop requested and nothing more to move: a START now goes
out as `S` (R160, R167, R440). -/
def Bif.free (b : Bif) : Prop :=
  b.pe = true ∧ b.sb = false ∧ b.addr = false ∧ b.start = false ∧ b.byteOn = false ∧
    ((b.role = .idle ∧ b.opened = false ∧ b.stop = false) ∨
      (b.role = .master ∧ b.opened = true ∧ b.stop = true))

/-- `s` with everything that receiving may change, besides `RES` and BUF, taken from `t`: as for `sentBy`, with the
bytes the peer supplies in place of its answers, and `ACK` and `POS`. -/
def State.readBy (s t : State) : State :=
  { s with
    cmdw := t.cmdw, latch := t.latch, busy := t.busy, upc := t.upc, polls := t.polls, wire := t.wire, panel := t.panel,
    peer := { s.peer with data := t.peer.data }, sched := t.sched, draws := t.draws,
    bus :=
      { s.bus with
        start := t.bus.start, stop := t.bus.stop, ack := t.bus.ack, pos := t.bus.pos, sb := t.bus.sb,
        addr := t.bus.addr, dr := t.bus.dr, drFull := t.bus.drFull, shift := t.bus.shift, shFull := t.bus.shFull,
        role := t.bus.role, dir := t.bus.dir, phase := t.bus.phase, opened := t.bus.opened, more := t.bus.more,
        sent := t.bus.sent, ackLatch := t.bus.ackLatch } }

/-- `s` with everything that a responder operation may change, besides BUF, taken from `t`: as for `sentBy`, with the
peer's remaining moves, `ACK`, `AF` and `STOPF`; the requests and `SB` stay. -/
def State.servedBy (s t : State) : State :=
  { s with
    cmdw := t.cmdw, latch := t.latch, busy := t.busy, upc := t.upc, polls := t.polls, wire := t.wire, panel := t.panel,
    peer := { s.peer with acks := t.peer.acks, moves := t.peer.moves }, sched := t.sched, draws := t.draws,
    bus :=
      { s.bus with
        ack := t.bus.ack, addr := t.bus.addr, af := t.bus.af, stopf := t.bus.stopf, dr := t.bus.dr,
        drFull := t.bus.drFull, shift := t.bus.shift, shFull := t.bus.shFull, role := t.bus.role, dir := t.bus.dir,
        phase := t.bus.phase, opened := t.bus.opened, more := t.bus.more, sent := t.bus.sent,
        ackLatch := t.bus.ackLatch } }

/-- The bus as a responder operation needs it: enabled, no transaction open, no start requested, nothing unread and no
stale flag (R175, R232, R244). -/
def Bif.listening (b : Bif) : Prop :=
  b.pe = true ∧ b.role = .idle ∧ b.opened = false ∧ b.start = false ∧ b.sb = false ∧ b.addr = false ∧ b.af = false ∧
    b.stopf = false ∧ b.drFull = false ∧ b.shFull = false

/-- The block answers to the own address `sel` with the direction `read` (R175). -/
def BifConfig.answers (c : BifConfig) (sel : OwnSel) (read : Bool) : Prop :=
  c.addmode = false ∧
    match sel with
    | .own1 => True
    | .own2 => c.endual = true
    | .general => c.engc = true ∧ read = false

/-- BUF with the bytes `vs` stored from address `p` on, in increasing address order (R99, R240). -/
def State.stored (p : Nat) : List Byte → State → State
  | [], s => s
  | v :: vs, s => State.stored (p + 1) vs (s.bufWrite p v)

/-- The tokens of received bytes: every one acknowledged but the last (R166, R241, R242). -/
def receivedTokens (vs : List Byte) : List Token :=
  vs.dropLast.map (Token.byte · true) ++ (vs.getLast?.map (Token.byte · false)).toList

/-- A START has been requested and its condition can go out (R160): after the `P` of a requested stop, or as a restart. -/
def Bif.starting (b : Bif) : Prop :=
  b.pe = true ∧ b.sb = false ∧ b.addr = false ∧ b.start = true ∧ b.byteOn = false ∧
    ((b.role = .idle ∧ b.opened = false ∧ b.stop = false) ∨ (b.role = .master ∧ b.opened = true))

/-- The start condition has gone out and the address byte is awaited (R160). -/
def Bif.started (b : Bif) : Prop :=
  b.pe = true ∧ b.sb = true ∧ b.addr = false ∧ b.start = false ∧ b.stop = false ∧ b.role = .master ∧
    b.opened = true ∧ b.phase = .started ∧ b.drFull = false ∧ b.shFull = false

/-- A START has been issued since the last stop: the precondition of REQ (R214). -/
def Bif.calling (b : Bif) : Prop := b.starting ∨ b.started

/-- The address byte was acknowledged and no data operation has run since (R161, R162): the precondition of the data
operations. -/
def Bif.addressed (d : Dir) (b : Bif) : Prop :=
  b.pe = true ∧ b.sb = false ∧ b.addr = true ∧ b.start = false ∧ b.stop = false ∧ b.role = .master ∧
    b.opened = true ∧ b.phase = .addrAcked ∧ b.dir = d ∧ b.drFull = false ∧ b.shFull = false

/-- A write transaction is open, every byte written has gone out and was acknowledged, and neither start nor stop is
requested: where WRB and the initiator WRBURST leave the bus (R218, R231). -/
def Bif.writing (b : Bif) : Prop :=
  b.pe = true ∧ b.sb = false ∧ b.addr = false ∧ b.start = false ∧ b.stop = false ∧ b.role = .master ∧
    b.opened = true ∧ b.phase = .data ∧ b.dir = .tx ∧ b.more = true ∧ b.drFull = false ∧ b.shFull = false

/-- The peer does not address the block: it has no move to make, or the block does not answer (R175). -/
def State.peerAway (s : State) : Prop := s.peer.moves = [] ∨ s.bus.ack = false

/-- The peer acknowledges every byte sent to `DISP_ADDR_W`: it is the reference panel (R380), or its script says so
(R151). -/
def Peer.acknowledges (p : Peer) : Prop :=
  p.isPanel = true ∨ ((∀ k ∈ p.acks.next, k = true) ∧ p.acks.rest = some true)

/-- What the display operations need to complete (R263, R437): the bus is free, the peer acknowledges and does not
address the block, waits are unbounded, and `DISP_ADDR_W` has direction write (R262). -/
def State.displayReady (s : State) : Prop :=
  s.bus.free ∧ s.peerAway ∧ s.peer.acknowledges ∧ s.params.waitBudget = none ∧
    s.params.dispAddrW.getLsbD 0 = false

/-- `s` with everything that transmitting may change taken from `t`: the command word and its latches, what is still to
run, the wire, the panel, the peer's answers, the schedule, the counter of free values, and in the bus interface the
requests, the data and shift registers, `SB`, `ADDR` and the transfer state. `t = s.sentBy t` says that nothing else
differs: neither memory, nor `RES`, the marks, the parameters, the host's queue, the peer's other scripts, nor in the bus
interface `PE`, `SWRST`, `ACK`, `POS`, the configuration, `AF` and `STOPF`. -/
def State.sentBy (s t : State) : State :=
  { s with
    cmdw := t.cmdw, latch := t.latch, busy := t.busy, upc := t.upc, polls := t.polls, wire := t.wire, panel := t.panel,
    peer := { s.peer with acks := t.peer.acks }, sched := t.sched, draws := t.draws,
    bus :=
      { s.bus with
        start := t.bus.start, stop := t.bus.stop, sb := t.bus.sb, addr := t.bus.addr, dr := t.bus.dr,
        drFull := t.bus.drFull, shift := t.bus.shift, shFull := t.bus.shFull, role := t.bus.role, dir := t.bus.dir,
        phase := t.bus.phase, opened := t.bus.opened, more := t.bus.more, sent := t.bus.sent,
        ackLatch := t.bus.ackLatch } }

/-- The wire log once a requested stop has gone out (R440: it may still be outstanding when an operation
completes). -/
def State.settledWire (s : State) : List Token :=
  if s.bus.role = .master ∧ s.bus.stop = true then s.wire ++ [Token.stop] else s.wire

/-- The wire log once a requested start has gone out (R160, R168): `S`, after `P` where a stop is outstanding, or `Sr`
in an open transaction. -/
def State.calledWire (s : State) : List Token :=
  if s.bus.sb = true then s.wire
  else if s.bus.role = .master then
    if s.bus.stop = true then s.wire ++ [Token.stop, .start] else s.wire ++ [Token.restart]
  else s.wire ++ [Token.start]

/-- The wire image of a frame whose every byte is acknowledged (R263). -/
def frameTokens (q : Params) (ctrl : Byte) (bytes : List Byte) : List Token :=
  Token.start :: .byte q.dispAddrW true :: (ctrl :: bytes).map (Token.byte · true) ++ [Token.stop]

/-- The wire image of a command frame (R264). -/
def cmdTokens (q : Params) (cmds : List Byte) : List Token := frameTokens q q.ctrlCmd cmds

/-- The wire image of a run of data bytes (R264). -/
def dataTokens (q : Params) (data : List Byte) : List Token :=
  match q.framing with
  | .perByte => data.flatMap fun v => frameTokens q q.ctrlData [v]
  | .continuous => frameTokens q q.ctrlData data

/-- The wire image of the cursor frame (R270). -/
def cursorTokens (q : Params) (col page : Nat) : List Token :=
  cmdTokens q [q.cmds.colRange, BitVec.ofNat 8 col, 127, q.cmds.pageRange, BitVec.ofNat 8 page, 7]

/-- `FB` after `plot(x, y, 1)` of one point: a point off the display changes nothing (R341, R344). -/
def State.plotted (s : State) (p : Point) : State :=
  if onDisplay p then s.fbWrite (pixelIndex p) (s.fbByte (pixelIndex p) ||| pixelMask p) else s

/-- `FB` after the points are plotted in order. -/
def State.plottedAll (ps : List Point) (s : State) : State := ps.foldl State.plotted s

/-- The wire image of the points plotted in order: for each one on the display a cursor frame and the byte as it then is
(R344); the others send nothing (R341). -/
def plottedTokens : List Point → State → List Token
  | [], _ => []
  | p :: ps, s =>
    (if onDisplay p then
      cursorTokens s.params p.1.toNat (p.2.toNat / 8) ++ dataTokens s.params [(s.plotted p).fbByte (pixelIndex p)]
    else []) ++ plottedTokens ps (s.plotted p)

/-- The reference panel as the display operations need it to hold their streams (R384, R385, R387): it is the peer, the
command byte values are the defaults of R301 and the two control bytes differ (R261), its mode is `mode`, and it is not
inside an unfinished command. -/
def State.watched (mode : Nat → Prop) (s : State) : Prop :=
  s.peer.isPanel = true ∧ s.params.cmds = PanelCmds.defaults ∧ s.params.ctrlCmd ≠ s.params.ctrlData ∧
    mode s.panel.amode ∧ ∀ v vs, s.panel.rx ≠ .command (v :: vs)

/-- The pixel `(x, y)` of the shadow framebuffer (R36, R90). -/
def State.pixel (s : State) (x y : Nat) : Bool := (s.fbByte (fbIndex x (y / 8))).getLsbD (y % 8)

/-- Index `i` is in lockstep: the panel's byte is the shadow's (R98). -/
def State.lockstep (s : State) (i : Nat) : Prop := s.panel.gdByte i = s.fbByte i

/-- The operation `i` completes from `s`, whatever the schedule: nothing but what transmitting changes differs from
`after`, the wire has grown by `w` once the last requested stop is out, and the next display operation can run. -/
def Completes (i : Instr) (s after : State) (w : List Token) : Prop :=
  ∃ t, exec i s = .next t ∧ t.completed ∧ t.displayReady ∧ t = after.sentBy t ∧ t.settledWire = s.settledWire ++ w

/-- The operation sends display frames (R263): each display operation but the two that write only the shadow
framebuffer. Each frame sets `START` and `STOP`. -/
def sendsFrames : Instr → Bool
  | .bcInit _ | .start | .stop | .req _ | .wrb _ | .wrburst _ _ _ | .rdb | .rdburst _ _ _ => false
  | .ramwrite _ _ _ | .ramclear => false
  | .dInit | .movecur _ _ | .drawchar _ | .drawbitmap _ | .drawpixel _ _ | .clearpixel _ _ | .drawline _ _ _ _ => true
  | .drawvline _ _ _ | .drawhline _ _ _ | .drawcircle _ _ _ | .contrast _ | .invert _ | .dispon _ | .flip _ => true
  | .addrmode _ | .scrollh _ _ _ _ | .scrolldiag _ _ _ _ _ | .setvarea _ _ | .scrollstate _ | .scrollv _ _ _ _ _ => true
  | .ramupdatebyte _ _ _ | .ramupdatefull => true

/-- The number of bytes in a wire image. -/
def byteCount (w : List Token) : Nat :=
  w.countP fun
    | .byte _ _ => true
    | _ => false

/-- A wire image cut short at byte `k`, counted from 0, which is refused. -/
def refusedAt : List Token → Nat → List Token
  | [], _ => []
  | .byte v _ :: _, 0 => [.byte v false]
  | .byte v a :: w, k + 1 => .byte v a :: refusedAt w k
  | t :: w, k => t :: refusedAt w k

/-- The operation `i`, whose frames put `w` on the wire, hangs from `s` with `AF` set if the peer refuses a byte of `w`,
whichever it is, an address byte or a later one (R161, R164, R263): nothing goes out after that byte, and `FB` is what
`made` says for it, since it keeps whatever was written to it before (R263). -/
def HangsRefused (i : Instr) (s : State) (made : Nat → State) (w : List Token) : Prop :=
  ∀ (k : Nat) (ys : List Bool), s.bus.free → s.peerAway → s.params.waitBudget = none →
    s.params.dispAddrW.getLsbD 0 = false → s.peer.isPanel = false →
    s.peer.acks.next = List.replicate k true ++ false :: ys → k < byteCount w →
    ∃ t, exec i s = .next t ∧ (t.hungAt .addr ∨ t.hungAt .txe ∨ t.hungAt .btfAndTxe) ∧ t.bus.af = true ∧
      t.wire = s.settledWire ++ refusedAt w k ∧ t.fb = (made k).fb ∧ t.buf = s.buf ∧ t.res = s.res

/-- What the operation `i` does that puts the frames `w` on the wire: it completes, with `FB` as in `after`, if the peer
acknowledges, and hangs, with `FB` as `made` says, where it refuses a byte. -/
def Transmits (i : Instr) (s after : State) (made : Nat → State) (w : List Token) : Prop :=
  (s.displayReady → Completes i s after w) ∧ HangsRefused i s made w

/-- `FB` when byte `k` of the points plotted in order is on the wire: it belongs to the last point plotted (R344). -/
def State.plottedUntil : List Point → State → Nat → State
  | [], s, _ => s
  | p :: ps, s, k =>
    let n := byteCount (plottedTokens [p] s)
    if k < n then s.plotted p else State.plottedUntil ps (s.plotted p) (k - n)

/-! ### The invariant -/

/-- A micro-operation that writes memory writes inside its space: `FB` has 1024 bytes, BUF 65,536 (R41, R91, R341). -/
def Micro.inBounds : Micro → Bool
  | .fbPut i _ => decide (i < 1024)
  | .fbOr i _ => decide (i < 1024)
  | .fbClr i _ => decide (i < 1024)
  | .rdDrBuf q => decide (q < 65536)
  | .rxTest p n _ => decide (p + n ≤ 65536)
  | .rxTake p n idx => decide (p + n ≤ 65536 ∧ idx < n)
  | .rxUntil p n _ => decide (p + n ≤ 65536)
  | _ => true

/-- The machine's invariant: `busy` is 1 exactly while `upc` is not IDLE (R24); a fault leaves `busy` at 1 (R401); the
latches are the bytes of `CMDW` (R22); a transaction is open exactly while the block has a role in it (R31); the three
memories are in canonical form and inside their spaces (R41); and what is still to run stays inside them. -/
structure State.Inv (s : State) : Prop where
  busyUpc : s.busy = !s.upc.isEmpty
  faultBusy : s.faulted.isSome → s.busy = true
  latched : s.latch = Latches.ofWord s.cmdw
  openRole : s.bus.opened = (s.bus.role != .idle)
  fbWf : Memory.wf 1024 s.fb = true
  bufWf : Memory.wf 65536 s.buf = true
  gdWf : Memory.wf 1024 s.panel.gd = true
  codeInBounds : s.upc.all Micro.inBounds = true

end Sys2Proof.Machine
end

