-- ==== Sys2Proof/Certificates/Slice0/Obligations.lean ====
section
/-! DEFINITION. Certificates/Slice0/Obligations.lean: the statements for the provers, each with the rule of spec/ it
formalises. They hold for every state, with the premises each one names; no statement is about a program. -/

section
open Sys2Proof Sys2Proof.Machine

/-! ### The command word -/

/-- R110 to R113, R117: encoding loses nothing. The word of an operation decodes to it, and so do its six bytes, the
opcode first, whatever follows them. -/
def Obligations.DecodeEncode : Prop :=
  ∀ i : Instr, decode (encode i) = .ok i ∧
    ∀ rest : List Byte,
      decodeBytes ((List.range 6).map (fun k => (encode i).extractLsb' (40 - 8 * k) 8) ++ rest) = some (.ok i, rest)

/-- R113, R117: no second spelling. A word that decodes is the word of the operation it decodes to. -/
def Obligations.EncodeDecode : Prop :=
  ∀ (w : Word) (i : Instr), decode w = .ok i → encode i = w

/-- R113: a word decodes exactly if it matches a row of the opcode table, and the rows do not overlap. -/
def Obligations.DecodeAcceptsTable : Prop :=
  (∀ w : Word, (∃ i, decode w = .ok i) ↔ ∃ row ∈ opcodeTable, w &&& row.2 = row.1) ∧
    opcodeTable.Pairwise fun x y => ∀ w : Word, ¬(w &&& x.2 = x.1 ∧ w &&& y.2 = y.1)

/-- Words written out from R111 and R113, one or more of each family. -/
def Obligations.DecodeSampleWords : Prop :=
  decode 0x010123000000 = .error .reservedField ∧ decode 0x010001230000 = .ok (.bcInit 0x0123) ∧
  decode 0x020000000000 = .ok .start ∧ decode 0x047900000000 = .ok (.req 0x79) ∧
  decode 0x060101000004 = .ok (.wrburst 1 0x0100 4) ∧ decode 0x08007FFE0002 = .ok (.rdburst 0 0x7FFE 2) ∧
  decode 0x117F07000000 = .ok (.movecur 127 7) ∧ decode 0x160102030400 = .ok (.drawline 1 2 3 4) ∧
  decode 0x280106000700 = .ok (.scrollh 1 6 0 7) ∧ decode 0x2C0006000701 = .ok (.scrollv 0 6 0 7 1) ∧
  decode 0x300301A50000 = .ok (.ramwrite 3 1 0xA5) ∧ decode 0x320000000000 = .ok .ramupdatefull ∧
  decode 0x340000000000 = .error .unknownOpcode

/-- R116. The 224 opcode values outside the table are refused by name, and nothing changes but the mark; the line agent
and the peer may have moved before the host does (R152). -/
def Obligations.UnknownOpcodeRefused : Prop :=
  let unknown : Nat → Bool := fun op =>
    op == 0 || (decide (0x09 ≤ op) && decide (op ≤ 0x0F)) || (decide (0x1A ≤ op) && decide (op ≤ 0x1F)) ||
      (decide (0x25 ≤ op) && decide (op ≤ 0x27)) || (decide (0x2D ≤ op) && decide (op ≤ 0x2F)) ||
      (decide (0x34 ≤ op) && decide (op ≤ 0xFF))
  ((List.range 256).filter unknown).length = 224 ∧
    ∀ w : Word, (decode w = .error .unknownOpcode ↔ unknown w.op.toNat = true) ∧
      (unknown w.op.toNat = true → ∀ (s : State) (q : List HostAction), s.busy = false → s.host = .issue w :: q →
        step s = .next ((s.beforeIssue q).refuse .unknownOpcode))

/-- R117. A word whose opcode is in the table and that matches no row has a non-zero unused field: it is refused by
name. -/
def Obligations.ReservedFieldRefused : Prop :=
  ∀ w : Word, (∃ row ∈ opcodeTable, w &&& 0xFF0000000000 = row.1) → (∀ row ∈ opcodeTable, w &&& row.2 ≠ row.1) →
    decode w = .error .reservedField ∧
      ∀ (s : State) (q : List HostAction), s.busy = false → s.host = .issue w :: q →
        step s = .next ((s.beforeIssue q).refuse .reservedField)

/-! ### One step -/

/-- R20, R21, R94: with no operation in progress, a step runs the operation of the command word the host issues next,
in the state the line agent and the peer have brought about; where neither can move, that is the state itself without
the host's entry. `withFetchWord` puts a word there. -/
def Obligations.StepRunsDecoded : Prop :=
  (∀ (s : State) (w : Word) (q : List HostAction) (i : Instr), s.busy = false → s.host = .issue w :: q →
    decode w = .ok i →
      step s = exec i (s.beforeIssue q) ∧ (s.others = [] → step s = exec i { s with host := q })) ∧
  ∀ (s : State) (i : Instr), s.busy = false →
    step (s.withFetchWord 48 (encode i).toNat) = exec i (s.beforeIssue s.host)

/-- R41, R99: the host writes a byte of BUF between operations. It has no such move while an operation is in progress:
its queue, the command word and the operand latches stand until the operation is over (R21, R22). -/
def Obligations.HostMoves : Prop :=
  (∀ (s : State) (a : Half) (v : Byte) (q : List HostAction), s.busy = false → s.host = .write a v :: q →
    ∃ t : State, step s = .next t ∧ t = { s with host := q, buf := t.buf } ∧
      ∀ k, t.bufByte k = if k = a.toNat then v else s.bufByte k) ∧
  ∀ s : State, s.busy = true →
    ∃ t : State, step s = .next t ∧ t.host = s.host ∧ t.cmdw = s.cmdw ∧ t.latch = s.latch ∧ t.params = s.params ∧
      t.refusal = s.refusal

/-! ### Refusals -/

/-- R401, R404: an operation whose operands are outside their domains is refused before it starts, with one of the two
reasons an operand has, and nothing changes but the mark; drawing coordinates and the other operands without a domain
never do it. The first refusal's reason stays. -/
def Obligations.IllFormedRefused : Prop :=
  (∀ (i : Instr) (s : State), s.ready → i.wellFormed = false →
    exec i s = .next (s.refuse .operandRange) ∨ exec i s = .next (s.refuse .bufferRange)) ∧
  (∀ a b c d : Byte, (Instr.drawpixel a b).wellFormed ∧ (Instr.clearpixel a b).wellFormed ∧
    (Instr.drawline a b c d).wellFormed ∧ (Instr.drawvline a b c).wellFormed ∧ (Instr.drawhline a b c).wellFormed ∧
    (Instr.drawcircle a b c).wellFormed) ∧
  ∀ (s : State) (r : RefuseReason), s.refuse r = { s with refusal := some (s.refusal.getD r) }

/-- R114, R85, R118, R230, R240, R367: a role selector above 1, and a buffer operand that reaches past BUF address 0xFFFF;
the role selector is tested first (R403). -/
def Obligations.BufferOperandRefused : Prop :=
  ∀ (a : Byte) (p n : Half) (s : State), s.ready →
    (1 < a.toNat → exec (.wrburst a p n) s = .next (s.refuse .operandRange) ∧
      exec (.rdburst a p n) s = .next (s.refuse .operandRange)) ∧
    (a.toNat ≤ 1 → 65536 < p.toNat + n.toNat →
      exec (.wrburst a p n) s = .next (s.refuse .bufferRange) ∧
      exec (.rdburst a p n) s = .next (s.refuse .bufferRange)) ∧
    (64512 < p.toNat → exec (.drawbitmap p) s = .next (s.refuse .bufferRange)) ∧
    (65524 < p.toNat → exec (.bcInit p) s = .next (s.refuse .bufferRange))

/-! ### BC_INIT, reset -/

/-- R118, R200, R203, R204, R205: what BC_INIT does with the record at `p`, byte by byte. It runs through without a wait.
The tests come in the order of R403; that a set bit 15:10 of `own1` or bit 7 of `own2` gives `ReservedField` is the model's
reading (log 14; V19). Under `SCHED` = `free` the premise asks that nobody else can move when it is issued. -/
def Obligations.BcInitOutcome : Prop :=
  ∀ (p : Half) (s : State), s.ready → (s.params.sched = .runToWait ∨ s.others = []) →
    let b : Nat → Nat := fun k => (s.bufByte (p.toNat + k)).toNat
    let flag : Nat → Bool := fun k => (s.bufByte (p.toNat + 6)).getLsbD k
    let speed := b 2 + 256 * b 3 + 65536 * b 4 + 16777216 * b 5
    let own1 := b 8 + 256 * b 9
    let freq := s.params.pclkHz / 1000000
    let ccr := max (s.params.pclkHz / (4 * speed)) (if flag 0 = true ∧ flag 1 = true then 1 else 4)
    let trise := ((if flag 0 = true then 300 else 1000) * freq) / 1000 + 1
    exec (.bcInit p) s = .next
      (if 65524 < p.toNat then s.refuse .bufferRange
      else if b 0 ∉ s.params.supported then s.refuse .unsupportedInstance
      else if 2 < b 1 then s.refuse .operandRange
      else if speed = 0 ∨ 400000 < speed then s.refuse .operandRange
      else if b 7 ≠ 0 ∨ 1024 ≤ own1 ∨ 128 ≤ b 10 ∨ b 11 ≠ 0 then s.refuse .reservedField
      else if 63 < freq ∨ 4095 < ccr ∨ 63 < trise then s.refuse .operandRange
      else
        State.load (encode (.bcInit p)) []
          { s with
            draws := s.draws + 1
            bus :=
              { Bif.reset (Config.shiftAfterReset s.draws) with
                pe := true
                cfg :=
                  { mode := if b 1 = 0 then .plain else if b 1 = 1 then .smbusDevice else .smbusHost
                    enarp := flag 7, enpec := flag 6, engc := flag 5, nostretch := flag 2, addmode := flag 3
                    own1 := BitVec.ofNat 10 own1, endual := flag 4
                    own2 := if flag 4 = true then BitVec.ofNat 7 (b 10) else 0
                    freq := BitVec.ofNat 6 freq, fs := flag 0, duty := flag 1, ccr := BitVec.ofNat 12 ccr
                    trise := BitVec.ofNat 6 trise } } })

/-- R35, R206: the divisor in `CCR` after BC_INIT has enabled the interface is at least the minimum of the fast-mode and
duty bits beside it. -/
def Obligations.MinimumDivisor : Prop :=
  ∀ (p : Half) (s t : State), s.ready → (s.params.sched = .runToWait ∨ s.others = []) → s.bus.pe = false →
    exec (.bcInit p) s = .next t → t.bus.pe = true →
      (if t.bus.cfg.fs = true ∧ t.bus.cfg.duty = true then 1 else 4) ≤ t.bus.cfg.ccr.toNat

/-- R43, R431: the machine after power-on. What the rules leave unspecified has no value here: `RES`, `SHIFT`, and the
unwritten bytes of `FB`, BUF and the panel's memory. The registers of R45 are at their offsets, all 0 but TRISE. The host
queue and the peer are the model's (log 2, 5), and that the panel has been told nothing (log 11). -/
def Obligations.ResetValues : Prop :=
  let s := State.reset
  s.cmdw = 0 ∧ s.latch = ⟨0, 0, 0, 0, 0, 0⟩ ∧ s.busy = false ∧ s.upc = [] ∧ s.wire = [] ∧
  (s.bus.pe = false ∧ s.bus.swrst = false ∧ s.bus.start = false ∧ s.bus.stop = false ∧ s.bus.ack = false ∧
    s.bus.pos = false) ∧
  s.bus.cfg =
    { mode := .plain, enarp := false, enpec := false, engc := false, nostretch := false, addmode := false, own1 := 0
      endual := false, own2 := 0, freq := 0, fs := false, duty := false, ccr := 0, trise := 2 } ∧
  (s.bus.sb = false ∧ s.bus.addr = false ∧ s.bus.af = false ∧ s.bus.stopf = false ∧ s.bus.txe = false ∧
    s.bus.rxne = false ∧ s.bus.btf = false) ∧
  (s.bus.dr = 0 ∧ s.bus.drFull = false ∧ s.bus.shFull = false ∧ s.bus.role = .idle ∧ s.bus.dir = .tx ∧
    s.bus.phase = .idle ∧ s.bus.opened = false ∧ s.bus.more = false ∧ s.bus.sent = 0 ∧ s.bus.ackLatch = false) ∧
  (s.panel.cs = 0 ∧ s.panel.ce = 127 ∧ s.panel.ps = 0 ∧ s.panel.pe = 7 ∧ s.panel.pcol = 0 ∧ s.panel.ppage = 0 ∧
    s.panel.amode = 2 ∧ ∀ g : PanelSetting, s.panel.setting s.params.cmds g = none) ∧
  (∀ off : Nat, s.bus.regAt off =
    if off % 4 = 0 ∧ off ≤ 0x20 then some (if off = 0x20 then 2 else 0) else none) ∧
  s.refusal = none ∧ s.faulted = none ∧ s.others = [] ∧ s.ready

/-- R202. The software reset. While `SWRST` holds the interface nobody moves; clearing it changes nothing else. -/
def Obligations.SoftwareReset : Prop :=
  ∀ (s : State) (rest : List Micro),
    let t := Micro.run (.set .swrst) (.clr .swrst :: rest) s
    let u := Micro.run (.clr .swrst) rest t
    t.bus =
      { pe := false, swrst := true, start := false, stop := false, ack := false, pos := false
        cfg :=
          { mode := .plain, enarp := false, enpec := false, engc := false, nostretch := false, addmode := false
            own1 := 0, endual := false, own2 := 0, freq := 0, fs := false, duty := false, ccr := 0, trise := 2 }
        sb := false, addr := false, af := false, stopf := false, dr := 0, drFull := false, shift := t.bus.shift
        shFull := false, role := .idle, dir := .tx, phase := .idle, opened := false, more := false, sent := 0
        ackLatch := false } ∧
    t.others = [] ∧ u.bus = { t.bus with swrst := false } ∧
    u = { s with bus := u.bus, upc := rest, busy := !rest.isEmpty, polls := 0, draws := u.draws }

/-! ### The interface's registers, flags and line -/

/-- R155 to R158: the register accesses of the sequencer and their side effects, as the micro-operations that make
them. -/
def Obligations.RegisterAccesses : Prop :=
  ∀ (s : State) (rest : List Micro) (v : Byte),
    Micro.run (.wrDr (.const v)) rest s =
      (s.withBif
        (if s.bus.sb = true then { s.bus with dr := v, sb := false, drFull := true }
        else if s.bus.phase = .data ∧ s.bus.dir = .tx then { s.bus with dr := v, drFull := true }
        else { s.bus with dr := v })).goto rest ∧
    Micro.run .rdSr2 rest s =
      (s.withBif
        (if s.bus.addr = true then
          { s.bus with addr := false, phase := .data, more := true, sent := 0, ackLatch := s.bus.ack }
        else s.bus)).goto rest ∧
    Micro.run .rdDrRes rest s =
      State.goto rest
        { s with
          res := s.bus.dr
          bus :=
            if s.bus.dir = .rx then
              if s.bus.shFull = true then { s.bus with dr := s.bus.shift, shFull := false }
              else { s.bus with drFull := false }
            else s.bus } ∧
    Micro.run .wrCr1 rest s = (s.withBif { s.bus with stopf := false }).goto rest

/-- R29. The derived flags. -/
def Obligations.DerivedFlags : Prop :=
  ∀ b : Bif,
    (b.txe = true ↔ b.phase = .data ∧ b.dir = .tx ∧ b.addr = false ∧ b.drFull = false) ∧
    (b.rxne = true ↔ b.dir = .rx ∧ b.drFull = true) ∧
    (b.btf = true ↔
      if b.dir = .rx then b.drFull = true ∧ b.shFull = true
      else b.phase = .data ∧ b.addr = false ∧ b.drFull = false ∧ b.shFull = false ∧ 0 < b.sent ∧ b.more = true) ∧
    (Bif.reset Config.powerOnShift).txe = false ∧ (Bif.reset Config.powerOnShift).rxne = false ∧
    (Bif.reset Config.powerOnShift).btf = false

/-- R160, R167: when a start and a stop condition go out, and what they do. Nothing else changes, but that a panel sees
the token. -/
def Obligations.StartAndStopConditions : Prop :=
  ∀ s : State,
    let b := s.bus
    let moving := b.addrOn = true ∨ b.loadOn = true ∨ b.txByteOn = true ∨ b.rxByteOn = true
    (b.startOn = true ↔ b.pe = true ∧ b.start = true ∧ b.role ≠ .slave ∧ b.sb = false ∧ b.addr = false ∧
      ¬(b.role = .master ∧ b.stop = true) ∧ ¬moving) ∧
    (b.stopOn = true ↔ b.role = .master ∧ b.pe = true ∧ b.stop = true ∧ ¬moving) ∧
    (b.startOn = true → s.lineStep =
      { s with
        wire := s.wire ++ [if b.opened = true then Token.restart else .start]
        panel := s.lineStep.panel
        bus :=
          { b with
            opened := true, role := .master, phase := .started, sb := true, start := false, sent := 0, more := false
            drFull := false, shFull := false } }) ∧
    (b.stopOn = true → s.lineStep =
      { s with
        wire := s.wire ++ [Token.stop]
        panel := s.lineStep.panel
        bus :=
          { b with
            opened := false, stop := false, role := .idle, phase := .idle, sent := 0, more := false
            drFull := if b.dir = .tx then false else b.drFull
            shFull := if b.dir = .tx then false else b.shFull } })

/-- R161, R163, R164: how an address byte and a transmitted byte go out, `k` being the peer's answer. That none does while
`PE` = 0 is the model's reading of R26 (log 9), and how the reference panel answers rests on its reading of R380 (log 11):
it acknowledges `DISP_ADDR_W` and the bytes of a transaction the block opened. -/
def Obligations.TransmitSteps : Prop :=
  ∀ s : State,
    let b := s.bus
    (b.addrOn = true ↔ b.pe = true ∧ b.role = .master ∧ b.phase = .started ∧ b.sb = false ∧ b.drFull = true) ∧
    (b.loadOn = true ↔ b.pe = true ∧ b.phase = .data ∧ b.dir = .tx ∧ b.addr = false ∧ b.drFull = true ∧
      b.shFull = false ∧ b.more = true) ∧
    (b.txByteOn = true ↔ b.pe = true ∧ b.phase = .data ∧ b.dir = .tx ∧ b.shFull = true) ∧
    (b.addrOn = true → ∃ k : Bool, (s.peer.isPanel = true → k = decide (b.dr = s.params.dispAddrW)) ∧ s.lineStep =
      { s with
        wire := s.wire ++ [Token.byte b.dr k]
        panel := s.lineStep.panel
        peer := { s.peer with acks := s.lineStep.peer.acks }
        draws := s.lineStep.draws
        bus :=
          if k = true then
            { b with
              drFull := false, addr := true, dir := if b.dr.getLsbD 0 = true then .rx else .tx, phase := .addrAcked }
          else { b with drFull := false, af := true, phase := .addrNacked } }) ∧
    (b.loadOn = true → s.lineStep = s.withBif { b with shift := b.dr, shFull := true, drFull := false }) ∧
    (b.txByteOn = true →
      ∃ k : Bool, (s.peer.isPanel = true → b.role = .master → k = true) ∧ s.lineStep =
        { s with
          wire := s.wire ++ [Token.byte b.shift k]
          panel := s.lineStep.panel
          peer := { s.peer with acks := s.lineStep.peer.acks }
          draws := s.lineStep.draws
          bus :=
            if k = true then { b with shFull := false, sent := b.sent + 1 }
            else
              { b with
                shFull := false, sent := b.sent + 1, af := true, more := false
                drFull := if b.role = .slave then false else b.drFull } })

/-- R165, R166: how a byte comes in, `v` being the byte the peer supplies, and the acknowledge it gets. That none does
while `PE` = 0 is the model's reading of R26 (log 9). -/
def Obligations.ReceiveStep : Prop :=
  ∀ s : State,
    let b := s.bus
    let r := if b.pos = true then b.ackLatch else b.ack
    (b.rxByteOn = true ↔ b.pe = true ∧ b.role = .master ∧ b.phase = .data ∧ b.dir = .rx ∧ b.addr = false ∧
      b.more = true ∧ b.shFull = false) ∧
    (b.rxByteOn = true → ∃ v : Byte, (∀ x xs, s.peer.data.next = x :: xs → v = x) ∧ s.lineStep =
      { s with
        wire := s.wire ++ [Token.byte v r]
        panel := s.lineStep.panel
        peer := { s.peer with data := s.lineStep.peer.data }
        draws := s.lineStep.draws
        bus :=
          { b with
            ackLatch := b.ack
            dr := if b.drFull = true then b.dr else v
            drFull := true
            shift := if b.drFull = true then v else b.shift
            shFull := if b.drFull = true then true else false
            more := if r = true then b.more else false } })

/-- R175, R177, R178: when the peer's next move is enabled, and what it does to the block: address it, send it a byte, end
the transfer. The model's choices: there is no match in 10-bit own-address mode (log 8), and the peer waits while `PE` = 0
(log 9, from R26). -/
def Obligations.ResponderSteps : Prop :=
  ∀ (s : State) (m : PeerMove) (ms : List PeerMove), s.peer.moves = m :: ms →
    let b := s.bus
    match m with
    | .address sel read =>
      (s.peerOn = true ↔ b.pe = true ∧ b.role = .idle ∧ b.opened = false ∧ b.ack = true ∧ b.start = false ∧
        b.cfg.answers sel read) ∧
      (s.peerOn = true →
        s.peerStep =
          { s with
            wire := s.wire ++
              [Token.start,
                .byte ((match sel with
                  | .own1 => b.cfg.own1.extractLsb' 0 7
                  | .own2 => b.cfg.own2
                  | .general => 0#7) ++ (if read = true then 1#1 else 0#1)) true]
            panel := s.peerStep.panel
            peer := { s.peer with moves := ms }
            bus :=
              { b with
                opened := true, role := .slave, phase := .addrAcked, addr := true
                dir := if read = true then .tx else .rx } })
    | .send v =>
      (s.peerOn = true ↔ b.pe = true ∧ b.role = .slave ∧ b.phase = .data ∧ b.dir = .rx ∧ b.addr = false ∧ b.more = true ∧
        b.shFull = false) ∧
      (s.peerOn = true →
        s.peerStep =
          { s with
            wire := s.wire ++ [Token.byte v (if b.pos = true then b.ackLatch else b.ack)]
            panel := s.peerStep.panel
            peer := { s.peer with moves := ms }
            bus :=
              { b with
                ackLatch := b.ack
                dr := if b.drFull = true then b.dr else v
                drFull := true
                shift := if b.drFull = true then v else b.shift
                shFull := if b.drFull = true then true else false
                more := if (if b.pos = true then b.ackLatch else b.ack) = true then b.more else false } })
    | .stop =>
      (s.peerOn = true ↔ b.pe = true ∧ b.role = .slave ∧ b.phase = .data ∧ b.addr = false ∧ b.shFull = false) ∧
      (s.peerOn = true →
        s.peerStep =
          { s with
            wire := s.wire ++ [Token.stop]
            panel := s.peerStep.panel
            peer := { s.peer with moves := ms }
            bus :=
              { b with
                opened := false, role := .idle, stopf := if b.more = true then true else b.stopf
                more := false } })

/-- R168, R26: at most one step of the line agent is enabled in any state, and none while `PE` = 0; a stop goes out
before a start when both are requested in an open transaction of the block. -/
def Obligations.LineAgentDeterministic : Prop :=
  ∀ b : Bif,
    [b.addrOn, b.loadOn, b.txByteOn, b.rxByteOn, b.startOn, b.stopOn].count true ≤ 1 ∧
    (b.pe = false → b.lineOn = false ∧ ∀ m : PeerMove, m.on b = false) ∧
    (b.role = .master → b.stop = true → b.startOn = false)

/-! ### The bus operations -/

/-- R210, R212. START and STOP set their bit, write nothing else and do not wait; the condition goes out as soon as the
line agent's step is enabled, a start as `S` or, in an open transaction, as `Sr`. While `PE` = 0 none goes out. -/
def Obligations.StartStopOutcome : Prop :=
  ∀ s : State, s.ready → (s.params.sched = .runToWait ∨ s.others = []) →
    (∃ t : State, exec .start s = .next t ∧ t = (s.withBif { s.bus with start := true }).load (encode .start) [] ∧
      t.completed ∧
      (t.bus.startOn = true →
        t.lineStep.wire = s.wire ++ [if s.bus.opened = true then Token.restart else .start] ∧ t.lineStep.bus.sb = true) ∧
      (s.bus.pe = false → t.others = [])) ∧
    (∃ t : State, exec .stop s = .next t ∧ t = (s.withBif { s.bus with stop := true }).load (encode .stop) [] ∧ t.completed ∧
      (t.bus.stopOn = true → t.lineStep.wire = s.wire ++ [Token.stop] ∧ t.lineStep.bus.opened = false))

/-- R214. REQ after a START, with unbounded waits: it completes if the peer acknowledges the address byte, and hangs at
`wait(ADDR)` with `AF` set if it does not. With no start out and nobody to send one it hangs at `wait(SB)`. -/
def Obligations.ReqOutcome : Prop :=
  ∀ (a : Byte) (s : State), s.ready → s.params.waitBudget = none →
    (s.bus.calling → s.peerAway → s.peer.acknowledges → (s.peer.isPanel = true → a = s.params.dispAddrW) →
      ∃ t : State, exec (.req a) s = .next t ∧ t.completed ∧ t.bus.addressed (if a.getLsbD 0 = true then .rx else .tx) ∧
        t.wire = s.calledWire ++ [Token.byte a true] ∧ t = s.sentBy t) ∧
    (s.bus.calling → s.peerAway →
      ((s.peer.isPanel = true ∧ a ≠ s.params.dispAddrW) ∨
        (s.peer.isPanel = false ∧ ∃ ys, s.peer.acks.next = false :: ys)) →
      ∃ t : State, exec (.req a) s = .next t ∧ t.hungAt .addr ∧ t.bus.af = true ∧
        t.wire = s.calledWire ++ [Token.byte a false] ∧ t.fb = s.fb ∧ t.buf = s.buf ∧ t.res = s.res) ∧
    (s.bus.sb = false → s.others = [] →
      ∃ t : State, exec (.req a) s = .next t ∧ t.hungAt .sb ∧
        t = s.load (encode (.req a)) [.wait .sb, .wrDr (.const a), .wait .addr])

/-- R218. WRB, with unbounded waits. In a write transaction it completes with the byte out and acknowledged, and hangs at
`wait(BTF)` with `AF` set if the peer refuses the byte; it issues no stop. It hangs at `wait(TXE)` after a read-direction
address byte (R451), and where no address byte has been acknowledged. -/
def Obligations.WrbOutcome : Prop :=
  ∀ (a : Byte) (s : State), s.ready → s.params.waitBudget = none →
    ((s.bus.addressed .tx ∨ s.bus.writing) → s.peerAway → s.peer.acknowledges →
      ∃ t : State, exec (.wrb a) s = .next t ∧ t.completed ∧ t.bus.writing ∧ t.bus.btf = true ∧ t.bus.txe = true ∧
        t.wire = s.wire ++ [Token.byte a true] ∧ t = s.sentBy t) ∧
    ((s.bus.addressed .tx ∨ s.bus.writing) → s.peerAway → s.peer.isPanel = false →
      (∃ ys, s.peer.acks.next = false :: ys) →
      ∃ t : State, exec (.wrb a) s = .next t ∧ t.hungAt .btf ∧ t.bus.af = true ∧ t.wire = s.wire ++ [Token.byte a false] ∧
        t.fb = s.fb ∧ t.buf = s.buf ∧ t.res = s.res) ∧
    (s.bus.addressed .rx →
      ∃ t : State, exec (.wrb a) s = .next t ∧ t.hungAt .txe ∧ t.fb = s.fb ∧ t.buf = s.buf ∧ t.res = s.res) ∧
    (s.bus.addr = false → s.bus.txe = false → s.others = [] →
      ∃ t : State, exec (.wrb a) s = .next t ∧ t.hungAt .txe ∧
        t = s.load (encode (.wrb a)) [.wait .txe, .wrDr (.const a), .wait .btf])

/-- R231. WRBURST, initiator role, with unbounded waits. In a write transaction the bytes of BUF go out in order, the
operation completes once the last one is out and acknowledged, and issues no stop. With `n` = 0 right after the address
byte it hangs at its last wait. If the peer acknowledges `j` bytes and refuses the next, the bytes after that one never go
out, `AF` is set, and the operation hangs. It hangs at the first `wait(TXE)` after a read-direction address byte (R451),
and where no address byte has been acknowledged. -/
def Obligations.WrburstOutcome : Prop :=
  ∀ (p n : Half) (s : State), s.ready → s.params.waitBudget = none → p.toNat + n.toNat ≤ 65536 →
    let bytes : Nat → List Byte := fun k => (List.range k).map fun i => s.bufByte (p.toNat + i)
    (((s.bus.addressed .tx ∧ 0 < n.toNat) ∨ (s.bus.writing ∧ 0 < s.bus.sent + n.toNat)) → s.peerAway →
      s.peer.acknowledges →
      ∃ t : State, exec (.wrburst 0 p n) s = .next t ∧ t.completed ∧ t.bus.writing ∧ t.bus.btf = true ∧ t.bus.txe = true ∧
        t.wire = s.wire ++ (bytes n.toNat).map (Token.byte · true) ∧ t = s.sentBy t) ∧
    (s.bus.addressed .tx → s.peerAway → n.toNat = 0 →
      ∃ t : State, exec (.wrburst 0 p n) s = .next t ∧ t.hungAt .btfAndTxe ∧ t.wire = s.wire ∧ t = s.sentBy t) ∧
    (∀ (j : Nat) (ys : List Bool), (s.bus.addressed .tx ∨ s.bus.writing) → s.peerAway → s.peer.isPanel = false →
      s.peer.acks.next = List.replicate j true ++ false :: ys → j < n.toNat →
      ∃ t : State, exec (.wrburst 0 p n) s = .next t ∧ (t.hungAt .txe ∨ t.hungAt .btfAndTxe) ∧ t.bus.af = true ∧
        t.wire = s.wire ++ (bytes j).map (Token.byte · true) ++ [Token.byte (s.bufByte (p.toNat + j)) false] ∧ t.fb = s.fb ∧
        t.buf = s.buf ∧ t.res = s.res) ∧
    (s.bus.addressed .rx → 0 < n.toNat →
      ∃ t : State, exec (.wrburst 0 p n) s = .next t ∧ t.hungAt .txe ∧ t.fb = s.fb ∧ t.buf = s.buf ∧ t.res = s.res) ∧
    (s.bus.addr = false → s.bus.txe = false → s.others = [] → 0 < n.toNat →
      ∃ t : State, exec (.wrburst 0 p n) s = .next t ∧ t.hungAt .txe ∧ t.wire = s.wire ∧ t.bus = s.bus ∧ t.fb = s.fb ∧
        t.buf = s.buf ∧ t.res = s.res)

/-- R222. RDB in a read transaction whose peer supplies the byte `v`, on every schedule: `RES` is `v`, the byte is
refused, and the stop is requested. It hangs after a write-direction address byte, with the stop out. -/
def Obligations.RdbOutcome : Prop :=
  ∀ s : State, s.ready → s.params.waitBudget = none →
    (∀ (v : Byte) (vs : List Byte), s.bus.addressed .rx → s.peer.data.next = v :: vs →
      ∃ t : State, exec .rdb s = .next t ∧ t.completed ∧ t.res = v ∧ t.settledWire = s.wire ++ [Token.byte v false, .stop] ∧
        t.bus.ack = false ∧ t.bus.free ∧ t = { s with res := v }.readBy t) ∧
    (s.bus.addressed .tx →
      ∃ t : State, exec .rdb s = .next t ∧ t.hungAt .rxne ∧ t.wire = s.wire ++ [Token.stop] ∧ t.res = s.res ∧ t.fb = s.fb ∧
        t.buf = s.buf)

/-- R241, R245: RDBURST, initiator, of two bytes. After a read-direction address byte, under `SCHED` = `run_to_wait`, with
a peer that supplies `x`, `y`: the buffer holds them, the first is acknowledged and the second is not, then `P`; `POS` is
left set and `ACK` clear. After a write-direction address byte it hangs at `wait(BTF)` (R451). -/
def Obligations.RdburstTwo : Prop :=
  ∀ (p n : Half) (s : State), s.ready → s.params.waitBudget = none → n.toNat = 2 → p.toNat ≤ 65534 →
    (∀ (x y : Byte) (ys : List Byte), s.params.sched = .runToWait → s.bus.addressed .rx →
      s.peer.data.next = x :: y :: ys →
      ∃ t : State, exec (.rdburst 0 p n) s = .next t ∧ t.completed ∧
        t.settledWire = s.wire ++ [Token.byte x true, .byte y false, .stop] ∧ t.bus.pos = true ∧ t.bus.ack = false ∧
        t.bus.free ∧ t.peer.data.next = ys ∧ t = (s.stored p.toNat [x, y]).readBy t) ∧
    (s.bus.addressed .tx →
      ∃ t : State, exec (.rdburst 0 p n) s = .next t ∧ t.hungAt .btf ∧ t.wire = s.wire ∧ t.buf = s.buf)

/-- R242, R245: RDBURST, initiator, of more than two bytes. After a read-direction address byte, with `POS` = 0, on every
schedule, with a peer that supplies `vs`: the buffer holds them, every one is acknowledged but the last, then `P`; `ACK`
is left clear. With `POS` left at 1 by an earlier two-byte read the bytes are right all the same (R247, R446): they are all
acknowledged, and after them comes `P`, or one byte more that is refused and dropped, and then `P`. After a
write-direction address byte the operation hangs at its first wait (R451). -/
def Obligations.RdburstMany : Prop :=
  ∀ (p n : Half) (s : State), s.ready → s.params.waitBudget = none → 2 < n.toNat → p.toNat + n.toNat ≤ 65536 →
    (∀ vs ys : List Byte, vs.length = n.toNat → s.bus.addressed .rx → s.bus.pos = false →
      s.peer.data.next = vs ++ ys →
      ∃ t : State, exec (.rdburst 0 p n) s = .next t ∧ t.completed ∧
        t.settledWire =
          s.wire ++ vs.dropLast.map (Token.byte · true) ++ (vs.getLast?.map (Token.byte · false)).toList ++ [Token.stop] ∧
        t.bus.pos = false ∧ t.bus.ack = false ∧ t.bus.free ∧ t.peer.data.next = ys ∧
        (∀ (i : Nat) (v : Byte), vs[i]? = some v → t.bufByte (p.toNat + i) = v) ∧
        t = (s.stored p.toNat vs).readBy t) ∧
    (∀ (vs ys : List Byte) (e : Byte), vs.length = n.toNat → s.bus.addressed .rx → s.bus.pos = true →
      s.peer.data.next = vs ++ e :: ys →
      ∃ t : State, exec (.rdburst 0 p n) s = .next t ∧ t.completed ∧ t.bus.ack = false ∧
        (∀ (i : Nat) (v : Byte), vs[i]? = some v → t.bufByte (p.toNat + i) = v) ∧
        t = (s.stored p.toNat vs).readBy t ∧
        (t.wire = s.wire ++ vs.map (Token.byte · true) ++ [Token.stop] ∨
          ∃ k ≤ 2, t.wire = s.wire ++ vs.map (Token.byte · true) ++ [Token.byte e false, .stop].take k)) ∧
    (s.bus.addressed .tx →
      ∃ t : State, exec (.rdburst 0 p n) s = .next t ∧ t.hungAt (if n.toNat = 3 then .btf else .rxne) ∧ t.wire = s.wire ∧
        t.buf = s.buf)

/-- R243, R406. RDBURST, initiator, with `n` < 2: refused under `STRICT_PRECONDITIONS`; else it never completes and
touches no register. Where nobody else can move, as with the wire held after the address byte, nothing moves again. -/
def Obligations.RdburstShort : Prop :=
  ∀ (p n : Half) (s : State), s.ready → n.toNat < 2 → p.toNat + n.toNat ≤ 65536 →
    (s.params.strict = true → exec (.rdburst 0 p n) s = .next (s.refuse .countTooSmall)) ∧
    (s.params.strict = false → s.params.waitBudget = none →
      (∃ t : State, exec (.rdburst 0 p n) s = .next t ∧ t.busy = true ∧ t.upc = [.wait .never] ∧ t.faulted = none) ∧
      (s.bus.addressed .rx ∨ s.bus.addressed .tx →
        ∃ t : State, exec (.rdburst 0 p n) s = .next t ∧ t = s.load (encode (.rdburst 0 p n)) [.wait .never] ∧
          step t = .next t))

/-- R232, R233, R234: WRBURST, responder role, under `SCHED` = `run_to_wait`. With a peer that addresses the block to read,
acknowledges `r` bytes and refuses the next, the operation ends with `AF` clear; the peer got the bytes of BUF in order,
the one byte again and again when there is one, and any byte at all beyond the end. With a peer that stops as well, it
ends like that, `P` going out then or later, or the peer has stopped after fewer bytes, all acknowledged, and it hangs at
`wait(TXE)`; each such number of bytes comes about on some schedule. It hangs there too if the peer addresses the block
to write. -/
def Obligations.ResponderWrite : Prop :=
  ∀ (p n : Half) (sel : OwnSel) (s : State), s.ready → s.params.waitBudget = none →
    s.params.sched = .runToWait → p.toNat + n.toNat ≤ 65536 → s.bus.listening →
    let called : Bool → List Token := fun read => s.wire ++ [Token.start, .byte (s.bus.cfg.matchByte sel read) true]
    let fromBuf : List Byte → Prop := fun os => ∀ (i : Nat) (v : Byte), os[i]? = some v →
      (n.toNat = 1 → v = s.bufByte p.toNat) ∧ (i < n.toNat → v = s.bufByte (p.toNat + i))
    let gave : List Byte → State → Prop := fun os t =>
      t.completed ∧ t.bus.af = false ∧ fromBuf os ∧ t = s.servedBy t
    let left : Nat → State → Prop := fun j t =>
      ∃ os : List Byte, os.length = j ∧ t.hungAt .txe ∧ t.bus.af = false ∧ fromBuf os ∧ t = s.servedBy t ∧
        t.wire = called true ++ os.map (Token.byte · true) ++ [Token.stop]
    (∀ (r : Nat) (ys : List Bool), r ≤ 65536 → s.bus.cfg.answers sel true →
      s.peer.acks.next = List.replicate r true ++ false :: ys →
      (s.peer.moves = [.address sel true] →
        ∃ (t : State) (os : List Byte), exec (.wrburst 1 p n) s = .next t ∧ os.length = r + 1 ∧ gave os t ∧
          t.wire = called true ++ os.dropLast.map (Token.byte · true) ++ (os.getLast?.map (Token.byte · false)).toList) ∧
      (s.peer.moves = [.address sel true, .stop] →
        (∃ t : State, exec (.wrburst 1 p n) s = .next t ∧
          ((∃ j ≤ r, left j t) ∨
            ∃ os : List Byte, os.length = r + 1 ∧ gave os t ∧
              ((t.peer.moves = [.stop] ∧ t.peerOn = true ∧ t.wire = called true ++ receivedTokens os) ∨
                (t.peer.moves = [] ∧ t.wire = called true ++ receivedTokens os ++ [Token.stop])))) ∧
        ∀ j ≤ r, ∃ (q : Script Agent) (t : State), exec (.wrburst 1 p n) { s with sched := q } = .next t ∧ left j t)) ∧
    (s.bus.cfg.answers sel false → s.peer.moves = [.address sel false] →
      ∃ t : State, exec (.wrburst 1 p n) s = .next t ∧ t.hungAt .txe ∧ t.wire = called false ∧ t = s.servedBy t)

/-- R244: RDBURST, responder role, under `SCHED` = `run_to_wait`, with a peer that addresses the block to write, sends
the bytes `vs` and stops: with room for them the buffer holds them, every one is acknowledged, and `STOPF` is clear; with
`n` < the number of bytes the operation faults with the first `n` of them stored. -/
def Obligations.ResponderRead : Prop :=
  ∀ (p n : Half) (sel : OwnSel) (vs : List Byte) (s : State), s.ready → s.params.waitBudget = none →
    s.params.sched = .runToWait → p.toNat + n.toNat ≤ 65536 → vs.length ≤ 65536 → s.bus.listening →
    s.bus.cfg.answers sel false → s.peer.moves = .address sel false :: (vs.map PeerMove.send ++ [PeerMove.stop]) →
    (vs.length ≤ n.toNat →
      ∃ t : State, exec (.rdburst 1 p n) s = .next t ∧ t.completed ∧ t.bus.stopf = false ∧ t.bus.opened = false ∧
        t.wire = s.wire ++ [Token.start, .byte (s.bus.cfg.matchByte sel false) true] ++ vs.map (Token.byte · true) ++ [Token.stop] ∧
        (∀ (i : Nat) (v : Byte), vs[i]? = some v → t.bufByte (p.toNat + i) = v) ∧
        t = (s.stored p.toNat vs).servedBy t) ∧
    (n.toNat < vs.length →
      ∃ t : State, exec (.rdburst 1 p n) s = .next t ∧ t.faulted = some .bufferOverrun ∧ t.busy = true ∧
        t.buf = (s.stored p.toNat (vs.take n.toNat)).buf ∧ t.fb = s.fb ∧ t.res = s.res)

/-- R232, R244: a responder operation hangs at `wait(ADDR)` while the peer does not address the block, with `ACK` set and
nothing else changed but the command word. -/
def Obligations.ResponderUnaddressed : Prop :=
  ∀ (p n : Half) (s : State), s.ready → s.params.waitBudget = none → p.toNat + n.toNat ≤ 65536 →
    s.peer.moves = [] → s.others = [] → s.bus.addr = false →
    let waiting : Instr → State → Prop := fun i t =>
      t.hungAt .addr ∧ t = (s.withBif { s.bus with ack := true }).load (encode i) t.upc
    (∃ t : State, exec (.wrburst 1 p n) s = .next t ∧ waiting (.wrburst 1 p n) t) ∧
    ∃ t : State, exec (.rdburst 1 p n) s = .next t ∧ waiting (.rdburst 1 p n) t

/-! ### Cursor, modes, scrolling -/

/-- R270. MOVECUR sends one command frame, the column range `[col, 127]` and the page range `[page, 7]`, and touches
nothing else; if the peer refuses a byte of it, it hangs (R263). A cursor outside the display is refused. -/
def Obligations.MovecurOutcome : Prop :=
  ∀ (a b : Byte) (s : State), s.ready →
    (127 < a.toNat ∨ 7 < b.toNat → exec (.movecur a b) s = .next (s.refuse .operandRange)) ∧
    (a.toNat ≤ 127 → b.toNat ≤ 7 →
      Transmits (.movecur a b) s s (fun _ => s)
        (cmdTokens s.params [s.params.cmds.colRange, a, 127, s.params.cmds.pageRange, b, 7]))

/-- R310 to R314. The mode operations send one command frame each and touch nothing else, and hang if the peer refuses a
byte of it (R263); the flag is 0 or 1 and the mode 0, 1 or 2. -/
def Obligations.ModeOutcomes : Prop :=
  ∀ (a : Byte) (s : State), s.ready →
    let sends : Instr → List Byte → Prop := fun i cmds => Transmits i s s (fun _ => s) (cmdTokens s.params cmds)
    let m := s.params.cmds
    (1 < a.toNat → exec (.invert a) s = .next (s.refuse .operandRange) ∧
      exec (.dispon a) s = .next (s.refuse .operandRange) ∧ exec (.flip a) s = .next (s.refuse .operandRange)) ∧
    (2 < a.toNat → exec (.addrmode a) s = .next (s.refuse .operandRange)) ∧
    sends (.contrast a) [m.contrast, a] ∧
    (a = 0 → sends (.invert a) [m.normal] ∧ sends (.dispon a) [m.displayOff] ∧
      sends (.flip a) [m.segRemapOn, m.comScanDec]) ∧
    (a = 1 → sends (.invert a) [m.inverse] ∧ sends (.dispon a) [m.displayOn] ∧
      sends (.flip a) [m.segRemapOff, m.comScanInc]) ∧
    (a.toNat ≤ 2 → sends (.addrmode a) [m.addrMode, a])

/-- R320, R322, R324, R326. The scroll operations send one command frame each, page_start before the frequency, and
touch nothing else, and hang if the peer refuses a byte of it (R263); operands outside their ranges are refused. -/
def Obligations.ScrollOutcomes : Prop :=
  ∀ (a b c d e : Byte) (s : State), s.ready →
    let sends : Instr → List Byte → Prop := fun i cmds => Transmits i s s (fun _ => s) (cmdTokens s.params cmds)
    let low := a.toNat ≤ 1 ∧ b.toNat ≤ 7 ∧ c.toNat ≤ 7 ∧ d.toNat ≤ 7
    let m := s.params.cmds
    (¬low → exec (.scrollh a b c d) s = .next (s.refuse .operandRange)) ∧
    (¬(low ∧ e.toNat ≤ 0x3F) → exec (.scrolldiag a b c d e) s = .next (s.refuse .operandRange)) ∧
    (64 < a.toNat ∨ 64 < b.toNat ∨ 64 < a.toNat + b.toNat →
      exec (.setvarea a b) s = .next (s.refuse .operandRange)) ∧
    (1 < a.toNat → exec (.scrollstate a) s = .next (s.refuse .operandRange)) ∧
    (low → sends (.scrollh a b c d) [m.scrollH ||| a, m.dummy00, c, b, d, m.dummy00, m.dummyFF]) ∧
    (low → e.toNat ≤ 0x3F →
      sends (.scrolldiag a b c d e) [if a = 1 then m.scrollDiagLeft else m.scrollDiagRight, m.dummy00, c, b, d, e]) ∧
    (a.toNat + b.toNat ≤ 64 → sends (.setvarea a b) [m.vArea, a, b]) ∧
    (a.toNat ≤ 1 → sends (.scrollstate a) [if a = 1 then m.scrollOn else m.scrollOff])

/-- R328. SCROLLV sends the vertical area of `8 * (frozen_page + 1)` frozen rows, then a diagonal frame to the right
whose offset is the direction's, and hangs if the peer refuses a byte of either (R263); its operands have the ranges of
R322 and `frozen_page` is 0 to 7. -/
def Obligations.ScrollvOutcome : Prop :=
  ∀ (a b c d e : Byte) (s : State), s.ready →
    let fits := a.toNat ≤ 1 ∧ b.toNat ≤ 7 ∧ c.toNat ≤ 7 ∧ d.toNat ≤ 7 ∧ e.toNat ≤ 7
    let m := s.params.cmds
    (¬fits → exec (.scrollv a b c d e) s = .next (s.refuse .operandRange)) ∧
    (fits →
      ∃ rows rest : Byte, rows.toNat = 8 * (e.toNat + 1) ∧ rows.toNat + rest.toNat = 64 ∧
        Transmits (.scrollv a b c d e) s s (fun _ => s)
          (cmdTokens s.params [m.vArea, rows, rest] ++
            cmdTokens s.params
              [m.scrollDiagRight, m.dummy00, c, b, d, if a = 0 then m.offsetUp else m.offsetDown]))

/-! ### The shadow framebuffer -/

/-- R275, R276. RAMWRITE replaces one byte of `FB` and RAMCLEAR zeroes all of them; nothing else changes and nothing goes
on the wire, and a cursor outside the display is refused. Under `SCHED` = `free` the premise asks that nobody else can
move when they are issued. -/
def Obligations.ShadowWrites : Prop :=
  ∀ s : State, s.ready →
    (∀ a b c : Byte,
      (127 < a.toNat ∨ 7 < b.toNat → exec (.ramwrite a b c) s = .next (s.refuse .operandRange)) ∧
      (a.toNat ≤ 127 → b.toNat ≤ 7 → (s.params.sched = .runToWait ∨ s.others = []) →
        ∃ t : State, exec (.ramwrite a b c) s = .next t ∧ t = State.load (encode (.ramwrite a b c)) [] { s with fb := t.fb } ∧
          ∀ k, t.fbByte k = if k = a.toNat + 128 * b.toNat then c else s.fbByte k)) ∧
    ((s.params.sched = .runToWait ∨ s.others = []) →
      ∃ t : State, exec .ramclear s = .next t ∧ t = State.load (encode .ramclear) [] { s with fb := t.fb } ∧
        ∀ k, k < 1024 → t.fbByte k = 0)

/-- R277. RAMUPDATEBYTE merges a byte into `FB`, then sends the cursor and the merged byte. If the peer refuses a byte, the
operation hangs with `FB` already updated (R263). -/
def Obligations.RamupdatebyteOutcome : Prop :=
  ∀ (a b c : Byte) (s : State), s.ready →
    (127 < a.toNat ∨ 7 < b.toNat → exec (.ramupdatebyte a b c) s = .next (s.refuse .operandRange)) ∧
    (a.toNat ≤ 127 → b.toNat ≤ 7 →
      let i := a.toNat + 128 * b.toNat
      let merged := s.fbWrite i (s.fbByte i ||| c)
      Transmits (.ramupdatebyte a b c) s merged (fun _ => merged)
        (cursorTokens s.params a.toNat b.toNat ++ dataTokens s.params [s.fbByte i ||| c]))

/-- R279, R280. RAMUPDATEFULL sends the cursor to the origin and then the 1024 bytes of `FB` in address order, and leaves
`FB` alone; the reference panel in horizontal mode then holds `FB`, with its cursor back at the origin. If the peer
refuses a byte, the operation hangs (R263). -/
def Obligations.RamupdatefullOutcome : Prop :=
  ∀ s : State, s.ready →
    Transmits .ramupdatefull s s (fun _ => s)
      (cursorTokens s.params 0 0 ++ dataTokens s.params ((List.range 1024).map s.fbByte)) ∧
    (s.displayReady → s.watched (· = 0) →
      ∃ t : State, exec .ramupdatefull s = .next t ∧ (∀ k, k < 1024 → t.panel.gdByte k = s.fbByte k ∧ t.lockstep k) ∧
        t.panel.pcol = 0 ∧ t.panel.ppage = 0)

/-- R305. D_INIT sends its seventeen commands in one frame, clears `FB`, and pushes it; the reference panel then is in
horizontal mode and holds zeros. If the peer refuses a byte, the operation hangs (R263): in the command frame, its first
28 bytes, before it has cleared `FB`, else with `FB` clear. -/
def Obligations.DInitOutcome : Prop :=
  ∀ s : State, s.ready →
    (∃ zeroed : State, (∀ k, k < 1024 → zeroed.fbByte k = 0) ∧ zeroed = { s with fb := zeroed.fb } ∧
      let m := s.params.cmds
      Transmits .dInit s zeroed (fun k => if k < 28 then s else zeroed)
        (cmdTokens s.params
          ([m.displayOff, m.clockDiv, m.initClockDiv, m.precharge, m.initPrecharge, m.vcomh, m.initVcomh,
              m.chargePump, m.initChargePump, m.addrMode, m.modeHorizontal, m.startLine, m.segRemapOn] ++
            [m.muxRatio, m.initMuxRatio, m.comScanDec, m.displayOffset, m.initDisplayOffset, m.comPins,
              m.initComPins, m.contrast, m.initContrast, m.resumeRam, m.normal, m.scrollOff, m.displayOn]) ++
          cursorTokens s.params 0 0 ++ dataTokens s.params (List.replicate 1024 0))) ∧
    (s.displayReady → s.watched (fun _ => True) →
      ∃ t : State, exec .dInit s = .next t ∧ t.panel.amode = 0 ∧
        ∀ k, k < 1024 → t.fbByte k = 0 ∧ t.panel.gdByte k = 0)

/-! ### The raster engine -/

/-- R341, R342, R343, R344. A pixel on the display: one bit of `FB` is set or cleared, the cursor moves there, and the whole
updated byte is sent. A pixel off the display is skipped: the operation completes with no effect. If the peer refuses a
byte, the operation hangs with `FB` already updated (R263, R344). -/
def Obligations.PixelOutcomes : Prop :=
  ∀ (a b : Byte) (s : State), s.ready →
    let i := a.toNat + 128 * (b.toNat / 8)
    let bit : Byte := 1#8 <<< (b.toNat % 8)
    (127 < a.toNat ∨ 63 < b.toNat →
      exec (.drawpixel a b) s = .next (s.load (encode (.drawpixel a b)) []) ∧
      exec (.clearpixel a b) s = .next (s.load (encode (.clearpixel a b)) [])) ∧
    (a.toNat ≤ 127 → b.toNat ≤ 63 →
      Transmits (.drawpixel a b) s (s.fbWrite i (s.fbByte i ||| bit)) (fun _ => s.fbWrite i (s.fbByte i ||| bit))
        (cursorTokens s.params a.toNat (b.toNat / 8) ++ dataTokens s.params [s.fbByte i ||| bit]) ∧
      Transmits (.clearpixel a b) s (s.fbWrite i (s.fbByte i &&& ~~~bit)) (fun _ => s.fbWrite i (s.fbByte i &&& ~~~bit))
        (cursorTokens s.params a.toNat (b.toNat / 8) ++ dataTokens s.params [s.fbByte i &&& ~~~bit]) ∧
      ∀ x y : Nat, x ≤ 127 → y ≤ 63 →
        (s.fbWrite i (s.fbByte i ||| bit)).pixel x y = (if x = a.toNat ∧ y = b.toNat then true else s.pixel x y) ∧
        (s.fbWrite i (s.fbByte i &&& ~~~bit)).pixel x y = (if x = a.toNat ∧ y = b.toNat then false else s.pixel x y))

/-- R346. DRAWLINE plots the points of the walk in order, each through the steps of a pixel, and completes; points off the
display are skipped one by one (R341). If the peer refuses a byte, the operation hangs with the points up to that byte's
in `FB` (R263, R344). -/
def Obligations.DrawlineOutcome : Prop :=
  ∀ (a b c d : Byte) (s : State), s.ready →
    let ps := linePoints a.toNat b.toNat c.toNat d.toNat
    Transmits (.drawline a b c d) s (s.plottedAll ps) (s.plottedUntil ps) (plottedTokens ps s) ∧
    ∀ x y : Nat, x ≤ 127 → y ≤ 63 →
      ((s.plottedAll ps).pixel x y = true ↔ s.pixel x y = true ∨ ((x : Int), (y : Int)) ∈ ps)

/-- R346: the walk in closed form. Point `k` is `k` steps along the dominant axis, with ties going to y, and the nearest
whole number of steps along the other, halves rounding away from the start. -/
def Obligations.LineClosedForm : Prop :=
  ∀ a b c d : Byte,
    let sx : Int := if c.toNat < a.toNat then -1 else 1
    let sy : Int := if d.toNat < b.toNat then -1 else 1
    let dx : Nat := max a.toNat c.toNat - min a.toNat c.toNat
    let dy : Nat := max b.toNat d.toNat - min b.toNat d.toNat
    let near : Nat → Nat → Nat → Nat := fun k n m => (2 * k * n + m) / (2 * m)
    linePoints a.toNat b.toNat c.toNat d.toNat =
      (List.range (max dx dy + 1)).map fun (k : Nat) =>
        if dy < dx then (a.toNat + sx * k, b.toNat + sy * near k dy dx)
        else (a.toNat + sx * near k dx dy, b.toNat + sy * k)

/-- R347: a line starts at one end and ends at the other, stays in their bounding box, and has no gap; a line from a point
to itself is that point. -/
def Obligations.LineProperties : Prop :=
  ∀ a b c d : Byte,
    let ps := linePoints a.toNat b.toNat c.toNat d.toNat
    ps.head? = some ((a.toNat : Int), (b.toNat : Int)) ∧ ps.getLast? = some ((c.toNat : Int), (d.toNat : Int)) ∧
    (∀ p ∈ ps, min (a.toNat : Int) c.toNat ≤ p.1 ∧ p.1 ≤ max (a.toNat : Int) c.toNat ∧
      min (b.toNat : Int) d.toNat ≤ p.2 ∧ p.2 ≤ max (b.toNat : Int) d.toNat) ∧
    (∀ (k : Nat) (p q : Point), ps[k]? = some p → ps[k + 1]? = some q →
      (q.1 - p.1).natAbs ≤ 1 ∧ (q.2 - p.2).natAbs ≤ 1 ∧ q ≠ p) ∧
    (a = c → b = d → ps = [((a.toNat : Int), (b.toNat : Int))])

/-- R350, R351. DRAWVLINE and DRAWHLINE plot every point from the first end to the second, both included, stepping backward
where the second comes before the first, and complete. If the peer refuses a byte, they hang with the points up to that
byte's in `FB` (R263, R344). -/
def Obligations.AxisLineOutcomes : Prop :=
  ∀ (a b c : Byte) (s : State), s.ready →
    let span : Byte → Byte → List Int := fun u v =>
      (List.range (max u.toNat v.toNat - min u.toNat v.toNat + 1)).map fun (k : Nat) =>
        if u.toNat ≤ v.toNat then (u.toNat : Int) + k else (u.toNat : Int) - k
    let vs : List Point := (span b c).map fun y => ((a.toNat : Int), y)
    let hs : List Point := (span a b).map fun x => (x, (c.toNat : Int))
    Transmits (.drawvline a b c) s (s.plottedAll vs) (s.plottedUntil vs) (plottedTokens vs s) ∧
    Transmits (.drawhline a b c) s (s.plottedAll hs) (s.plottedUntil hs) (plottedTokens hs s)

/-- R354. DRAWCIRCLE plots the points of the midpoint walk and then the four extrema, in order, and completes; points off
the display are skipped one by one (R341). The walk ends by its own test: more passes allowed change nothing. If the peer
refuses a byte, the operation hangs with the points up to that byte's in `FB` (R263, R344). -/
def Obligations.DrawcircleOutcome : Prop :=
  ∀ (a b c : Byte) (s : State), s.ready →
    let ps := circlePoints a.toNat b.toNat c.toNat
    Transmits (.drawcircle a b c) s (s.plottedAll ps) (s.plottedUntil ps) (plottedTokens ps s) ∧
    (∀ x y : Nat, x ≤ 127 → y ≤ 63 →
      ((s.plottedAll ps).pixel x y = true ↔ s.pixel x y = true ∨ ((x : Int), (y : Int)) ∈ ps)) ∧
    ∀ k : Nat, ps =
      walkCircle a.toNat b.toNat (c.toNat + k) (1 - c.toNat) 1 (-2 * c.toNat) 0 c.toNat ++
        [((a.toNat : Int), (b.toNat : Int) + c.toNat), ((a.toNat : Int), (b.toNat : Int) - c.toNat),
          ((a.toNat : Int) + c.toNat, (b.toNat : Int)), ((a.toNat : Int) - c.toNat, (b.toNat : Int))]

/-- R356: the points of a circle are symmetric under the eight reflections about its centre, and its four extrema are among
them. -/
def Obligations.CircleSymmetry : Prop :=
  ∀ a b c : Byte,
    let ps := circlePoints a.toNat b.toNat c.toNat
    (∀ u v : Int, ((a.toNat : Int) + u, (b.toNat : Int) + v) ∈ ps →
      ((a.toNat : Int) - u, (b.toNat : Int) + v) ∈ ps ∧ ((a.toNat : Int) + u, (b.toNat : Int) - v) ∈ ps ∧
      ((a.toNat : Int) + v, (b.toNat : Int) + u) ∈ ps) ∧
    ((a.toNat : Int), (b.toNat : Int) + c.toNat) ∈ ps

/-! ### Text and bitmap -/

/-- R365. DRAWCHAR sends the glyphs of the characters at `p` up to the sentinel, moves no cursor, and leaves `FB` alone. A
code outside 0x20 to 0x7E, or the end of BUF before the sentinel, is a fault with the characters before it sent. -/
def Obligations.DrawcharOutcome : Prop :=
  ∀ (p : Half) (cs : List Byte) (s : State), s.ready → s.displayReady → p.toNat + cs.length ≤ 65536 →
    (∀ c ∈ cs, 0x20 ≤ c.toNat ∧ c.toNat ≤ 0x7E) → (∀ i c, cs[i]? = some c → s.bufByte (p.toNat + i) = c) →
    let w := cs.flatMap fun c =>
      dataTokens s.params ((List.range 5).map fun k => fontByte s.params ((c.toNat - 0x20) * 5 + k))
    let next := s.bufByte (p.toNat + cs.length)
    (p.toNat + cs.length < 65536 → next = 0 → Completes (.drawchar p) s s w) ∧
    (p.toNat + cs.length < 65536 → next ≠ 0 → (next.toNat < 0x20 ∨ 0x7E < next.toNat) →
      ∃ t : State, exec (.drawchar p) s = .next t ∧ t.faulted = some .charRange ∧ t.busy = true ∧
        t.upc = [.text (p.toNat + cs.length)] ∧ t.settledWire = s.settledWire ++ w ∧ t.fb = s.fb ∧ t.buf = s.buf) ∧
    (p.toNat + cs.length = 65536 →
      ∃ t : State, exec (.drawchar p) s = .next t ∧ t.faulted = some .bufferRange ∧ t.busy = true ∧
        t.settledWire = s.settledWire ++ w ∧ t.fb = s.fb ∧ t.buf = s.buf)

/-- R367. DRAWBITMAP sends the cursor to the origin and the 1024 bytes of BUF from `p` on, in order, and leaves `FB` alone;
the reference panel in horizontal mode then holds the image. If the peer refuses a byte, the operation hangs (R263). An
image that does not fit BUF is refused. -/
def Obligations.DrawbitmapOutcome : Prop :=
  ∀ (p : Half) (s : State), s.ready →
    (64512 < p.toNat → exec (.drawbitmap p) s = .next (s.refuse .bufferRange)) ∧
    (p.toNat ≤ 64512 →
      Transmits (.drawbitmap p) s s (fun _ => s)
        (cursorTokens s.params 0 0 ++
          dataTokens s.params ((List.range 1024).map fun k => s.bufByte (p.toNat + k))) ∧
      (s.displayReady → s.watched (· = 0) →
        ∃ t : State, exec (.drawbitmap p) s = .next t ∧ ∀ k, k < 1024 → t.panel.gdByte k = s.bufByte (p.toNat + k)))

/-- R386, R98: the lockstep of the single-byte path. After RAMUPDATEBYTE, DRAWPIXEL or CLEARPIXEL the reference panel in
horizontal mode holds the shadow's byte, and no other byte of it has changed, whatever stood there before. -/
def Obligations.SingleByteLockstep : Prop :=
  ∀ (a b c : Byte) (s : State) (i : Instr) (k : Nat), s.ready → s.displayReady → s.watched (· = 0) → a.toNat ≤ 127 →
    ((b.toNat ≤ 7 ∧ i = .ramupdatebyte a b c ∧ k = a.toNat + 128 * b.toNat) ∨
      (b.toNat ≤ 63 ∧ (i = .drawpixel a b ∨ i = .clearpixel a b) ∧ k = a.toNat + 128 * (b.toNat / 8))) →
    ∃ t : State, exec i s = .next t ∧ t.completed ∧ t.lockstep k ∧
      (∀ j, j ≠ k → t.panel.gdByte j = s.panel.gdByte j ∧ t.fbByte j = s.fbByte j)

/-! ### What no operation changes, however it ends -/

/-- R36, R37, R40, R341: only the ten operations that write `FB` change a byte of it, and a drawing operation only a byte
that holds one of its points, whether it completes, faults or hangs. The addresses are the meanings' own. -/
def Obligations.FramebufferFrame : Prop :=
  ∀ (i : Instr) (s t : State), exec i s = .next t → ∀ k, t.fbByte k ≠ s.fbByte k →
    let touches : List Point → Prop := fun ps => ∃ p ∈ ps, onDisplay p = true ∧ k = pixelIndex p
    match i with
    | .dInit => True
    | .ramclear => True
    | .ramwrite a b _ => a.toNat ≤ 127 ∧ b.toNat ≤ 7 ∧ k = fbIndex a.toNat b.toNat
    | .ramupdatebyte a b _ => a.toNat ≤ 127 ∧ b.toNat ≤ 7 ∧ k = fbIndex a.toNat b.toNat
    | .drawpixel a b => touches [(coord a, coord b)]
    | .clearpixel a b => touches [(coord a, coord b)]
    | .drawline a b c d => touches (linePoints (coord a) (coord b) (coord c) (coord d))
    | .drawvline a b c => touches (vlinePoints (coord a) (coord b) (coord c))
    | .drawhline a b c => touches (hlinePoints (coord a) (coord b) (coord c))
    | .drawcircle a b c => touches (circlePoints (coord a) (coord b) (coord c))
    | _ => False

/-- R21, R37, R41: only RDBURST changes a byte of BUF, one of the `n` from `p` on, and only RDB changes `RES`, whether the
operation completes, faults or hangs. -/
def Obligations.BufferFrame : Prop :=
  ∀ (i : Instr) (s t : State), exec i s = .next t →
    (∀ k, t.bufByte k ≠ s.bufByte k →
      ∃ a p n, i = .rdburst a p n ∧ p.toNat ≤ k ∧ k < p.toNat + n.toNat ∧ p.toNat + n.toNat ≤ 65536) ∧
    (t.res ≠ s.res → i = .rdb)

/-- R26 to R28, R414, R446, whether the operation completes, faults or hangs: `PE`, `SWRST` and the configuration are
BC_INIT's; `POS` is its and the two-byte read's; `ACK` is its, the read operations' and the responder write's; `START` is
set by START and the frames, `STOP` by STOP, the initiator reads and the frames; a set `AF` is cleared by BC_INIT or the
responder write; the parameters, the host's queue and the first refusal stay. -/
def Obligations.RegisterFrame : Prop :=
  ∀ (i : Instr) (s t : State), exec i s = .next t →
    (((∃ p, i = .bcInit p) ∨
      (t.bus.pe = s.bus.pe ∧ t.bus.swrst = s.bus.swrst ∧ t.bus.cfg = s.bus.cfg ∧
        (t.bus.pos = s.bus.pos ∨ ∃ p n : Half, i = .rdburst 0 p n ∧ n.toNat = 2) ∧
        (t.bus.ack = s.bus.ack ∨ i = .rdb ∨ (∃ a p n, i = .rdburst a p n) ∨ ∃ p n, i = .wrburst 1 p n) ∧
        (s.bus.af = true → t.bus.af = true ∨ ∃ p n, i = .wrburst 1 p n))) ∧
      (t.bus.start = true → s.bus.start = true ∨ i = .start ∨ sendsFrames i = true) ∧
      (t.bus.stop = true →
        s.bus.stop = true ∨ i = .stop ∨ i = .rdb ∨ (∃ p n : Half, i = .rdburst 0 p n ∧ 2 ≤ n.toNat) ∨ sendsFrames i = true) ∧
      t.params = s.params ∧ t.host = s.host ∧ t.peer.isPanel = s.peer.isPanel ∧
      (t.refusal = s.refusal ∨ (s.refusal = none ∧ t.bus = s.bus ∧ t.busy = false)))

/-- R32: the wire only grows, and a micro-operation of the sequencer puts nothing on it. That the reference panel sees every
new token, in order, is the model's reading of R380 (log 11). R383, R385, R388: after a frame of commands, whose lengths
are those of R385 and whose operands are on the display, the panel's cursor, ranges and mode are as R385 says, its memory
is unchanged, and of every group of other commands it holds the one received last, with its argument bytes. A setting, such
as inversion or the scroll state, is such a group. -/
def Obligations.WireRecord : Prop :=
  (∀ s t : State, step s = .next t →
    ∃ w, t.wire = s.wire ++ w ∧
      t.panel = if s.peer.isPanel = true then w.foldl (fun p k => p.see s.params k) s.panel else s.panel) ∧
  (∀ (m : Micro) (rest : List Micro) (s : State), (m.run rest s).wire = s.wire ∧ (m.run rest s).panel = s.panel) ∧
  ∀ (q : Params) (p : Panel) (l : List (Byte × List Byte)), q.cmds = PanelCmds.defaults →
    (∀ v vs, p.rx ≠ .command (v :: vs)) →
    (∀ c ∈ l, cmdLength c.1 = some (c.2.length + 1) ∧ (c.1 = 0x21 → ∀ v ∈ c.2, v.toNat ≤ 127) ∧
      (c.1 = 0x22 → ∀ v ∈ c.2, v.toNat ≤ 7) ∧ (c.1 = 0x20 → ∀ v ∈ c.2, v.toNat ≤ 2)) →
    let t := (cmdTokens q (l.flatMap fun c => c.1 :: c.2)).foldl (fun p k => p.see q k) p
    let effect : Panel → Byte × List Byte → Panel := fun p c =>
      match c with
      | (0x21, [s, e]) => { p with cs := s.toNat, ce := e.toNat, pcol := s.toNat }
      | (0x22, [s, e]) => { p with ps := s.toNat, pe := e.toNat, ppage := s.toNat }
      | (0x20, [m]) => { p with amode := m.toNat }
      | _ => p
    { t with told := p.told } = { l.foldl effect p with rx := .off } ∧
      (∀ cs : List Byte, t.latest cs = l.foldl
        (fun r c => if c.1 ∈ cs ∧ c.1 ∉ [0x20#8, 0x21#8, 0x22#8] then some c else r) (p.latest cs)) ∧
      ∀ g : PanelSetting, t.setting q.cmds g = t.latest (g.commands q.cmds)

/-! ### Holds, hangs and faults -/

/-- R437: with `PE` = 0 and no start condition out, REQ and every operation that sends a frame hang at `wait(SB)` with
nothing on the wire: a drawing operation if one of its points is on the display, DRAWCHAR if its first code is
printable. -/
def Obligations.DisabledHangs : Prop :=
  ∀ (s : State) (i : Instr), s.ready → s.params.waitBudget = none → s.bus.pe = false → s.bus.sb = false →
    i.wellFormed = true →
    let shows : List Point → Prop := fun ps => ∃ x ∈ ps, 0 ≤ x.1 ∧ x.1 ≤ 127 ∧ 0 ≤ x.2 ∧ x.2 ≤ 63
    (match i with
      | .req _ => True
      | .drawpixel a b => shows [(a.toNat, b.toNat)]
      | .clearpixel a b => shows [(a.toNat, b.toNat)]
      | .drawline a b c d => shows (linePoints a.toNat b.toNat c.toNat d.toNat)
      | .drawvline a b c => shows (vlinePoints a.toNat b.toNat c.toNat)
      | .drawhline a b c => shows (hlinePoints a.toNat b.toNat c.toNat)
      | .drawcircle a b c => shows (circlePoints a.toNat b.toNat c.toNat)
      | .drawchar p => 0x20 ≤ (s.bufByte p.toNat).toNat ∧ (s.bufByte p.toNat).toNat ≤ 0x7E
      | i => sendsFrames i = true) →
    ∃ t : State, exec i s = .next t ∧ t.hungAt .sb ∧ t.wire = s.wire ∧ t.buf = s.buf ∧ t.res = s.res

/-- R409, R13: once an operation hangs, with unbounded waits, nothing moves again, whatever the host has queued. -/
def Obligations.HangIsFinal : Prop :=
  ∀ (c : Cond) (s : State), s.hungAt c → s.params.waitBudget = none → step s = .next s

/-- R401, R408: a fault is final. The operation stays at the faulting micro-operation, `busy` stays 1, and no step changes
memory, `RES`, the latches or the host's queue again. -/
def Obligations.FaultIsFinal : Prop :=
  ∀ s : State, s.busy = true → s.faulted.isSome = true →
    ∃ t : State, step s = .next t ∧ t.faulted = s.faulted ∧ t.busy = true ∧ t.upc = s.upc ∧ t.fb = s.fb ∧ t.buf = s.buf ∧
      t.res = s.res ∧ t.latch = s.latch ∧ t.cmdw = s.cmdw ∧ t.host = s.host ∧ t.refusal = s.refusal

/-- R405: under a finite `WAIT_BUDGET` the wait of a hung operation becomes the fault `WaitTimeout`. That a wait nobody can
help counts alone, and the exact count at which it faults, are the model's choice (log 15: R405 counts one evaluation for
each step of another agent); one step counts at most `sliceTicks` (log 1). -/
def Obligations.WaitBudgetExpires : Prop :=
  ∀ (c : Cond) (n : Nat) (s : State), s.hungAt c → s.params.waitBudget = some n → s.polls < n →
    step s = .next
      (if n - s.polls ≤ sliceTicks then { s with polls := n, faulted := some .waitTimeout }
      else { s with polls := s.polls + sliceTicks })

/-! ### The invariant -/

/-- The machine's invariant (Safety.lean) holds after power-on. -/
def Obligations.ResetInv : Prop := State.reset.Inv

/-- R22, R24, R31, R401, R41: every step keeps the invariant, from every state that satisfies it. -/
def Obligations.StepKeepsInv : Prop := ∀ s t : State, s.Inv → step s = .next t → t.Inv

end
end

