-- ==== Sys2Proof/Laws/State.lean ====
section
/-! SUPPORT. Laws/State.lean: the field lemmas of the state updates of Machine/Ops.lean and Machine/Line.lean, one per
field and update, so that no later proof unfolds a record update. -/

namespace Sys2Proof.Machine

/-! ### `withBif` -/

@[simp] theorem State.withBif_cmdw (s : State) (b : Bif) : (s.withBif b).cmdw = s.cmdw := rfl
@[simp] theorem State.withBif_latch (s : State) (b : Bif) : (s.withBif b).latch = s.latch := rfl
@[simp] theorem State.withBif_busy (s : State) (b : Bif) : (s.withBif b).busy = s.busy := rfl
@[simp] theorem State.withBif_res (s : State) (b : Bif) : (s.withBif b).res = s.res := rfl
@[simp] theorem State.withBif_upc (s : State) (b : Bif) : (s.withBif b).upc = s.upc := rfl
@[simp] theorem State.withBif_polls (s : State) (b : Bif) : (s.withBif b).polls = s.polls := rfl
@[simp] theorem State.withBif_bus (s : State) (b : Bif) : (s.withBif b).bus = b := rfl
@[simp] theorem State.withBif_wire (s : State) (b : Bif) : (s.withBif b).wire = s.wire := rfl
@[simp] theorem State.withBif_fb (s : State) (b : Bif) : (s.withBif b).fb = s.fb := rfl
@[simp] theorem State.withBif_buf (s : State) (b : Bif) : (s.withBif b).buf = s.buf := rfl
@[simp] theorem State.withBif_refusal (s : State) (b : Bif) : (s.withBif b).refusal = s.refusal := rfl
@[simp] theorem State.withBif_faulted (s : State) (b : Bif) : (s.withBif b).faulted = s.faulted := rfl
@[simp] theorem State.withBif_params (s : State) (b : Bif) : (s.withBif b).params = s.params := rfl
@[simp] theorem State.withBif_host (s : State) (b : Bif) : (s.withBif b).host = s.host := rfl
@[simp] theorem State.withBif_peer (s : State) (b : Bif) : (s.withBif b).peer = s.peer := rfl
@[simp] theorem State.withBif_panel (s : State) (b : Bif) : (s.withBif b).panel = s.panel := rfl
@[simp] theorem State.withBif_sched (s : State) (b : Bif) : (s.withBif b).sched = s.sched := rfl
@[simp] theorem State.withBif_draws (s : State) (b : Bif) : (s.withBif b).draws = s.draws := rfl

/-! ### `goto` -/

@[simp] theorem State.goto_cmdw (s : State) (c : List Micro) : (s.goto c).cmdw = s.cmdw := rfl
@[simp] theorem State.goto_latch (s : State) (c : List Micro) : (s.goto c).latch = s.latch := rfl
@[simp] theorem State.goto_busy (s : State) (c : List Micro) : (s.goto c).busy = !c.isEmpty := rfl
@[simp] theorem State.goto_res (s : State) (c : List Micro) : (s.goto c).res = s.res := rfl
@[simp] theorem State.goto_upc (s : State) (c : List Micro) : (s.goto c).upc = c := rfl
@[simp] theorem State.goto_polls (s : State) (c : List Micro) : (s.goto c).polls = 0 := rfl
@[simp] theorem State.goto_bus (s : State) (c : List Micro) : (s.goto c).bus = s.bus := rfl
@[simp] theorem State.goto_wire (s : State) (c : List Micro) : (s.goto c).wire = s.wire := rfl
@[simp] theorem State.goto_fb (s : State) (c : List Micro) : (s.goto c).fb = s.fb := rfl
@[simp] theorem State.goto_buf (s : State) (c : List Micro) : (s.goto c).buf = s.buf := rfl
@[simp] theorem State.goto_refusal (s : State) (c : List Micro) : (s.goto c).refusal = s.refusal := rfl
@[simp] theorem State.goto_faulted (s : State) (c : List Micro) : (s.goto c).faulted = s.faulted := rfl
@[simp] theorem State.goto_params (s : State) (c : List Micro) : (s.goto c).params = s.params := rfl
@[simp] theorem State.goto_host (s : State) (c : List Micro) : (s.goto c).host = s.host := rfl
@[simp] theorem State.goto_peer (s : State) (c : List Micro) : (s.goto c).peer = s.peer := rfl
@[simp] theorem State.goto_panel (s : State) (c : List Micro) : (s.goto c).panel = s.panel := rfl
@[simp] theorem State.goto_sched (s : State) (c : List Micro) : (s.goto c).sched = s.sched := rfl
@[simp] theorem State.goto_draws (s : State) (c : List Micro) : (s.goto c).draws = s.draws := rfl

/-! ### `emit` -/

@[simp] theorem State.emit_cmdw (s : State) (k : Token) : (s.emit k).cmdw = s.cmdw := rfl
@[simp] theorem State.emit_latch (s : State) (k : Token) : (s.emit k).latch = s.latch := rfl
@[simp] theorem State.emit_busy (s : State) (k : Token) : (s.emit k).busy = s.busy := rfl
@[simp] theorem State.emit_res (s : State) (k : Token) : (s.emit k).res = s.res := rfl
@[simp] theorem State.emit_upc (s : State) (k : Token) : (s.emit k).upc = s.upc := rfl
@[simp] theorem State.emit_polls (s : State) (k : Token) : (s.emit k).polls = s.polls := rfl
@[simp] theorem State.emit_bus (s : State) (k : Token) : (s.emit k).bus = s.bus := rfl
@[simp] theorem State.emit_wire (s : State) (k : Token) : (s.emit k).wire = s.wire ++ [k] := rfl
@[simp] theorem State.emit_fb (s : State) (k : Token) : (s.emit k).fb = s.fb := rfl
@[simp] theorem State.emit_buf (s : State) (k : Token) : (s.emit k).buf = s.buf := rfl
@[simp] theorem State.emit_refusal (s : State) (k : Token) : (s.emit k).refusal = s.refusal := rfl
@[simp] theorem State.emit_faulted (s : State) (k : Token) : (s.emit k).faulted = s.faulted := rfl
@[simp] theorem State.emit_params (s : State) (k : Token) : (s.emit k).params = s.params := rfl
@[simp] theorem State.emit_host (s : State) (k : Token) : (s.emit k).host = s.host := rfl
@[simp] theorem State.emit_peer (s : State) (k : Token) : (s.emit k).peer = s.peer := rfl
@[simp] theorem State.emit_panel (s : State) (k : Token) : (s.emit k).panel = if s.peer.isPanel then s.panel.see s.params k else s.panel := rfl
@[simp] theorem State.emit_sched (s : State) (k : Token) : (s.emit k).sched = s.sched := rfl
@[simp] theorem State.emit_draws (s : State) (k : Token) : (s.emit k).draws = s.draws := rfl

/-! ### `drawn` -/

@[simp] theorem State.drawn_cmdw (s : State) : s.drawn.cmdw = s.cmdw := rfl
@[simp] theorem State.drawn_latch (s : State) : s.drawn.latch = s.latch := rfl
@[simp] theorem State.drawn_busy (s : State) : s.drawn.busy = s.busy := rfl
@[simp] theorem State.drawn_res (s : State) : s.drawn.res = s.res := rfl
@[simp] theorem State.drawn_upc (s : State) : s.drawn.upc = s.upc := rfl
@[simp] theorem State.drawn_polls (s : State) : s.drawn.polls = s.polls := rfl
@[simp] theorem State.drawn_bus (s : State) : s.drawn.bus = s.bus := rfl
@[simp] theorem State.drawn_wire (s : State) : s.drawn.wire = s.wire := rfl
@[simp] theorem State.drawn_fb (s : State) : s.drawn.fb = s.fb := rfl
@[simp] theorem State.drawn_buf (s : State) : s.drawn.buf = s.buf := rfl
@[simp] theorem State.drawn_refusal (s : State) : s.drawn.refusal = s.refusal := rfl
@[simp] theorem State.drawn_faulted (s : State) : s.drawn.faulted = s.faulted := rfl
@[simp] theorem State.drawn_params (s : State) : s.drawn.params = s.params := rfl
@[simp] theorem State.drawn_host (s : State) : s.drawn.host = s.host := rfl
@[simp] theorem State.drawn_peer (s : State) : s.drawn.peer = s.peer := rfl
@[simp] theorem State.drawn_panel (s : State) : s.drawn.panel = s.panel := rfl
@[simp] theorem State.drawn_sched (s : State) : s.drawn.sched = s.sched := rfl
@[simp] theorem State.drawn_draws (s : State) : s.drawn.draws = s.draws + 1 := rfl

/-! ### `refuse` -/

@[simp] theorem State.refuse_cmdw (s : State) (r : RefuseReason) : (s.refuse r).cmdw = s.cmdw := rfl
@[simp] theorem State.refuse_latch (s : State) (r : RefuseReason) : (s.refuse r).latch = s.latch := rfl
@[simp] theorem State.refuse_busy (s : State) (r : RefuseReason) : (s.refuse r).busy = s.busy := rfl
@[simp] theorem State.refuse_res (s : State) (r : RefuseReason) : (s.refuse r).res = s.res := rfl
@[simp] theorem State.refuse_upc (s : State) (r : RefuseReason) : (s.refuse r).upc = s.upc := rfl
@[simp] theorem State.refuse_polls (s : State) (r : RefuseReason) : (s.refuse r).polls = s.polls := rfl
@[simp] theorem State.refuse_bus (s : State) (r : RefuseReason) : (s.refuse r).bus = s.bus := rfl
@[simp] theorem State.refuse_wire (s : State) (r : RefuseReason) : (s.refuse r).wire = s.wire := rfl
@[simp] theorem State.refuse_fb (s : State) (r : RefuseReason) : (s.refuse r).fb = s.fb := rfl
@[simp] theorem State.refuse_buf (s : State) (r : RefuseReason) : (s.refuse r).buf = s.buf := rfl
@[simp] theorem State.refuse_refusal (s : State) (r : RefuseReason) : (s.refuse r).refusal = (s.refusal <|> some r) := rfl
@[simp] theorem State.refuse_faulted (s : State) (r : RefuseReason) : (s.refuse r).faulted = s.faulted := rfl
@[simp] theorem State.refuse_params (s : State) (r : RefuseReason) : (s.refuse r).params = s.params := rfl
@[simp] theorem State.refuse_host (s : State) (r : RefuseReason) : (s.refuse r).host = s.host := rfl
@[simp] theorem State.refuse_peer (s : State) (r : RefuseReason) : (s.refuse r).peer = s.peer := rfl
@[simp] theorem State.refuse_panel (s : State) (r : RefuseReason) : (s.refuse r).panel = s.panel := rfl
@[simp] theorem State.refuse_sched (s : State) (r : RefuseReason) : (s.refuse r).sched = s.sched := rfl
@[simp] theorem State.refuse_draws (s : State) (r : RefuseReason) : (s.refuse r).draws = s.draws := rfl

/-! ### `fault` -/

@[simp] theorem State.fault_cmdw (s : State) (r : FaultReason) : (s.fault r).cmdw = s.cmdw := rfl
@[simp] theorem State.fault_latch (s : State) (r : FaultReason) : (s.fault r).latch = s.latch := rfl
@[simp] theorem State.fault_busy (s : State) (r : FaultReason) : (s.fault r).busy = s.busy := rfl
@[simp] theorem State.fault_res (s : State) (r : FaultReason) : (s.fault r).res = s.res := rfl
@[simp] theorem State.fault_upc (s : State) (r : FaultReason) : (s.fault r).upc = s.upc := rfl
@[simp] theorem State.fault_polls (s : State) (r : FaultReason) : (s.fault r).polls = s.polls := rfl
@[simp] theorem State.fault_bus (s : State) (r : FaultReason) : (s.fault r).bus = s.bus := rfl
@[simp] theorem State.fault_wire (s : State) (r : FaultReason) : (s.fault r).wire = s.wire := rfl
@[simp] theorem State.fault_fb (s : State) (r : FaultReason) : (s.fault r).fb = s.fb := rfl
@[simp] theorem State.fault_buf (s : State) (r : FaultReason) : (s.fault r).buf = s.buf := rfl
@[simp] theorem State.fault_refusal (s : State) (r : FaultReason) : (s.fault r).refusal = s.refusal := rfl
@[simp] theorem State.fault_faulted (s : State) (r : FaultReason) : (s.fault r).faulted = some r := rfl
@[simp] theorem State.fault_params (s : State) (r : FaultReason) : (s.fault r).params = s.params := rfl
@[simp] theorem State.fault_host (s : State) (r : FaultReason) : (s.fault r).host = s.host := rfl
@[simp] theorem State.fault_peer (s : State) (r : FaultReason) : (s.fault r).peer = s.peer := rfl
@[simp] theorem State.fault_panel (s : State) (r : FaultReason) : (s.fault r).panel = s.panel := rfl
@[simp] theorem State.fault_sched (s : State) (r : FaultReason) : (s.fault r).sched = s.sched := rfl
@[simp] theorem State.fault_draws (s : State) (r : FaultReason) : (s.fault r).draws = s.draws := rfl

/-! ### `fbWrite` -/

@[simp] theorem State.fbWrite_cmdw (s : State) (i : Nat) (v : Byte) : (s.fbWrite i v).cmdw = s.cmdw := rfl
@[simp] theorem State.fbWrite_latch (s : State) (i : Nat) (v : Byte) : (s.fbWrite i v).latch = s.latch := rfl
@[simp] theorem State.fbWrite_busy (s : State) (i : Nat) (v : Byte) : (s.fbWrite i v).busy = s.busy := rfl
@[simp] theorem State.fbWrite_res (s : State) (i : Nat) (v : Byte) : (s.fbWrite i v).res = s.res := rfl
@[simp] theorem State.fbWrite_upc (s : State) (i : Nat) (v : Byte) : (s.fbWrite i v).upc = s.upc := rfl
@[simp] theorem State.fbWrite_polls (s : State) (i : Nat) (v : Byte) : (s.fbWrite i v).polls = s.polls := rfl
@[simp] theorem State.fbWrite_bus (s : State) (i : Nat) (v : Byte) : (s.fbWrite i v).bus = s.bus := rfl
@[simp] theorem State.fbWrite_wire (s : State) (i : Nat) (v : Byte) : (s.fbWrite i v).wire = s.wire := rfl
@[simp] theorem State.fbWrite_fb (s : State) (i : Nat) (v : Byte) : (s.fbWrite i v).fb = s.fb.write i v := rfl
@[simp] theorem State.fbWrite_buf (s : State) (i : Nat) (v : Byte) : (s.fbWrite i v).buf = s.buf := rfl
@[simp] theorem State.fbWrite_refusal (s : State) (i : Nat) (v : Byte) : (s.fbWrite i v).refusal = s.refusal := rfl
@[simp] theorem State.fbWrite_faulted (s : State) (i : Nat) (v : Byte) : (s.fbWrite i v).faulted = s.faulted := rfl
@[simp] theorem State.fbWrite_params (s : State) (i : Nat) (v : Byte) : (s.fbWrite i v).params = s.params := rfl
@[simp] theorem State.fbWrite_host (s : State) (i : Nat) (v : Byte) : (s.fbWrite i v).host = s.host := rfl
@[simp] theorem State.fbWrite_peer (s : State) (i : Nat) (v : Byte) : (s.fbWrite i v).peer = s.peer := rfl
@[simp] theorem State.fbWrite_panel (s : State) (i : Nat) (v : Byte) : (s.fbWrite i v).panel = s.panel := rfl
@[simp] theorem State.fbWrite_sched (s : State) (i : Nat) (v : Byte) : (s.fbWrite i v).sched = s.sched := rfl
@[simp] theorem State.fbWrite_draws (s : State) (i : Nat) (v : Byte) : (s.fbWrite i v).draws = s.draws := rfl

/-! ### `bufWrite` -/

@[simp] theorem State.bufWrite_cmdw (s : State) (i : Nat) (v : Byte) : (s.bufWrite i v).cmdw = s.cmdw := rfl
@[simp] theorem State.bufWrite_latch (s : State) (i : Nat) (v : Byte) : (s.bufWrite i v).latch = s.latch := rfl
@[simp] theorem State.bufWrite_busy (s : State) (i : Nat) (v : Byte) : (s.bufWrite i v).busy = s.busy := rfl
@[simp] theorem State.bufWrite_res (s : State) (i : Nat) (v : Byte) : (s.bufWrite i v).res = s.res := rfl
@[simp] theorem State.bufWrite_upc (s : State) (i : Nat) (v : Byte) : (s.bufWrite i v).upc = s.upc := rfl
@[simp] theorem State.bufWrite_polls (s : State) (i : Nat) (v : Byte) : (s.bufWrite i v).polls = s.polls := rfl
@[simp] theorem State.bufWrite_bus (s : State) (i : Nat) (v : Byte) : (s.bufWrite i v).bus = s.bus := rfl
@[simp] theorem State.bufWrite_wire (s : State) (i : Nat) (v : Byte) : (s.bufWrite i v).wire = s.wire := rfl
@[simp] theorem State.bufWrite_fb (s : State) (i : Nat) (v : Byte) : (s.bufWrite i v).fb = s.fb := rfl
@[simp] theorem State.bufWrite_buf (s : State) (i : Nat) (v : Byte) : (s.bufWrite i v).buf = s.buf.write i v := rfl
@[simp] theorem State.bufWrite_refusal (s : State) (i : Nat) (v : Byte) : (s.bufWrite i v).refusal = s.refusal := rfl
@[simp] theorem State.bufWrite_faulted (s : State) (i : Nat) (v : Byte) : (s.bufWrite i v).faulted = s.faulted := rfl
@[simp] theorem State.bufWrite_params (s : State) (i : Nat) (v : Byte) : (s.bufWrite i v).params = s.params := rfl
@[simp] theorem State.bufWrite_host (s : State) (i : Nat) (v : Byte) : (s.bufWrite i v).host = s.host := rfl
@[simp] theorem State.bufWrite_peer (s : State) (i : Nat) (v : Byte) : (s.bufWrite i v).peer = s.peer := rfl
@[simp] theorem State.bufWrite_panel (s : State) (i : Nat) (v : Byte) : (s.bufWrite i v).panel = s.panel := rfl
@[simp] theorem State.bufWrite_sched (s : State) (i : Nat) (v : Byte) : (s.bufWrite i v).sched = s.sched := rfl
@[simp] theorem State.bufWrite_draws (s : State) (i : Nat) (v : Byte) : (s.bufWrite i v).draws = s.draws := rfl

/-! ### `fbClear` -/

@[simp] theorem State.fbClear_cmdw (s : State) : s.fbClear.cmdw = s.cmdw := by
  simp only [State.fbClear]
@[simp] theorem State.fbClear_latch (s : State) : s.fbClear.latch = s.latch := by
  simp only [State.fbClear]
@[simp] theorem State.fbClear_busy (s : State) : s.fbClear.busy = s.busy := by
  simp only [State.fbClear]
@[simp] theorem State.fbClear_res (s : State) : s.fbClear.res = s.res := by
  simp only [State.fbClear]
@[simp] theorem State.fbClear_upc (s : State) : s.fbClear.upc = s.upc := by
  simp only [State.fbClear]
@[simp] theorem State.fbClear_polls (s : State) : s.fbClear.polls = s.polls := by
  simp only [State.fbClear]
@[simp] theorem State.fbClear_bus (s : State) : s.fbClear.bus = s.bus := by
  simp only [State.fbClear]
@[simp] theorem State.fbClear_wire (s : State) : s.fbClear.wire = s.wire := by
  simp only [State.fbClear]
@[simp] theorem State.fbClear_fb (s : State) : s.fbClear.fb = Memory.zeros 1024 := by
  simp only [State.fbClear]
@[simp] theorem State.fbClear_buf (s : State) : s.fbClear.buf = s.buf := by
  simp only [State.fbClear]
@[simp] theorem State.fbClear_refusal (s : State) : s.fbClear.refusal = s.refusal := by
  simp only [State.fbClear]
@[simp] theorem State.fbClear_faulted (s : State) : s.fbClear.faulted = s.faulted := by
  simp only [State.fbClear]
@[simp] theorem State.fbClear_params (s : State) : s.fbClear.params = s.params := by
  simp only [State.fbClear]
@[simp] theorem State.fbClear_host (s : State) : s.fbClear.host = s.host := by
  simp only [State.fbClear]
@[simp] theorem State.fbClear_peer (s : State) : s.fbClear.peer = s.peer := by
  simp only [State.fbClear]
@[simp] theorem State.fbClear_panel (s : State) : s.fbClear.panel = s.panel := by
  simp only [State.fbClear]
@[simp] theorem State.fbClear_sched (s : State) : s.fbClear.sched = s.sched := by
  simp only [State.fbClear]
@[simp] theorem State.fbClear_draws (s : State) : s.fbClear.draws = s.draws := by
  simp only [State.fbClear]

/-! ### `load` -/

@[simp] theorem State.load_cmdw (s : State) (w : Word) (c : List Micro) : (s.load w c).cmdw = w := rfl
@[simp] theorem State.load_latch (s : State) (w : Word) (c : List Micro) : (s.load w c).latch = Latches.ofWord w := rfl
@[simp] theorem State.load_busy (s : State) (w : Word) (c : List Micro) : (s.load w c).busy = !c.isEmpty := rfl
@[simp] theorem State.load_res (s : State) (w : Word) (c : List Micro) : (s.load w c).res = s.res := rfl
@[simp] theorem State.load_upc (s : State) (w : Word) (c : List Micro) : (s.load w c).upc = c := rfl
@[simp] theorem State.load_polls (s : State) (w : Word) (c : List Micro) : (s.load w c).polls = 0 := rfl
@[simp] theorem State.load_bus (s : State) (w : Word) (c : List Micro) : (s.load w c).bus = s.bus := rfl
@[simp] theorem State.load_wire (s : State) (w : Word) (c : List Micro) : (s.load w c).wire = s.wire := rfl
@[simp] theorem State.load_fb (s : State) (w : Word) (c : List Micro) : (s.load w c).fb = s.fb := rfl
@[simp] theorem State.load_buf (s : State) (w : Word) (c : List Micro) : (s.load w c).buf = s.buf := rfl
@[simp] theorem State.load_refusal (s : State) (w : Word) (c : List Micro) : (s.load w c).refusal = s.refusal := rfl
@[simp] theorem State.load_faulted (s : State) (w : Word) (c : List Micro) : (s.load w c).faulted = s.faulted := rfl
@[simp] theorem State.load_params (s : State) (w : Word) (c : List Micro) : (s.load w c).params = s.params := rfl
@[simp] theorem State.load_host (s : State) (w : Word) (c : List Micro) : (s.load w c).host = s.host := rfl
@[simp] theorem State.load_peer (s : State) (w : Word) (c : List Micro) : (s.load w c).peer = s.peer := rfl
@[simp] theorem State.load_panel (s : State) (w : Word) (c : List Micro) : (s.load w c).panel = s.panel := rfl
@[simp] theorem State.load_sched (s : State) (w : Word) (c : List Micro) : (s.load w c).sched = s.sched := rfl
@[simp] theorem State.load_draws (s : State) (w : Word) (c : List Micro) : (s.load w c).draws = s.draws := rfl

/-! ### `askAck` -/

@[simp] theorem State.askAck_cmdw (s : State) : s.askAck.2.cmdw = s.cmdw := rfl
@[simp] theorem State.askAck_latch (s : State) : s.askAck.2.latch = s.latch := rfl
@[simp] theorem State.askAck_busy (s : State) : s.askAck.2.busy = s.busy := rfl
@[simp] theorem State.askAck_res (s : State) : s.askAck.2.res = s.res := rfl
@[simp] theorem State.askAck_upc (s : State) : s.askAck.2.upc = s.upc := rfl
@[simp] theorem State.askAck_polls (s : State) : s.askAck.2.polls = s.polls := rfl
@[simp] theorem State.askAck_bus (s : State) : s.askAck.2.bus = s.bus := rfl
@[simp] theorem State.askAck_wire (s : State) : s.askAck.2.wire = s.wire := rfl
@[simp] theorem State.askAck_fb (s : State) : s.askAck.2.fb = s.fb := rfl
@[simp] theorem State.askAck_buf (s : State) : s.askAck.2.buf = s.buf := rfl
@[simp] theorem State.askAck_refusal (s : State) : s.askAck.2.refusal = s.refusal := rfl
@[simp] theorem State.askAck_faulted (s : State) : s.askAck.2.faulted = s.faulted := rfl
@[simp] theorem State.askAck_params (s : State) : s.askAck.2.params = s.params := rfl
@[simp] theorem State.askAck_host (s : State) : s.askAck.2.host = s.host := rfl
@[simp] theorem State.askAck_panel (s : State) : s.askAck.2.panel = s.panel := rfl
@[simp] theorem State.askAck_sched (s : State) : s.askAck.2.sched = s.sched := rfl

/-! ### `askByte` -/

@[simp] theorem State.askByte_cmdw (s : State) : s.askByte.2.cmdw = s.cmdw := rfl
@[simp] theorem State.askByte_latch (s : State) : s.askByte.2.latch = s.latch := rfl
@[simp] theorem State.askByte_busy (s : State) : s.askByte.2.busy = s.busy := rfl
@[simp] theorem State.askByte_res (s : State) : s.askByte.2.res = s.res := rfl
@[simp] theorem State.askByte_upc (s : State) : s.askByte.2.upc = s.upc := rfl
@[simp] theorem State.askByte_polls (s : State) : s.askByte.2.polls = s.polls := rfl
@[simp] theorem State.askByte_bus (s : State) : s.askByte.2.bus = s.bus := rfl
@[simp] theorem State.askByte_wire (s : State) : s.askByte.2.wire = s.wire := rfl
@[simp] theorem State.askByte_fb (s : State) : s.askByte.2.fb = s.fb := rfl
@[simp] theorem State.askByte_buf (s : State) : s.askByte.2.buf = s.buf := rfl
@[simp] theorem State.askByte_refusal (s : State) : s.askByte.2.refusal = s.refusal := rfl
@[simp] theorem State.askByte_faulted (s : State) : s.askByte.2.faulted = s.faulted := rfl
@[simp] theorem State.askByte_params (s : State) : s.askByte.2.params = s.params := rfl
@[simp] theorem State.askByte_host (s : State) : s.askByte.2.host = s.host := rfl
@[simp] theorem State.askByte_panel (s : State) : s.askByte.2.panel = s.panel := rfl
@[simp] theorem State.askByte_sched (s : State) : s.askByte.2.sched = s.sched := rfl

/-! ### `choose` -/

@[simp] theorem State.choose_cmdw (s : State) (o : List Agent) : (s.choose o).2.cmdw = s.cmdw := by
  unfold State.choose; split <;> rfl
@[simp] theorem State.choose_latch (s : State) (o : List Agent) : (s.choose o).2.latch = s.latch := by
  unfold State.choose; split <;> rfl
@[simp] theorem State.choose_busy (s : State) (o : List Agent) : (s.choose o).2.busy = s.busy := by
  unfold State.choose; split <;> rfl
@[simp] theorem State.choose_res (s : State) (o : List Agent) : (s.choose o).2.res = s.res := by
  unfold State.choose; split <;> rfl
@[simp] theorem State.choose_upc (s : State) (o : List Agent) : (s.choose o).2.upc = s.upc := by
  unfold State.choose; split <;> rfl
@[simp] theorem State.choose_polls (s : State) (o : List Agent) : (s.choose o).2.polls = s.polls := by
  unfold State.choose; split <;> rfl
@[simp] theorem State.choose_bus (s : State) (o : List Agent) : (s.choose o).2.bus = s.bus := by
  unfold State.choose; split <;> rfl
@[simp] theorem State.choose_wire (s : State) (o : List Agent) : (s.choose o).2.wire = s.wire := by
  unfold State.choose; split <;> rfl
@[simp] theorem State.choose_fb (s : State) (o : List Agent) : (s.choose o).2.fb = s.fb := by
  unfold State.choose; split <;> rfl
@[simp] theorem State.choose_buf (s : State) (o : List Agent) : (s.choose o).2.buf = s.buf := by
  unfold State.choose; split <;> rfl
@[simp] theorem State.choose_refusal (s : State) (o : List Agent) : (s.choose o).2.refusal = s.refusal := by
  unfold State.choose; split <;> rfl
@[simp] theorem State.choose_faulted (s : State) (o : List Agent) : (s.choose o).2.faulted = s.faulted := by
  unfold State.choose; split <;> rfl
@[simp] theorem State.choose_params (s : State) (o : List Agent) : (s.choose o).2.params = s.params := by
  unfold State.choose; split <;> rfl
@[simp] theorem State.choose_host (s : State) (o : List Agent) : (s.choose o).2.host = s.host := by
  unfold State.choose; split <;> rfl
@[simp] theorem State.choose_peer (s : State) (o : List Agent) : (s.choose o).2.peer = s.peer := by
  unfold State.choose; split <;> rfl
@[simp] theorem State.choose_panel (s : State) (o : List Agent) : (s.choose o).2.panel = s.panel := by
  unfold State.choose; split <;> rfl

/-! ### `reschedule` and `polled` -/

/-- `s` but for the schedule's script and the counter of free values. -/
def State.reschedule (q : Script Agent) (d : Nat) (s : State) : State := { s with sched := q, draws := d }

@[simp] theorem State.reschedule_cmdw (s : State) (q : Script Agent) (d : Nat) : (s.reschedule q d).cmdw = s.cmdw := rfl
@[simp] theorem State.reschedule_latch (s : State) (q : Script Agent) (d : Nat) : (s.reschedule q d).latch = s.latch := rfl
@[simp] theorem State.reschedule_busy (s : State) (q : Script Agent) (d : Nat) : (s.reschedule q d).busy = s.busy := rfl
@[simp] theorem State.reschedule_res (s : State) (q : Script Agent) (d : Nat) : (s.reschedule q d).res = s.res := rfl
@[simp] theorem State.reschedule_upc (s : State) (q : Script Agent) (d : Nat) : (s.reschedule q d).upc = s.upc := rfl
@[simp] theorem State.reschedule_polls (s : State) (q : Script Agent) (d : Nat) : (s.reschedule q d).polls = s.polls := rfl
@[simp] theorem State.reschedule_bus (s : State) (q : Script Agent) (d : Nat) : (s.reschedule q d).bus = s.bus := rfl
@[simp] theorem State.reschedule_wire (s : State) (q : Script Agent) (d : Nat) : (s.reschedule q d).wire = s.wire := rfl
@[simp] theorem State.reschedule_fb (s : State) (q : Script Agent) (d : Nat) : (s.reschedule q d).fb = s.fb := rfl
@[simp] theorem State.reschedule_buf (s : State) (q : Script Agent) (d : Nat) : (s.reschedule q d).buf = s.buf := rfl
@[simp] theorem State.reschedule_refusal (s : State) (q : Script Agent) (d : Nat) : (s.reschedule q d).refusal = s.refusal := rfl
@[simp] theorem State.reschedule_faulted (s : State) (q : Script Agent) (d : Nat) : (s.reschedule q d).faulted = s.faulted := rfl
@[simp] theorem State.reschedule_params (s : State) (q : Script Agent) (d : Nat) : (s.reschedule q d).params = s.params := rfl
@[simp] theorem State.reschedule_host (s : State) (q : Script Agent) (d : Nat) : (s.reschedule q d).host = s.host := rfl
@[simp] theorem State.reschedule_peer (s : State) (q : Script Agent) (d : Nat) : (s.reschedule q d).peer = s.peer := rfl
@[simp] theorem State.reschedule_panel (s : State) (q : Script Agent) (d : Nat) : (s.reschedule q d).panel = s.panel := rfl
@[simp] theorem State.reschedule_sched (s : State) (q : Script Agent) (d : Nat) : (s.reschedule q d).sched = q := rfl
@[simp] theorem State.reschedule_draws (s : State) (q : Script Agent) (d : Nat) : (s.reschedule q d).draws = d := rfl
@[simp] theorem State.polled_cmdw (s : State) : s.polled.cmdw = s.cmdw := rfl
@[simp] theorem State.polled_latch (s : State) : s.polled.latch = s.latch := rfl
@[simp] theorem State.polled_busy (s : State) : s.polled.busy = s.busy := rfl
@[simp] theorem State.polled_res (s : State) : s.polled.res = s.res := rfl
@[simp] theorem State.polled_upc (s : State) : s.polled.upc = s.upc := rfl
@[simp] theorem State.polled_polls (s : State) : s.polled.polls = s.polls + 1 := rfl
@[simp] theorem State.polled_bus (s : State) : s.polled.bus = s.bus := rfl
@[simp] theorem State.polled_wire (s : State) : s.polled.wire = s.wire := rfl
@[simp] theorem State.polled_fb (s : State) : s.polled.fb = s.fb := rfl
@[simp] theorem State.polled_buf (s : State) : s.polled.buf = s.buf := rfl
@[simp] theorem State.polled_refusal (s : State) : s.polled.refusal = s.refusal := rfl
@[simp] theorem State.polled_faulted (s : State) : s.polled.faulted = s.faulted := rfl
@[simp] theorem State.polled_params (s : State) : s.polled.params = s.params := rfl
@[simp] theorem State.polled_host (s : State) : s.polled.host = s.host := rfl
@[simp] theorem State.polled_peer (s : State) : s.polled.peer = s.peer := rfl
@[simp] theorem State.polled_panel (s : State) : s.polled.panel = s.panel := rfl
@[simp] theorem State.polled_sched (s : State) : s.polled.sched = s.sched := rfl
@[simp] theorem State.polled_draws (s : State) : s.polled.draws = s.draws := rfl

/-! ### `Bif.lineStop` -/

@[simp] theorem Bif.lineStop_pe (b : Bif) : b.lineStop.pe = b.pe := by
  cases h : b.dir <;> simp [Bif.lineStop, h]
@[simp] theorem Bif.lineStop_swrst (b : Bif) : b.lineStop.swrst = b.swrst := by
  cases h : b.dir <;> simp [Bif.lineStop, h]
@[simp] theorem Bif.lineStop_start (b : Bif) : b.lineStop.start = b.start := by
  cases h : b.dir <;> simp [Bif.lineStop, h]
@[simp] theorem Bif.lineStop_stop (b : Bif) : b.lineStop.stop = false := by
  cases h : b.dir <;> simp [Bif.lineStop, h]
@[simp] theorem Bif.lineStop_ack (b : Bif) : b.lineStop.ack = b.ack := by
  cases h : b.dir <;> simp [Bif.lineStop, h]
@[simp] theorem Bif.lineStop_pos (b : Bif) : b.lineStop.pos = b.pos := by
  cases h : b.dir <;> simp [Bif.lineStop, h]
@[simp] theorem Bif.lineStop_cfg (b : Bif) : b.lineStop.cfg = b.cfg := by
  cases h : b.dir <;> simp [Bif.lineStop, h]
@[simp] theorem Bif.lineStop_sb (b : Bif) : b.lineStop.sb = b.sb := by
  cases h : b.dir <;> simp [Bif.lineStop, h]
@[simp] theorem Bif.lineStop_addr (b : Bif) : b.lineStop.addr = b.addr := by
  cases h : b.dir <;> simp [Bif.lineStop, h]
@[simp] theorem Bif.lineStop_af (b : Bif) : b.lineStop.af = b.af := by
  cases h : b.dir <;> simp [Bif.lineStop, h]
@[simp] theorem Bif.lineStop_stopf (b : Bif) : b.lineStop.stopf = b.stopf := by
  cases h : b.dir <;> simp [Bif.lineStop, h]
@[simp] theorem Bif.lineStop_dr (b : Bif) : b.lineStop.dr = b.dr := by
  cases h : b.dir <;> simp [Bif.lineStop, h]
@[simp] theorem Bif.lineStop_drFull (b : Bif) : b.lineStop.drFull = (if b.dir = .tx then false else b.drFull) := by
  cases h : b.dir <;> simp [Bif.lineStop, h]
@[simp] theorem Bif.lineStop_shift (b : Bif) : b.lineStop.shift = b.shift := by
  cases h : b.dir <;> simp [Bif.lineStop, h]
@[simp] theorem Bif.lineStop_shFull (b : Bif) : b.lineStop.shFull = (if b.dir = .tx then false else b.shFull) := by
  cases h : b.dir <;> simp [Bif.lineStop, h]
@[simp] theorem Bif.lineStop_role (b : Bif) : b.lineStop.role = .idle := by
  cases h : b.dir <;> simp [Bif.lineStop, h]
@[simp] theorem Bif.lineStop_dir (b : Bif) : b.lineStop.dir = b.dir := by
  cases h : b.dir <;> simp [Bif.lineStop, h]
@[simp] theorem Bif.lineStop_phase (b : Bif) : b.lineStop.phase = .idle := by
  cases h : b.dir <;> simp [Bif.lineStop, h]
@[simp] theorem Bif.lineStop_opened (b : Bif) : b.lineStop.opened = false := by
  cases h : b.dir <;> simp [Bif.lineStop, h]
@[simp] theorem Bif.lineStop_more (b : Bif) : b.lineStop.more = false := by
  cases h : b.dir <;> simp [Bif.lineStop, h]
@[simp] theorem Bif.lineStop_sent (b : Bif) : b.lineStop.sent = 0 := by
  cases h : b.dir <;> simp [Bif.lineStop, h]
@[simp] theorem Bif.lineStop_ackLatch (b : Bif) : b.lineStop.ackLatch = b.ackLatch := by
  cases h : b.dir <;> simp [Bif.lineStop, h]

/-! ### `Bif.lineRxByte` and `Bif.rdDr` -/

@[simp] theorem Bif.lineRxByte_pe (b : Bif) (v : Byte) : (b.lineRxByte v).pe = b.pe := by
  cases h : b.drFull <;> simp [Bif.lineRxByte, h]
@[simp] theorem Bif.lineRxByte_swrst (b : Bif) (v : Byte) : (b.lineRxByte v).swrst = b.swrst := by
  cases h : b.drFull <;> simp [Bif.lineRxByte, h]
@[simp] theorem Bif.lineRxByte_start (b : Bif) (v : Byte) : (b.lineRxByte v).start = b.start := by
  cases h : b.drFull <;> simp [Bif.lineRxByte, h]
@[simp] theorem Bif.lineRxByte_stop (b : Bif) (v : Byte) : (b.lineRxByte v).stop = b.stop := by
  cases h : b.drFull <;> simp [Bif.lineRxByte, h]
@[simp] theorem Bif.lineRxByte_ack (b : Bif) (v : Byte) : (b.lineRxByte v).ack = b.ack := by
  cases h : b.drFull <;> simp [Bif.lineRxByte, h]
@[simp] theorem Bif.lineRxByte_pos (b : Bif) (v : Byte) : (b.lineRxByte v).pos = b.pos := by
  cases h : b.drFull <;> simp [Bif.lineRxByte, h]
@[simp] theorem Bif.lineRxByte_cfg (b : Bif) (v : Byte) : (b.lineRxByte v).cfg = b.cfg := by
  cases h : b.drFull <;> simp [Bif.lineRxByte, h]
@[simp] theorem Bif.lineRxByte_sb (b : Bif) (v : Byte) : (b.lineRxByte v).sb = b.sb := by
  cases h : b.drFull <;> simp [Bif.lineRxByte, h]
@[simp] theorem Bif.lineRxByte_addr (b : Bif) (v : Byte) : (b.lineRxByte v).addr = b.addr := by
  cases h : b.drFull <;> simp [Bif.lineRxByte, h]
@[simp] theorem Bif.lineRxByte_af (b : Bif) (v : Byte) : (b.lineRxByte v).af = b.af := by
  cases h : b.drFull <;> simp [Bif.lineRxByte, h]
@[simp] theorem Bif.lineRxByte_stopf (b : Bif) (v : Byte) : (b.lineRxByte v).stopf = b.stopf := by
  cases h : b.drFull <;> simp [Bif.lineRxByte, h]
@[simp] theorem Bif.lineRxByte_dr (b : Bif) (v : Byte) : (b.lineRxByte v).dr = (if b.drFull then b.dr else v) := by
  cases h : b.drFull <;> simp [Bif.lineRxByte, h]
@[simp] theorem Bif.lineRxByte_drFull (b : Bif) (v : Byte) : (b.lineRxByte v).drFull = true := by
  cases h : b.drFull <;> simp [Bif.lineRxByte, h]
@[simp] theorem Bif.lineRxByte_shift (b : Bif) (v : Byte) : (b.lineRxByte v).shift = (if b.drFull then v else b.shift) := by
  cases h : b.drFull <;> simp [Bif.lineRxByte, h]
@[simp] theorem Bif.lineRxByte_shFull (b : Bif) (v : Byte) : (b.lineRxByte v).shFull = (if b.drFull then true else b.shFull) := by
  cases h : b.drFull <;> simp [Bif.lineRxByte, h]
@[simp] theorem Bif.lineRxByte_role (b : Bif) (v : Byte) : (b.lineRxByte v).role = b.role := by
  cases h : b.drFull <;> simp [Bif.lineRxByte, h]
@[simp] theorem Bif.lineRxByte_dir (b : Bif) (v : Byte) : (b.lineRxByte v).dir = b.dir := by
  cases h : b.drFull <;> simp [Bif.lineRxByte, h]
@[simp] theorem Bif.lineRxByte_phase (b : Bif) (v : Byte) : (b.lineRxByte v).phase = b.phase := by
  cases h : b.drFull <;> simp [Bif.lineRxByte, h]
@[simp] theorem Bif.lineRxByte_opened (b : Bif) (v : Byte) : (b.lineRxByte v).opened = b.opened := by
  cases h : b.drFull <;> simp [Bif.lineRxByte, h]
@[simp] theorem Bif.lineRxByte_more (b : Bif) (v : Byte) : (b.lineRxByte v).more = (b.more && b.rxAck) := by
  cases h : b.drFull <;> simp [Bif.lineRxByte, h]
@[simp] theorem Bif.lineRxByte_sent (b : Bif) (v : Byte) : (b.lineRxByte v).sent = b.sent := by
  cases h : b.drFull <;> simp [Bif.lineRxByte, h]
@[simp] theorem Bif.lineRxByte_ackLatch (b : Bif) (v : Byte) : (b.lineRxByte v).ackLatch = b.ack := by
  cases h : b.drFull <;> simp [Bif.lineRxByte, h]
@[simp] theorem Bif.rdDr_pe (b : Bif) : b.rdDr.pe = b.pe := by
  unfold Bif.rdDr; split <;> first | rfl | (split <;> rfl)
@[simp] theorem Bif.rdDr_swrst (b : Bif) : b.rdDr.swrst = b.swrst := by
  unfold Bif.rdDr; split <;> first | rfl | (split <;> rfl)
@[simp] theorem Bif.rdDr_start (b : Bif) : b.rdDr.start = b.start := by
  unfold Bif.rdDr; split <;> first | rfl | (split <;> rfl)
@[simp] theorem Bif.rdDr_stop (b : Bif) : b.rdDr.stop = b.stop := by
  unfold Bif.rdDr; split <;> first | rfl | (split <;> rfl)
@[simp] theorem Bif.rdDr_ack (b : Bif) : b.rdDr.ack = b.ack := by
  unfold Bif.rdDr; split <;> first | rfl | (split <;> rfl)
@[simp] theorem Bif.rdDr_pos (b : Bif) : b.rdDr.pos = b.pos := by
  unfold Bif.rdDr; split <;> first | rfl | (split <;> rfl)
@[simp] theorem Bif.rdDr_cfg (b : Bif) : b.rdDr.cfg = b.cfg := by
  unfold Bif.rdDr; split <;> first | rfl | (split <;> rfl)
@[simp] theorem Bif.rdDr_sb (b : Bif) : b.rdDr.sb = b.sb := by
  unfold Bif.rdDr; split <;> first | rfl | (split <;> rfl)
@[simp] theorem Bif.rdDr_addr (b : Bif) : b.rdDr.addr = b.addr := by
  unfold Bif.rdDr; split <;> first | rfl | (split <;> rfl)
@[simp] theorem Bif.rdDr_af (b : Bif) : b.rdDr.af = b.af := by
  unfold Bif.rdDr; split <;> first | rfl | (split <;> rfl)
@[simp] theorem Bif.rdDr_stopf (b : Bif) : b.rdDr.stopf = b.stopf := by
  unfold Bif.rdDr; split <;> first | rfl | (split <;> rfl)
@[simp] theorem Bif.rdDr_shift (b : Bif) : b.rdDr.shift = b.shift := by
  unfold Bif.rdDr; split <;> first | rfl | (split <;> rfl)
@[simp] theorem Bif.rdDr_role (b : Bif) : b.rdDr.role = b.role := by
  unfold Bif.rdDr; split <;> first | rfl | (split <;> rfl)
@[simp] theorem Bif.rdDr_dir (b : Bif) : b.rdDr.dir = b.dir := by
  unfold Bif.rdDr; split <;> first | rfl | (split <;> rfl)
@[simp] theorem Bif.rdDr_phase (b : Bif) : b.rdDr.phase = b.phase := by
  unfold Bif.rdDr; split <;> first | rfl | (split <;> rfl)
@[simp] theorem Bif.rdDr_opened (b : Bif) : b.rdDr.opened = b.opened := by
  unfold Bif.rdDr; split <;> first | rfl | (split <;> rfl)
@[simp] theorem Bif.rdDr_more (b : Bif) : b.rdDr.more = b.more := by
  unfold Bif.rdDr; split <;> first | rfl | (split <;> rfl)
@[simp] theorem Bif.rdDr_sent (b : Bif) : b.rdDr.sent = b.sent := by
  unfold Bif.rdDr; split <;> first | rfl | (split <;> rfl)
@[simp] theorem Bif.rdDr_ackLatch (b : Bif) : b.rdDr.ackLatch = b.ackLatch := by
  unfold Bif.rdDr; split <;> first | rfl | (split <;> rfl)

end Sys2Proof.Machine
end

