-- ==== Sys2Proof/Laws/Memory.lean ====
section
/-! SUPPORT. Laws/Memory.lean: what the memory operations of Machine/Ops.lean do (20_memory.md R85, R89): a read after
a write, and that a write keeps the canonical form. -/

namespace Sys2Proof.Machine

/-- The canonical form above a bound: addresses strictly rise from `lo` on and lie below `size`. -/
def Memory.wfFrom (size : Nat) : Nat → Memory → Bool
  | _, [] => true
  | lo, (a, _) :: m => decide (lo ≤ a) && decide (a < size) && Memory.wfFrom size (a + 1) m

theorem Memory.wfFrom_mono {size lo lo' : Nat} {m : Memory} (h : Memory.wfFrom size lo' m = true) (hle : lo ≤ lo') :
    Memory.wfFrom size lo m = true := by
  cases m with
  | nil => rfl
  | cons x m =>
    obtain ⟨a, v⟩ := x
    simp only [Memory.wfFrom, Bool.and_eq_true, decide_eq_true_eq] at h ⊢
    exact ⟨⟨by omega, h.1.2⟩, h.2⟩

theorem Memory.wf_eq_wfFrom (size : Nat) : ∀ m : Memory, Memory.wf size m = Memory.wfFrom size 0 m
  | [] => rfl
  | [(a, _)] => by simp [Memory.wf, Memory.wfFrom]
  | (a, v) :: (b, w) :: m => by
    have ih := Memory.wf_eq_wfFrom size ((b, w) :: m)
    simp only [Memory.wf, ih, Memory.wfFrom]
    by_cases h1 : a < b <;> by_cases h2 : b < size <;> (simp [h1, h2]; try omega)

theorem Memory.write_wfFrom {size lo a : Nat} {v : Byte} (ha : a < size) (hlo : lo ≤ a) :
    ∀ {m : Memory}, Memory.wfFrom size lo m = true → Memory.wfFrom size lo (Memory.write m a v) = true := by
  intro m
  induction m generalizing lo with
  | nil => simp [Memory.write, Memory.wfFrom, ha, hlo]
  | cons x m ih =>
    obtain ⟨b, w⟩ := x
    intro h
    simp only [Memory.wfFrom, Bool.and_eq_true, decide_eq_true_eq] at h
    obtain ⟨⟨h1, h2⟩, h3⟩ := h
    unfold Memory.write
    split
    · rename_i hab
      simp only [Memory.wfFrom, Bool.and_eq_true, decide_eq_true_eq]
      exact ⟨⟨hlo, ha⟩, ⟨by omega, h2⟩, h3⟩
    · split
      · rename_i hab
        subst hab
        simp only [Memory.wfFrom, Bool.and_eq_true, decide_eq_true_eq]
        exact ⟨⟨hlo, ha⟩, h3⟩
      · simp only [Memory.wfFrom, Bool.and_eq_true, decide_eq_true_eq]
        exact ⟨⟨h1, h2⟩, ih (by omega) h3⟩

/-- A write inside the space keeps the canonical form. -/
theorem Memory.write_wf {size a : Nat} {v : Byte} {m : Memory} (ha : a < size) (h : Memory.wf size m = true) :
    Memory.wf size (Memory.write m a v) = true := by
  rw [Memory.wf_eq_wfFrom] at h ⊢
  exact Memory.write_wfFrom ha (Nat.zero_le _) h

theorem Memory.lookup_of_lt {size lo a : Nat} :
    ∀ {m : Memory}, Memory.wfFrom size lo m = true → a < lo → Memory.lookup m a = none
  | [], _, _ => rfl
  | (b, w) :: m, h, hlt => by
    simp only [Memory.wfFrom, Bool.and_eq_true, decide_eq_true_eq] at h
    have : a ≠ b := by omega
    simp only [Memory.lookup, this, if_false]
    exact Memory.lookup_of_lt h.2 (by omega)

/-- A read after a write to the same place gives the value written. -/
@[simp] theorem Memory.lookup_write_same (m : Memory) (a : Nat) (v : Byte) :
    Memory.lookup (Memory.write m a v) a = some v := by
  induction m with
  | nil => simp [Memory.write, Memory.lookup]
  | cons x m ih =>
    obtain ⟨b, w⟩ := x
    unfold Memory.write
    split
    · simp [Memory.lookup]
    · split
      · simp [Memory.lookup]
      · rename_i h
        simp [Memory.lookup, h, ih]

/-- A write leaves every other place alone. -/
theorem Memory.lookup_write_ne (m : Memory) {a b : Nat} (v : Byte) (h : b ≠ a) :
    Memory.lookup (Memory.write m a v) b = Memory.lookup m b := by
  induction m with
  | nil => simp [Memory.write, Memory.lookup, h]
  | cons x m ih =>
    obtain ⟨c, w⟩ := x
    unfold Memory.write
    split
    · simp [Memory.lookup, h]
    · split
      · rename_i hac
        subst hac
        simp [Memory.lookup, h]
      · simp only [Memory.lookup]
        split
        · rfl
        · exact ih

theorem Memory.lookup_map_zero (l : List Nat) (i : Nat) :
    Memory.lookup (l.map fun k => (k, (0 : Byte))) i = if i ∈ l then some 0 else none := by
  induction l with
  | nil => rfl
  | cons x l ih =>
    simp only [List.map_cons, Memory.lookup, ih, List.mem_cons]
    by_cases h : i = x <;> simp [h]

/-- After the clear every byte of the space is zero (R276). -/
theorem Memory.lookup_zeros (n i : Nat) : Memory.lookup (Memory.zeros n) i = if i < n then some 0 else none := by
  simpa [Memory.zeros] using Memory.lookup_map_zero (List.range n) i

theorem Memory.wfFrom_map_range' (size : Nat) :
    ∀ n lo : Nat, lo + n ≤ size →
      Memory.wfFrom size lo ((List.range' lo n).map fun k => (k, (0 : Byte))) = true
  | 0, _, _ => rfl
  | n + 1, lo, h => by
    have := Memory.wfFrom_map_range' size n (lo + 1) (by omega)
    simp only [List.range'_succ, List.map_cons, Memory.wfFrom, this]
    simp
    omega

/-- The cleared space is in canonical form. -/
theorem Memory.zeros_wf {size n : Nat} (h : n ≤ size) : Memory.wf size (Memory.zeros n) = true := by
  rw [Memory.wf_eq_wfFrom, Memory.zeros, List.range_eq_range']
  exact Memory.wfFrom_map_range' size n 0 (by omega)

/-! ### The bytes of the three spaces -/

theorem State.fbByte_congr {s t : State} (h : s.fb = t.fb) (i : Nat) : s.fbByte i = t.fbByte i := by
  simp [State.fbByte, h]

theorem State.bufByte_congr {s t : State} (h : s.buf = t.buf) (i : Nat) : s.bufByte i = t.bufByte i := by
  simp [State.bufByte, h]

theorem State.fbByte_fbWrite (s : State) (i j : Nat) (v : Byte) :
    (s.fbWrite i v).fbByte j = if j = i then v else s.fbByte j := by
  by_cases h : j = i
  · simp [State.fbByte, h]
  · simp [State.fbByte, h, Memory.lookup_write_ne _ v h]

theorem State.bufByte_bufWrite (s : State) (i j : Nat) (v : Byte) :
    (s.bufWrite i v).bufByte j = if j = i then v else s.bufByte j := by
  by_cases h : j = i
  · simp [State.bufByte, h]
  · simp [State.bufByte, h, Memory.lookup_write_ne _ v h]

theorem State.fbByte_fbClear (s : State) {j : Nat} (h : j < 1024) : s.fbClear.fbByte j = 0 := by
  simp [State.fbByte, Memory.lookup_zeros, h]

end Sys2Proof.Machine
end

