-- ==== Sys2Proof/Laws/Run.lean ====
section
/-! SUPPORT. Laws/Run.lean: how an operation runs (Machine/Sequencer.lean). What one move can be, an induction for
invariants of a run, and a calculus of bounded runs that ends an operation. -/

namespace Sys2Proof.Machine

/-! ### One move -/

theorem State.choose_nil (s : State) : s.choose [] = (.seq, s) := rfl

theorem State.choose_one (s : State) (x : Agent) : s.choose [x] = (x, s) := rfl

/-- A choice names one of the agents that can move, and changes nothing but the schedule and the counter. -/
theorem State.choose_spec (s : State) {opts : List Agent} (h : opts ≠ []) :
    (s.choose opts).1 ∈ opts ∧ ∃ q d, (s.choose opts).2 = s.reschedule q d := by
  match opts, h with
  | [x], _ => exact ⟨by simp [State.choose], s.sched, s.draws, rfl⟩
  | x :: y :: rest, _ =>
    refine ⟨?_, ?_⟩
    · simp only [State.choose]
      split
      · assumption
      · simp
    · exact ⟨_, _, rfl⟩

theorem State.others_eq (s : State) :
    s.others = (if s.bus.lineOn then [.line] else []) ++ (if s.peerOn then [.peer] else []) := rfl

theorem State.mem_others {s : State} {a : Agent} (h : a ∈ s.others) :
    (a = .line ∧ s.bus.lineOn = true) ∨ (a = .peer ∧ s.peerOn = true) := by
  rw [State.others_eq] at h
  by_cases h1 : s.bus.lineOn <;> by_cases h2 : s.peerOn <;> simp [h1, h2] at h ⊢ <;> tauto

/-- The move of the agent a choice names. -/
theorem State.moveOne_spec (s : State) {opts : List Agent} (act : State → State) (h : opts ≠ []) :
    ∃ q d, (.seq ∈ opts ∧ s.moveOne opts act = act (s.reschedule q d)) ∨
      (.line ∈ opts ∧ s.moveOne opts act = (s.reschedule q d).lineStep) ∨
      (.peer ∈ opts ∧ s.moveOne opts act = (s.reschedule q d).peerStep) := by
  obtain ⟨h1, q, d, h2⟩ := s.choose_spec h
  refine ⟨q, d, ?_⟩
  simp only [State.moveOne]
  rw [h2]
  cases hc : (s.choose opts).1 <;> rw [hc] at h1 <;> simp [h1]

/-- While `PE` = 0 nobody but the sequencer has a step (R26). -/
theorem State.others_off {s : State} (h : s.bus.pe = false) : s.others = [] := by
  have h1 : s.bus.lineOn = false := by
    simp [Bif.lineOn, Bif.byteOn, Bif.addrOn, Bif.loadOn, Bif.txByteOn, Bif.rxByteOn, Bif.startOn, Bif.stopOn, h]
  have h2 : s.peerOn = false := by
    unfold State.peerOn
    split
    · rfl
    · rename_i m rest _
      cases m <;> simp [PeerMove.on, h]
  simp [State.others_eq, h1, h2]

/-! ### Invariants of a run -/

/-- What every kind of move keeps, a tick keeps. -/
theorem State.tick_keeps {P : State → Prop}
    (hseq : ∀ s, P s → s.faulted = none → s.waiting = false → P s.seqStep)
    (hline : ∀ s, P s → s.bus.lineOn = true → P s.lineStep) (hpeer : ∀ s, P s → s.peerOn = true → P s.peerStep)
    (hsched : ∀ s q d, P s → P (s.reschedule q d)) (hpoll : ∀ s, P s → P s.polled)
    (hfault : ∀ s, P s → s.faulted = none → s.busy = true → P (s.fault .waitTimeout)) {s t : State} (hs : P s)
    (h : s.tick = some t) : P t := by
  unfold State.tick at h
  split at h
  · cases h
  rename_i hrun
  have hf : s.faulted = none := by
    cases hf : s.faulted <;> simp_all
  have hb : s.busy = true := by
    cases hb : s.busy <;> simp_all
  split at h
  · rename_i hw
    split at h
    · split at h
      · cases h
      · rename_i ho
        cases h
        have ho : s.others ≠ [] := by simpa using ho
        obtain ⟨q, d, ⟨hm, e⟩ | ⟨hm, e⟩ | ⟨hm, e⟩⟩ := s.moveOne_spec id ho
        · rw [e]; exact hsched _ _ _ hs
        · rw [e]
          obtain ⟨-, hl⟩ | ⟨hx, -⟩ := State.mem_others hm
          · exact hline _ (hsched _ _ _ hs) hl
          · cases hx
        · rw [e]
          obtain ⟨hx, -⟩ | ⟨-, hp⟩ := State.mem_others hm
          · cases hx
          · exact hpeer _ (hsched _ _ _ hs) hp
    · have hp := hpoll s hs
      split at h
      · cases h; exact hfault _ hp hf hb
      · split at h
        · cases h; exact hp
        · rename_i ho
          cases h
          have ho : s.others ≠ [] := by simpa using ho
          obtain ⟨q, d, ⟨hm, e⟩ | ⟨hm, e⟩ | ⟨hm, e⟩⟩ := s.polled.moveOne_spec id ho
          · rw [e]; exact hsched _ _ _ hp
          · rw [e]
            obtain ⟨-, hl⟩ | ⟨hx, -⟩ := State.mem_others hm
            · exact hline _ (hsched _ _ _ hp) hl
            · cases hx
          · rw [e]
            obtain ⟨hx, -⟩ | ⟨-, hp'⟩ := State.mem_others hm
            · cases hx
            · exact hpeer _ (hsched _ _ _ hp) hp'
  · rename_i hw
    have hw : s.waiting = false := by simpa using hw
    split at h
    · cases h
      obtain ⟨q, d, ⟨hm, e⟩ | ⟨hm, e⟩ | ⟨hm, e⟩⟩ := s.moveOne_spec (opts := .seq :: s.others) State.seqStep (by simp)
      · rw [e]; exact hseq _ (hsched _ _ _ hs) hf hw
      · rw [e]
        obtain hx | hm := List.mem_cons.1 hm
        · cases hx
        obtain ⟨-, hl⟩ | ⟨hx, -⟩ := State.mem_others hm
        · exact hline _ (hsched _ _ _ hs) hl
        · cases hx
      · rw [e]
        obtain hx | hm := List.mem_cons.1 hm
        · cases hx
        obtain ⟨hx, -⟩ | ⟨-, hp⟩ := State.mem_others hm
        · cases hx
        · exact hpeer _ (hsched _ _ _ hs) hp
    · cases h; exact hseq _ hs hf hw

theorem State.runFor_keeps {P : State → Prop} (h : ∀ s t, P s → s.tick = some t → P t) :
    ∀ (k : Nat) {s : State}, P s → P (s.runFor k)
  | 0, _, hs => hs
  | k + 1, s, hs => by
    simp only [State.runFor]
    split
    · exact hs
    · rename_i t ht
      exact State.runFor_keeps h k (h s t hs ht)

/-- What every kind of move keeps, a run of an operation keeps. -/
theorem State.runOp_keeps {P : State → Prop}
    (hseq : ∀ s, P s → s.faulted = none → s.waiting = false → P s.seqStep)
    (hline : ∀ s, P s → s.bus.lineOn = true → P s.lineStep) (hpeer : ∀ s, P s → s.peerOn = true → P s.peerStep)
    (hsched : ∀ s q d, P s → P (s.reschedule q d)) (hpoll : ∀ s, P s → P s.polled)
    (hfault : ∀ s, P s → s.faulted = none → s.busy = true → P (s.fault .waitTimeout)) {s : State} (hs : P s) :
    P s.runOp :=
  State.runFor_keeps (fun _ _ => State.tick_keeps hseq hline hpeer hsched hpoll hfault) _ hs

/-! ### Bounded runs -/

/-- Within `n` moves of its run, `s` comes to a state that satisfies `Q`. -/
inductive Reaches (Q : State → Prop) : Nat → State → Prop where
  | here {n : Nat} {s : State} (h : Q s) : Reaches Q n s
  | move {n : Nat} {s t : State} (h : s.tick = some t) (r : Reaches Q n t) : Reaches Q (n + 1) s

theorem Reaches.mono {Q : State → Prop} {n m : Nat} {s : State} (r : Reaches Q n s) (h : n ≤ m) : Reaches Q m s := by
  induction r generalizing m with
  | here hq => exact .here hq
  | move ht _ ih =>
    cases m with
    | zero => omega
    | succ m => exact .move ht (ih (by omega))

theorem Reaches.imp {Q R : State → Prop} (h : ∀ t, Q t → R t) {n : Nat} {s : State} (r : Reaches Q n s) :
    Reaches R n s := by
  induction r with
  | here hq => exact .here (h _ hq)
  | move ht _ ih => exact .move ht ih

theorem Reaches.trans {Q R : State → Prop} {n m : Nat} {s : State} (r : Reaches Q n s)
    (h : ∀ t, Q t → Reaches R m t) : Reaches R (n + m) s := by
  induction r with
  | here hq => exact (h _ hq).mono (by omega)
  | move ht _ ih => exact Reaches.move ht ih |>.mono (by omega)

/-- A run that comes, in at most `k` moves, to a state from which nobody moves, ends there. -/
theorem State.runFor_of_reaches {Q : State → Prop} {n k : Nat} {s : State} (r : Reaches Q n s)
    (hstop : ∀ t, Q t → t.tick = none) (h : n ≤ k) : Q (s.runFor k) := by
  induction r generalizing k with
  | here hq =>
    cases k with
    | zero => exact hq
    | succ k => simpa [State.runFor, hstop _ hq] using hq
  | move ht _ ih =>
    cases k with
    | zero => omega
    | succ k => simpa [State.runFor, ht] using ih (by omega)

/-- The same for the run of an operation. -/
theorem State.runOp_of_reaches {Q : State → Prop} {n : Nat} {s : State} (r : Reaches Q n s)
    (hstop : ∀ t, Q t → t.tick = none) (h : n ≤ sliceTicks) : Q s.runOp :=
  State.runFor_of_reaches r hstop h

theorem State.tick_idle {s : State} (h : s.busy = false) : s.tick = none := by simp [State.tick, h]

theorem State.tick_empty {s : State} (h : s.upc = []) : s.tick = none := by simp [State.tick, h]

/-- One move of an operation in progress, with unbounded waits and the peer out of it: the sequencer's, unless it is
at a wait that does not hold, or the line agent's where it has one. -/
theorem Reaches.step {Q : State → Prop} {n : Nat} {s : State} (hb : s.busy = true) (hf : s.faulted = none)
    (hu : s.upc ≠ []) (hw : s.params.waitBudget = none) (hp : s.peerOn = false)
    (hwait : s.waiting = true → s.bus.lineOn = true)
    (hseq : s.waiting = false → ∀ q d, Reaches Q n (s.reschedule q d).seqStep)
    (hline : s.bus.lineOn = true → ∀ q d, Reaches Q n (s.reschedule q d).lineStep) : Reaches Q (n + 1) s := by
  have ho : s.others = if s.bus.lineOn then [.line] else [] := by simp [State.others_eq, hp]
  have hrun : (!s.busy || s.faulted.isSome || s.upc.isEmpty) = false := by simp [hb, hf, hu]
  have self : s = s.reschedule s.sched s.draws := rfl
  by_cases hwt : s.waiting = true
  · have hl := hwait hwt
    have ht : s.tick = some (s.reschedule s.sched s.draws).lineStep := by
      simp [State.tick, hb, hf, hu, hwt, hw, ho, hl, State.moveOne, State.choose]
      rw [← self]
    exact .move ht (hline hl _ _)
  · have hwt : s.waiting = false := by simpa using hwt
    by_cases hy : s.yields = true
    · obtain ⟨q, d, ⟨hm, e⟩ | ⟨hm, e⟩ | ⟨hm, e⟩⟩ := s.moveOne_spec (opts := .seq :: s.others) State.seqStep (by simp)
      · have ht : s.tick = some (s.reschedule q d).seqStep := by
          simp [State.tick, hb, hf, hu, hwt, hy, e]
        exact .move ht (hseq hwt _ _)
      · have hl : s.bus.lineOn = true := by
          obtain hx | hm := List.mem_cons.1 hm
          · cases hx
          obtain ⟨-, hl⟩ | ⟨hx, -⟩ := State.mem_others hm
          · exact hl
          · cases hx
        have ht : s.tick = some (s.reschedule q d).lineStep := by
          simp [State.tick, hb, hf, hu, hwt, hy, e]
        exact .move ht (hline hl _ _)
      · obtain hx | hm := List.mem_cons.1 hm
        · cases hx
        obtain ⟨hx, -⟩ | ⟨-, hx⟩ := State.mem_others hm
        · cases hx
        · rw [hp] at hx; cases hx
    · have hy : s.yields = false := by simpa using hy
      have ht : s.tick = some (s.reschedule s.sched s.draws).seqStep := by
        simp [State.tick, hb, hf, hu, hwt, hy]
        rw [← self]
      exact .move ht (hseq hwt _ _)

theorem State.seqStep_eq {s : State} {m : Micro} {rest : List Micro} (h : s.upc = m :: rest) :
    s.seqStep = m.run rest s := by
  simp [State.seqStep, h]

/-- Under `run_to_wait` a micro-operation that is not a wait follows the one before it at once (R152). -/
theorem Reaches.seq {Q : State → Prop} {n : Nat} {s : State} {m : Micro} {rest : List Micro} (hb : s.busy = true)
    (hf : s.faulted = none) (hu : s.upc = m :: rest) (hm : ∀ c, m ≠ .wait c) (hr : s.params.sched = .runToWait)
    (h : Reaches Q n s.seqStep) : Reaches Q (n + 1) s := by
  have hw : s.waiting = false := by
    unfold State.waiting
    rw [hu]
    cases m <;> first | rfl | exact absurd rfl (hm _)
  have hy : s.yields = false := by
    unfold State.yields
    rw [hu, hr]
    cases m <;> first | rfl | exact absurd rfl (hm _)
  exact .move (by simp [State.tick, hb, hf, hu, hw, hy]) h

/-- Where no other agent has a step, the sequencer has the next one, whatever the schedule. -/
theorem Reaches.alone {Q : State → Prop} {n : Nat} {s : State} (hb : s.busy = true) (hf : s.faulted = none)
    (hu : s.upc ≠ []) (hw : s.waiting = false) (ho : s.others = []) (h : Reaches Q n s.seqStep) :
    Reaches Q (n + 1) s := by
  refine .move ?_ h
  have hu' : s.upc.isEmpty = false := by simpa using hu
  cases hy : s.yields <;> simp [State.tick, hb, hf, hu', hw, hy, ho, State.moveOne, State.choose]

/-- At a wait that does not hold, the one other agent that can move does. -/
theorem Reaches.only {Q : State → Prop} {n : Nat} {s : State} {a : Agent} (hb : s.busy = true) (hf : s.faulted = none)
    (hu : s.upc ≠ []) (hw : s.params.waitBudget = none) (hwait : s.waiting = true) (ho : s.others = [a])
    (h : Reaches Q n (s.agentStep a)) : Reaches Q (n + 1) s := by
  refine .move ?_ h
  have hu' : s.upc.isEmpty = false := by simpa using hu
  cases a <;> simp [State.tick, hb, hf, hu', hwait, hw, ho, State.moveOne, State.choose, State.agentStep]

/-- At a wait where more than one agent can move, the one that the schedule names next does. -/
theorem Reaches.named {Q : State → Prop} {n : Nat} {s : State} {a x y : Agent} {opts l : List Agent} {c : Cond}
    {rest : List Micro} (hb : s.busy = true) (hf : s.faulted = none) (hu : s.upc = .wait c :: rest)
    (hw : s.params.waitBudget = none)
    (ho : (if c.holds s.bus = true then .seq :: s.others else s.others) = x :: y :: opts) (ha : a ∈ x :: y :: opts)
    (hs : s.sched.next = a :: l)
    (h : Reaches Q n (if a = .seq then (s.reschedule ⟨l, s.sched.rest⟩ (s.draws + 1)).seqStep
      else (s.reschedule ⟨l, s.sched.rest⟩ (s.draws + 1)).agentStep a)) : Reaches Q (n + 1) s := by
  have hc : s.choose (x :: y :: opts) = (a, s.reschedule ⟨l, s.sched.rest⟩ (s.draws + 1)) := by
    simp only [State.choose, Script.pop, hs]
    rw [if_pos ha]
    rfl
  refine .move ?_ h
  by_cases hx : c.holds s.bus = true
  · have hwt : s.waiting = false := by simp [State.waiting, hu, hx]
    have hy : s.yields = true := by simp [State.yields, hu]
    rw [if_pos hx] at ho
    simp only [State.tick, hb, hf, hu, hwt, hy, ho, State.moveOne, hc]
    cases a <;> rfl
  · have hwt : s.waiting = true := by simp [State.waiting, hu, hx]
    rw [if_neg hx] at ho
    have hns : a ≠ .seq := by
      intro e
      rw [← ho] at ha
      rcases State.mem_others ha with ⟨h, -⟩ | ⟨h, -⟩ <;> rw [e] at h <;> cases h
    simp only [State.tick, hb, hf, hu, hwt, hw, ho, State.moveOne, hc]
    cases a
    · exact absurd rfl hns
    all_goals rfl

end Sys2Proof.Machine
end

