-- ==== Sys2Proof/Laws/Transmit.lean ====
section
/-! SUPPORT. Laws/Transmit.lean: the segments of a transmission run to their end under every schedule and both values
of `SCHED`, when the peer acknowledges: the data loop (40 R163, R164; 42 R231). -/

namespace Sys2Proof.Machine

/-- An operation whose tests pass runs its micro-operations and comes to where they lead. -/
theorem exec_runOp {i : Instr} {tests : List (Bool × RefuseReason)} {code : List Micro} {s : State}
    (hexec : exec i s = command i tests code s) (htests : firstFailing tests = none) (hr : s.ready) :
    exec i s = .next (s.load (encode i) code).runOp := by
  rw [hexec]
  simp only [command, hr.1, htests]
  rfl

/-! ### A transmission in progress -/

/-- What holds all through a transmission that started in `s0`: nothing but what transmitting may change has, and the
peer still acknowledges. -/
structure Sends (s0 s : State) : Prop where
  same : s0.sentBy s = s
  acks : s.peer.acknowledges

/-- What a transmission needs of the state it starts in. -/
structure CanSend (s0 : State) : Prop where
  faulted : s0.faulted = none
  budget : s0.params.waitBudget = none
  pe : s0.bus.pe = true
  away : s0.peerAway

namespace Sends

variable {s0 s : State}

theorem faulted (h : Sends s0 s) : s.faulted = s0.faulted := by rw [← h.same]; rfl
theorem params (h : Sends s0 s) : s.params = s0.params := by rw [← h.same]; rfl
theorem pe (h : Sends s0 s) : s.bus.pe = s0.bus.pe := by rw [← h.same]; rfl
theorem ack (h : Sends s0 s) : s.bus.ack = s0.bus.ack := by rw [← h.same]; rfl
theorem fb (h : Sends s0 s) : s.fb = s0.fb := by rw [← h.same]; rfl
theorem buf (h : Sends s0 s) : s.buf = s0.buf := by rw [← h.same]; rfl
theorem moves (h : Sends s0 s) : s.peer.moves = s0.peer.moves := by rw [← h.same]; rfl
theorem isPanel (h : Sends s0 s) : s.peer.isPanel = s0.peer.isPanel := by rw [← h.same]; rfl

/-- A transmission that goes on from `s` is one that started in `s0`. -/
theorem trans {t : State} (h : Sends s0 s) (h' : Sends s t) : Sends s0 t := by
  refine ⟨?_, h'.acks⟩
  rw [← h'.same, ← h.same]
  rfl

theorem goto (h : Sends s0 s) (c : List Micro) : Sends s0 (s.goto c) :=
  ⟨by rw [← h.same]; rfl, h.acks⟩

theorem reschedule (h : Sends s0 s) (q : Script Agent) (d : Nat) : Sends s0 (s.reschedule q d) :=
  ⟨by rw [← h.same]; rfl, h.acks⟩

theorem emit (h : Sends s0 s) (t : Token) : Sends s0 (s.emit t) :=
  ⟨by rw [← h.same]; rfl, h.acks⟩

theorem withBif (h : Sends s0 s) {b : Bif} (hb : (s.sentBy (s.withBif b)).bus = b) : Sends s0 (s.withBif b) := by
  refine ⟨?_, h.acks⟩
  have : s0.sentBy (s.withBif b) = s.sentBy (s.withBif b) := by
    conv_rhs => rw [← h.same]
    rfl
  rw [this]
  exact congrArg (fun x => ({ s with bus := x } : State)) hb

end Sends

theorem CanSend.of_sends {s0 s : State} (h : CanSend s0) (h' : Sends s0 s) : CanSend s where
  faulted := h'.faulted.trans h.faulted
  budget := by rw [h'.params]; exact h.budget
  pe := h'.pe.trans h.pe
  away := by
    rcases h.away with h | h
    · exact .inl (h'.moves.trans h)
    · exact .inr (h'.ack.trans h)

/-- A peer that does not address the block has no move in a transaction the block drives, or between two. -/
theorem CanSend.peerOn {s : State} (h : CanSend s) (hr : s.bus.role ≠ .slave) : s.peerOn = false := by
  unfold State.peerOn
  split
  · rfl
  · rename_i m rest hm
    rcases h.away with h | h
    · rw [h] at hm; cases hm
    · cases m with
      | address sel read => simp [PeerMove.on, h]
      | send v => simp [PeerMove.on, hr]
      | stop => simp [PeerMove.on, hr]

theorem Script.pop_true {x : Bool} {s : Script Bool} (h : (∀ k ∈ s.next, k = true) ∧ s.rest = some true) :
    (s.pop x).1 = true ∧ (∀ k ∈ (s.pop x).2.next, k = true) ∧ (s.pop x).2.rest = some true := by
  obtain ⟨n, r⟩ := s
  cases n with
  | nil => simp_all [Script.pop]
  | cons a n => simp_all [Script.pop]

theorem Sends.askAck {s0 s : State} (h : Sends s0 s) (hp : s.peer.isPanel = false) :
    s.askAck.1 = true ∧ Sends s0 s.askAck.2 := by
  have ha : (∀ k ∈ s.peer.acks.next, k = true) ∧ s.peer.acks.rest = some true := by
    rcases h.acks with h | h
    · rw [hp] at h; cases h
    · exact h
  have hpop := Script.pop_true (x := Config.peerAck s.draws) ha
  exact ⟨hpop.1, ⟨by rw [← h.same]; rfl, .inr hpop.2⟩⟩

/-- The peer's answer to a data byte. -/
theorem Sends.answerByte {s0 s : State} (h : Sends s0 s) (hr : s.bus.role = .master) :
    s.answerByte.1 = true ∧ Sends s0 s.answerByte.2 ∧ s.answerByte.2.bus = s.bus ∧ s.answerByte.2.upc = s.upc ∧
      s.answerByte.2.busy = s.busy ∧ s.answerByte.2.wire = s.wire := by
  unfold State.answerByte
  split
  · exact ⟨rfl, h, rfl, rfl, rfl, rfl⟩
  · rename_i hp
    have hp : s.peer.isPanel = false := by
      cases hx : s.peer.isPanel
      · rfl
      · exact absurd ⟨hx, hr⟩ hp
    exact ⟨(h.askAck hp).1, (h.askAck hp).2, rfl, rfl, rfl, rfl⟩

/-- The peer's answer to the address byte. -/
theorem Sends.answerAddr {s0 s : State} (h : Sends s0 s) {v : Byte}
    (hv : s.peer.isPanel = true → v = s.params.dispAddrW) :
    (s.answerAddr v).1 = true ∧ Sends s0 (s.answerAddr v).2 ∧ (s.answerAddr v).2.bus = s.bus ∧
      (s.answerAddr v).2.upc = s.upc ∧ (s.answerAddr v).2.busy = s.busy ∧ (s.answerAddr v).2.wire = s.wire := by
  unfold State.answerAddr
  split
  · rename_i hp
    exact ⟨by simp [hv hp], h, rfl, rfl, rfl, rfl⟩
  · rename_i hp
    have hp : s.peer.isPanel = false := by simpa using hp
    exact ⟨(h.askAck hp).1, (h.askAck hp).2, rfl, rfl, rfl, rfl⟩

/-! ### The data loop -/

/-- The data phase of a transmission in the initiator role is open. -/
structure Bif.Sending (b : Bif) : Prop where
  pe : b.pe = true
  role : b.role = .master
  opened : b.opened = true
  phase : b.phase = .data
  dir : b.dir = .tx
  sb : b.sb = false
  addr : b.addr = false
  start : b.start = false
  stop : b.stop = false
  more : b.more = true

/-- The bytes written and not yet out, the next one first. -/
def Bif.pending (b : Bif) : List Byte :=
  (if b.shFull then [b.shift] else []) ++ (if b.drFull then [b.dr] else [])

/-- The data loop over `srcs` with its closing wait (R231). -/
def loopCode (srcs : List Src) (c : Cond) (tail : List Micro) : List Micro :=
  (srcs.flatMap fun v => [Micro.wait .txe, .wrDr v]) ++ .wait c :: tail

/-- How far the data and shift registers are from empty. -/
def Bif.load (b : Bif) : Nat := (if b.drFull then 2 else 0) + (if b.shFull then 1 else 0)

theorem Bif.Sending.lineOn {b : Bif} (h : b.Sending) : b.lineOn = (b.drFull || b.shFull) := by
  simp only [Bif.lineOn, Bif.byteOn, Bif.addrOn, Bif.loadOn, Bif.txByteOn, Bif.rxByteOn, Bif.startOn, Bif.stopOn,
    h.pe, h.role, h.phase, h.dir, h.sb, h.addr, h.start, h.stop, h.more]
  cases b.drFull <;> cases b.shFull <;> rfl

theorem Bif.Sending.lineStep {s : State} (h : s.bus.Sending) :
    s.lineStep = if s.bus.shFull then s.lineTxByte else if s.bus.drFull then s.lineLoad else s := by
  simp only [State.lineStep, Bif.addrOn, Bif.loadOn, Bif.txByteOn, Bif.rxByteOn, Bif.startOn, Bif.stopOn, Bif.byteOn,
    h.pe, h.role, h.phase, h.dir, h.sb, h.addr, h.start, h.stop, h.more]
  cases s.bus.drFull <;> cases s.bus.shFull <;> rfl

theorem Bif.Sending.lineLoad {b : Bif} (h : b.Sending) : b.lineLoad.Sending :=
  ⟨h.pe, h.role, h.opened, h.phase, h.dir, h.sb, h.addr, h.start, h.stop, h.more⟩

theorem Bif.Sending.lineTxByte {b : Bif} (h : b.Sending) : (b.lineTxByte true).Sending :=
  ⟨h.pe, h.role, h.opened, h.phase, h.dir, h.sb, h.addr, h.start, h.stop, h.more⟩

theorem Bif.Sending.wrDr {b : Bif} (h : b.Sending) (v : Byte) : b.wrDr v = { b with dr := v, drFull := true } := by
  simp [Bif.wrDr, h.sb, h.phase, h.dir]

theorem Bif.Sending.txe {b : Bif} (h : b.Sending) : b.txe = !b.drFull := by
  simp [Bif.txe, h.phase, h.dir, h.addr]

theorem Bif.Sending.btf {b : Bif} (h : b.Sending) : b.btf = (!b.drFull && !b.shFull && decide (0 < b.sent)) := by
  simp [Bif.btf, h.phase, h.dir, h.addr, h.more]

/-- The two closing waits of a transmission. -/
theorem Bif.Sending.closed {b : Bif} (h : b.Sending) {c : Cond} (hc : c = .btf ∨ c = .btfAndTxe) :
    c.holds b = (!b.drFull && !b.shFull && decide (0 < b.sent)) := by
  rcases hc with rfl | rfl
  · exact h.btf
  · simp only [Cond.holds, h.btf, h.txe]
    cases b.drFull <;> simp

/-- A line step of the data loop: it moves the pipeline on. -/
theorem Sends.sendStep {s0 s : State} (h : Sends s0 s) (hb : s.bus.Sending) (hl : s.bus.lineOn = true) :
    Sends s0 s.lineStep ∧ s.lineStep.bus.Sending ∧ s.lineStep.upc = s.upc ∧ s.lineStep.busy = s.busy ∧
      s.lineStep.bus.load < s.bus.load ∧
      s.lineStep.wire ++ s.lineStep.bus.pending.map (Token.byte · true) = s.wire ++ s.bus.pending.map (Token.byte · true) ∧
      (0 < s.bus.sent + s.bus.pending.length → 0 < s.lineStep.bus.sent + s.lineStep.bus.pending.length) ∧
      (s.bus.drFull = false → s.lineStep.bus.drFull = false) := by
  rw [hb.lineStep]
  rw [hb.lineOn] at hl
  cases hs : s.bus.shFull
  · rw [hs] at hl
    have hd : s.bus.drFull = true := by simpa using hl
    simp only [hd, if_true, State.lineLoad, Bool.false_eq_true, if_false]
    refine ⟨h.withBif ?_, hb.lineLoad, rfl, rfl, ?_, ?_, ?_, ?_⟩
    · rfl
    · simp [Bif.load, Bif.lineLoad, hd, hs]
    · simp [Bif.pending, Bif.lineLoad, hd, hs]
    · simp [Bif.pending, Bif.lineLoad, hd, hs]
    · simp
  · obtain ⟨h1, h2, h3, h4, h5, h6⟩ := h.answerByte hb.role
    simp only [if_true, State.lineTxByte, h1]
    refine ⟨(h2.emit _).withBif ?_, hb.lineTxByte, ?_, ?_, ?_, ?_, ?_, ?_⟩
    · simp only [State.sentBy, State.withBif_bus, State.emit_bus, h3]
      rfl
    · simp [h4]
    · simp [h5]
    · simp [Bif.load, Bif.lineTxByte, hs]
    · simp [Bif.pending, Bif.lineTxByte, hs, h6]
    · simp [Bif.lineTxByte]
    · simp [Bif.lineTxByte]

theorem Micro.run_wrDr {v : Src} (hv : v ≠ .draw) (rest : List Micro) (s : State) :
    Micro.run (.wrDr v) rest s = (s.withBif (s.bus.wrDr (v.value s))).goto rest := by
  cases v <;> first | rfl | exact absurd rfl hv

theorem Src.value_congr {v : Src} (hv : v ≠ .draw) {s t : State} (hf : s.fb = t.fb) (hb : s.buf = t.buf) :
    v.value s = v.value t := by
  cases v with
  | const x => rfl
  | fb i => exact State.fbByte_congr hf i
  | buf q => exact State.bufByte_congr hb q
  | draw => exact absurd rfl hv

/-- What the data loop leaves: every byte out and acknowledged, in order. -/
structure Sent (s0 : State) (tail : List Micro) (w : List Token) (t : State) : Prop where
  sends : Sends s0 t
  bus : t.bus.Sending
  upc : t.upc = tail
  busy : t.busy = !tail.isEmpty
  drFull : t.bus.drFull = false
  shFull : t.bus.shFull = false
  sent : 0 < t.bus.sent
  wire : t.wire = w

theorem loopCode_cons (v : Src) (srcs : List Src) (c : Cond) (tail : List Micro) :
    loopCode (v :: srcs) c tail = .wait .txe :: .wrDr v :: loopCode srcs c tail := rfl

theorem loopCode_nil (c : Cond) (tail : List Micro) : loopCode [] c tail = .wait c :: tail := rfl

/-- The data loop runs to its end, at either point of its pass. -/
theorem reaches_loop_aux {s0 : State} (h0 : CanSend s0) {c : Cond} (hc : c = .btf ∨ c = .btfAndTxe)
    (tail : List Micro) (w : List Token) :
    ∀ (n : Nat) (s : State) (srcs : List Src), (∀ v ∈ srcs, v ≠ .draw) → Sends s0 s → s.bus.Sending → s.busy = true →
      w = s.wire ++ (s.bus.pending ++ srcs.map (·.value s0)).map (Token.byte · true) →
      ((s.upc = loopCode srcs c tail ∧ 0 < s.bus.sent + s.bus.pending.length + srcs.length ∧
          4 * srcs.length + s.bus.load + 1 ≤ n) ∨
        (s.bus.drFull = false ∧ ∃ v rest, srcs = v :: rest ∧ s.upc = .wrDr v :: loopCode rest c tail ∧
          4 * srcs.length + s.bus.load ≤ n)) →
      Reaches (Sent s0 tail w) n s := by
  intro n
  induction n with
  | zero =>
    rintro s srcs - - - - - (⟨-, -, hn⟩ | ⟨-, v, rest, rfl, -, hn⟩)
    · omega
    · simp at hn
  | succ n ih =>
    intro s srcs hsrc hs hb hbusy hw hcase
    have hc0 := h0.of_sends hs
    have hpeer : s.peerOn = false := hc0.peerOn (by rw [hb.role]; decide)
    rcases hcase with ⟨hupc, hpos, hn⟩ | ⟨hdr, v, rest, rfl, hupc, hn⟩
    · refine Reaches.step hbusy hc0.faulted ?_ hc0.budget hpeer ?_ ?_ ?_
      · rw [hupc]; cases srcs <;> simp [loopCode]
      · intro hwt
        rw [hb.lineOn]
        cases srcs with
        | nil =>
          rw [loopCode_nil] at hupc
          simp only [State.waiting, hupc, hb.closed hc] at hwt
          clear ih hw
          cases hd : s.bus.drFull <;> cases hsh : s.bus.shFull <;> simp [hd, hsh, Bif.pending] at hwt hpos ⊢
          omega
        | cons v rest =>
          rw [loopCode_cons] at hupc
          simp only [State.waiting, hupc, Cond.holds, hb.txe] at hwt
          have hd : s.bus.drFull = true := by simpa using hwt
          simp [hd]
      · intro hwt q d
        cases srcs with
        | nil =>
          rw [loopCode_nil] at hupc
          simp only [State.waiting, hupc, hb.closed hc] at hwt
          simp only [State.seqStep, State.reschedule_upc, hupc, Micro.run]
          have hx : (s.bus.drFull = false ∧ s.bus.shFull = false) ∧ 0 < s.bus.sent := by simpa using hwt
          refine .here ⟨(hs.reschedule q d).goto _, hb, rfl, rfl, hx.1.1, hx.1.2, hx.2, ?_⟩
          rw [hw]
          simp [Bif.pending, hx.1.1, hx.1.2]
        | cons v rest =>
          rw [loopCode_cons] at hupc
          simp only [State.waiting, hupc, Cond.holds, hb.txe] at hwt
          simp only [State.seqStep, State.reschedule_upc, hupc, Micro.run]
          have hdr : s.bus.drFull = false := by simpa using hwt
          exact ih _ (v :: rest) hsrc ((hs.reschedule q d).goto _) hb rfl hw
            (.inr ⟨hdr, v, rest, rfl, rfl, by simp at hn ⊢; omega⟩)
      · intro hl q d
        obtain ⟨h1, h2, h3, h4, h5, h6, h7, h8⟩ := (hs.reschedule q d).sendStep hb hl
        refine ih _ srcs hsrc h1 h2 (h4.trans hbusy) ?_ (.inl ⟨h3.trans hupc, ?_, ?_⟩)
        · rw [hw, List.map_append, List.map_append, ← List.append_assoc, ← List.append_assoc, h6]
          rfl
        · simp only [State.reschedule_bus] at h7
          rcases srcs with _ | ⟨v, rest⟩
          · have := h7 (by simpa using hpos)
            simpa using this
          · simp
        · simp only [State.reschedule_bus] at h5
          omega
    · refine Reaches.step hbusy hc0.faulted ?_ hc0.budget hpeer ?_ ?_ ?_
      · rw [hupc]; simp
      · intro hwt
        simp [State.waiting, hupc] at hwt
      · intro hwt q d
        have hv : v ≠ .draw := hsrc v (by simp)
        have hval : v.value (s.reschedule q d) = v.value s0 :=
          Src.value_congr hv (hs.reschedule q d).fb (hs.reschedule q d).buf
        simp only [State.seqStep, State.reschedule_upc, hupc, Micro.run_wrDr hv, hval, State.reschedule_bus, hb.wrDr]
        refine ih _ rest (fun x hx => hsrc x (List.mem_cons_of_mem _ hx))
          (((hs.reschedule q d).withBif ?_).goto _) ?_ ?_ ?_ (.inl ⟨rfl, ?_, ?_⟩)
        · rfl
        · exact ⟨hb.pe, hb.role, hb.opened, hb.phase, hb.dir, hb.sb, hb.addr, hb.start, hb.stop, hb.more⟩
        · cases rest <;> rfl
        · rw [hw]
          simp [Bif.pending, hdr]
          rfl
        · simp [Bif.pending]
        · cases hsh : s.bus.shFull <;> simp [Bif.load, hdr, hsh] at hn ⊢ <;> omega
      · intro hl q d
        obtain ⟨h1, h2, h3, h4, h5, h6, h7, h8⟩ := (hs.reschedule q d).sendStep hb hl
        refine ih _ (v :: rest) hsrc h1 h2 (h4.trans hbusy) ?_ (.inr ⟨h8 hdr, v, rest, rfl, h3.trans hupc, ?_⟩)
        · rw [hw, List.map_append, List.map_append, ← List.append_assoc, ← List.append_assoc, h6]
          rfl
        · simp only [State.reschedule_bus] at h5
          omega

/-- The data loop from its start: every byte goes out, in order, and is acknowledged. -/
theorem reaches_loop {s0 s : State} (h0 : CanSend s0) {c : Cond} (hc : c = .btf ∨ c = .btfAndTxe) {tail : List Micro}
    {srcs : List Src} (hsrc : ∀ v ∈ srcs, v ≠ .draw) (hs : Sends s0 s) (hb : s.bus.Sending) (hbusy : s.busy = true)
    (hd : s.bus.drFull = false) (hsh : s.bus.shFull = false) (hpos : 0 < s.bus.sent + srcs.length)
    (hupc : s.upc = loopCode srcs c tail) :
    Reaches (Sent s0 tail (s.wire ++ srcs.map fun v => .byte (v.value s0) true)) (4 * srcs.length + 1) s := by
  refine reaches_loop_aux h0 hc tail _ _ s srcs hsrc hs hb hbusy ?_ (.inl ⟨hupc, ?_, ?_⟩)
  · simp [Bif.pending, hd, hsh]
  · simpa [Bif.pending, hd, hsh] using hpos
  · simp [Bif.load, hd, hsh]

/-! ### From the start condition to the acknowledged address -/

/-- The address byte has been acknowledged. -/
structure Connected (s0 : State) (a : Byte) (tail : List Micro) (w : List Token) (t : State) : Prop where
  sends : Sends s0 t
  bus : t.bus.addressed (if a.getLsbD 0 then .rx else .tx)
  upc : t.upc = tail
  busy : t.busy = !tail.isEmpty
  wire : t.wire = w

/-- The address byte is in the data register. -/
structure Bif.Addressing (a : Byte) (b : Bif) : Prop where
  pe : b.pe = true
  sb : b.sb = false
  addr : b.addr = false
  start : b.start = false
  stop : b.stop = false
  role : b.role = .master
  opened : b.opened = true
  phase : b.phase = .started
  dr : b.dr = a
  drFull : b.drFull = true
  shFull : b.shFull = false

theorem Bif.addressed_lineOn {d : Dir} {b : Bif} (h : b.addressed d) : b.lineOn = false := by
  obtain ⟨h1, h2, h3, h4, h5, h6, h7, h8, h9, h10, h11⟩ := h
  simp [Bif.lineOn, Bif.byteOn, Bif.addrOn, Bif.loadOn, Bif.txByteOn, Bif.rxByteOn, Bif.startOn, Bif.stopOn, *]

theorem Bif.started_lineOn {b : Bif} (h : b.started) : b.lineOn = false := by
  obtain ⟨h1, h2, h3, h4, h5, h6, h7, h8, h9, h10⟩ := h
  simp [Bif.lineOn, Bif.byteOn, Bif.addrOn, Bif.loadOn, Bif.txByteOn, Bif.rxByteOn, Bif.startOn, Bif.stopOn, *]

theorem reaches_acked {s0 s : State} (h0 : CanSend s0) {a : Byte} {tail : List Micro}
    (hs : Sends s0 s) (hb : s.bus.addressed (if a.getLsbD 0 then .rx else .tx)) (hbusy : s.busy = true)
    (hupc : s.upc = .wait .addr :: tail) : Reaches (Connected s0 a tail s.wire) 1 s := by
  have hc0 := h0.of_sends hs
  have hline := Bif.addressed_lineOn hb
  have haddr : s.bus.addr = true := hb.2.2.1
  refine Reaches.step hbusy hc0.faulted (by simp [hupc]) hc0.budget (hc0.peerOn (by rw [hb.2.2.2.2.2.1]; decide)) ?_ ?_ ?_
  · intro hw; simp [State.waiting, hupc, Cond.holds, haddr] at hw
  · intro _ q d
    simp only [State.seqStep, State.reschedule_upc, hupc, Micro.run]
    exact .here ⟨(hs.reschedule q d).goto _, hb, rfl, rfl, rfl⟩
  · intro hl; rw [hline] at hl; cases hl

theorem reaches_addressed {s0 s : State} (h0 : CanSend s0) {a : Byte} {tail : List Micro}
    (ha : s0.peer.isPanel = true → a = s0.params.dispAddrW) (hs : Sends s0 s) (hb : s.bus.Addressing a)
    (hbusy : s.busy = true) (hupc : s.upc = .wait .addr :: tail) :
    Reaches (Connected s0 a tail (s.wire ++ [Token.byte a true])) 2 s := by
  have hc0 := h0.of_sends hs
  refine Reaches.step hbusy hc0.faulted (by simp [hupc]) hc0.budget (hc0.peerOn (by rw [hb.role]; decide)) ?_ ?_ ?_
  · intro _
    simp [Bif.lineOn, Bif.byteOn, Bif.addrOn, hb.pe, hb.role, hb.phase, hb.sb, hb.drFull]
  · intro hw; simp [State.waiting, hupc, Cond.holds, hb.addr] at hw
  · intro _ q d
    have hs' := hs.reschedule q d
    have hon : (s.reschedule q d).bus.addrOn = true := by
      simp [Bif.addrOn, hb.pe, hb.role, hb.phase, hb.sb, hb.drFull]
    have hv : (s.reschedule q d).peer.isPanel = true → a = (s.reschedule q d).params.dispAddrW := by
      intro hp
      rw [hs'.params]
      exact ha (hs'.isPanel ▸ hp)
    obtain ⟨h1, h2, h3, h4, h5, h6⟩ := hs'.answerAddr hv
    have hdr : (s.reschedule q d).bus.dr = a := hb.dr
    simp only [State.lineStep, hon, if_true, State.lineAddr, hdr, h1]
    have e1 : Sends s0 (((s.reschedule q d).answerAddr a).2.emit (.byte a true) |>.withBif
        ((s.reschedule q d).bus.lineAddr true)) := by
      refine (h2.emit _).withBif ?_
      simp only [State.sentBy, State.withBif_bus, State.emit_bus, h3, Bif.lineAddr, if_true]
    have e2 : ((s.reschedule q d).bus.lineAddr true).addressed (if a.getLsbD 0 then .rx else .tx) := by
      simp only [Bif.lineAddr, if_true, State.reschedule_bus, Bif.addressed]
      simp [hb.pe, hb.sb, hb.start, hb.stop, hb.role, hb.opened, hb.shFull, hb.dr]
    refine (reaches_acked (a := a) (tail := tail) h0 e1 e2 (by simp [h5, hbusy]) (by simp [h4, hupc])).imp ?_
    · rintro t ⟨g1, g2, g3, g4, g5⟩
      refine ⟨g1, g2, g3, g4, ?_⟩
      rw [g5]
      simp [h6]

theorem reaches_wrAddr {s0 s : State} (h0 : CanSend s0) {a : Byte} {tail : List Micro}
    (ha : s0.peer.isPanel = true → a = s0.params.dispAddrW) (hs : Sends s0 s) (hb : s.bus.started)
    (hbusy : s.busy = true) (hupc : s.upc = .wrDr (.const a) :: .wait .addr :: tail) :
    Reaches (Connected s0 a tail (s.wire ++ [Token.byte a true])) 3 s := by
  have hc0 := h0.of_sends hs
  have hline := Bif.started_lineOn hb
  obtain ⟨h1, h2, h3, h4, h5, h6, h7, h8, h9, h10⟩ := hb
  refine Reaches.step hbusy hc0.faulted (by simp [hupc]) hc0.budget (hc0.peerOn (by rw [h6]; decide)) ?_ ?_ ?_
  · intro hw; simp [State.waiting, hupc] at hw
  · intro _ q d
    simp only [State.seqStep, State.reschedule_upc, hupc, Micro.run, Src.value, State.reschedule_bus, Bif.wrDr, h2, if_true]
    refine reaches_addressed h0 ha (((hs.reschedule q d).withBif ?_).goto _) ?_ rfl rfl
    · rfl
    · exact ⟨h1, rfl, h3, h4, h5, h6, h7, h8, rfl, rfl, h10⟩
  · intro hl; rw [hline] at hl; cases hl

theorem reaches_sb {s0 s : State} (h0 : CanSend s0) {a : Byte} {tail : List Micro}
    (ha : s0.peer.isPanel = true → a = s0.params.dispAddrW) (hs : Sends s0 s) (hb : s.bus.started)
    (hbusy : s.busy = true) (hupc : s.upc = .wait .sb :: .wrDr (.const a) :: .wait .addr :: tail) :
    Reaches (Connected s0 a tail (s.wire ++ [Token.byte a true])) 4 s := by
  have hc0 := h0.of_sends hs
  have hline := Bif.started_lineOn hb
  have hb' := hb
  obtain ⟨h1, h2, h3, h4, h5, h6, h7, h8, h9, h10⟩ := hb
  refine Reaches.step hbusy hc0.faulted (by simp [hupc]) hc0.budget (hc0.peerOn (by rw [h6]; decide)) ?_ ?_ ?_
  · intro hw; simp [State.waiting, hupc, Cond.holds, h2] at hw
  · intro _ q d
    simp only [State.seqStep, State.reschedule_upc, hupc, Micro.run]
    exact reaches_wrAddr h0 ha ((hs.reschedule q d).goto _) hb' rfl rfl
  · intro hl; rw [hline] at hl; cases hl

theorem Bif.starting_lineOn {b : Bif} (h : b.starting) : b.lineOn = true := by
  obtain ⟨h1, h2, h3, h4, h5, ⟨h6, h7, h8⟩ | ⟨h6, h7⟩⟩ := h
  · simp [Bif.lineOn, Bif.startOn, Bif.stopOn, *]
  · cases h8 : b.stop <;> simp [Bif.lineOn, Bif.startOn, Bif.stopOn, *]

/-- A line step while a start is requested: the stop that is outstanding, or the start. -/
theorem State.starting_lineStep {s : State} (h : s.bus.starting) :
    s.lineStep = if s.bus.role = .master ∧ s.bus.stop = true then s.lineStop else s.lineStart := by
  obtain ⟨h1, h2, h3, h4, h5, h6⟩ := h
  have hx : s.bus.addrOn = false ∧ s.bus.loadOn = false ∧ s.bus.txByteOn = false ∧ s.bus.rxByteOn = false := by
    simpa [Bif.byteOn, and_assoc] using h5
  obtain ⟨x1, x2, x3, x4⟩ := hx
  rcases h6 with ⟨h6, h7, h8⟩ | ⟨h6, h7⟩
  · simp [State.lineStep, Bif.startOn, *]
  · cases h8 : s.bus.stop <;> simp [State.lineStep, Bif.startOn, Bif.stopOn, *]

theorem Sends.lineStart {s0 s : State} (h : Sends s0 s) : Sends s0 s.lineStart := by
  have : Sends s0 (if s.bus.opened then s.emit .restart else s.emit .start) := by
    split <;> exact h.emit _
  refine this.withBif ?_
  cases s.bus.opened <;> rfl

theorem Sends.lineStop {s0 s : State} (h : Sends s0 s) : Sends s0 s.lineStop := by
  refine (h.emit _).withBif ?_
  simp only [Bif.lineStop]
  split <;> rfl

theorem Bif.lineStart_started {b : Bif} (hp : b.pe = true) (ha : b.addr = false)
    (hs : b.stop = false) : b.lineStart.started := by
  simp [Bif.started, Bif.lineStart, hp, ha, hs]

/-- REQ's micro-operations from a requested start on (R214). -/
theorem reaches_connected {s0 s : State} (h0 : CanSend s0) {a : Byte} {tail : List Micro}
    (ha : s0.peer.isPanel = true → a = s0.params.dispAddrW) (hs : Sends s0 s) (hb : s.bus.calling)
    (hbusy : s.busy = true) (hupc : s.upc = .wait .sb :: .wrDr (.const a) :: .wait .addr :: tail) :
    Reaches (Connected s0 a tail (s.calledWire ++ [Token.byte a true])) 6 s := by
  rcases hb with hb | hb
  swap
  · have : s.calledWire = s.wire := by simp [State.calledWire, hb.2.1]
    rw [this]
    exact (reaches_sb h0 ha hs hb hbusy hupc).mono (by omega)
  -- with no stop outstanding the start goes out at once
  have go : ∀ u : State, Sends s0 u → u.bus.starting → ¬(u.bus.role = .master ∧ u.bus.stop = true) →
      u.busy = true → u.upc = .wait .sb :: .wrDr (.const a) :: .wait .addr :: tail →
      Reaches (Connected s0 a tail (u.calledWire ++ [Token.byte a true])) 5 u := by
    intro u hu hub hst hubusy huupc
    have hc0 := h0.of_sends hu
    have hline := Bif.starting_lineOn hub
    have hub' := hub
    obtain ⟨h1, h2, h3, h4, h5, h6⟩ := hub
    refine Reaches.step hubusy hc0.faulted (by simp [huupc]) hc0.budget
      (hc0.peerOn (by rcases h6 with ⟨h6, -⟩ | ⟨h6, -⟩ <;> rw [h6] <;> decide)) (fun _ => hline) ?_ ?_
    · intro hw; simp [State.waiting, huupc, Cond.holds, h2] at hw
    · intro _ q d
      rw [State.starting_lineStep (s := u.reschedule q d) hub', if_neg (by simpa using hst)]
      have hstop : u.bus.stop = false := by
        rcases h6 with ⟨-, -, h⟩ | ⟨h, -⟩
        · exact h
        · simpa [h] using hst
      have e1 : (u.reschedule q d).lineStart.busy = true := by
        simp only [State.lineStart]; split <;> simpa using hubusy
      have e2 : (u.reschedule q d).lineStart.upc = u.upc := by
        simp only [State.lineStart]; split <;> rfl
      refine (reaches_sb h0 ha (hu.reschedule q d).lineStart
        (Bif.lineStart_started h1 h3 hstop) e1 (e2.trans huupc)).imp ?_
      · rintro t ⟨g1, g2, g3, g4, g5⟩
        refine ⟨g1, g2, g3, g4, ?_⟩
        rw [g5]
        rcases h6 with ⟨h6, h7, -⟩ | ⟨h6, h7⟩
        · simp [State.lineStart, State.calledWire, h2, h6, h7]
        · simp [State.lineStart, State.calledWire, h2, h6, h7, hstop]
  by_cases hst : s.bus.role = .master ∧ s.bus.stop = true
  swap
  · exact (go s hs hb hst hbusy hupc).mono (by omega)
  have hc0 := h0.of_sends hs
  have hline := Bif.starting_lineOn hb
  have hb' := hb
  obtain ⟨h1, h2, h3, h4, h5, h6⟩ := hb
  refine Reaches.step hbusy hc0.faulted (by simp [hupc]) hc0.budget
    (hc0.peerOn (by rw [hst.1]; decide)) (fun _ => hline) ?_ ?_
  · intro hw; simp [State.waiting, hupc, Cond.holds, h2] at hw
  · intro _ q d
    rw [State.starting_lineStep (s := s.reschedule q d) hb', if_pos (by exact hst)]
    refine (go (s.reschedule q d).lineStop (hs.reschedule q d).lineStop ?_ ?_ ?_ ?_).imp ?_
    · simp [State.lineStop, Bif.starting, h1, h2, h3, h4, Bif.byteOn, Bif.addrOn, Bif.loadOn, Bif.txByteOn,
        Bif.rxByteOn]
    · simp [State.lineStop]
    · simpa [State.lineStop] using hbusy
    · simpa [State.lineStop] using hupc
    · rintro t ⟨g1, g2, g3, g4, g5⟩
      refine ⟨g1, g2, g3, g4, ?_⟩
      rw [g5]
      simp [State.calledWire, State.lineStop, h2, hst.1, hst.2]

/-! ### From the acknowledged address to the end of the data -/

theorem Bif.writing.sending {b : Bif} (h : b.writing) : b.Sending := by
  obtain ⟨h1, h2, h3, h4, h5, h6, h7, h8, h9, h10, -, -⟩ := h
  exact ⟨h1, h6, h7, h8, h9, h2, h3, h4, h5, h10⟩

theorem Sent.writing {s0 : State} {tail : List Micro} {w : List Token} {t : State} (h : Sent s0 tail w t) :
    t.bus.writing :=
  ⟨h.bus.pe, h.bus.sb, h.bus.addr, h.bus.start, h.bus.stop, h.bus.role, h.bus.opened, h.bus.phase, h.bus.dir,
    h.bus.more, h.drFull, h.shFull⟩

theorem Bif.writing_lineOn {b : Bif} (h : b.writing) : b.lineOn = false := by
  rw [h.sending.lineOn]
  obtain ⟨-, -, -, -, -, -, -, -, -, -, h1, h2⟩ := h
  simp [h1, h2]

theorem Bif.addressed_rdSr2 {b : Bif} (h : b.addressed .tx) : b.rdSr2.writing ∧ b.rdSr2.sent = 0 := by
  obtain ⟨h1, h2, h3, h4, h5, h6, h7, h8, h9, h10, h11⟩ := h
  simp [Bif.rdSr2, Bif.writing, *]

theorem Bif.writing_rdSr2 {b : Bif} (h : b.writing) : b.rdSr2 = b := by
  obtain ⟨-, -, h1, -⟩ := h
  simp [Bif.rdSr2, h1]

theorem Sends.rdSr2 {s0 s : State} (h : Sends s0 s) : Sends s0 (s.withBif s.bus.rdSr2) := by
  refine h.withBif ?_
  simp only [Bif.rdSr2]
  split <;> rfl

/-- WRB and the initiator WRBURST from `rd_SR2()` to their closing wait (R218, R231). -/
theorem reaches_data {s0 s : State} (h0 : CanSend s0) {c : Cond} (hc : c = .btf ∨ c = .btfAndTxe) {tail : List Micro}
    {srcs : List Src} (hsrc : ∀ v ∈ srcs, v ≠ .draw) (hs : Sends s0 s)
    (hb : (s.bus.addressed .tx ∧ srcs ≠ []) ∨ (s.bus.writing ∧ 0 < s.bus.sent + srcs.length)) (hbusy : s.busy = true)
    (hupc : s.upc = .rdSr2 :: loopCode srcs c tail) :
    Reaches (Sent s0 tail (s.wire ++ srcs.map fun v => .byte (v.value s0) true)) (4 * srcs.length + 2) s := by
  have hc0 := h0.of_sends hs
  have hrole : s.bus.role = .master := by
    rcases hb with ⟨hb, -⟩ | ⟨hb, -⟩
    · exact hb.2.2.2.2.2.1
    · exact hb.2.2.2.2.2.1
  have hline : s.bus.lineOn = false := by
    rcases hb with ⟨hb, -⟩ | ⟨hb, -⟩
    · exact Bif.addressed_lineOn hb
    · exact Bif.writing_lineOn hb
  refine Reaches.step hbusy hc0.faulted (by simp [hupc]) hc0.budget (hc0.peerOn (by rw [hrole]; decide)) ?_ ?_ ?_
  · intro hw; simp [State.waiting, hupc] at hw
  · intro _ q d
    simp only [State.seqStep, State.reschedule_upc, hupc, Micro.run]
    have hwr : s.bus.rdSr2.writing ∧ 0 < s.bus.rdSr2.sent + srcs.length := by
      rcases hb with ⟨hb, hn⟩ | ⟨hb, hn⟩
      · obtain ⟨h1, h2⟩ := Bif.addressed_rdSr2 hb
        refine ⟨h1, ?_⟩
        rw [h2]
        have := List.length_pos_of_ne_nil hn
        omega
      · rw [Bif.writing_rdSr2 hb]
        exact ⟨hb, hn⟩
    refine reaches_loop h0 hc hsrc ((hs.reschedule q d).rdSr2.goto _) ?_ ?_ ?_ ?_ ?_ rfl
    · exact hwr.1.sending
    · cases srcs <;> rfl
    · exact hwr.1.2.2.2.2.2.2.2.2.2.2.1
    · exact hwr.1.2.2.2.2.2.2.2.2.2.2.2
    · exact hwr.2
  · intro hl; rw [hline] at hl; cases hl

/-! ### A whole frame -/

/-- A frame is complete: its bytes are out and its stop is requested, at least. -/
structure Framed (s0 : State) (tail : List Micro) (w : List Token) (t : State) : Prop where
  sends : Sends s0 t
  bus : t.bus.free
  upc : t.upc = tail
  busy : t.busy = !tail.isEmpty
  wire : t.settledWire = w

theorem sendFrame_eq (q : Params) (ctrl : Byte) (srcs : List Src) (tail : List Micro) :
    sendFrame q ctrl srcs ++ tail =
      .set .start :: .wait .sb :: .wrDr (.const q.dispAddrW) :: .wait .addr :: .rdSr2 ::
        loopCode (.const ctrl :: srcs) .btfAndTxe (.set .stop :: tail) := by
  simp [sendFrame, sendBytes, loopCode]

theorem reaches_setStop {s0 s : State} (h0 : CanSend s0) {tail : List Micro} (hs : Sends s0 s) (hb : s.bus.writing)
    (hbusy : s.busy = true) (hupc : s.upc = .set .stop :: tail) :
    Reaches (Framed s0 tail (s.wire ++ [Token.stop])) 1 s := by
  have hc0 := h0.of_sends hs
  have hline := Bif.writing_lineOn hb
  obtain ⟨h1, h2, h3, h4, h5, h6, h7, h8, h9, h10, h11, h12⟩ := hb
  refine Reaches.step hbusy hc0.faulted (by simp [hupc]) hc0.budget (hc0.peerOn (by rw [h6]; decide)) ?_ ?_ ?_
  · intro hw; simp [State.waiting, hupc] at hw
  · intro _ q d
    simp only [State.seqStep, State.reschedule_upc, hupc, Micro.run, Bif.setBit]
    refine .here ⟨((hs.reschedule q d).withBif rfl).goto _, ?_, rfl, rfl, ?_⟩
    · simp [Bif.free, Bif.byteOn, Bif.addrOn, Bif.loadOn, Bif.txByteOn, Bif.rxByteOn, *]
    · simp [State.settledWire, h6]
  · intro hl; rw [hline] at hl; cases hl

theorem Bif.free_lineOn {b : Bif} (h : b.free) : b.lineOn = decide (b.role = .master ∧ b.stop = true) := by
  obtain ⟨h1, h2, h3, h4, h5, h6⟩ := h
  rcases h6 with ⟨h6, h7, h8⟩ | ⟨h6, h7, h8⟩ <;>
    simp [Bif.lineOn, Bif.startOn, Bif.stopOn, *]

theorem Bif.free_role {b : Bif} (h : b.free) : b.role ≠ .slave := by
  obtain ⟨h1, h2, h3, h4, h5, ⟨h6, -⟩ | ⟨h6, -⟩⟩ := h <;> rw [h6] <;> decide

/-- The only line step of a free bus is the stop that is outstanding. -/
theorem State.freeStep {s : State} (hb : s.bus.free) (hl : s.bus.lineOn = true) :
    s.lineStep = s.lineStop ∧ s.lineStep.bus.free ∧ s.lineStep.bus.lineOn = false ∧
      s.lineStep.settledWire = s.settledWire := by
  rw [Bif.free_lineOn hb] at hl
  have hl : s.bus.role = .master ∧ s.bus.stop = true := by simpa using hl
  obtain ⟨h1, h2, h3, h4, h5, h6⟩ := hb
  have hx : s.bus.addrOn = false ∧ s.bus.loadOn = false ∧ s.bus.txByteOn = false ∧ s.bus.rxByteOn = false := by
    simpa [Bif.byteOn, and_assoc] using h5
  obtain ⟨x1, x2, x3, x4⟩ := hx
  have e : s.lineStep = s.lineStop := by
    simp [State.lineStep, Bif.startOn, Bif.stopOn, *]
  rw [e]
  have hfree : s.lineStop.bus.free := by
    simp [State.lineStop, Bif.free, h1, h2, h3, h4, Bif.byteOn, Bif.addrOn, Bif.loadOn, Bif.txByteOn, Bif.rxByteOn]
  refine ⟨rfl, hfree, ?_, ?_⟩
  · rw [Bif.free_lineOn hfree]
    simp [State.lineStop]
  · simp [State.settledWire, State.lineStop, hl.1, hl.2]

/-- With the bus free, the next micro-operation that is not a wait runs, after at most one line step. `P` is what the
transmission keeps, and `Q` what it leads to. -/
theorem reaches_fromFree {P Q : State → Prop} {s : State} {n : Nat} (hP : ∀ u, P u → CanSend u)
    (hsched : ∀ u q d, P u → P (u.reschedule q d)) (hstop : ∀ u, P u → P u.lineStop) (hs : P s) (hb : s.bus.free)
    (hbusy : s.busy = true) {m : Micro} {rest : List Micro} (hupc : s.upc = m :: rest) (hm : ∀ c, m ≠ .wait c)
    (next : ∀ u : State, P u → u.bus.free → u.busy = true → u.upc = s.upc → u.settledWire = s.settledWire →
      Reaches Q n u.seqStep) : Reaches Q (n + 2) s := by
  have hwait : ∀ u : State, u.upc = s.upc → u.waiting = false := by
    intro u hu
    rw [hupc] at hu
    unfold State.waiting
    rw [hu]
    cases m <;> first | rfl | exact absurd rfl (hm _)
  have hc0 := hP s hs
  refine Reaches.step hbusy hc0.faulted (by simp [hupc]) hc0.budget (hc0.peerOn (Bif.free_role hb)) ?_ ?_ ?_
  · intro hw; rw [hwait s rfl] at hw; cases hw
  · intro _ q d
    exact (next _ (hsched _ q d hs) hb hbusy rfl rfl).mono (by omega)
  · intro hl q d
    obtain ⟨e, g1, g2, g3⟩ := State.freeStep (s := s.reschedule q d) hb hl
    have hs' := hstop _ (hsched _ q d hs)
    rw [← e] at hs'
    have e1 : (s.reschedule q d).lineStep.upc = s.upc := by rw [e]; rfl
    have e2 : (s.reschedule q d).lineStep.busy = true := by rw [e]; exact hbusy
    have gc := hP _ hs'
    refine Reaches.step e2 gc.faulted (by rw [e1]; simp [hupc]) gc.budget (gc.peerOn (Bif.free_role g1)) ?_ ?_ ?_
    · intro hw; rw [hwait _ e1] at hw; cases hw
    · intro _ q' d'
      exact next _ (hsched _ q' d' hs') g1 e2 e1 g3
    · intro hl'; rw [g2] at hl'; cases hl'

/-- The same, for a transmission whose peer acknowledges. -/
theorem reaches_free {Q : State → Prop} {s0 s : State} {n : Nat} (h0 : CanSend s0) (hs : Sends s0 s) (hb : s.bus.free)
    (hbusy : s.busy = true) {m : Micro} {rest : List Micro} (hupc : s.upc = m :: rest) (hm : ∀ c, m ≠ .wait c)
    (next : ∀ u : State, Sends s0 u → u.bus.free → u.busy = true → u.upc = s.upc → u.settledWire = s.settledWire →
      Reaches Q n u.seqStep) : Reaches Q (n + 2) s :=
  reaches_fromFree (P := Sends s0) (fun _ => h0.of_sends) (fun _ q d h => h.reschedule q d) (fun _ h => h.lineStop) hs hb
    hbusy hupc hm next

/-- A frame runs to its end and puts its image on the wire (R263). -/
theorem reaches_frame {s0 s : State} (h0 : CanSend s0) (hd : s0.params.dispAddrW.getLsbD 0 = false) {ctrl : Byte}
    {srcs : List Src} {tail : List Micro} (hsrc : ∀ v ∈ srcs, v ≠ .draw) (hs : Sends s0 s) (hb : s.bus.free)
    (hbusy : s.busy = true) (hupc : s.upc = sendFrame s0.params ctrl srcs ++ tail) :
    Reaches (Framed s0 tail (s.settledWire ++ frameTokens s0.params ctrl (srcs.map (·.value s0))))
      (4 * srcs.length + 15) s := by
  rw [sendFrame_eq] at hupc
  refine (reaches_free (n := 4 * srcs.length + 13) h0 hs hb hbusy hupc (by simp) ?_).mono (by omega)
  intro u hu hub hubusy huupc huw
  simp only [State.seqStep, huupc, hupc, Micro.run, Bif.setBit]
  have hcall : { u.bus with start := true }.calling := by
    obtain ⟨h1, h2, h3, h4, h5, h6⟩ := hub
    refine .inl ⟨h1, h2, h3, rfl, h5, ?_⟩
    rcases h6 with h6 | ⟨h6, h7, -⟩
    · exact .inl h6
    · exact .inr ⟨h6, h7⟩
  have hcw : ((u.withBif { u.bus with start := true }).goto (.wait .sb :: .wrDr (.const s0.params.dispAddrW) ::
      .wait .addr :: .rdSr2 :: loopCode (.const ctrl :: srcs) .btfAndTxe (.set .stop :: tail))).calledWire =
      s.settledWire ++ [Token.start] := by
    rw [← huw]
    obtain ⟨h1, h2, h3, h4, h5, ⟨h6, h7, h8⟩ | ⟨h6, h7, h8⟩⟩ := hub <;>
      simp [State.calledWire, State.settledWire, h2, h6, h8]
  refine ((reaches_connected (tail := .rdSr2 :: loopCode (.const ctrl :: srcs) .btfAndTxe (.set .stop :: tail))
    h0 (fun _ => rfl) ((hu.withBif rfl).goto _) hcall rfl rfl).trans
      (m := 4 * srcs.length + 7) ?_).mono (by omega)
  rintro t ⟨g1, g2, g3, g4, g5⟩
  rw [hd] at g2
  refine ((reaches_data (srcs := .const ctrl :: srcs) h0 (.inr rfl) ?_ g1 (.inl ⟨by simpa using g2, by simp⟩)
    (by rw [g4]; rfl) g3).trans (m := 1) ?_).mono (by simp; omega)
  · intro v hv
    rcases List.mem_cons.1 hv with rfl | hv
    · simp
    · exact hsrc v hv
  · intro x hx
    refine (reaches_setStop (tail := tail) h0 hx.sends hx.writing (by rw [hx.busy]; rfl) hx.upc).imp ?_
    rintro y ⟨k1, k2, k3, k4, k5⟩
    refine ⟨k1, k2, k3, k4, ?_⟩
    rw [k5, hx.wire, g5, hcw]
    simp [frameTokens, Src.value]

end Sys2Proof.Machine
end

