-- ==== Sys2Proof/Laws/Display.lean ====
section
/-! SUPPORT. Laws/Display.lean: what a display operation is made of, framebuffer updates and frames (43 R263; 45 R344),
and that any sequence of them runs to its end. -/

namespace Sys2Proof.Machine

/-- A piece of a display operation. -/
inductive Item where
  /-- One frame (R263). -/
  | frame (ctrl : Byte) (srcs : List Src)
  /-- `FB[i] <- FB[i] | v`. -/
  | fbOr (i : Nat) (v : Byte)
  /-- `FB[i] <- FB[i] & ~v`. -/
  | fbClr (i : Nat) (v : Byte)
  /-- `FB[i] <- v`. -/
  | fbPut (i : Nat) (v : Byte)
  /-- Every byte of `FB` becomes zero. -/
  | fbZero

/-- The micro-operations of a piece. -/
def Item.code (q : Params) : Item → List Micro
  | .frame ctrl srcs => sendFrame q ctrl srcs
  | .fbOr i v => [.fbOr i v]
  | .fbClr i v => [.fbClr i v]
  | .fbPut i v => [.fbPut i v]
  | .fbZero => [.fbZero]

/-- What a piece does to the framebuffer. -/
def Item.apply (x : Item) (s : State) : State :=
  match x with
  | .frame _ _ => s
  | .fbOr i v => s.fbWrite i (s.fbByte i ||| v)
  | .fbClr i v => s.fbWrite i (s.fbByte i &&& ~~~v)
  | .fbPut i v => s.fbWrite i v
  | .fbZero => s.fbClear

/-- What a piece puts on the wire. -/
def Item.tokens (x : Item) (s : State) : List Token :=
  match x with
  | .frame ctrl srcs => frameTokens s.params ctrl (srcs.map (·.value s))
  | _ => []

/-- A bound on the moves of a piece. -/
def Item.cost : Item → Nat
  | .frame _ srcs => 4 * srcs.length + 15
  | _ => 2

/-- The bytes of a piece are no draws. -/
def Item.plain : Item → Prop
  | .frame _ srcs => ∀ v ∈ srcs, v ≠ .draw
  | _ => True

/-- The framebuffer after a list of pieces. -/
def applyAll (xs : List Item) (s : State) : State := xs.foldl (fun s x => x.apply s) s

/-- The wire image of a list of pieces, each byte read when it is sent. -/
def tokensOf : List Item → State → List Token
  | [], _ => []
  | x :: xs, s => x.tokens s ++ tokensOf xs (x.apply s)

/-- The micro-operations of a list of pieces. -/
def codeOf (q : Params) (xs : List Item) : List Micro := xs.flatMap (Item.code q)

/-- A bound on the moves of a list of pieces. -/
def costOf (xs : List Item) : Nat := (xs.map Item.cost).sum

theorem codeOf_append (q : Params) (xs ys : List Item) : codeOf q (xs ++ ys) = codeOf q xs ++ codeOf q ys := by
  simp [codeOf]

theorem costOf_append (xs ys : List Item) : costOf (xs ++ ys) = costOf xs + costOf ys := by
  simp [costOf]

theorem applyAll_append (xs ys : List Item) (s : State) : applyAll (xs ++ ys) s = applyAll ys (applyAll xs s) := by
  simp [applyAll]

theorem tokensOf_append (xs ys : List Item) (s : State) :
    tokensOf (xs ++ ys) s = tokensOf xs s ++ tokensOf ys (applyAll xs s) := by
  induction xs generalizing s with
  | nil => rfl
  | cons x xs ih => simp [tokensOf, ih, applyAll]

/-- Where a list of pieces ends. -/
structure Ends (after : State) (w : List Token) (tail : List Micro) (t : State) : Prop where
  same : after.sentBy t = t
  ready : t.displayReady
  faulted : t.faulted = none
  upc : t.upc = tail
  busy : t.busy = !tail.isEmpty
  wire : t.settledWire = w

theorem State.displayReady.canSend {s : State} (h : s.displayReady) (hf : s.faulted = none) : CanSend s :=
  ⟨hf, h.2.2.2.1, h.1.1, h.2.1⟩

theorem State.sentBy_self (s : State) : s.sentBy s = s := rfl

theorem Sends.refl {s : State} (h : s.peer.acknowledges) : Sends s s := ⟨rfl, h⟩

/-- What a transmission leaves alone includes the conditions of the next one. -/
theorem Sends.displayReady {s t : State} (h : Sends s t) (hs : s.displayReady) (hb : t.bus.free) : t.displayReady := by
  obtain ⟨h1, h2, h3, h4, h5⟩ := hs
  refine ⟨hb, ?_, h.acks, ?_, ?_⟩
  · rcases h2 with h2 | h2
    · exact .inl (h.moves.trans h2)
    · exact .inr (h.ack.trans h2)
  · rw [h.params]; exact h4
  · rw [h.params]; exact h5

theorem Item.apply_params (x : Item) (s : State) : (x.apply s).params = s.params := by
  cases x <;> simp [Item.apply]

theorem Item.apply_sentBy (x : Item) (s t : State) :
    ∀ u, (x.apply (s.sentBy t)).sentBy u = (x.apply s).sentBy u := by
  intro u
  cases x with
  | frame ctrl srcs => rfl
  | fbOr i v => rfl
  | fbClr i v => rfl
  | fbPut i v => rfl
  | fbZero =>
    simp only [Item.apply, State.fbClear]
    generalize Memory.zeros 1024 = z
    rfl

theorem Item.tokens_sentBy (x : Item) (s t : State) : x.tokens (s.sentBy t) = x.tokens s ∨ ¬x.plain := by
  cases x with
  | frame ctrl srcs =>
    by_cases h : ∀ v ∈ srcs, v ≠ .draw
    · left
      simp only [Item.tokens]
      congr 1
      exact List.map_congr_left fun v hv => Src.value_congr (h v hv) rfl rfl
    · exact .inr h
  | _ => exact .inl rfl

theorem tokensOf_sentBy {xs : List Item} (h : ∀ x ∈ xs, x.plain) {s t : State} (hst : s.sentBy t = t) :
    tokensOf xs t = tokensOf xs s := by
  induction xs generalizing s t with
  | nil => rfl
  | cons x xs ih =>
    have h1 : x.tokens t = x.tokens s := by
      rcases x.tokens_sentBy s t with h1 | h1
      · rw [hst] at h1; exact h1
      · exact absurd (h x (by simp)) h1
    have h2 : (x.apply s).sentBy (x.apply t) = x.apply t := by
      rw [← x.apply_sentBy s t, hst]
      exact State.sentBy_self _
    simp only [tokensOf, h1, ih (fun y hy => h y (List.mem_cons_of_mem _ hy)) h2]

theorem applyAll_sentBy {xs : List Item} {s t : State} (hst : s.sentBy t = t) (u : State) :
    (applyAll xs t).sentBy u = (applyAll xs s).sentBy u := by
  induction xs generalizing s t with
  | nil => rw [← hst]; rfl
  | cons x xs ih =>
    have h2 : (x.apply s).sentBy (x.apply t) = x.apply t := by
      rw [← x.apply_sentBy s t, hst]
      exact State.sentBy_self _
    exact ih h2

/-- A micro-operation on the framebuffer alone, with the bus free. -/
theorem reaches_fb {s : State} (hs : s.displayReady) (hf : s.faulted = none) {m : Micro} {tail : List Micro}
    (hbusy : s.busy = true) (hupc : s.upc = m :: tail) (hm : ∀ c, m ≠ .wait c) {g : State → State}
    (hrun : ∀ u, m.run tail u = (g u).goto tail)
    (hg : ∀ u, Sends s u → (g s).sentBy ((g u).goto tail) = (g u).goto tail)
    (hbus : ∀ u, (g u).bus = u.bus) (hpeer : ∀ u, (g u).peer = u.peer) (hpar : ∀ u, (g u).params = u.params)
    (hft : ∀ u, (g u).faulted = u.faulted) (hw : ∀ u, (g u).wire = u.wire) :
    Reaches (Ends (g s) s.settledWire tail) 2 s := by
  refine reaches_free (hs.canSend hf) (Sends.refl hs.2.2.1) hs.1 hbusy hupc hm ?_
  intro u hu hub hubusy huupc huw
  have hdr := hu.displayReady hs hub
  simp only [State.seqStep, huupc, hupc, hrun]
  refine .here ⟨hg u hu, ?_, ?_, rfl, rfl, ?_⟩
  · obtain ⟨h1, h2, h3, h4, h5⟩ := hdr
    refine ⟨?_, ?_, ?_, ?_, ?_⟩
    · simpa [hbus] using h1
    · simpa [State.peerAway, hbus, hpeer] using h2
    · simpa [hpeer] using h3
    · simpa [hpar] using h4
    · simpa [hpar] using h5
  · simp [hft, hu.faulted, hf]
  · rw [← huw]
    simp [State.settledWire, hbus, hw]

/-- One piece of a display operation runs to its end. -/
theorem reaches_item {s : State} (hs : s.displayReady) (hf : s.faulted = none) {x : Item} (hx : x.plain)
    {tail : List Micro} (hbusy : s.busy = true) (hupc : s.upc = x.code s.params ++ tail) :
    Reaches (Ends (x.apply s) (s.settledWire ++ x.tokens s) tail) x.cost s := by
  cases x with
  | frame ctrl srcs =>
    refine (reaches_frame (hs.canSend hf) hs.2.2.2.2 hx (Sends.refl hs.2.2.1) hs.1 hbusy hupc).imp ?_
    rintro t ⟨g1, g2, g3, g4, g5⟩
    exact ⟨g1.same, g1.displayReady hs g2, g1.faulted.trans hf, g3, g4, g5⟩
  | fbOr i v =>
    simp only [Item.apply, Item.tokens, List.append_nil]
    refine reaches_fb (g := fun u => u.fbWrite i (u.fbByte i ||| v)) hs hf hbusy hupc (by simp) (fun u => rfl) ?_
      (fun _ => rfl) (fun _ => rfl) (fun _ => rfl) (fun _ => rfl) (fun _ => rfl)
    intro u hu
    rw [← hu.same]
    rfl
  | fbClr i v =>
    simp only [Item.apply, Item.tokens, List.append_nil]
    refine reaches_fb (g := fun u => u.fbWrite i (u.fbByte i &&& ~~~v)) hs hf hbusy hupc (by simp) (fun u => rfl) ?_
      (fun _ => rfl) (fun _ => rfl) (fun _ => rfl) (fun _ => rfl) (fun _ => rfl)
    intro u hu
    rw [← hu.same]
    rfl
  | fbPut i v =>
    simp only [Item.apply, Item.tokens, List.append_nil]
    refine reaches_fb (g := fun u => u.fbWrite i v) hs hf hbusy hupc (by simp) (fun u => rfl) ?_
      (fun _ => rfl) (fun _ => rfl) (fun _ => rfl) (fun _ => rfl) (fun _ => rfl)
    intro u hu
    rw [← hu.same]
    rfl
  | fbZero =>
    simp only [Item.apply, Item.tokens, List.append_nil]
    refine reaches_fb (g := State.fbClear) hs hf hbusy hupc (by simp) (fun u => rfl) ?_ State.fbClear_bus
      State.fbClear_peer State.fbClear_params State.fbClear_faulted State.fbClear_wire
    intro u hu
    rw [← hu.same]
    simp only [State.fbClear]
    generalize Memory.zeros 1024 = z
    rfl

theorem Item.code_ne_nil (q : Params) (x : Item) : x.code q ≠ [] := by
  cases x <;> simp [Item.code, sendFrame]

/-- A list of pieces runs to its end. -/
theorem reaches_items {xs : List Item} (hx : ∀ x ∈ xs, x.plain) {s : State} (hs : s.displayReady)
    (hf : s.faulted = none) {tail : List Micro} (hbusy : s.busy = !s.upc.isEmpty)
    (hupc : s.upc = codeOf s.params xs ++ tail) :
    Reaches (Ends (applyAll xs s) (s.settledWire ++ tokensOf xs s) tail) (costOf xs) s := by
  induction xs generalizing s with
  | nil =>
    have hupc : s.upc = tail := by simpa [codeOf] using hupc
    refine .here ⟨rfl, hs, hf, hupc, ?_, ?_⟩
    · rw [hbusy, hupc]
    · simp [tokensOf]
  | cons x xs ih =>
    have hcode : s.upc = x.code s.params ++ (codeOf s.params xs ++ tail) := by
      rw [hupc]; simp [codeOf]
    have hb : s.busy = true := by
      rw [hbusy, hcode]
      cases h : x.code s.params with
      | nil => exact absurd h (x.code_ne_nil _)
      | cons => rfl
    refine (reaches_item hs hf (hx x (by simp)) hb hcode).trans (m := costOf xs) ?_ |>.mono (by simp [costOf])
    rintro t ⟨g1, g2, g3, g4, g5, g6⟩
    have hpar : t.params = s.params := by
      rw [← g1]
      exact x.apply_params s
    refine (ih (fun y hy => hx y (List.mem_cons_of_mem _ hy)) g2 g3 (by rw [g5, g4])
      (by rw [g4, hpar])).imp ?_
    rintro u ⟨k1, k2, k3, k4, k5, k6⟩
    refine ⟨?_, k2, k3, k4, k5, ?_⟩
    · rw [applyAll_sentBy g1 u] at k1
      exact k1
    · rw [k6, g6, tokensOf_sentBy (fun y hy => hx y (List.mem_cons_of_mem _ hy)) g1]
      simp [tokensOf]

/-- A display operation that is a list of pieces completes (R263, R440). -/
theorem completes_of_items {i : Instr} {tests : List (Bool × RefuseReason)} {xs : List Item} {s : State}
    (hexec : exec i s = command i tests (codeOf s.params xs) s) (htests : firstFailing tests = none)
    (hx : ∀ x ∈ xs, x.plain) (hcost : costOf xs ≤ sliceTicks) (hr : s.ready) (hs : s.displayReady) :
    Completes i s (applyAll xs s) (tokensOf xs s) := by
  have hl : (s.load (encode i) (codeOf s.params xs)).displayReady := hs
  have hsame : s.sentBy (s.load (encode i) (codeOf s.params xs)) = s.load (encode i) (codeOf s.params xs) := rfl
  have r := reaches_items (tail := []) hx hl hr.2 rfl (by simp)
  have e := State.runOp_of_reaches r (fun t ht => State.tick_empty ht.upc) hcost
  obtain ⟨g1, g2, g3, g4, g5, g6⟩ := e
  refine ⟨_, ?_, ⟨g5, g4, g3⟩, g2, ?_, ?_⟩
  · rw [hexec]
    simp only [command, hr.1, htests]
    rfl
  · rw [applyAll_sentBy hsame] at g1
    exact g1.symm
  · rw [g6, tokensOf_sentBy hx hsame]
    rfl

/-! ### The pieces of the display operations -/

/-- A command frame as a piece (R264). -/
def cmdItem (q : Params) (cmds : List Byte) : Item := .frame q.ctrlCmd (cmds.map .const)

/-- The cursor frame as a piece (R270). -/
def cursorItem (q : Params) (col page : Nat) : Item :=
  cmdItem q [q.cmds.colRange, BitVec.ofNat 8 col, 127, q.cmds.pageRange, BitVec.ofNat 8 page, 7]

/-- A run of data bytes as pieces (R264). -/
def dataItems (q : Params) (srcs : List Src) : List Item :=
  match q.framing with
  | .perByte => srcs.map fun v => .frame q.ctrlData [v]
  | .continuous => [.frame q.ctrlData srcs]

/-- A plotted point as pieces (R344). -/
def plotItems (q : Params) (v : Bool) (p : Point) : List Item :=
  if onDisplay p then
    (if v then .fbOr (pixelIndex p) (pixelMask p) else .fbClr (pixelIndex p) (pixelMask p))
      :: cursorItem q p.1.toNat (p.2.toNat / 8) :: dataItems q [.fb (pixelIndex p)]
  else []

theorem sendCmd_code (q : Params) (cmds : List Byte) : sendCmd q cmds = codeOf q [cmdItem q cmds] := by
  simp [sendCmd, codeOf, cmdItem, Item.code]

theorem cursorFrame_code (q : Params) (col page : Nat) : cursorFrame q col page = codeOf q [cursorItem q col page] :=
  sendCmd_code q _

theorem sendData_code (q : Params) (srcs : List Src) : sendData q srcs = codeOf q (dataItems q srcs) := by
  unfold sendData dataItems
  cases q.framing <;> simp [codeOf, Item.code, List.flatMap_map]

theorem plot_code (q : Params) (v : Bool) (p : Point) : plot q v p = codeOf q (plotItems q v p) := by
  unfold plot plotItems
  split
  · rw [sendData_code, cursorFrame_code]
    cases v <;> simp [codeOf, Item.code]
  · rfl

theorem plotAll_code (q : Params) (ps : List Point) : plotAll q ps = codeOf q (ps.flatMap (plotItems q true)) := by
  induction ps with
  | nil => rfl
  | cons p ps ih =>
    simp only [plotAll, List.flatMap_cons] at ih ⊢
    rw [codeOf_append, ← ih, plot_code]

theorem cmdItem_tokens (s : State) (cmds : List Byte) :
    tokensOf [cmdItem s.params cmds] s = cmdTokens s.params cmds := by
  have : (fun v : Byte => (Src.const v).value s) = id := rfl
  simp [tokensOf, cmdItem, Item.tokens, cmdTokens, Function.comp_def, this]

theorem cursorItem_tokens (s : State) (col page : Nat) :
    tokensOf [cursorItem s.params col page] s = cursorTokens s.params col page :=
  cmdItem_tokens s _

/-- Frames leave the framebuffer alone. -/
theorem applyAll_frames {xs : List Item} (h : ∀ x ∈ xs, ∃ c l, x = .frame c l) (s : State) : applyAll xs s = s := by
  induction xs with
  | nil => rfl
  | cons x xs ih =>
    obtain ⟨c, l, rfl⟩ := h x (by simp)
    exact ih fun y hy => h y (List.mem_cons_of_mem _ hy)

theorem dataItems_frames (q : Params) (srcs : List Src) : ∀ x ∈ dataItems q srcs, ∃ c l, x = .frame c l := by
  intro x hx
  unfold dataItems at hx
  cases hf : q.framing <;> rw [hf] at hx
  · simp only [List.mem_map] at hx
    obtain ⟨v, -, rfl⟩ := hx
    exact ⟨_, _, rfl⟩
  · simp only [List.mem_singleton] at hx
    exact ⟨_, _, hx⟩

theorem dataItems_apply (q : Params) (srcs : List Src) (s : State) : applyAll (dataItems q srcs) s = s :=
  applyAll_frames (dataItems_frames q srcs) s

theorem dataItems_plain (q : Params) {srcs : List Src} (h : ∀ v ∈ srcs, v ≠ .draw) :
    ∀ x ∈ dataItems q srcs, x.plain := by
  intro x hx
  unfold dataItems at hx
  cases hf : q.framing <;> rw [hf] at hx
  · simp only [List.mem_map] at hx
    obtain ⟨v, hv, rfl⟩ := hx
    intro y hy
    rw [List.mem_singleton] at hy
    rw [hy]
    exact h v hv
  · simp only [List.mem_singleton] at hx
    rw [hx]
    exact h

theorem tokensOf_map_frames (ctrl : Byte) (srcs : List Src) (s : State) :
    tokensOf (srcs.map fun v => Item.frame ctrl [v]) s = srcs.flatMap fun v => frameTokens s.params ctrl [v.value s] := by
  induction srcs with
  | nil => rfl
  | cons v srcs ih => simp [tokensOf, Item.tokens, Item.apply, ih]

theorem dataItems_tokens (s : State) (srcs : List Src) :
    tokensOf (dataItems s.params srcs) s = dataTokens s.params (srcs.map (·.value s)) := by
  unfold dataItems dataTokens
  cases s.params.framing
  · rw [tokensOf_map_frames, List.flatMap_map]
  · simp [tokensOf, Item.tokens]

theorem costOf_map (f : Src → Item) (k : Nat) (hf : ∀ v, (f v).cost ≤ k) (srcs : List Src) :
    costOf (srcs.map f) ≤ k * srcs.length := by
  induction srcs with
  | nil => simp [costOf]
  | cons v srcs ih =>
    have := hf v
    simp only [costOf, List.map_cons, List.sum_cons, List.length_cons] at ih ⊢
    rw [Nat.mul_succ]
    omega

theorem dataItems_cost (q : Params) (srcs : List Src) : costOf (dataItems q srcs) ≤ 19 * srcs.length + 15 := by
  unfold dataItems
  cases q.framing
  · exact (costOf_map _ 19 (fun v => by simp [Item.cost]) srcs).trans (by omega)
  · simp only [costOf, Item.cost, List.map_cons, List.map_nil, List.sum_cons, List.sum_nil]
    omega

theorem cmdItem_plain (q : Params) (cmds : List Byte) : (cmdItem q cmds).plain := by
  intro v hv
  simp only [List.mem_map] at hv
  obtain ⟨x, -, rfl⟩ := hv
  simp

/-- An operation that is one command frame completes (R264). -/
theorem completes_of_cmd {i : Instr} {tests : List (Bool × RefuseReason)} {cmds : List Byte} {s : State}
    (hexec : exec i s = command i tests (sendCmd s.params cmds) s) (htests : firstFailing tests = none)
    (hlen : cmds.length ≤ 1000) (hr : s.ready) (hs : s.displayReady) :
    Completes i s s (cmdTokens s.params cmds) := by
  rw [sendCmd_code] at hexec
  have := completes_of_items hexec htests (by simpa using cmdItem_plain s.params cmds) ?_ hr hs
  · rw [cmdItem_tokens] at this
    exact this
  · simp only [costOf, List.map_cons, List.map_nil, List.sum_cons, List.sum_nil, cmdItem, Item.cost, List.length_map,
      sliceTicks]
    omega

/-! ### DRAWCHAR -/

/-- With the bus free, a text micro-operation runs. -/
theorem reaches_text {s : State} (hs : s.displayReady) (hf : s.faulted = none) {q n : Nat} (hbusy : s.busy = true)
    (hupc : s.upc = [.text q]) {Q : State → Prop}
    (next : ∀ u, Sends s u → u.bus.free → u.busy = true → u.upc = [.text q] → u.settledWire = s.settledWire →
      Reaches Q n (Micro.run (.text q) [] u)) : Reaches Q (n + 2) s := by
  refine reaches_free (hs.canSend hf) (Sends.refl hs.2.2.1) hs.1 hbusy hupc (by simp) ?_
  intro u hu hub hubusy huupc huw
  rw [hupc] at huupc
  rw [State.seqStep_eq huupc]
  exact next u hu hub hubusy huupc huw

/-- The tokens of a character (R365). -/
def charTokens (q : Params) (code : Nat) : List Token :=
  dataTokens q ((List.range 5).map fun k => fontByte q ((code - 0x20) * 5 + k))

theorem Sends.settled {s t : State} (h : Sends s t) (hs : s.displayReady) (hb : t.bus.free) (hf : s.faulted = none) :
    t.displayReady ∧ t.faulted = none :=
  ⟨h.displayReady hs hb, h.faulted.trans hf⟩

/-- The characters of a text are sent one after another; what follows them is `Q`'s. -/
theorem reaches_chars {Q : State → Prop} {m : Nat} :
    ∀ (cs : List Byte) (q : Nat) (s : State), s.displayReady → s.faulted = none → s.busy = true → s.upc = [.text q] →
      q + cs.length ≤ 65536 → (∀ i c, cs[i]? = some c → s.bufByte (q + i) = c ∧ 0x20 ≤ c.toNat ∧ c.toNat ≤ 0x7E) →
      (∀ t, s.sentBy t = t → t.displayReady → t.faulted = none → t.busy = true → t.upc = [.text (q + cs.length)] →
        t.settledWire = s.settledWire ++ cs.flatMap (fun c => charTokens s.params c.toNat) → Reaches Q m t) →
      Reaches Q (114 * cs.length + m) s := by
  intro cs
  induction cs with
  | nil =>
    intro q s hs hf hb hu _ _ next
    have := next s rfl hs hf hb hu (by simp)
    simpa using this
  | cons c cs ih =>
    intro q s hs hf hb hu hq hcs next
    obtain ⟨hc, h1, h2⟩ := hcs 0 c (by simp)
    have e : 114 * (c :: cs).length + m = (112 + (114 * cs.length + m)) + 2 := by simp; omega
    rw [e]
    refine reaches_text hs hf hb hu ?_
    intro u hu1 hub hubusy huupc huw
    have hcu : (u.bufByte q).toNat = c.toNat := by
      rw [State.bufByte_congr hu1.buf q]
      have hc' : s.bufByte q = c := by simpa using hc
      rw [hc']
    have hq' : ¬0xFFFF < q := by simp at hq; omega
    have h0 : ¬c.toNat = 0 := by omega
    have hr : ¬(c.toNat < 0x20 ∨ 0x7E < c.toNat) := by omega
    obtain ⟨hur, huf⟩ := hu1.settled hs hub hf
    simp only [Micro.run, hq', if_false, hcu, h0, hr, sendData_code]
    have hplain : ∀ x ∈ dataItems u.params (glyph u.params c.toNat), x.plain := by
      refine dataItems_plain _ ?_
      intro v hv
      simp only [glyph, List.mem_map] at hv
      obtain ⟨k, -, rfl⟩ := hv
      simp
    have hcost : costOf (dataItems u.params (glyph u.params c.toNat)) ≤ 112 :=
      (dataItems_cost _ _).trans (by simp [glyph])
    have r := reaches_items (tail := [.text (q + 1)]) hplain
      (s := u.goto (codeOf u.params (dataItems u.params (glyph u.params c.toNat)) ++ [Micro.text (q + 1)])) hur huf rfl rfl
    refine (r.trans (m := 114 * cs.length + m) ?_).mono (by omega)
    rintro t ⟨g1, g2, g3, g4, g5, g6⟩
    rw [dataItems_apply] at g1
    have hsu : s.sentBy u = u := hu1.same
    have hst : s.sentBy t = t := by
      rw [← g1]
      conv_rhs => rw [← hsu]
      rfl
    have hpar : t.params = s.params := by rw [← hst]; rfl
    have hbuf : t.buf = s.buf := by rw [← hst]; rfl
    refine ih (q + 1) t g2 g3 (by rw [g5]; rfl) g4 (by simp at hq ⊢; omega) ?_ ?_
    · intro i x hx
      have := hcs (i + 1) x (by simpa using hx)
      rw [State.bufByte_congr hbuf]
      have e : q + 1 + i = q + (i + 1) := by omega
      rw [e]
      exact this
    · intro x k1 k2 k3 k4 k5 k6
      refine next x ?_ k2 k3 k4 ?_ ?_
      · rw [← k1]
        conv_rhs => rw [← hst]
        rfl
      · rw [k5]
        congr 2
        simp
        omega
      · have hgp : (u.goto (codeOf u.params (dataItems u.params (glyph u.params c.toNat)) ++ [Micro.text (q + 1)])).params =
            u.params := rfl
        have htok := dataItems_tokens
          (u.goto (codeOf u.params (dataItems u.params (glyph u.params c.toNat)) ++ [Micro.text (q + 1)]))
          (glyph u.params c.toNat)
        rw [hgp] at htok
        have hup : u.params = s.params := hu1.params
        have hgl : (glyph u.params c.toNat).map (·.value (u.goto (codeOf u.params (dataItems u.params
            (glyph u.params c.toNat)) ++ [Micro.text (q + 1)]))) =
            (List.range 5).map fun k => fontByte s.params ((c.toNat - 0x20) * 5 + k) := by
          rw [hup]
          simp only [glyph, List.map_map]
          rfl
        have hsw : (u.goto (codeOf u.params (dataItems u.params (glyph u.params c.toNat)) ++
            [.text (q + 1)])).settledWire = s.settledWire := huw
        rw [hsw, htok, hgl, hup] at g6
        rw [k6, g6, hpar]
        simp [charTokens]

end Sys2Proof.Machine
end

