-- ==== Sys2Proof/Laws/Nack.lean ====
section
/-! SUPPORT. Laws/Nack.lean: what becomes of a transmission whose peer refuses a byte (40 R161, R164; 41 R214, R218;
42 R231; 70 R441): the operation hangs. -/

namespace Sys2Proof.Machine

/-- `s` is what a transmission that started in `s0` has led to before the peer was asked anything. -/
structure Unasked (s0 s : State) : Prop where
  same : s0.sentBy s = s
  acks : s.peer.acks = s0.peer.acks

namespace Unasked
variable {s0 s : State}

theorem faulted (h : Unasked s0 s) : s.faulted = s0.faulted := by rw [← h.same]; rfl
theorem params (h : Unasked s0 s) : s.params = s0.params := by rw [← h.same]; rfl
theorem isPanel (h : Unasked s0 s) : s.peer.isPanel = s0.peer.isPanel := by rw [← h.same]; rfl
theorem moves (h : Unasked s0 s) : s.peer.moves = s0.peer.moves := by rw [← h.same]; rfl
theorem ack (h : Unasked s0 s) : s.bus.ack = s0.bus.ack := by rw [← h.same]; rfl
theorem pe (h : Unasked s0 s) : s.bus.pe = s0.bus.pe := by rw [← h.same]; rfl
theorem kept (h : Unasked s0 s) : s.fb = s0.fb ∧ s.buf = s0.buf ∧ s.res = s0.res := by
  rw [← h.same]; exact ⟨rfl, rfl, rfl⟩

theorem goto (h : Unasked s0 s) (c : List Micro) : Unasked s0 (s.goto c) := ⟨by rw [← h.same]; rfl, h.acks⟩

theorem reschedule (h : Unasked s0 s) (q : Script Agent) (d : Nat) : Unasked s0 (s.reschedule q d) :=
  ⟨by rw [← h.same]; rfl, h.acks⟩

theorem emit (h : Unasked s0 s) (t : Token) : Unasked s0 (s.emit t) := ⟨by rw [← h.same]; rfl, h.acks⟩

theorem withBif (h : Unasked s0 s) {b : Bif} (hb : (s.sentBy (s.withBif b)).bus = b) : Unasked s0 (s.withBif b) := by
  refine ⟨?_, h.acks⟩
  have : s0.sentBy (s.withBif b) = s.sentBy (s.withBif b) := by
    conv_rhs => rw [← h.same]
    rfl
  rw [this]
  exact congrArg (fun x => ({ s with bus := x } : State)) hb

theorem lineStart (h : Unasked s0 s) : Unasked s0 s.lineStart := by
  have : Unasked s0 (if s.bus.opened then s.emit .restart else s.emit .start) := by
    split <;> exact h.emit _
  refine this.withBif ?_
  cases s.bus.opened <;> rfl

theorem lineStop (h : Unasked s0 s) : Unasked s0 s.lineStop := by
  refine (h.emit _).withBif ?_
  simp only [Bif.lineStop]
  split <;> rfl

theorem canSend (h : Unasked s0 s) (h0 : CanSend s0) : CanSend s where
  faulted := h.faulted.trans h0.faulted
  budget := by rw [h.params]; exact h0.budget
  pe := h.pe.trans h0.pe
  away := by
    rcases h0.away with h' | h'
    · exact .inl (h.moves.trans h')
    · exact .inr (h.ack.trans h')

end Unasked

/-- The address byte is in the data register, and the peer has not been asked anything. -/
structure Called (s0 : State) (a : Byte) (tail : List Micro) (w : List Token) (t : State) : Prop where
  unasked : Unasked s0 t
  bus : t.bus.Addressing a
  upc : t.upc = .wait .addr :: tail
  busy : t.busy = true
  wire : t.wire = w

/-- From the start condition to the address byte in the data register. -/
theorem reaches_calledStarted {s0 s : State} (h0 : CanSend s0) {a : Byte} {tail : List Micro} (hs : Unasked s0 s)
    (hb : s.bus.started) (hbusy : s.busy = true)
    (hupc : s.upc = .wait .sb :: .wrDr (.const a) :: .wait .addr :: tail) :
    Reaches (Called s0 a tail s.wire) 2 s := by
  have hc0 := hs.canSend h0
  have hline := Bif.started_lineOn hb
  have hb' := hb
  obtain ⟨h1, h2, h3, h4, h5, h6, h7, h8, h9, h10⟩ := hb
  refine Reaches.step hbusy hc0.faulted (by simp [hupc]) hc0.budget (hc0.peerOn (by rw [h6]; decide)) ?_ ?_ ?_
  · intro hw; simp [State.waiting, hupc, Cond.holds, h2] at hw
  · intro _ q d
    simp only [State.seqStep, State.reschedule_upc, hupc, Micro.run]
    have hs' := (hs.reschedule q d).goto (.wrDr (.const a) :: .wait .addr :: tail)
    have hc' := hs'.canSend h0
    refine Reaches.step rfl hc'.faulted (by simp) hc'.budget (hc'.peerOn ?_) ?_ ?_ ?_
    · exact (by rw [show ((s.reschedule q d).goto (.wrDr (.const a) :: .wait .addr :: tail)).bus = s.bus from rfl, h6]; decide)
    · intro hw; simp [State.waiting] at hw
    · intro _ q' d'
      simp only [State.seqStep, State.reschedule_upc, State.goto_upc, Micro.run, Src.value, State.reschedule_bus,
        State.goto_bus, Bif.wrDr, h2, if_true]
      exact .here ⟨((hs'.reschedule q' d').withBif rfl).goto _, ⟨h1, rfl, h3, h4, h5, h6, h7, h8, rfl, rfl, h10⟩, rfl, rfl,
        rfl⟩
    · intro hl
      have : s.bus.lineOn = true := hl
      rw [hline] at this; cases this
  · intro hl; rw [hline] at hl; cases hl

/-- From a requested start to the address byte in the data register (R160, R214). -/
theorem reaches_called {s0 s : State} (h0 : CanSend s0) {a : Byte} {tail : List Micro} (hs : Unasked s0 s)
    (hb : s.bus.calling) (hbusy : s.busy = true)
    (hupc : s.upc = .wait .sb :: .wrDr (.const a) :: .wait .addr :: tail) :
    Reaches (Called s0 a tail s.calledWire) 4 s := by
  rcases hb with hb | hb
  swap
  · have : s.calledWire = s.wire := by simp [State.calledWire, hb.2.1]
    rw [this]
    exact (reaches_calledStarted h0 hs hb hbusy hupc).mono (by omega)
  have go : ∀ u : State, Unasked s0 u → u.bus.starting → ¬(u.bus.role = .master ∧ u.bus.stop = true) →
      u.busy = true → u.upc = .wait .sb :: .wrDr (.const a) :: .wait .addr :: tail →
      Reaches (Called s0 a tail u.calledWire) 3 u := by
    intro u hu hub hst hubusy huupc
    have hc0 := hu.canSend h0
    have hline := Bif.starting_lineOn hub
    have hub' := hub
    obtain ⟨h1, h2, h3, h4, h5, h6⟩ := hub
    refine Reaches.step hubusy hc0.faulted (by simp [huupc]) hc0.budget
      (hc0.peerOn (by rcases h6 with ⟨h6, -⟩ | ⟨h6, -⟩ <;> rw [h6] <;> decide)) (fun _ => hline) ?_ ?_
    · intro hw; simp [State.waiting, huupc, Cond.holds, h2] at hw
    · intro _ q d
      rw [State.starting_lineStep (s := u.reschedule q d) hub', if_neg (by simpa using hst)]
      have hstop : u.bus.stop = false := by
        rcases h6 with ⟨-, -, h⟩ | ⟨h, -⟩
        · exact h
        · simpa [h] using hst
      have e1 : (u.reschedule q d).lineStart.busy = true := by
        simp only [State.lineStart]; split <;> simpa using hubusy
      have e2 : (u.reschedule q d).lineStart.upc = u.upc := by
        simp only [State.lineStart]; split <;> rfl
      refine (reaches_calledStarted h0 (hu.reschedule q d).lineStart (Bif.lineStart_started h1 h3 hstop) e1
        (e2.trans huupc)).imp ?_
      rintro t ⟨g1, g2, g3, g4, g5⟩
      refine ⟨g1, g2, g3, g4, ?_⟩
      rw [g5]
      rcases h6 with ⟨h6, h7, -⟩ | ⟨h6, h7⟩
      · simp [State.lineStart, State.calledWire, h2, h6, h7]
      · simp [State.lineStart, State.calledWire, h2, h6, h7, hstop]
  by_cases hst : s.bus.role = .master ∧ s.bus.stop = true
  swap
  · exact (go s hs hb hst hbusy hupc).mono (by omega)
  have hc0 := hs.canSend h0
  have hline := Bif.starting_lineOn hb
  have hb' := hb
  obtain ⟨h1, h2, h3, h4, h5, h6⟩ := hb
  refine Reaches.step hbusy hc0.faulted (by simp [hupc]) hc0.budget
    (hc0.peerOn (by rw [hst.1]; decide)) (fun _ => hline) ?_ ?_
  · intro hw; simp [State.waiting, hupc, Cond.holds, h2] at hw
  · intro _ q d
    rw [State.starting_lineStep (s := s.reschedule q d) hb', if_pos (by exact hst)]
    refine (go (s.reschedule q d).lineStop (hs.reschedule q d).lineStop ?_ ?_ ?_ ?_).imp ?_
    · simp [State.lineStop, Bif.starting, h1, h2, h3, h4, Bif.byteOn, Bif.addrOn, Bif.loadOn, Bif.txByteOn,
        Bif.rxByteOn]
    · simp [State.lineStop]
    · simpa [State.lineStop] using hbusy
    · simpa [State.lineStop] using hupc
    · rintro t ⟨g1, g2, g3, g4, g5⟩
      refine ⟨g1, g2, g3, g4, ?_⟩
      rw [g5]
      simp [State.calledWire, State.lineStop, h2, hst.1, hst.2]

/-- An operation that hangs because a byte was refused. -/
structure Spurned (s0 : State) (cs : List Cond) (w : List Token) (t : State) : Prop where
  hung : ∃ c ∈ cs, t.hungAt c
  budget : t.params.waitBudget = none
  af : t.bus.af = true
  kept : t.fb = s0.fb ∧ t.buf = s0.buf ∧ t.res = s0.res
  wire : t.wire = w

theorem State.hungAt.tick {c : Cond} {t : State} (h : t.hungAt c) (hw : t.params.waitBudget = none) : t.tick = none := by
  obtain ⟨h1, h2, h3, h4, h5⟩ := h
  cases hu : t.upc with
  | nil => rw [hu] at h3; cases h3
  | cons m rest =>
    rw [hu] at h3
    simp only [List.head?_cons, Option.some.injEq] at h3
    simp [State.tick, State.waiting, h1, h2, hu, h3, h4, hw, h5]

/-- The peer answers the address byte `a` with NACK (R161, R380). -/
def State.refusesAddr (a : Byte) (s : State) : Prop :=
  (s.peer.isPanel = true ∧ a ≠ s.params.dispAddrW) ∨ (s.peer.isPanel = false ∧ ∃ ys, s.peer.acks.next = false :: ys)

/-- The address byte is refused: REQ hangs (R214). -/
theorem reaches_addrNack {s0 s : State} (h0 : CanSend s0) {a : Byte} {tail : List Micro} {w : List Token}
    (hr : s0.refusesAddr a) (h : Called s0 a tail w s) :
    Reaches (Spurned s0 [.addr] (w ++ [Token.byte a false])) 1 s := by
  have hc0 := h.unasked.canSend h0
  have hb := h.bus
  have hwait : ∀ u : State, u.upc = .wait .addr :: tail → u.bus.addr = false → u.waiting = true := by
    intro u h1 h2; simp [State.waiting, h1, Cond.holds, h2]
  refine Reaches.step h.busy hc0.faulted (by simp [h.upc]) hc0.budget (hc0.peerOn (by rw [hb.role]; decide)) ?_ ?_ ?_
  · intro _
    simp [Bif.lineOn, Bif.byteOn, Bif.addrOn, hb.pe, hb.role, hb.phase, hb.sb, hb.drFull]
  · intro hw; rw [hwait s h.upc hb.addr] at hw; cases hw
  · intro _ q d
    have hs' := h.unasked.reschedule q d
    have hon : (s.reschedule q d).bus.addrOn = true := by
      simp [Bif.addrOn, hb.pe, hb.role, hb.phase, hb.sb, hb.drFull]
    have hdr : (s.reschedule q d).bus.dr = a := hb.dr
    simp only [State.lineStep, hon, if_true, State.lineAddr, hdr]
    have hk : ((s.reschedule q d).answerAddr a).1 = false ∧
        ((s.reschedule q d).answerAddr a).2 = (s.reschedule q d) ∨ ((s.reschedule q d).answerAddr a).1 = false ∧
        ((s.reschedule q d).answerAddr a).2 = (s.reschedule q d).askAck.2 := by
      rcases hr with ⟨hp, hne⟩ | ⟨hp, ys, hn⟩
      · left
        have hp' : s.peer.isPanel = true := h.unasked.isPanel.trans hp
        have : a ≠ s.params.dispAddrW := by rw [h.unasked.params]; exact hne
        simp [State.answerAddr, hp', this]
      · right
        have hp' : s.peer.isPanel = false := h.unasked.isPanel.trans hp
        have hn' : s.peer.acks.next = false :: ys := by rw [h.unasked.acks]; exact hn
        simp [State.answerAddr, hp', State.askAck, Script.pop, hn']
    have hfin : ∀ v : State, v.upc = s.upc → v.busy = true → v.faulted = none → v.params.waitBudget = none →
        v.fb = s.fb → v.buf = s.buf → v.res = s.res → v.wire = s.wire → v.peer.moves = s.peer.moves →
        v.bus.ack = s.bus.ack →
        Spurned s0 [.addr] (w ++ [Token.byte a false])
          ((v.emit (.byte a false)).withBif ((s.reschedule q d).bus.lineAddr false)) := by
      intro v v1 v2 v3 v4 v5 v6 v7 v8 v9 v10
      have hx := h.unasked.kept
      refine ⟨⟨.addr, by simp, v2, v3, ?_, ?_, ?_⟩, v4, by simp [Bif.lineAddr], ⟨v5.trans hx.1, v6.trans hx.2.1,
        v7.trans hx.2.2⟩, ?_⟩
      · simp [v1, h.upc]
      · simp [Cond.holds, Bif.lineAddr, hb.addr]
      · have hl : ((v.emit (.byte a false)).withBif ((s.reschedule q d).bus.lineAddr false)).bus.lineOn = false := by
          simp [Bif.lineAddr, Bif.lineOn, Bif.byteOn, Bif.addrOn, Bif.loadOn, Bif.txByteOn, Bif.rxByteOn, Bif.startOn,
            Bif.stopOn, hb.start, hb.stop, hb.role]
        have hpo : ((v.emit (.byte a false)).withBif ((s.reschedule q d).bus.lineAddr false)).peerOn = false := by
          unfold State.peerOn
          split
          · rfl
          · rename_i m rest _
            cases m <;> simp [PeerMove.on, Bif.lineAddr, hb.role]
        rw [State.others_eq, hl, hpo]; rfl
      · simp [v8, h.wire]
    rcases hk with ⟨hk1, hk2⟩ | ⟨hk1, hk2⟩
    · rw [hk1, hk2]
      exact .here (hfin _ rfl h.busy hc0.faulted hc0.budget rfl rfl rfl rfl rfl rfl)
    · rw [hk1, hk2]
      exact .here (hfin _ rfl h.busy hc0.faulted hc0.budget rfl rfl rfl rfl rfl rfl)

/-! ### A refused data byte -/

/-- The data phase after a refused byte: nothing more is loaded (R164). -/
structure Bif.Stuck (b : Bif) : Prop where
  pe : b.pe = true
  role : b.role = .master
  phase : b.phase = .data
  dir : b.dir = .tx
  sb : b.sb = false
  addr : b.addr = false
  start : b.start = false
  stop : b.stop = false
  more : b.more = false
  shFull : b.shFull = false
  af : b.af = true

/-- What a transmission to a peer that will refuse a byte after `r` more has led to. -/
structure Feeds (s0 : State) (r : Nat) (s : State) : Prop where
  same : s0.sentBy s = s
  plain : s0.peer.isPanel = false
  acks : ∃ ys, s.peer.acks.next = List.replicate r true ++ false :: ys

theorem Feeds.facts {s0 s : State} {r : Nat} (h : Feeds s0 r s) :
    s.faulted = s0.faulted ∧ s.params = s0.params ∧ s.peer.isPanel = false ∧ s.peer.moves = s0.peer.moves ∧
      s.bus.ack = s0.bus.ack ∧ s.fb = s0.fb ∧ s.buf = s0.buf ∧ s.res = s0.res := by
  obtain ⟨h, hp, -⟩ := h
  rw [← h]
  exact ⟨rfl, rfl, hp, rfl, rfl, rfl, rfl, rfl⟩

theorem Feeds.goto {s0 s : State} {r : Nat} (h : Feeds s0 r s) (c : List Micro) : Feeds s0 r (s.goto c) :=
  ⟨by rw [← h.same]; rfl, h.plain, h.acks⟩

theorem Feeds.reschedule {s0 s : State} {r : Nat} (h : Feeds s0 r s) (q : Script Agent) (d : Nat) :
    Feeds s0 r (s.reschedule q d) :=
  ⟨by rw [← h.same]; rfl, h.plain, h.acks⟩

theorem Feeds.withBif {s0 s : State} {r : Nat} (h : Feeds s0 r s) {b : Bif} (hb : (s.sentBy (s.withBif b)).bus = b) :
    Feeds s0 r (s.withBif b) := by
  refine ⟨?_, h.plain, h.acks⟩
  have : s0.sentBy (s.withBif b) = s.sentBy (s.withBif b) := by
    conv_rhs => rw [← h.same]
    rfl
  rw [this]
  exact congrArg (fun x => ({ s with bus := x } : State)) hb

theorem Feeds.emit {s0 s : State} {r : Nat} (h : Feeds s0 r s) (t : Token) : Feeds s0 r (s.emit t) :=
  ⟨by rw [← h.same]; rfl, h.plain, h.acks⟩

/-- A transmission after the refused byte, with what a hang there shows. -/
structure Dropped (s0 : State) (w : List Token) (s : State) : Prop where
  bus : s.bus.Stuck
  faulted : s.faulted = none
  budget : s.params.waitBudget = none
  kept : s.fb = s0.fb ∧ s.buf = s0.buf ∧ s.res = s0.res
  wire : s.wire = w

theorem Bif.Stuck.lineOn {b : Bif} (h : b.Stuck) : b.lineOn = false := by
  simp [Bif.lineOn, Bif.byteOn, Bif.addrOn, Bif.loadOn, Bif.txByteOn, Bif.rxByteOn, Bif.startOn, Bif.stopOn, h.pe,
    h.role, h.phase, h.dir, h.sb, h.addr, h.start, h.stop, h.more, h.shFull]

theorem Dropped.others {s0 s : State} {w : List Token} (h : Dropped s0 w s) : s.others = [] := by
  have hp : s.peerOn = false := by
    unfold State.peerOn
    split
    · rfl
    · rename_i m rest _
      cases m <;> simp [PeerMove.on, h.bus.role]
  rw [State.others_eq, h.bus.lineOn, hp]
  rfl

/-- At a wait that cannot hold any more. -/
theorem Dropped.spurned {s0 s : State} {w : List Token} (h : Dropped s0 w s) {c : Cond} {cs : List Cond} (hc : c ∈ cs)
    (hbusy : s.busy = true) {rest : List Micro} (hu : s.upc = .wait c :: rest) (hx : c.holds s.bus = false) :
    Spurned s0 cs w s :=
  ⟨⟨c, hc, hbusy, h.faulted, by simp [hu], hx, h.others⟩, h.budget, h.bus.af, h.kept, h.wire⟩

theorem Bif.Stuck.btf {b : Bif} (h : b.Stuck) {c : Cond} (hc : c = .btf ∨ c = .btfAndTxe) : c.holds b = false := by
  have : b.btf = false := by simp [Bif.btf, h.dir, h.more]
  rcases hc with rfl | rfl <;> simp [Cond.holds, this]

/-- The rest of the data loop after the refused byte: at most one more byte is written. -/
theorem reaches_dropped {s0 : State} {c : Cond} (hc : c = .btf ∨ c = .btfAndTxe) {tail : List Micro} {w : List Token}
    {s : State} {srcs : List Src} (hsrc : ∀ v ∈ srcs, v ≠ .draw) (h : Dropped s0 w s) (hbusy : s.busy = true)
    (hu : s.upc = loopCode srcs c tail ∨
      (s.bus.drFull = false ∧ ∃ v rest, srcs = v :: rest ∧ s.upc = .wrDr v :: loopCode rest c tail)) :
    Reaches (Spurned s0 [.txe, c] w) 3 s := by
  have full : ∀ (u : State) (xs : List Src), Dropped s0 w u → u.busy = true → u.bus.drFull = true →
      u.upc = loopCode xs c tail → Spurned s0 [.txe, c] w u := by
    intro u xs hu hub hd huu
    cases xs with
    | nil => exact hu.spurned (c := c) (by simp) hub huu (hu.bus.btf hc)
    | cons v xs =>
      exact hu.spurned (c := .txe) (by simp) hub huu (by simp [Cond.holds, Bif.txe, hd])
  have write : ∀ (u : State) (v : Src) (xs : List Src), v ≠ .draw → Dropped s0 w u → u.busy = true →
      u.upc = .wrDr v :: loopCode xs c tail → Reaches (Spurned s0 [.txe, c] w) 2 u := by
    intro u v xs hv hu hub huu
    refine Reaches.alone hub hu.faulted (by simp [huu]) (by simp [State.waiting, huu]) hu.others ?_
    rw [State.seqStep_eq huu, Micro.run_wrDr hv]
    refine .here (full _ xs ?_ ?_ ?_ rfl)
    · have hb := hu.bus
      have e : u.bus.wrDr (v.value u) = { u.bus with dr := v.value u, drFull := true } := by
        simp [Bif.wrDr, hb.sb, hb.phase, hb.dir]
      rw [e]
      exact ⟨⟨hb.pe, hb.role, hb.phase, hb.dir, hb.sb, hb.addr, hb.start, hb.stop, hb.more, hb.shFull, hb.af⟩, hu.faulted,
        hu.budget, hu.kept, hu.wire⟩
    · cases xs <;> rfl
    · have hb := hu.bus
      simp [Bif.wrDr, hb.sb, hb.phase, hb.dir]
  rcases hu with hu | ⟨hd, v, rest, rfl, hu⟩
  · cases srcs with
    | nil => exact .here (h.spurned (c := c) (by simp) hbusy hu (h.bus.btf hc))
    | cons v rest =>
      by_cases hd : s.bus.drFull = true
      · exact .here (full s _ h hbusy hd hu)
      · rw [loopCode_cons] at hu
        have hx : Cond.txe.holds s.bus = true := by
          have hb := h.bus
          simp [Cond.holds, Bif.txe, hb.phase, hb.dir, hb.addr, hd]
        refine Reaches.alone hbusy h.faulted (by simp [hu]) (by simp [State.waiting, hu, hx]) h.others ?_
        rw [State.seqStep_eq hu]
        exact write _ v rest (hsrc v (by simp)) ⟨h.bus, h.faulted, h.budget, h.kept, h.wire⟩ rfl rfl
  · exact (write s v rest (hsrc v (by simp)) h hbusy hu).mono (by omega)

/-- The tokens of the bytes up to the refused one. -/
def refusedTokens (bs : List Byte) (r : Nat) : List Token :=
  (bs.take r).map (Token.byte · true) ++ (bs[r]?.map (Token.byte · false)).toList

theorem refusedTokens_cons (x : Byte) (bs : List Byte) (r : Nat) :
    refusedTokens (x :: bs) (r + 1) = .byte x true :: refusedTokens bs r := by
  simp [refusedTokens]

theorem refusedTokens_zero (x : Byte) (bs : List Byte) : refusedTokens (x :: bs) 0 = [.byte x false] := by
  simp [refusedTokens]

/-- A line step of a data loop whose peer will refuse a byte. -/
theorem Feeds.step {s0 s : State} {r : Nat} (h0 : CanSend s0) (h : Feeds s0 r s) (hb : s.bus.Sending)
    (hl : s.bus.lineOn = true) (vs : List Byte) :
    (∃ r', Feeds s0 r' s.lineStep ∧ s.lineStep.bus.Sending ∧ s.lineStep.upc = s.upc ∧ s.lineStep.busy = s.busy ∧
      s.lineStep.bus.load < s.bus.load ∧
      s.lineStep.wire ++ refusedTokens (s.lineStep.bus.pending ++ vs) r' = s.wire ++ refusedTokens (s.bus.pending ++ vs) r ∧
      (s.bus.drFull = false → s.lineStep.bus.drFull = false) ∧
      r' + s.bus.pending.length = r + s.lineStep.bus.pending.length ∧
      (0 < s.bus.sent + s.bus.pending.length → 0 < s.lineStep.bus.sent + s.lineStep.bus.pending.length)) ∨
    (Dropped s0 (s.wire ++ refusedTokens (s.bus.pending ++ vs) r) s.lineStep ∧ s.lineStep.upc = s.upc ∧
      s.lineStep.busy = s.busy ∧ (s.bus.drFull = false → s.lineStep.bus.drFull = false) ∧
      r < s.bus.pending.length) := by
  obtain ⟨f1, f2, f3, f4, f5, f6, f7, f8⟩ := h.facts
  rw [hb.lineStep]
  rw [hb.lineOn] at hl
  cases hs : s.bus.shFull
  · rw [hs] at hl
    have hd : s.bus.drFull = true := by simpa using hl
    simp only [hd, if_true, State.lineLoad, Bool.false_eq_true, if_false]
    refine .inl ⟨r, h.withBif rfl, hb.lineLoad, rfl, rfl, ?_, ?_, by simp, ?_, ?_⟩
    · simp [Bif.load, Bif.lineLoad, hd, hs]
    all_goals simp [Bif.pending, Bif.lineLoad, hd, hs]
  · have ha : s.answerByte = s.askAck := by simp [State.answerByte, f3]
    simp only [if_true, State.lineTxByte, ha]
    obtain ⟨ys, hys⟩ := h.acks
    have hp : s.bus.pending = s.bus.shift :: (if s.bus.drFull then [s.bus.dr] else []) := by simp [Bif.pending, hs]
    cases r with
    | succ r =>
      have hk : s.askAck.1 = true := by simp [State.askAck, Script.pop, hys, List.replicate_succ]
      have hq : s.askAck.2.peer.acks.next = List.replicate r true ++ false :: ys := by
        simp [State.askAck, Script.pop, hys, List.replicate_succ]
      rw [hk]
      have h2 : Feeds s0 r s.askAck.2 := ⟨by rw [← h.same]; rfl, h.plain, ys, hq⟩
      refine .inl ⟨r, (h2.emit _).withBif ?_, hb.lineTxByte, rfl, rfl, ?_, ?_, ?_, ?_, ?_⟩
      · rfl
      · simp [Bif.load, Bif.lineTxByte, hs]
      · rw [hp]
        simp only [List.cons_append, refusedTokens_cons]
        simp [Bif.pending, Bif.lineTxByte]
      · simp [Bif.lineTxByte]
      · rw [hp]
        simp only [List.length_cons]
        simp [Bif.pending, Bif.lineTxByte]
        omega
      · simp [Bif.lineTxByte]
    | zero =>
      have hk : s.askAck.1 = false := by simp [State.askAck, Script.pop, hys]
      rw [hk]
      refine .inr ⟨⟨?_, ?_, ?_, ⟨f6, f7, f8⟩, ?_⟩, rfl, rfl, ?_, by simp [hp]⟩
      · simp only [State.withBif_bus, Bif.lineTxByte, Bool.false_eq_true, if_false]
        exact ⟨hb.pe, hb.role, hb.phase, hb.dir, hb.sb, hb.addr, hb.start, hb.stop, rfl, rfl, rfl⟩
      · exact f1.trans h0.faulted
      · show s.params.waitBudget = none
        rw [f2]; exact h0.budget
      · rw [hp]
        simp only [List.cons_append, refusedTokens_zero]
        rfl
      · intro hd
        simp [Bif.lineTxByte, hb.role, hd]

/-- The data loop up to the refused byte and the hang after it (R164, R231). -/
theorem reaches_nackLoop {s0 : State} (h0 : CanSend s0) {c : Cond} (hc : c = .btf ∨ c = .btfAndTxe)
    (tail : List Micro) (w : List Token) :
    ∀ (n : Nat) (s : State) (srcs : List Src) (r : Nat), (∀ v ∈ srcs, v ≠ .draw) → Feeds s0 r s → s.bus.Sending →
      s.busy = true → r < (s.bus.pending ++ srcs.map (·.value s0)).length →
      w = s.wire ++ refusedTokens (s.bus.pending ++ srcs.map (·.value s0)) r →
      ((s.upc = loopCode srcs c tail ∧ 4 * srcs.length + s.bus.load + 4 ≤ n) ∨
        (s.bus.drFull = false ∧ ∃ v rest, srcs = v :: rest ∧ s.upc = .wrDr v :: loopCode rest c tail ∧
          4 * srcs.length + s.bus.load + 3 ≤ n)) →
      Reaches (Spurned s0 [.txe, c] w) n s := by
  intro n
  induction n with
  | zero =>
    rintro s srcs r - - - - - - (⟨-, hn⟩ | ⟨-, v, rest, rfl, -, hn⟩)
    · omega
    · simp at hn
  | succ n ih =>
    intro s srcs r hsrc hs hb hbusy hr hw hcase
    obtain ⟨f1, f2, f3, f4, f5, f6, f7, f8⟩ := hs.facts
    have hc0 : CanSend s := by
      refine ⟨f1.trans h0.faulted, by rw [f2]; exact h0.budget, hb.pe, ?_⟩
      rcases h0.away with h | h
      · exact .inl (f4.trans h)
      · exact .inr (f5.trans h)
    have hpeer : s.peerOn = false := hc0.peerOn (by rw [hb.role]; decide)
    have hline : s.bus.lineOn = true → ∀ q d, Reaches (Spurned s0 [.txe, c] w) n (s.reschedule q d).lineStep := by
      intro hl q d
      have hn3 : 3 ≤ n := by
        rcases hcase with ⟨-, hn⟩ | ⟨-, v, rest, rfl, -, hn⟩
        · omega
        · simp at hn; omega
      rcases (hs.reschedule q d).step h0 hb hl (srcs.map (·.value s0)) with
        ⟨r', g1, g2, g3, g4, g5, g6, g7, g8, -⟩ | ⟨g1, g3, g4, g7, -⟩
      · refine ih _ srcs r' hsrc g1 g2 (g4.trans hbusy) ?_ (hw.trans g6.symm) ?_
        · simp only [List.length_append, State.reschedule_bus] at hr g8 ⊢
          omega
        simp only [State.reschedule_bus] at g5
        rcases hcase with ⟨hupc, hn⟩ | ⟨hd, v, rest, rfl, hupc, hn⟩
        · exact .inl ⟨g3.trans hupc, by omega⟩
        · exact .inr ⟨g7 hd, v, rest, rfl, g3.trans hupc, by omega⟩
      · have g1' : Dropped s0 w (s.reschedule q d).lineStep := by rw [hw]; exact g1
        refine (reaches_dropped hc hsrc g1' (g4.trans hbusy) (tail := tail) ?_).mono hn3
        rcases hcase with ⟨hupc, hn⟩ | ⟨hd, v, rest, rfl, hupc, hn⟩
        · exact .inl (g3.trans hupc)
        · exact .inr ⟨g7 hd, v, rest, rfl, g3.trans hupc⟩
    rcases hcase with ⟨hupc, hn⟩ | ⟨hd, v, rest, rfl, hupc, hn⟩
    · refine Reaches.step hbusy hc0.faulted ?_ hc0.budget hpeer ?_ ?_ hline
      · rw [hupc]; cases srcs <;> simp [loopCode]
      · intro hwt
        rw [hb.lineOn]
        cases srcs with
        | nil =>
          cases hd : s.bus.drFull <;> cases hsh : s.bus.shFull <;> simp [hd, hsh, Bif.pending] at hr ⊢
        | cons v rest =>
          rw [loopCode_cons] at hupc
          simp only [State.waiting, hupc, Cond.holds, hb.txe] at hwt
          have hd : s.bus.drFull = true := by simpa using hwt
          simp [hd]
      · intro hwt q d
        cases srcs with
        | nil =>
          rw [loopCode_nil] at hupc
          simp only [State.waiting, hupc, hb.closed hc] at hwt
          have hx : (s.bus.drFull = false ∧ s.bus.shFull = false) ∧ 0 < s.bus.sent := by simpa using hwt
          simp [Bif.pending, hx.1.1, hx.1.2] at hr
        | cons v rest =>
          rw [loopCode_cons] at hupc
          simp only [State.waiting, hupc, Cond.holds, hb.txe] at hwt
          simp only [State.seqStep, State.reschedule_upc, hupc, Micro.run]
          have hdr : s.bus.drFull = false := by simpa using hwt
          exact ih _ (v :: rest) r hsrc ((hs.reschedule q d).goto _) hb rfl hr hw
            (.inr ⟨hdr, v, rest, rfl, rfl, by simp at hn ⊢; omega⟩)
    · refine Reaches.step hbusy hc0.faulted (by simp [hupc]) hc0.budget hpeer ?_ ?_ hline
      · intro hwt
        simp [State.waiting, hupc] at hwt
      · intro hwt q d
        have hv : v ≠ .draw := hsrc v (by simp)
        have hval : v.value (s.reschedule q d) = v.value s0 := Src.value_congr hv f6 f7
        simp only [State.seqStep, State.reschedule_upc, hupc, Micro.run_wrDr hv, hval, State.reschedule_bus, hb.wrDr]
        have hpend : (s.bus.pending ++ (v :: rest).map (·.value s0)) =
            ({ s.bus with dr := v.value s0, drFull := true } : Bif).pending ++ rest.map (·.value s0) := by
          simp [Bif.pending, hd]
        refine ih _ rest r (fun x hx => hsrc x (List.mem_cons_of_mem _ hx))
          (((hs.reschedule q d).withBif ?_).goto _) ?_ ?_ ?_ ?_ (.inl ⟨rfl, ?_⟩)
        · rfl
        · exact ⟨hb.pe, hb.role, hb.opened, hb.phase, hb.dir, hb.sb, hb.addr, hb.start, hb.stop, hb.more⟩
        · cases rest <;> rfl
        · rw [hpend] at hr; exact hr
        · rw [hpend] at hw; exact hw
        · cases hsh : s.bus.shFull <;> simp [Bif.load, hd, hsh] at hn ⊢ <;> omega

/-- WRB and the initiator WRBURST, from `rd_SR2()` on, with a peer that refuses a byte after `r` (R164, R231). -/
theorem reaches_nack {s0 s : State} (h0 : CanSend s0) {c : Cond} (hc : c = .btf ∨ c = .btfAndTxe) {tail : List Micro}
    {srcs : List Src} {r : Nat} (hsrc : ∀ v ∈ srcs, v ≠ .draw) (hs : Feeds s0 r s) (hr : r < srcs.length)
    (hb : s.bus.addressed .tx ∨ s.bus.writing) (hbusy : s.busy = true) (hupc : s.upc = .rdSr2 :: loopCode srcs c tail) :
    Reaches (Spurned s0 [.txe, c] (s.wire ++ refusedTokens (srcs.map (·.value s0)) r)) (4 * srcs.length + 5) s := by
  obtain ⟨f1, f2, f3, f4, f5, f6, f7, f8⟩ := hs.facts
  have hrole : s.bus.role = .master := by
    rcases hb with hb | hb <;> exact hb.2.2.2.2.2.1
  have hline : s.bus.lineOn = false := by
    rcases hb with hb | hb
    · exact Bif.addressed_lineOn hb
    · exact Bif.writing_lineOn hb
  have hpeer : s.peerOn = false := by
    unfold State.peerOn
    split
    · rfl
    · rename_i m rest _
      cases m <;> simp [PeerMove.on, hrole]
  have hwr : s.bus.rdSr2.writing := by
    rcases hb with hb | hb
    · exact (Bif.addressed_rdSr2 hb).1
    · rw [Bif.writing_rdSr2 hb]; exact hb
  have hd : s.bus.rdSr2.drFull = false := hwr.2.2.2.2.2.2.2.2.2.2.1
  have hsh : s.bus.rdSr2.shFull = false := hwr.2.2.2.2.2.2.2.2.2.2.2
  have hpend : s.bus.rdSr2.pending = [] := by simp [Bif.pending, hd, hsh]
  refine Reaches.step hbusy (f1.trans h0.faulted) (by simp [hupc]) (by rw [f2]; exact h0.budget) hpeer ?_ ?_ ?_
  · intro hw; simp [State.waiting, hupc] at hw
  · intro _ q d
    simp only [State.seqStep, State.reschedule_upc, hupc, Micro.run]
    refine reaches_nackLoop h0 hc tail _ _ _ srcs r hsrc (((hs.reschedule q d).withBif ?_).goto _) hwr.sending ?_ ?_ ?_
      (.inl ⟨rfl, ?_⟩)
    · simp only [Bif.rdSr2]
      split <;> rfl
    · cases srcs <;> rfl
    · simpa [hpend] using hr
    · simp [hpend]
    · simp [Bif.load, hd, hsh]
  · intro hl; rw [hline] at hl; cases hl

end Sys2Proof.Machine
end

