-- ==== Sys2Proof/Laws/Disabled.lean ====
section
/-! SUPPORT. Laws/Disabled.lean: a display operation issued while `PE` = 0 hangs at the start of its first frame (70
R437). -/

namespace Sys2Proof.Machine

/-- The operation hangs at `wait(SB)` with nothing on the wire. -/
structure Held (s0 t : State) : Prop where
  hung : t.hungAt .sb
  budget : t.params.waitBudget = none
  wire : t.wire = s0.wire
  buf : t.buf = s0.buf
  res : t.res = s0.res

/-- The state in which a disabled operation has not yet come to a frame. -/
structure Off (s0 s : State) : Prop where
  pe : s.bus.pe = false
  sb : s.bus.sb = false
  faulted : s.faulted = none
  budget : s.params.waitBudget = none
  wire : s.wire = s0.wire
  buf : s.buf = s0.buf
  res : s.res = s0.res

/-- A frame is begun (R263, R437). -/
theorem reaches_heldFrame {s0 s : State} (h : Off s0 s) (hbusy : s.busy = true) {q : Params} {ctrl : Byte} {srcs : List Src}
    {tail : List Micro} (hu : s.upc = sendFrame q ctrl srcs ++ tail) : Reaches (Held s0) 1 s := by
  rw [sendFrame_eq] at hu
  refine Reaches.alone hbusy h.faulted (by simp [hu]) (by simp [State.waiting, hu]) (State.others_off h.pe) ?_
  rw [State.seqStep_eq hu]
  exact .here ⟨⟨rfl, h.faulted, rfl, h.sb, State.others_off h.pe⟩, h.budget, h.wire, h.buf, h.res⟩

/-- An operation that is a list of pieces, one of them a frame. -/
theorem reaches_held {s0 : State} {q : Params} {xs : List Item} {tail : List Micro} (hx : ∃ c l, .frame c l ∈ xs) :
    ∀ {s : State}, Off s0 s → s.busy = true → s.upc = codeOf q xs ++ tail → Reaches (Held s0) xs.length s := by
  induction xs with
  | nil => obtain ⟨c, l, hx⟩ := hx; cases hx
  | cons x xs ih =>
    intro s h hb hu
    have hu' : s.upc = x.code q ++ (codeOf q xs ++ tail) := by rw [hu]; simp [codeOf]
    by_cases hf : ∃ c l, x = .frame c l
    · obtain ⟨c, l, rfl⟩ := hf
      exact (reaches_heldFrame h hb hu').mono (by simp)
    · have hxs : ∃ c l, .frame c l ∈ xs := by
        obtain ⟨c, l, hx⟩ := hx
        rcases List.mem_cons.1 hx with e | hx
        · exact absurd ⟨c, l, e.symm⟩ hf
        · exact ⟨c, l, hx⟩
      have hne : codeOf q xs ++ tail ≠ [] := by
        obtain ⟨c, l, hm⟩ := hxs
        intro e
        have := (List.append_eq_nil_iff.1 e).1
        simp only [codeOf, List.flatMap_eq_nil_iff] at this
        exact Item.code_ne_nil _ _ (this _ hm)
      have hbz : (!(codeOf q xs ++ tail).isEmpty) = true := by simpa using hne
      have one : ∀ m : Micro, s.upc = m :: (codeOf q xs ++ tail) → (∀ c, m ≠ .wait c) →
          Off s0 (m.run (codeOf q xs ++ tail) s) → (m.run (codeOf q xs ++ tail) s).busy = true →
          (m.run (codeOf q xs ++ tail) s).upc = codeOf q xs ++ tail → Reaches (Held s0) (xs.length + 1) s := by
        intro m hm hw h1 h2 h3
        refine Reaches.alone hb h.faulted (by simp [hm]) ?_ (State.others_off h.pe) ?_
        · unfold State.waiting
          rw [hm]
          cases m <;> first | rfl | exact absurd rfl (hw _)
        · rw [State.seqStep_eq hm]
          exact ih hxs h1 h2 h3
      cases x with
      | frame c l => exact absurd ⟨c, l, rfl⟩ hf
      | fbZero =>
        refine one .fbZero hu' nofun ⟨?_, ?_, ?_, ?_, ?_, ?_, ?_⟩ hbz (by simp [Micro.run])
        all_goals simp [Micro.run, h.pe, h.sb, h.faulted, h.budget, h.wire, h.buf, h.res]
      | fbOr i v => exact one (.fbOr i v) hu' nofun ⟨h.pe, h.sb, h.faulted, h.budget, h.wire, h.buf, h.res⟩ hbz rfl
      | fbClr i v => exact one (.fbClr i v) hu' nofun ⟨h.pe, h.sb, h.faulted, h.budget, h.wire, h.buf, h.res⟩ hbz rfl
      | fbPut i v => exact one (.fbPut i v) hu' nofun ⟨h.pe, h.sb, h.faulted, h.budget, h.wire, h.buf, h.res⟩ hbz rfl

/-- A text whose first code is printable (R365). -/
theorem reaches_heldText {s0 s : State} (h : Off s0 s) (hbusy : s.busy = true) {q : Nat} {tail : List Micro}
    (hq : q < 65536) (hc : 0x20 ≤ (s.bufByte q).toNat ∧ (s.bufByte q).toNat ≤ 0x7E) (hu : s.upc = .text q :: tail) :
    Reaches (Held s0) 2 s := by
  refine Reaches.alone hbusy h.faulted (by simp [hu]) (by simp [State.waiting, hu]) (State.others_off h.pe) ?_
  rw [State.seqStep_eq hu]
  have h1 : ¬0xFFFF < q := by omega
  have h2 : ¬(s.bufByte q).toNat = 0 := by omega
  have h3 : ¬((s.bufByte q).toNat < 0x20 ∨ 0x7E < (s.bufByte q).toNat) := by omega
  simp only [Micro.run, h1, h2, h3, if_false]
  have hne : ∃ c l rest, sendData s.params (glyph s.params (s.bufByte q).toNat) ++ Micro.text (q + 1) :: tail =
      sendFrame s.params c l ++ rest := by
    unfold sendData
    cases s.params.framing
    · exact ⟨_, _, _, by
        simp only [glyph, List.range_succ_eq_map (n := 4), List.map_cons, List.flatMap_cons, List.append_assoc]
        rfl⟩
    · exact ⟨_, _, _, rfl⟩
  obtain ⟨c, l, rest, e⟩ := hne
  have hs : Off s0 (s.goto (sendFrame s.params c l ++ rest)) :=
    ⟨h.pe, h.sb, h.faulted, h.budget, h.wire, h.buf, h.res⟩
  rw [e]
  exact reaches_heldFrame hs (by simp [State.goto, sendFrame]) (State.goto_upc _ _)

/-- A point on the display is a frame among its pieces (R344). -/
theorem plotItems_frame (q : Params) (v : Bool) {p : Point} (h : onDisplay p = true) :
    ∃ c l, .frame c l ∈ plotItems q v p := by
  unfold plotItems
  rw [if_pos h]
  exact ⟨_, _, List.mem_cons_of_mem _ (List.mem_cons_self ..)⟩

theorem plotsItems_frame (q : Params) {ps : List Point} (h : ∃ x ∈ ps, 0 ≤ x.1 ∧ x.1 ≤ 127 ∧ 0 ≤ x.2 ∧ x.2 ≤ 63) :
    ∃ c l, .frame c l ∈ ps.flatMap (plotItems q true) := by
  obtain ⟨x, hx, hd⟩ := h
  obtain ⟨c, l, h⟩ := plotItems_frame q true (p := x) (by simpa [onDisplay] using hd)
  exact ⟨c, l, List.mem_flatMap.2 ⟨x, hx, h⟩⟩

/-- A display operation whose pieces hold a frame hangs while `PE` = 0 (R437). -/
theorem held_of_items {i : Instr} {tests : List (Bool × RefuseReason)} {xs : List Item} {s : State}
    (hexec : exec i s = command i tests (codeOf s.params xs) s) (htests : firstFailing tests = none)
    (hx : ∃ c l, .frame c l ∈ xs) (hlen : xs.length ≤ sliceTicks) (hr : s.ready) (hw : s.params.waitBudget = none)
    (hp : s.bus.pe = false) (hsb : s.bus.sb = false) :
    ∃ t : State, exec i s = .next t ∧ t.hungAt .sb ∧ t.wire = s.wire ∧ t.buf = s.buf ∧ t.res = s.res := by
  have hne : codeOf s.params xs ≠ [] := by
    intro e
    obtain ⟨c, l, hm⟩ := hx
    simp only [codeOf, List.flatMap_eq_nil_iff] at e
    exact Item.code_ne_nil _ _ (e _ hm)
  have r := reaches_held (tail := []) hx (s0 := s) (s := s.load (encode i) (codeOf s.params xs)) (q := s.params)
    ⟨hp, hsb, hr.2, hw, rfl, rfl, rfl⟩ (by simp [State.load, hne]) (by simp)
  have e := State.runOp_of_reaches r (fun t ht => ht.hung.tick ht.budget) hlen
  exact ⟨_, exec_runOp hexec htests hr, e.hung, e.wire, e.buf, e.res⟩

end Sys2Proof.Machine
end

