-- ==== Sys2Proof/Laws/Encoding.lean ====
section
/-! SUPPORT. Laws/Encoding.lean: the fields of a command word built from its bytes or halves, and the command word from
its fields (30_encoding.md R111, R112). -/

namespace Sys2Proof

/-- Two words are equal if their bits are. -/
theorem BitVec.eq_of_bits {n : Nat} {x y : BitVec n} (h : ∀ k, k < n → x.getLsbD k = y.getLsbD k) : x = y :=
  BitVec.eq_of_getLsbD_eq h

section bytes
variable (op a b c d e : Byte) (p n : Half)

theorem Word.ofBytes_bit (k : Nat) :
    (Word.ofBytes op a b c d e).getLsbD k =
      if k < 8 then e.getLsbD k else if k < 16 then d.getLsbD (k - 8) else if k < 24 then c.getLsbD (k - 16)
      else if k < 32 then b.getLsbD (k - 24) else if k < 40 then a.getLsbD (k - 32) else op.getLsbD (k - 40) := by
  simp only [Word.ofBytes, BitVec.getLsbD_append]
  by_cases h1 : k < 8
  · simp [h1]
  by_cases h2 : k < 16
  · simp [h1, h2, show k - 8 < 8 by omega]
  by_cases h3 : k < 24
  · simp [h1, h2, h3, show ¬k - 8 < 8 by omega, show k - 16 < 8 by omega, show k - 8 - 8 = k - 16 by omega]
  by_cases h4 : k < 32
  · simp [h1, h2, h3, h4, show ¬k - 8 < 8 by omega, show ¬k - 8 - 8 < 8 by omega, show k - 24 < 8 by omega,
      show k - 8 - 8 - 8 = k - 24 by omega]
  by_cases h5 : k < 40
  · simp [h1, h2, h3, h4, h5, show ¬k - 8 < 8 by omega, show ¬k - 8 - 8 < 8 by omega, show ¬k - 8 - 8 - 8 < 8 by omega,
      show k - 32 < 8 by omega, show k - 8 - 8 - 8 - 8 = k - 32 by omega]
  · simp [h1, h2, h3, h4, h5, show ¬k - 8 < 8 by omega, show ¬k - 8 - 8 < 8 by omega, show ¬k - 8 - 8 - 8 < 8 by omega,
      show ¬k - 8 - 8 - 8 - 8 < 8 by omega, show k - 8 - 8 - 8 - 8 - 8 = k - 40 by omega]

theorem Word.ofHalves_eq : Word.ofHalves op a p n =
    Word.ofBytes op a (p.extractLsb' 8 8) (p.extractLsb' 0 8) (n.extractLsb' 8 8) (n.extractLsb' 0 8) := by
  refine BitVec.eq_of_bits fun k hk => ?_
  rw [Word.ofBytes_bit]
  simp only [Word.ofHalves, BitVec.getLsbD_append, BitVec.getLsbD_extractLsb']
  by_cases h1 : k < 8
  · simp [h1, show k < 16 by omega]
  by_cases h2 : k < 16
  · simp [h1, h2, show k - 8 < 8 by omega, show 8 + (k - 8) = k by omega]
  by_cases h3 : k < 24
  · simp [h1, h2, h3, show k - 16 < 16 by omega, show k - 16 < 8 by omega]
  by_cases h4 : k < 32
  · simp [h1, h2, h3, h4, show k - 16 < 16 by omega, show k - 24 < 8 by omega, show 8 + (k - 24) = k - 16 by omega]
  by_cases h5 : k < 40
  · simp [h1, h2, h3, h4, h5, show ¬k - 16 < 16 by omega, show k - 16 - 16 = k - 32 by omega,
      show k - 32 < 8 by omega]
  · simp [h1, h2, h3, h4, h5, show ¬k - 16 < 16 by omega, show ¬k - 16 - 16 < 8 by omega,
      show k - 16 - 16 - 8 = k - 40 by omega]

@[simp] theorem Word.ofBytes_op : (Word.ofBytes op a b c d e).op = op := by
  refine BitVec.eq_of_bits fun k hk => ?_
  simp only [Word.op, BitVec.getLsbD_extractLsb', Word.ofBytes_bit]
  simp [hk, show ¬40 + k < 8 by omega, show ¬40 + k < 16 by omega, show ¬40 + k < 24 by omega,
    show ¬40 + k < 32 by omega]

@[simp] theorem Word.ofBytes_a : (Word.ofBytes op a b c d e).a = a := by
  refine BitVec.eq_of_bits fun k hk => ?_
  simp only [Word.a, BitVec.getLsbD_extractLsb', Word.ofBytes_bit]
  simp [hk, show ¬32 + k < 8 by omega, show ¬32 + k < 16 by omega, show ¬32 + k < 24 by omega, show 32 + k < 40 by omega]

@[simp] theorem Word.ofBytes_b : (Word.ofBytes op a b c d e).b = b := by
  refine BitVec.eq_of_bits fun k hk => ?_
  simp only [Word.b, BitVec.getLsbD_extractLsb', Word.ofBytes_bit]
  simp [hk, show ¬24 + k < 8 by omega, show ¬24 + k < 16 by omega, show 24 + k < 32 by omega]

@[simp] theorem Word.ofBytes_c : (Word.ofBytes op a b c d e).c = c := by
  refine BitVec.eq_of_bits fun k hk => ?_
  simp only [Word.c, BitVec.getLsbD_extractLsb', Word.ofBytes_bit]
  simp [hk, show ¬16 + k < 8 by omega, show 16 + k < 24 by omega]

@[simp] theorem Word.ofBytes_d : (Word.ofBytes op a b c d e).d = d := by
  refine BitVec.eq_of_bits fun k hk => ?_
  simp only [Word.d, BitVec.getLsbD_extractLsb', Word.ofBytes_bit]
  simp [hk, show 8 + k < 16 by omega]

@[simp] theorem Word.ofBytes_e : (Word.ofBytes op a b c d e).e = e := by
  refine BitVec.eq_of_bits fun k hk => ?_
  simp only [Word.e, BitVec.getLsbD_extractLsb', Word.ofBytes_bit]
  simp [hk]

/-- A command word is its six bytes. -/
theorem Word.ofBytes_fields (w : Word) : Word.ofBytes w.op w.a w.b w.c w.d w.e = w := by
  refine BitVec.eq_of_bits fun k hk => ?_
  simp only [Word.ofBytes_bit, Word.op, Word.a, Word.b, Word.c, Word.d, Word.e, BitVec.getLsbD_extractLsb']
  split
  · simp [*]
  · split
    · simp [show k - 8 < 8 by omega, show 8 + (k - 8) = k by omega]
    · split
      · simp [show k - 16 < 8 by omega, show 16 + (k - 16) = k by omega]
      · split
        · simp [show k - 24 < 8 by omega, show 24 + (k - 24) = k by omega]
        · split
          · simp [show k - 32 < 8 by omega, show 32 + (k - 32) = k by omega]
          · simp [show k - 40 < 8 by omega, show 40 + (k - 40) = k by omega]

/-- The view `p` of a command word is its bytes `b`, `c` (R22). -/
theorem Word.p_eq (w : Word) : w.p = w.b ++ w.c := by
  refine BitVec.eq_of_bits fun k hk => ?_
  simp only [Word.p, Word.b, Word.c, BitVec.getLsbD_append, BitVec.getLsbD_extractLsb']
  split
  · simp [hk, *]
  · simp [hk, show k - 8 < 8 by omega, show 24 + (k - 8) = 16 + k by omega]

/-- The view `n` of a command word is its bytes `d`, `e` (R22). -/
theorem Word.n_eq (w : Word) : w.n = w.d ++ w.e := by
  refine BitVec.eq_of_bits fun k hk => ?_
  simp only [Word.n, Word.d, Word.e, BitVec.getLsbD_append, BitVec.getLsbD_extractLsb']
  split
  · simp [hk, *]
  · simp [hk, show k - 8 < 8 by omega, show 8 + (k - 8) = k by omega]

theorem Half.split : p.extractLsb' 8 8 ++ p.extractLsb' 0 8 = p := by
  refine BitVec.eq_of_bits fun k hk => ?_
  simp only [BitVec.getLsbD_append, BitVec.getLsbD_extractLsb']
  split
  · simp [*]
  · simp [show k - 8 < 8 by omega, show 8 + (k - 8) = k by omega]

end bytes

/-- Low bits of a command word are zero when the bytes there are. -/
theorem Word.low_zero {w : Word} {k : Nat} (h : ∀ j, j < k → w.getLsbD j = false) : w.extractLsb' 0 k = 0#k := by
  refine BitVec.eq_of_bits fun j hj => ?_
  simp [hj, h j hj]

/-- The converse: the bytes inside a low part that is zero are zero. -/
theorem Word.byte_zero {w : Word} {k m : Nat} (h : w.extractLsb' 0 k = 0#k) (hm : m + 8 ≤ k) :
    w.extractLsb' m 8 = 0#8 := by
  refine BitVec.eq_of_bits fun j hj => ?_
  have := congrArg (fun x => BitVec.getLsbD x (m + j)) h
  have hlt : m + j < k := by omega
  simpa [hj, hlt] using this

section unused
variable (op a b c d e : Byte)

theorem Word.unused_e : (Word.ofBytes op a b c d e).extractLsb' 0 8 = 0#8 ↔ e = 0#8 := by
  have h : (Word.ofBytes op a b c d e).extractLsb' 0 8 = e := Word.ofBytes_e op a b c d e
  rw [h]

/-- The unused bytes `d`, `e` of a command word are zero (R117). -/
theorem Word.unused_d : (Word.ofBytes op a b c d e).extractLsb' 0 16 = 0#16 ↔ d = 0#8 ∧ e = 0#8 := by
  refine ⟨fun h => ⟨(Word.ofBytes_d op a b c d e).symm.trans (Word.byte_zero h (by decide)),
    (Word.ofBytes_e op a b c d e).symm.trans (Word.byte_zero h (by decide))⟩, ?_⟩
  rintro ⟨rfl, rfl⟩
  refine Word.low_zero fun j hj => ?_
  rw [Word.ofBytes_bit]
  split_ifs <;> simp

/-- From `c` on. -/
theorem Word.unused_c : (Word.ofBytes op a b c d e).extractLsb' 0 24 = 0#24 ↔ c = 0#8 ∧ d = 0#8 ∧ e = 0#8 := by
  refine ⟨fun h => ⟨(Word.ofBytes_c op a b c d e).symm.trans (Word.byte_zero h (by decide)),
    (Word.ofBytes_d op a b c d e).symm.trans (Word.byte_zero h (by decide)),
    (Word.ofBytes_e op a b c d e).symm.trans (Word.byte_zero h (by decide))⟩, ?_⟩
  rintro ⟨rfl, rfl, rfl⟩
  refine Word.low_zero fun j hj => ?_
  rw [Word.ofBytes_bit]
  split_ifs <;> simp

/-- From `b` on. -/
theorem Word.unused_b :
    (Word.ofBytes op a b c d e).extractLsb' 0 32 = 0#32 ↔ b = 0#8 ∧ c = 0#8 ∧ d = 0#8 ∧ e = 0#8 := by
  refine ⟨fun h => ⟨(Word.ofBytes_b op a b c d e).symm.trans (Word.byte_zero h (by decide)),
    (Word.ofBytes_c op a b c d e).symm.trans (Word.byte_zero h (by decide)),
    (Word.ofBytes_d op a b c d e).symm.trans (Word.byte_zero h (by decide)),
    (Word.ofBytes_e op a b c d e).symm.trans (Word.byte_zero h (by decide))⟩, ?_⟩
  rintro ⟨rfl, rfl, rfl, rfl⟩
  refine Word.low_zero fun j hj => ?_
  rw [Word.ofBytes_bit]
  split_ifs <;> simp

/-- From `a` on. -/
theorem Word.unused_a :
    (Word.ofBytes op a b c d e).extractLsb' 0 40 = 0#40 ↔ a = 0#8 ∧ b = 0#8 ∧ c = 0#8 ∧ d = 0#8 ∧ e = 0#8 := by
  refine ⟨fun h => ⟨(Word.ofBytes_a op a b c d e).symm.trans (Word.byte_zero h (by decide)),
    (Word.ofBytes_b op a b c d e).symm.trans (Word.byte_zero h (by decide)),
    (Word.ofBytes_c op a b c d e).symm.trans (Word.byte_zero h (by decide)),
    (Word.ofBytes_d op a b c d e).symm.trans (Word.byte_zero h (by decide)),
    (Word.ofBytes_e op a b c d e).symm.trans (Word.byte_zero h (by decide))⟩, ?_⟩
  rintro ⟨rfl, rfl, rfl, rfl, rfl⟩
  refine Word.low_zero fun j hj => ?_
  rw [Word.ofBytes_bit]
  split_ifs <;> simp

/-- The unused `a` and `n` of the operations that take an address alone. -/
theorem Word.unused_an :
    (Word.ofBytes op a b c d e).a ++ (Word.ofBytes op a b c d e).n = 0#(8 + 16) ↔ a = 0#8 ∧ d = 0#8 ∧ e = 0#8 := by
  rw [Word.n_eq, Word.ofBytes_a, Word.ofBytes_d, Word.ofBytes_e]
  refine ⟨fun h => ?_, by rintro ⟨rfl, rfl, rfl⟩; rfl⟩
  have hbit : ∀ j, (if j < 16 then (if j < 8 then e.getLsbD j else d.getLsbD (j - 8)) else a.getLsbD (j - 16)) = false := by
    intro j
    have := congrArg (fun x : BitVec 24 => x.getLsbD j) h
    simp only [BitVec.getLsbD_zero] at this
    rw [← this]
    exact ((BitVec.getLsbD_append ..).trans (by rw [BitVec.getLsbD_append])).symm
  refine ⟨BitVec.eq_of_bits fun j hj => ?_, BitVec.eq_of_bits fun j hj => ?_, BitVec.eq_of_bits fun j hj => ?_⟩
  · have := hbit (j + 16)
    simpa using this
  · have := hbit (j + 8)
    simpa [show j + 8 < 16 by omega] using this
  · have := hbit j
    simpa [hj, show j < 16 by omega] using this

end unused

/-- What the decoder does with the unused fields of a word (R117). -/
theorem unusedZero_eq {k : Nat} (u : BitVec k) (i : Instr) :
    unusedZero u i = if u = 0#k then .ok i else .error .reservedField := rfl

/-- The bytes of a command word, as the decoder takes it apart. -/
theorem Word.bytes_cases (w : Word) : ∃ op a b c d e : Byte, w = Word.ofBytes op a b c d e :=
  ⟨w.op, w.a, w.b, w.c, w.d, w.e, (Word.ofBytes_fields w).symm⟩

theorem Half.append_split (b c : Byte) :
    (b ++ c : Half).extractLsb' 8 8 = b ∧ (b ++ c : Half).extractLsb' 0 8 = c := by
  constructor
  · refine BitVec.eq_of_bits fun j hj => ?_
    simp only [BitVec.getLsbD_extractLsb', BitVec.getLsbD_append]
    simp [hj]
  · refine BitVec.eq_of_bits fun j hj => ?_
    simp only [BitVec.getLsbD_extractLsb', BitVec.getLsbD_append]
    simp [hj]

end Sys2Proof
end

