-- ==== Sys2Proof/Laws/Frames.lean ====
section
/-! SUPPORT. Laws/Frames.lean: what no run of an operation changes, however it ends. What the moves of the line agent and
the peer leave alone; an induction over the micro-operations an operation can come to; the wire log as the record of
what a panel sees (10 R32). -/

namespace Sys2Proof.Machine

/-! ### The moves of the line agent and the peer -/

/-- What the moves of the line agent and the peer can change: the tokens, the panel, the peer's scripts, the counter, and
in the interface the requests, the flags, the datapath and the transfer state. -/
def State.movedBy (s t : State) : State :=
  { s with
    wire := t.wire, panel := t.panel, draws := t.draws, sched := t.sched
    peer := { s.peer with acks := t.peer.acks, data := t.peer.data, moves := t.peer.moves }
    bus :=
      { s.bus with
        start := t.bus.start, stop := t.bus.stop, sb := t.bus.sb, addr := t.bus.addr, af := t.bus.af
        stopf := t.bus.stopf, dr := t.bus.dr, drFull := t.bus.drFull, shift := t.bus.shift, shFull := t.bus.shFull
        role := t.bus.role, dir := t.bus.dir, phase := t.bus.phase, opened := t.bus.opened, more := t.bus.more
        sent := t.bus.sent, ackLatch := t.bus.ackLatch } }

theorem State.movedBy_lineStep (s : State) : s.movedBy s.lineStep = s.lineStep := by
  unfold State.lineStep
  split
  · simp only [State.lineAddr, State.answerAddr, Bif.lineAddr]
    split <;> split <;> rfl
  split
  · rfl
  split
  · simp only [State.lineTxByte, State.answerByte, Bif.lineTxByte]
    split <;> split <;> rfl
  split
  · simp only [State.lineRxByte, Bif.lineRxByte]
    split <;> rfl
  split
  · simp only [State.lineStart, Bif.lineStart]
    split <;> rfl
  split
  · simp only [State.lineStop, Bif.lineStop]
    split <;> rfl
  · rfl

theorem State.movedBy_peerStep (s : State) : s.movedBy s.peerStep = s.peerStep := by
  unfold State.peerStep
  split
  · rfl
  · rename_i m rest _
    cases m with
    | address sel read => rfl
    | send v =>
      simp only [Bif.lineRxByte]
      split <;> rfl
    | stop => rfl

theorem State.movedBy_reschedule (s : State) (q : Script Agent) (d : Nat) :
    s.movedBy (s.reschedule q d) = s.reschedule q d := rfl

theorem State.movedBy_trans {s t u : State} (h : s.movedBy t = t) (h' : t.movedBy u = u) : s.movedBy u = u := by
  rw [← h', ← h]
  rfl

/-- No flag of `AF` is lost and no start or stop is requested between `b` and `c`. -/
def Bif.Quiet (b c : Bif) : Prop :=
  (b.af = true → c.af = true) ∧ (c.start = true → b.start = true) ∧ (c.stop = true → b.stop = true)

theorem Bif.Quiet.refl (b : Bif) : b.Quiet b := ⟨id, id, id⟩

/-- No move of the line agent or the peer clears `AF` (R414), and none sets `START` or `STOP` (R26). -/
theorem State.lineStep_quiet (s : State) : s.bus.Quiet s.lineStep.bus := by
  have q : ∀ b : Bif, b.Quiet b := .refl
  unfold State.lineStep
  split
  · simp only [State.lineAddr, State.withBif_bus, Bif.lineAddr]
    split
    · exact q s.bus
    · exact ⟨fun _ => rfl, id, id⟩
  split
  · exact q s.bus
  split
  · simp only [State.lineTxByte, State.withBif_bus, Bif.lineTxByte]
    split
    · exact q s.bus
    · exact ⟨fun _ => rfl, id, id⟩
  split
  · simp only [State.lineRxByte, State.withBif_bus, Bif.lineRxByte]
    split <;> exact q s.bus
  split
  · simp [State.lineStart, Bif.lineStart, Bif.Quiet]
  split
  · simp only [State.lineStop, State.withBif_bus, Bif.lineStop]
    split <;> exact ⟨id, id, nofun⟩
  · exact q s.bus

theorem State.peerStep_quiet (s : State) : s.bus.Quiet s.peerStep.bus := by
  unfold State.peerStep
  split
  · exact .refl _
  · rename_i m rest _
    cases m with
    | address sel read => exact .refl s.bus
    | send v =>
      simp only [State.withBif_bus, Bif.lineRxByte]
      split <;> exact .refl s.bus
    | stop => exact .refl s.bus

/-! ### The micro-operations an operation can come to -/

/-- A set of micro-operations that holds all that its own members and the frames of a text unroll to. -/
structure Micro.Closed (ok : Micro → Prop) : Prop where
  start : ∀ q, ok (.text q) → ok (.set .start)
  stop : ∀ q, ok (.text q) → ok (.set .stop)
  wait : ∀ c, ok (.wait c)
  wrDr : ∀ v, ok (.wrDr v)
  rdSr2 : ok .rdSr2
  pass : ∀ p n i, ok (.txPass p n i) → ∀ j, ok (.txUntil p n j)
  til : ∀ p n i, ok (.txUntil p n i) → ∀ j, ok (.txPass p n j)
  test : ∀ p n i, ok (.rxTest p n i) → (i < n → ok (.rxTake p n i)) ∧ ok (.rxUntil p n i)
  take : ∀ p n i, ok (.rxTake p n i) → ok (.rxUntil p n (i + 1))
  done : ∀ p n i, ok (.rxUntil p n i) → ok (.rxTest p n i)
  text : ∀ q, ok (.text q) → ok (.text (q + 1))

theorem Micro.Closed.sendFrame {ok : Micro → Prop} (h : Micro.Closed ok) (h1 : ok (.set .start)) (h2 : ok (.set .stop))
    (q : Params) (ctrl : Byte) (srcs : List Src) : ∀ m ∈ sendFrame q ctrl srcs, ok m := by
  intro m hm
  simp only [Machine.sendFrame, sendBytes, List.mem_append, List.mem_cons, List.mem_flatMap, List.not_mem_nil,
    or_false] at hm
  rcases hm with ((rfl | rfl | rfl | rfl | rfl) | (⟨v, -, rfl | rfl⟩ | rfl)) | rfl
  exacts [h1, h.wait _, h.wrDr _, h.wait _, h.rdSr2, h.wait _, h.wrDr _, h.wait _, h2]

theorem Micro.Closed.sendCmd {ok : Micro → Prop} (h : Micro.Closed ok) (h1 : ok (.set .start)) (h2 : ok (.set .stop))
    (q : Params) (cmds : List Byte) : ∀ m ∈ sendCmd q cmds, ok m := h.sendFrame h1 h2 _ _ _

theorem Micro.Closed.sendData {ok : Micro → Prop} (h : Micro.Closed ok) (h1 : ok (.set .start)) (h2 : ok (.set .stop))
    (q : Params) (srcs : List Src) : ∀ m ∈ sendData q srcs, ok m := by
  unfold Machine.sendData
  split
  · intro m hm
    obtain ⟨v, -, hm⟩ := List.mem_flatMap.1 hm
    exact h.sendFrame h1 h2 _ _ _ m hm
  · exact h.sendFrame h1 h2 _ _ _

theorem Micro.Closed.sendBytes {ok : Micro → Prop} (h : Micro.Closed ok) (srcs : List Src) :
    ∀ m ∈ sendBytes srcs, ok m := by
  intro m hm
  simp only [Machine.sendBytes, List.mem_append, List.mem_cons, List.mem_flatMap, List.not_mem_nil, or_false] at hm
  rcases hm with ⟨v, -, rfl | rfl⟩ | rfl
  exacts [h.wait _, h.wrDr _, h.wait _]

/-- What is still to run stays inside the set. -/
theorem Micro.Closed.run {ok : Micro → Prop} (h : Micro.Closed ok) {s : State} {m : Micro} {rest : List Micro}
    (hu : s.upc = m :: rest) (hc : ∀ x ∈ s.upc, ok x) : ∀ x ∈ (m.run rest s).upc, ok x := by
  have hm : ok m := hc m (by simp [hu])
  have hrest : ∀ x ∈ rest, ok x := fun x hx => hc x (by simp [hu, hx])
  have cons : ∀ {y : Micro} {l : List Micro}, ok y → (∀ x ∈ l, ok x) → ∀ x ∈ y :: l, ok x := by
    intro y l hy hl x hx
    rcases List.mem_cons.1 hx with rfl | hx
    · exact hy
    · exact hl x hx
  cases m with
  | set f => cases f <;> exact hrest
  | wrDr v => cases v <;> exact hrest
  | txPass p n i => exact cons (h.wrDr _) (cons (h.wait _) (cons (h.pass p n i hm _) hrest))
  | txUntil p n i =>
    simp only [Micro.run, State.goto_upc]
    split
    · exact hrest
    · exact cons (h.til p n i hm _) hrest
  | rxTest p n i =>
    simp only [Micro.run]
    split
    · split
      · exact hc
      · exact cons ((h.test p n i hm).1 (by omega)) hrest
    · exact cons (h.test p n i hm).2 hrest
  | rxTake p n i => exact cons (h.take p n i hm) hrest
  | rxUntil p n i =>
    simp only [Micro.run, State.goto_upc]
    split
    · exact hrest
    · exact cons (h.wait _) (cons (h.done p n i hm) hrest)
  | text q =>
    simp only [Micro.run]
    split
    · exact hc
    · split
      · exact hrest
      · split
        · exact hc
        · intro x hx
          rw [State.goto_upc, List.mem_append] at hx
          rcases hx with hx | hx
          · exact h.sendData (h.start q hm) (h.stop q hm) _ _ x hx
          · exact cons (h.text q hm) hrest x hx
  | _ => exact hrest

/-- A property of the run of an operation whose micro-operations all lie in a closed set: it is kept by each of them and
by what the line agent, the peer and the schedule can change. -/
theorem State.runOp_frame {ok : Micro → Prop} (hok : Micro.Closed ok) {F : State → Prop}
    (hmicro : ∀ (s : State) m rest, s.upc = m :: rest → ok m → F s → F (m.run rest s))
    (hmoved : ∀ s t : State, s.movedBy t = t → s.bus.Quiet t.bus → F s → F t)
    (hpoll : ∀ s, F s → F s.polled) (hfault : ∀ s r, F s → F (s.fault r)) {s : State} (hs : F s)
    (hc : ∀ x ∈ s.upc, ok x) : F s.runOp ∧ ∀ x ∈ s.runOp.upc, ok x := by
  refine State.runOp_keeps (P := fun s => F s ∧ ∀ x ∈ s.upc, ok x) ?_ ?_ ?_ ?_ ?_ ?_ ⟨hs, hc⟩
  · intro s ⟨h1, h2⟩ _ _
    cases hu : s.upc with
    | nil => simpa [State.seqStep, hu] using h1
    | cons m rest =>
      rw [State.seqStep_eq hu]
      exact ⟨hmicro s m rest hu (h2 m (by simp [hu])) h1, hok.run hu h2⟩
  · intro s ⟨h1, h2⟩ _
    refine ⟨hmoved s _ s.movedBy_lineStep s.lineStep_quiet h1, ?_⟩
    rw [← s.movedBy_lineStep]
    exact h2
  · intro s ⟨h1, h2⟩ _
    refine ⟨hmoved s _ s.movedBy_peerStep s.peerStep_quiet h1, ?_⟩
    rw [← s.movedBy_peerStep]
    exact h2
  · exact fun s q d ⟨h1, h2⟩ => ⟨hmoved s _ rfl (.refl _) h1, h2⟩
  · exact fun s ⟨h1, h2⟩ => ⟨hpoll s h1, h2⟩
  · exact fun s ⟨h1, h2⟩ _ _ => ⟨hfault s _ h1, h2⟩

/-- The same, for the meaning of an operation: what its refusal and its issue keep, and its run keeps, it keeps. -/
theorem command_frame {ok : Micro → Prop} (hok : Micro.Closed ok) {F : State → Prop}
    (hmicro : ∀ (s : State) m rest, s.upc = m :: rest → ok m → F s → F (m.run rest s))
    (hmoved : ∀ s t : State, s.movedBy t = t → s.bus.Quiet t.bus → F s → F t)
    (hpoll : ∀ s, F s → F s.polled) (hfault : ∀ s r, F s → F (s.fault r)) {i : Instr}
    {tests : List (Bool × RefuseReason)} {code : List Micro} {s t : State} (hrefuse : ∀ r, F (s.refuse r))
    (hload : F (s.load (encode i) code)) (hcode : firstFailing tests = none → ∀ x ∈ code, ok x)
    (h : command i tests code s = .next t) : F t := by
  unfold command at h
  split at h
  · cases h
  · cases h
    split
    · exact hrefuse _
    · rename_i hf
      exact (State.runOp_frame hok hmicro hmoved hpoll hfault hload (hcode hf)).1

/-- Every operation is the issue of a command word: its tests, then its micro-operations (R21, R24, R403). -/
theorem exec_command (i : Instr) (s : State) : ∃ tests code, exec i s = command i tests code s := by
  cases i <;>
    simp only [exec, execBcInit, execStart, execStop, execReq, execWrb, execWrburst, execRdb, execRdburst,
      execDInit, execMovecur, execDrawchar, execDrawbitmap, execDrawpixel, execClearpixel, execDrawline,
      execDrawvline, execDrawhline, execDrawcircle, execContrast, execInvert, execDispon, execFlip,
      execAddrmode, execScrollh, execScrolldiag, execSetvarea, execScrollstate, execScrollv, execRamwrite,
      execRamupdatebyte, execRamupdatefull, execRamclear] <;>
    exact ⟨_, _, rfl⟩

/-! ### The wire -/

/-- The wire of `t` is that of `s` with tokens appended, and a panel has seen just those (R32, R380). -/
def State.SawOn (s t : State) : Prop :=
  t.params = s.params ∧ t.peer.isPanel = s.peer.isPanel ∧
    ∃ w, t.wire = s.wire ++ w ∧
      t.panel = if s.peer.isPanel then w.foldl (fun p k => p.see s.params k) s.panel else s.panel

theorem State.SawOn.refl (s : State) : s.SawOn s := by
  refine ⟨rfl, rfl, [], by simp, ?_⟩
  split <;> rfl

theorem State.SawOn.trans {s t u : State} (h : s.SawOn t) (h' : t.SawOn u) : s.SawOn u := by
  obtain ⟨h1, h2, w, h3, h4⟩ := h
  obtain ⟨k1, k2, x, k3, k4⟩ := h'
  refine ⟨k1.trans h1, k2.trans h2, w ++ x, by rw [k3, h3, List.append_assoc], ?_⟩
  rw [k4, h2, h1, h4]
  split <;> simp [List.foldl_append]

theorem State.SawOn.emit (s : State) (k : Token) : s.SawOn (s.emit k) := by
  refine ⟨rfl, rfl, [k], rfl, ?_⟩
  rw [State.emit_panel]
  split <;> rfl

/-- An update that leaves the wire, the panel and the parameters alone. -/
theorem State.SawOn.of_eq {s t : State} (h1 : t.params = s.params) (h2 : t.peer.isPanel = s.peer.isPanel)
    (h3 : t.wire = s.wire) (h4 : t.panel = s.panel) : s.SawOn t := by
  refine ⟨h1, h2, [], by simp [h3], ?_⟩
  rw [h4]
  split <;> rfl

theorem State.SawOn.lineStep (s : State) : s.SawOn s.lineStep := by
  have wb : ∀ (t : State) (b : Bif), t.SawOn (t.withBif b) := fun t b => .of_eq rfl rfl rfl rfl
  have ask : s.SawOn s.askAck.2 := .of_eq rfl rfl rfl rfl
  unfold State.lineStep
  split
  · simp only [State.lineAddr]
    have : s.SawOn (s.answerAddr s.bus.dr).2 := by
      unfold State.answerAddr
      split
      · exact .refl s
      · exact ask
    exact (this.trans (.emit _ _)).trans (wb _ _)
  split
  · exact wb _ _
  split
  · simp only [State.lineTxByte]
    have : s.SawOn s.answerByte.2 := by
      unfold State.answerByte
      split
      · exact .refl s
      · exact ask
    exact (this.trans (.emit _ _)).trans (wb _ _)
  split
  · simp only [State.lineRxByte]
    have : s.SawOn s.askByte.2 := .of_eq rfl rfl rfl rfl
    exact (this.trans (.emit _ _)).trans (wb _ _)
  split
  · simp only [State.lineStart]
    split
    · exact (State.SawOn.emit s _).trans (wb _ _)
    · exact (State.SawOn.emit s _).trans (wb _ _)
  split
  · exact (State.SawOn.emit s _).trans (wb _ _)
  · exact .refl s

theorem State.SawOn.peerStep (s : State) : s.SawOn s.peerStep := by
  have wb : ∀ (t : State) (b : Bif), t.SawOn (t.withBif b) := fun t b => .of_eq rfl rfl rfl rfl
  unfold State.peerStep
  split
  · exact .refl s
  · rename_i m rest _
    have h0 : s.SawOn { s with peer := { s.peer with moves := rest } } := .of_eq rfl rfl rfl rfl
    cases m with
    | address sel read => exact ((h0.trans (.emit _ _)).trans (.emit _ _)).trans (wb _ _)
    | send v => exact (h0.trans (.emit _ _)).trans (wb _ _)
    | stop => exact (h0.trans (.emit _ _)).trans (wb _ _)

/-- A micro-operation puts nothing on the wire (R32). -/
theorem Micro.run_quiet (m : Micro) (rest : List Micro) (s : State) :
    (m.run rest s).wire = s.wire ∧ (m.run rest s).panel = s.panel ∧ (m.run rest s).params = s.params ∧
      (m.run rest s).peer = s.peer := by
  cases m with
  | set f => cases f <;> exact ⟨rfl, rfl, rfl, rfl⟩
  | wrDr v => cases v <;> exact ⟨rfl, rfl, rfl, rfl⟩
  | fbZero => simp only [Micro.run, State.goto_wire, State.goto_panel, State.goto_params, State.goto_peer, State.fbClear_wire,
      State.fbClear_panel, State.fbClear_params, State.fbClear_peer, and_self]
  | rxTest p n i =>
    simp only [Micro.run]
    split
    · split <;> exact ⟨rfl, rfl, rfl, rfl⟩
    · exact ⟨rfl, rfl, rfl, rfl⟩
  | text q =>
    simp only [Micro.run]
    split
    · exact ⟨rfl, rfl, rfl, rfl⟩
    · split
      · exact ⟨rfl, rfl, rfl, rfl⟩
      · split <;> exact ⟨rfl, rfl, rfl, rfl⟩
  | _ => exact ⟨rfl, rfl, rfl, rfl⟩

theorem State.SawOn.runOp {s0 s : State} (h : s0.SawOn s) : s0.SawOn s.runOp := by
  refine State.runOp_keeps (P := fun t => s0.SawOn t) ?_ ?_ ?_ ?_ ?_ ?_ h
  · intro t ht _ _
    cases hu : t.upc with
    | nil => simpa [State.seqStep, hu] using ht
    | cons m rest =>
      rw [State.seqStep_eq hu]
      obtain ⟨h1, h2, h3, h4⟩ := m.run_quiet rest t
      exact ht.trans (.of_eq h3 (by rw [h4]) h1 h2)
  · exact fun t ht _ => ht.trans (.lineStep t)
  · exact fun t ht _ => ht.trans (.peerStep t)
  · exact fun t q d ht => ht.trans (.of_eq rfl rfl rfl rfl)
  · exact fun t ht => ht.trans (.of_eq rfl rfl rfl rfl)
  · exact fun t ht _ _ => ht.trans (.of_eq rfl rfl rfl rfl)

end Sys2Proof.Machine
end

