-- ==== Sys2Proof/Laws/Invariant.lean ====
section
/-! SUPPORT. Laws/Invariant.lean: the moves of the machine keep its invariant (Safety.lean), one by one: what the reference
panel does to its memory, the line agent, the peer, and the micro-operations. -/

namespace Sys2Proof.Machine

/-! ### The panel's memory -/

theorem Panel.lose_gd (p : Panel) : p.lose.gd = [] := rfl

theorem Panel.ended_gdWf {p : Panel} (h : Memory.wf 1024 p.gd = true) : Memory.wf 1024 p.ended.gd = true := by
  unfold Panel.ended
  split
  · rfl
  · exact h

theorem Panel.obey_gdWf {p : Panel} (h : Memory.wf 1024 p.gd = true) (cmds : PanelCmds) (c : Byte) (args : List Byte) :
    Memory.wf 1024 (p.obey cmds c args).gd = true := by
  unfold Panel.obey
  split
  · split
    · split
      · exact h
      · rfl
    · split
      · split
        · exact h
        · rfl
      · exact h
  · split
    · split
      · exact h
      · rfl
    · exact h
  · exact h

theorem Panel.commandByte_gdWf {p : Panel} (h : Memory.wf 1024 p.gd = true) (cmds : PanelCmds) (got : List Byte)
    (v : Byte) : Memory.wf 1024 (p.commandByte cmds got v).gd = true := by
  simp only [Panel.commandByte]
  split
  · exact h
  · split
    · rfl
    · split
      · exact Panel.obey_gdWf (p := { p with rx := .command [] }) h _ _ _
      · exact h

/-- A data byte lands inside the panel's memory (R384). -/
theorem Panel.byte_gdWf {p : Panel} (h : Memory.wf 1024 p.gd = true) (q : Params) (v : Byte) :
    Memory.wf 1024 (p.byte q v).gd = true := by
  unfold Panel.byte
  split
  · exact h
  · exact h
  · exact h
  · split
    · exact h
    · split
      · exact h
      · rfl
  · split
    · rename_i hc
      have hw : Memory.wf 1024 (p.gd.write (p.pcol + 128 * p.ppage) v) = true := Memory.write_wf (by omega) h
      simp only [Panel.store]
      split <;> exact hw
    · rfl
  · exact Panel.commandByte_gdWf h _ _ _

theorem Panel.see_gdWf {p : Panel} (h : Memory.wf 1024 p.gd = true) (q : Params) (t : Token) :
    Memory.wf 1024 (p.see q t).gd = true := by
  cases t with
  | start => exact Panel.ended_gdWf h
  | restart => exact Panel.ended_gdWf h
  | stop => exact Panel.ended_gdWf h
  | byte v k =>
    unfold Panel.see
    split
    · rename_i e
      cases e
    · rename_i e
      cases e
    · rename_i e
      cases e
    · rename_i e
      cases e
      split
      · exact h
      · exact Panel.byte_gdWf h q _

/-! ### The moves -/

/-- What the panel sees keeps its memory in canonical form. -/
theorem State.SawOn.gdWf {s t : State} (h : s.SawOn t) (hs : Memory.wf 1024 s.panel.gd = true) :
    Memory.wf 1024 t.panel.gd = true := by
  obtain ⟨-, -, w, -, e⟩ := h
  rw [e]
  split
  · clear e
    generalize s.panel = p at hs
    induction w generalizing p with
    | nil => exact hs
    | cons k w ih => exact ih _ (Panel.see_gdWf hs _ k)
  · exact hs

/-- No move of the line agent leaves a transaction open without a role, or a role without one (R31). -/
theorem State.lineStep_openRole {s : State} (h : s.bus.opened = (s.bus.role != .idle)) :
    s.lineStep.bus.opened = (s.lineStep.bus.role != .idle) := by
  unfold State.lineStep
  split
  · simp only [State.lineAddr, State.withBif_bus, Bif.lineAddr]
    split <;> exact h
  split
  · exact h
  split
  · simp only [State.lineTxByte, State.withBif_bus, Bif.lineTxByte]
    split <;> exact h
  split
  · simp only [State.lineRxByte, State.withBif_bus, Bif.lineRxByte]
    split <;> exact h
  split
  · rfl
  split
  · simp only [State.lineStop, State.withBif_bus, Bif.lineStop]
    split <;> rfl
  · exact h

theorem State.peerStep_openRole {s : State} (h : s.bus.opened = (s.bus.role != .idle)) :
    s.peerStep.bus.opened = (s.peerStep.bus.role != .idle) := by
  unfold State.peerStep
  split
  · exact h
  · rename_i m rest _
    cases m with
    | address sel read => rfl
    | send v =>
      simp only [State.withBif_bus, Bif.lineRxByte]
      split <;> exact h
    | stop => rfl

theorem State.Inv.moved {s t : State} (h : s.Inv) (hm : s.movedBy t = t)
    (ho : t.bus.opened = (t.bus.role != .idle)) (hg : s.SawOn t) : t.Inv where
  busyUpc := by rw [← hm]; exact h.busyUpc
  faultBusy := by rw [← hm]; exact h.faultBusy
  latched := by rw [← hm]; exact h.latched
  openRole := ho
  fbWf := by rw [← hm]; exact h.fbWf
  bufWf := by rw [← hm]; exact h.bufWf
  gdWf := hg.gdWf h.gdWf
  codeInBounds := by rw [← hm]; exact h.codeInBounds

theorem State.Inv.lineStep {s : State} (h : s.Inv) : s.lineStep.Inv :=
  h.moved s.movedBy_lineStep (State.lineStep_openRole h.openRole) (.lineStep s)

theorem State.Inv.peerStep {s : State} (h : s.Inv) : s.peerStep.Inv :=
  h.moved s.movedBy_peerStep (State.peerStep_openRole h.openRole) (.peerStep s)

theorem State.Inv.reschedule {s : State} (h : s.Inv) (q : Script Agent) (d : Nat) : (s.reschedule q d).Inv :=
  h.moved (s.movedBy_reschedule q d) h.openRole (.of_eq rfl rfl rfl rfl)

theorem State.Inv.polled {s : State} (h : s.Inv) : s.polled.Inv where
  busyUpc := h.busyUpc
  faultBusy := h.faultBusy
  latched := h.latched
  openRole := h.openRole
  fbWf := h.fbWf
  bufWf := h.bufWf
  gdWf := h.gdWf
  codeInBounds := h.codeInBounds

theorem State.Inv.fault {s : State} (h : s.Inv) (hb : s.busy = true) (r : FaultReason) : (s.fault r).Inv where
  busyUpc := h.busyUpc
  faultBusy := fun _ => hb
  latched := h.latched
  openRole := h.openRole
  fbWf := h.fbWf
  bufWf := h.bufWf
  gdWf := h.gdWf
  codeInBounds := h.codeInBounds

/-- Inside the spaces is a closed set of micro-operations. -/
theorem Micro.inBounds_sendData (q : Params) (srcs : List Src) : ∀ m ∈ sendData q srcs, m.inBounds = true := by
  have frame : ∀ (c : Byte) (l : List Src), ∀ m ∈ sendFrame q c l, m.inBounds = true := by
    intro c l m hm
    simp only [sendFrame, sendBytes, List.mem_append, List.mem_cons, List.mem_flatMap, List.not_mem_nil, or_false] at hm
    rcases hm with ((rfl | rfl | rfl | rfl | rfl) | (⟨v, -, rfl | rfl⟩ | rfl)) | rfl <;> rfl
  unfold sendData
  split
  · intro m hm
    obtain ⟨v, -, hm⟩ := List.mem_flatMap.1 hm
    exact frame _ _ m hm
  · exact frame _ _

/-- A state that goes on with other code, other memories and another interface. -/
theorem State.Inv.next {s t : State} (h : s.Inv) {c : List Micro} (hf : s.faulted = none)
    (h1 : t = { s with bus := t.bus, fb := t.fb, buf := t.buf, res := t.res, draws := t.draws }.goto c)
    (h2 : t.bus.opened = (t.bus.role != .idle)) (h3 : Memory.wf 1024 t.fb = true) (h4 : Memory.wf 65536 t.buf = true)
    (h5 : ∀ m ∈ c, m.inBounds = true) : t.Inv where
  busyUpc := by rw [h1]; rfl
  faultBusy := by
    intro hx
    have : t.faulted = s.faulted := by rw [h1]; rfl
    rw [this, hf] at hx
    cases hx
  latched := by rw [h1]; exact h.latched
  openRole := h2
  fbWf := h3
  bufWf := h4
  gdWf := by rw [h1]; exact h.gdWf
  codeInBounds := by rw [h1]; simpa using h5

/-- Every micro-operation keeps the invariant. -/
theorem State.Inv.run {s : State} (h : s.Inv) (hf : s.faulted = none) {m : Micro} {rest : List Micro}
    (hu : s.upc = m :: rest) : (m.run rest s).Inv := by
  have hb : s.busy = true := by rw [h.busyUpc, hu]; rfl
  have hall : ∀ x ∈ m :: rest, x.inBounds = true := by
    have := h.codeInBounds
    rw [hu] at this
    simpa using this
  have hm : m.inBounds = true := hall m (by simp)
  have hr : ∀ x ∈ rest, x.inBounds = true := fun x hx => hall x (by simp [hx])
  have ho := h.openRole
  cases m with
  | wait c => exact h.next hf rfl ho h.fbWf h.bufWf hr
  | set f =>
    cases f
    case swrst => exact h.next hf rfl rfl h.fbWf h.bufWf hr
    all_goals exact h.next hf rfl ho h.fbWf h.bufWf hr
  | clr f => cases f <;> exact h.next hf rfl ho h.fbWf h.bufWf hr
  | clrAf => exact h.next hf rfl ho h.fbWf h.bufWf hr
  | rdSr2 =>
    refine h.next hf rfl ?_ h.fbWf h.bufWf hr
    simp only [Micro.run, State.goto_bus, State.withBif_bus, Bif.rdSr2]
    split <;> exact ho
  | wrDr v =>
    have hw : ∀ x : Byte, (s.bus.wrDr x).opened = ((s.bus.wrDr x).role != .idle) := by
      intro x
      simp only [Bif.wrDr]
      split
      · exact ho
      · split <;> exact ho
    cases v <;> exact h.next hf rfl (hw _) h.fbWf h.bufWf hr
  | wrCr1 => exact h.next hf rfl ho h.fbWf h.bufWf hr
  | rdDrRes =>
    refine h.next hf rfl ?_ h.fbWf h.bufWf hr
    simp only [Micro.run, State.goto_bus, State.withBif_bus, Bif.rdDr]
    split
    · split <;> exact ho
    · exact ho
  | rdDrBuf q =>
    have hq : q < 65536 := by simpa [Micro.inBounds] using hm
    refine h.next hf rfl ?_ h.fbWf (Memory.write_wf hq h.bufWf) hr
    simp only [Micro.run, State.goto_bus, State.withBif_bus, Bif.rdDr]
    split
    · split <;> exact ho
    · exact ho
  | program c => exact h.next hf rfl ho h.fbWf h.bufWf hr
  | fbPut i v =>
    have hi : i < 1024 := by simpa [Micro.inBounds] using hm
    exact h.next hf rfl ho (Memory.write_wf hi h.fbWf) h.bufWf hr
  | fbOr i v =>
    have hi : i < 1024 := by simpa [Micro.inBounds] using hm
    exact h.next hf rfl ho (Memory.write_wf hi h.fbWf) h.bufWf hr
  | fbClr i v =>
    have hi : i < 1024 := by simpa [Micro.inBounds] using hm
    exact h.next hf rfl ho (Memory.write_wf hi h.fbWf) h.bufWf hr
  | fbZero =>
    have key : ∀ f : Memory, Memory.wf 1024 f = true → (State.goto rest { s with fb := f }).Inv :=
      fun f hz => h.next hf rfl ho hz h.bufWf hr
    exact key _ (Memory.zeros_wf (Nat.le_refl _))
  | txPass p n idx =>
    refine h.next hf rfl ho h.fbWf h.bufWf ?_
    intro x hx
    simp only [List.mem_cons] at hx
    rcases hx with rfl | rfl | rfl | hx
    · rfl
    · rfl
    · rfl
    · exact hr x hx
  | txUntil p n idx =>
    refine h.next hf rfl ho h.fbWf h.bufWf ?_
    split
    · exact hr
    · intro x hx
      simp only [List.mem_cons] at hx
      rcases hx with rfl | hx
      · rfl
      · exact hr x hx
  | rxTest p n idx =>
    have hp : p + n ≤ 65536 := by simpa [Micro.inBounds] using hm
    have ht : ∀ x ∈ Micro.rxUntil p n idx :: rest, x.inBounds = true := by
      intro x hx
      simp only [List.mem_cons] at hx
      rcases hx with rfl | hx
      · simpa [Micro.inBounds] using hp
      · exact hr x hx
    simp only [Micro.run]
    split
    · split
      · exact h.fault hb _
      · refine h.next hf rfl ho h.fbWf h.bufWf ?_
        intro x hx
        simp only [List.mem_cons] at hx
        rcases hx with rfl | hx
        · simp only [Micro.inBounds, decide_eq_true_eq]
          exact ⟨hp, by omega⟩
        · exact hr x hx
    · exact h.next hf rfl ho h.fbWf h.bufWf ht
  | rxTake p n idx =>
    have hp : p + n ≤ 65536 ∧ idx < n := by simpa [Micro.inBounds] using hm
    refine h.next hf rfl ?_ h.fbWf (Memory.write_wf (by omega) h.bufWf) ?_
    · simp only [Micro.run, State.goto_bus, State.withBif_bus, Bif.rdDr]
      split
      · split <;> exact ho
      · exact ho
    · intro x hx
      simp only [List.mem_cons] at hx
      rcases hx with rfl | hx
      · simpa [Micro.inBounds] using hp.1
      · exact hr x hx
  | rxUntil p n idx =>
    have hp : p + n ≤ 65536 := by simpa [Micro.inBounds] using hm
    refine h.next hf rfl ho h.fbWf h.bufWf ?_
    split
    · exact hr
    · intro x hx
      simp only [List.mem_cons] at hx
      rcases hx with rfl | rfl | hx
      · rfl
      · simpa [Micro.inBounds] using hp
      · exact hr x hx
  | text q =>
    simp only [Micro.run]
    split
    · exact h.fault hb _
    · split
      · exact h.next hf rfl ho h.fbWf h.bufWf hr
      · split
        · exact h.fault hb _
        · refine h.next hf rfl ho h.fbWf h.bufWf ?_
          intro x hx
          rcases List.mem_append.1 hx with hx | hx
          · exact Micro.inBounds_sendData _ _ x hx
          · simp only [List.mem_cons] at hx
            rcases hx with rfl | hx
            · rfl
            · exact hr x hx

/-- A run of an operation keeps the invariant. -/
theorem State.Inv.runOp {s : State} (h : s.Inv) : s.runOp.Inv := by
  refine State.runOp_keeps (P := State.Inv) ?_ ?_ ?_ ?_ ?_ ?_ h
  · intro t ht hf _
    cases hu : t.upc with
    | nil => simpa [State.seqStep, hu] using ht
    | cons m rest =>
      rw [State.seqStep_eq hu]
      exact ht.run hf hu
  · exact fun t ht _ => ht.lineStep
  · exact fun t ht _ => ht.peerStep
  · exact fun t q d ht => ht.reschedule q d
  · exact fun t ht => ht.polled
  · exact fun t ht _ hb => ht.fault hb _

/-- So does an operation whose micro-operations write inside the spaces. -/
theorem State.Inv.command {s t : State} (h : s.Inv) {i : Instr} {tests : List (Bool × RefuseReason)}
    {code : List Micro} (hc : firstFailing tests = none → ∀ m ∈ code, m.inBounds = true)
    (ht : command i tests code s = .next t) : t.Inv := by
  unfold Machine.command at ht
  split at ht
  · cases ht
  · rename_i hb
    cases ht
    split
    · exact ⟨h.busyUpc, h.faultBusy, h.latched, h.openRole, h.fbWf, h.bufWf, h.gdWf, h.codeInBounds⟩
    · rename_i hf
      refine State.Inv.runOp ⟨rfl, ?_, rfl, h.openRole, h.fbWf, h.bufWf, h.gdWf, by simpa using hc hf⟩
      intro hx
      exact absurd (h.faultBusy hx) hb

end Sys2Proof.Machine
end

