-- ==== Sys2Proof/Laws/Kept.lean ====
section
/-! SUPPORT. Laws/Kept.lean: what the micro-operations of an operation may write decides what the operation may change,
however it ends: the bytes of `FB` (R36), the bytes of BUF and `RES` (R41, R222, R240), the control bits, the
configuration and `AF` (R26, R27, R414). -/

namespace Sys2Proof.Machine

/-! ### The framebuffer -/

/-- A micro-operation writes no byte of `FB` outside `T`. -/
def Micro.fbWithin (T : Nat → Prop) : Micro → Prop
  | .fbPut i _ => T i
  | .fbOr i _ => T i
  | .fbClr i _ => T i
  | .fbZero => ∀ i, T i
  | _ => True

theorem Micro.fbWithin_closed (T : Nat → Prop) : Micro.Closed (Micro.fbWithin T) where
  start := fun _ _ => trivial
  stop := fun _ _ => trivial
  wait := fun _ => trivial
  wrDr := fun _ => trivial
  rdSr2 := trivial
  pass := fun _ _ _ _ _ => trivial
  til := fun _ _ _ _ _ => trivial
  test := fun _ _ _ _ => ⟨fun _ => trivial, trivial⟩
  take := fun _ _ _ _ => trivial
  done := fun _ _ _ _ => trivial
  text := fun _ _ => trivial

/-- An operation whose micro-operations write `FB` only within `T` changes no other byte of it. -/
theorem command_fbWithin {T : Nat → Prop} {i : Instr} {tests : List (Bool × RefuseReason)} {code : List Micro}
    {s t : State} (hc : firstFailing tests = none → ∀ x ∈ code, x.fbWithin T) (h : command i tests code s = .next t)
    (k : Nat) (hk : t.fbByte k ≠ s.fbByte k) : T k := by
  refine command_frame (F := fun t => ∀ k, t.fbByte k ≠ s.fbByte k → T k) (Micro.fbWithin_closed T) ?_ ?_ ?_ ?_ ?_ ?_ hc h
    k hk
  · intro u m rest hu hm hF k hk
    have key : ∀ v : State, v.fb = u.fb → v.fbByte k ≠ s.fbByte k → T k := by
      intro v hv hn
      rw [State.fbByte_congr hv] at hn
      exact hF k hn
    have wr : ∀ i v, T i → (u.fbWrite i v).fbByte k ≠ s.fbByte k → T k := by
      intro i v hi hn
      rw [State.fbByte_fbWrite] at hn
      split at hn
      · rename_i e
        rw [e]
        exact hi
      · exact hF k hn
    cases m with
    | fbPut i v => exact wr _ _ hm hk
    | fbOr i v => exact wr _ _ hm hk
    | fbClr i v => exact wr _ _ hm hk
    | fbZero => exact hm k
    | set f => cases f <;> exact key _ (by rfl) hk
    | wrDr v => cases v <;> exact key _ (by rfl) hk
    | rxTest p n i =>
      refine key _ ?_ hk
      simp only [Micro.run]
      split
      · split <;> rfl
      · rfl
    | text q =>
      refine key _ ?_ hk
      simp only [Micro.run]
      split
      · rfl
      · split
        · rfl
        · split <;> rfl
    | _ => exact key _ (by rfl) hk
  · intro u v hm _ hF k hk
    apply hF k
    rw [← hm] at hk
    exact hk
  · exact fun u h => h
  · exact fun u r h => h
  · exact fun r k hk => absurd rfl hk
  · exact fun k hk => absurd rfl hk

/-! ### BUF, `RES` and the registers -/

/-- What an operation may write: the interface as BC_INIT does, `START` and `STOP` (set them), `POS`, `ACK`, `AF` (clear
it), `RES`, and which bytes of BUF. -/
structure Reach where
  init : Bool
  start : Bool
  stop : Bool
  pos : Bool
  ack : Bool
  af : Bool
  res : Bool
  buf : Nat → Prop

/-- A micro-operation writes nothing outside `q`. -/
def Micro.within (q : Reach) : Micro → Prop
  | .set .pe => q.init = true
  | .set .swrst => q.init = true
  | .clr .pe => q.init = true
  | .clr .swrst => q.init = true
  | .set .start => q.start = true
  | .set .stop => q.stop = true
  | .text _ => q.start = true ∧ q.stop = true
  | .set .pos => q.pos = true
  | .clr .pos => q.pos = true
  | .set .ack => q.ack = true
  | .clr .ack => q.ack = true
  | .clrAf => q.af = true
  | .program _ => q.init = true
  | .rdDrRes => q.res = true
  | .rdDrBuf i => q.buf i
  | .rxTest p n _ => ∀ j < n, q.buf (p + j)
  | .rxTake p n i => q.buf (p + i) ∧ ∀ j < n, q.buf (p + j)
  | .rxUntil p n _ => ∀ j < n, q.buf (p + j)
  | _ => True

theorem Micro.within_closed (q : Reach) : Micro.Closed (Micro.within q) where
  start := fun _ h => h.1
  stop := fun _ h => h.2
  wait := fun _ => trivial
  wrDr := fun _ => trivial
  rdSr2 := trivial
  pass := fun _ _ _ _ _ => trivial
  til := fun _ _ _ _ _ => trivial
  test := fun _ _ i h => ⟨fun hi => ⟨h i hi, h⟩, h⟩
  take := fun _ _ _ h => h.2
  done := fun _ _ _ h => h
  text := fun _ h => h

/-- Nothing outside `q` differs. -/
structure Kept (q : Reach) (s t : State) : Prop where
  buf : ∀ k, t.bufByte k ≠ s.bufByte k → q.buf k
  res : t.res ≠ s.res → q.res = true
  bus : q.init = true ∨
    (t.bus.pe = s.bus.pe ∧ t.bus.swrst = s.bus.swrst ∧ t.bus.cfg = s.bus.cfg ∧
      (t.bus.pos = s.bus.pos ∨ q.pos = true) ∧ (t.bus.ack = s.bus.ack ∨ q.ack = true) ∧
      (s.bus.af = true → t.bus.af = true ∨ q.af = true))
  start : t.bus.start = true → s.bus.start = true ∨ q.start = true
  stop : t.bus.stop = true → s.bus.stop = true ∨ q.stop = true
  fixed : t.params = s.params ∧ t.host = s.host ∧ t.peer.isPanel = s.peer.isPanel
  refusal : t.refusal = s.refusal

theorem Kept.trans {q : Reach} {s t u : State} (h : Kept q s t) (h' : Kept q t u) : Kept q s u where
  buf := fun k hk => by
    by_cases e : t.bufByte k = s.bufByte k
    · exact h'.buf k (by rw [e]; exact hk)
    · exact h.buf k e
  res := fun hk => by
    by_cases e : t.res = s.res
    · exact h'.res (by rw [e]; exact hk)
    · exact h.res e
  bus := by
    rcases h.bus with e | ⟨a1, a2, a3, a4, a5, a6⟩
    · exact .inl e
    rcases h'.bus with e | ⟨b1, b2, b3, b4, b5, b6⟩
    · exact .inl e
    refine .inr ⟨b1.trans a1, b2.trans a2, b3.trans a3, ?_, ?_, ?_⟩
    · rcases a4 with a4 | a4
      · exact b4.imp_left fun e => e.trans a4
      · exact .inr a4
    · rcases a5 with a5 | a5
      · exact b5.imp_left fun e => e.trans a5
      · exact .inr a5
    · intro h
      rcases a6 h with x | x
      · exact b6 x
      · exact .inr x
  start := fun e => (h'.start e).elim h.start .inr
  stop := fun e => (h'.stop e).elim h.stop .inr
  fixed := ⟨h'.fixed.1.trans h.fixed.1, h'.fixed.2.1.trans h.fixed.2.1, h'.fixed.2.2.trans h.fixed.2.2⟩
  refusal := h'.refusal.trans h.refusal

/-- What an interface access leaves of the control bits, the configuration and a set `AF`. -/
def Bif.Alike (b c : Bif) : Prop :=
  c.pe = b.pe ∧ c.swrst = b.swrst ∧ c.cfg = b.cfg ∧ c.pos = b.pos ∧ c.ack = b.ack ∧ b.Quiet c

theorem Bif.Alike.refl (b : Bif) : b.Alike b := ⟨rfl, rfl, rfl, rfl, rfl, .refl b⟩

theorem Bif.alike_wrDr (b : Bif) (v : Byte) : b.Alike (b.wrDr v) := by
  unfold Bif.wrDr
  split
  · exact .refl b
  · split <;> exact .refl b

theorem Bif.alike_rdDr (b : Bif) : b.Alike b.rdDr := by
  unfold Bif.rdDr
  split
  · split <;> exact .refl b
  · exact .refl b

theorem Bif.alike_rdSr2 (b : Bif) : b.Alike b.rdSr2 := by
  unfold Bif.rdSr2
  split <;> exact .refl b

theorem Kept.of_alike {q : Reach} {s t : State} (h1 : ∀ k, t.bufByte k ≠ s.bufByte k → q.buf k)
    (h2 : t.res ≠ s.res → q.res = true) (h3 : s.bus.Alike t.bus)
    (h4 : t.params = s.params ∧ t.host = s.host ∧ t.peer.isPanel = s.peer.isPanel) (h5 : t.refusal = s.refusal) :
    Kept q s t :=
  ⟨h1, h2, .inr ⟨h3.1, h3.2.1, h3.2.2.1, .inl h3.2.2.2.1, .inl h3.2.2.2.2.1, fun h => .inl (h3.2.2.2.2.2.1 h)⟩,
    fun h => .inl (h3.2.2.2.2.2.2.1 h), fun h => .inl (h3.2.2.2.2.2.2.2 h), h4, h5⟩

theorem Kept.same {q : Reach} {s t : State} (h1 : t.buf = s.buf) (h2 : t.res = s.res) (h3 : s.bus.Alike t.bus)
    (h4 : t.params = s.params ∧ t.host = s.host ∧ t.peer.isPanel = s.peer.isPanel) (h5 : t.refusal = s.refusal) :
    Kept q s t :=
  .of_alike (fun k hk => absurd (State.bufByte_congr h1 k) hk) (fun hk => absurd h2 hk) h3 h4 h5

/-- A micro-operation changes only what it may write. -/
theorem Micro.run_kept {q : Reach} {m : Micro} (hm : m.within q) (rest : List Micro) (u : State) :
    Kept q u (m.run rest u) := by
  have I := Bif.Alike.refl u.bus
  have init : ∀ t : State, q.init = true → t.buf = u.buf → t.res = u.res →
      (t.params = u.params ∧ t.host = u.host ∧ t.peer.isPanel = u.peer.isPanel) → t.refusal = u.refusal →
      (t.bus.start = true → u.bus.start = true) → (t.bus.stop = true → u.bus.stop = true) → Kept q u t :=
    fun t h h1 h2 h3 h4 h5 h6 =>
      ⟨fun k hk => absurd (State.bufByte_congr h1 k) hk, fun hk => absurd h2 hk, .inl h, fun e => .inl (h5 e),
        fun e => .inl (h6 e), h3, h4⟩
  have bit : ∀ t : State, t.buf = u.buf → t.res = u.res →
      (t.params = u.params ∧ t.host = u.host ∧ t.peer.isPanel = u.peer.isPanel) → t.refusal = u.refusal →
      (t.bus.pe = u.bus.pe ∧ t.bus.swrst = u.bus.swrst ∧ t.bus.cfg = u.bus.cfg ∧
        (t.bus.pos = u.bus.pos ∨ q.pos = true) ∧ (t.bus.ack = u.bus.ack ∨ q.ack = true) ∧
        (u.bus.af = true → t.bus.af = true ∨ q.af = true)) →
      (t.bus.start = true → u.bus.start = true ∨ q.start = true) →
      (t.bus.stop = true → u.bus.stop = true ∨ q.stop = true) → Kept q u t :=
    fun t h1 h2 h3 h4 h5 h6 h7 =>
      ⟨fun k hk => absurd (State.bufByte_congr h1 k) hk, fun hk => absurd h2 hk, .inr h5, h6, h7, h3, h4⟩
  have store : ∀ (i : Nat) (t : State), q.buf i → t.buf = (u.bufWrite i u.bus.dr).buf →
      ∀ k, t.bufByte k ≠ u.bufByte k → q.buf k := by
    intro i t hi e k hk
    rw [State.bufByte_congr e, State.bufByte_bufWrite] at hk
    split at hk
    · rename_i e
      rw [e]
      exact hi
    · exact absurd rfl hk
  cases m with
  | fbZero =>
    simp only [Micro.run]
    exact .same (by simp) (by simp) (by simpa using I) ⟨by simp, by simp, by simp⟩ (by simp)
  | set f =>
    cases f
    case pe => exact init _ hm rfl rfl ⟨rfl, rfl, rfl⟩ rfl id id
    case swrst => exact init _ hm rfl rfl ⟨rfl, rfl, rfl⟩ rfl nofun nofun
    case start =>
      exact bit _ rfl rfl ⟨rfl, rfl, rfl⟩ rfl ⟨rfl, rfl, rfl, .inl rfl, .inl rfl, .inl⟩ (fun _ => .inr hm) .inl
    case stop =>
      exact bit _ rfl rfl ⟨rfl, rfl, rfl⟩ rfl ⟨rfl, rfl, rfl, .inl rfl, .inl rfl, .inl⟩ .inl (fun _ => .inr hm)
    case ack => exact bit _ rfl rfl ⟨rfl, rfl, rfl⟩ rfl ⟨rfl, rfl, rfl, .inl rfl, .inr hm, .inl⟩ .inl .inl
    case pos => exact bit _ rfl rfl ⟨rfl, rfl, rfl⟩ rfl ⟨rfl, rfl, rfl, .inr hm, .inl rfl, .inl⟩ .inl .inl
  | clr f =>
    cases f
    case pe => exact init _ hm rfl rfl ⟨rfl, rfl, rfl⟩ rfl id id
    case swrst => exact init _ hm rfl rfl ⟨rfl, rfl, rfl⟩ rfl id id
    case start => exact bit _ rfl rfl ⟨rfl, rfl, rfl⟩ rfl ⟨rfl, rfl, rfl, .inl rfl, .inl rfl, .inl⟩ nofun .inl
    case stop => exact bit _ rfl rfl ⟨rfl, rfl, rfl⟩ rfl ⟨rfl, rfl, rfl, .inl rfl, .inl rfl, .inl⟩ .inl nofun
    case ack => exact bit _ rfl rfl ⟨rfl, rfl, rfl⟩ rfl ⟨rfl, rfl, rfl, .inl rfl, .inr hm, .inl⟩ .inl .inl
    case pos => exact bit _ rfl rfl ⟨rfl, rfl, rfl⟩ rfl ⟨rfl, rfl, rfl, .inr hm, .inl rfl, .inl⟩ .inl .inl
  | clrAf =>
    exact bit _ rfl rfl ⟨rfl, rfl, rfl⟩ rfl ⟨rfl, rfl, rfl, .inl rfl, .inl rfl, fun _ => .inr hm⟩ .inl .inl
  | program c => exact init _ hm rfl rfl ⟨rfl, rfl, rfl⟩ rfl id id
  | rdSr2 => exact .same rfl rfl (Bif.alike_rdSr2 _) ⟨rfl, rfl, rfl⟩ rfl
  | wrDr v => cases v <;> exact .same rfl rfl (Bif.alike_wrDr _ _) ⟨rfl, rfl, rfl⟩ rfl
  | rdDrRes =>
    exact .of_alike (fun k hk => absurd rfl hk) (fun _ => hm) (Bif.alike_rdDr _) ⟨rfl, rfl, rfl⟩ rfl
  | rdDrBuf i =>
    exact .of_alike (store i _ hm rfl) (fun h => absurd rfl h) (Bif.alike_rdDr _) ⟨rfl, rfl, rfl⟩ rfl
  | rxTake p n i =>
    exact .of_alike (store (p + i) _ hm.1 rfl) (fun h => absurd rfl h) (Bif.alike_rdDr _) ⟨rfl, rfl, rfl⟩ rfl
  | rxTest p n i =>
    simp only [Micro.run]
    split
    · split <;> exact .same rfl rfl I ⟨rfl, rfl, rfl⟩ rfl
    · exact .same rfl rfl I ⟨rfl, rfl, rfl⟩ rfl
  | text i =>
    simp only [Micro.run]
    split
    · exact .same rfl rfl I ⟨rfl, rfl, rfl⟩ rfl
    · split
      · exact .same rfl rfl I ⟨rfl, rfl, rfl⟩ rfl
      · split <;> exact .same rfl rfl I ⟨rfl, rfl, rfl⟩ rfl
  | _ => exact .same rfl rfl I ⟨rfl, rfl, rfl⟩ rfl

/-- An operation is refused, with nothing else changed, or changes only what its micro-operations may write. -/
theorem command_kept {q : Reach} {i : Instr} {tests : List (Bool × RefuseReason)} {code : List Micro} {s t : State}
    (hc : firstFailing tests = none → ∀ x ∈ code, x.within q) (h : command i tests code s = .next t) :
    Kept q s t ∨ ∃ r, t = s.refuse r ∧ s.busy = false := by
  unfold command at h
  split at h
  · cases h
  · rename_i hb
    cases h
    split
    · exact .inr ⟨_, rfl, by simpa using hb⟩
    · rename_i hf
      left
      refine (State.runOp_frame (F := Kept q s) (Micro.within_closed q) ?_ ?_ ?_ ?_ ?_ (hc hf)).1
      · exact fun u m rest _ hm hF => hF.trans (m.run_kept hm rest u)
      · intro u v hm haf hF
        refine hF.trans (.same ?_ ?_ ⟨?_, ?_, ?_, ?_, ?_, haf⟩ ⟨?_, ?_, ?_⟩ ?_) <;> rw [← hm] <;> rfl
      · exact fun u h => h.trans (.same rfl rfl (.refl _) ⟨rfl, rfl, rfl⟩ rfl)
      · exact fun u r h => h.trans (.same rfl rfl (.refl _) ⟨rfl, rfl, rfl⟩ rfl)
      · exact .same rfl rfl (.refl _) ⟨rfl, rfl, rfl⟩ rfl

end Sys2Proof.Machine
end

