-- ==== Sys2Proof/Laws/Panel.lean ====
section
/-! SUPPORT. Laws/Panel.lean: what the reference panel makes of the frames of the display operations (46 R384, R385): the
cursor frame, a frame of data, a run of data, and where a completed operation leaves it. -/

namespace Sys2Proof.Machine

/-- The panel after it has seen a list of tokens. -/
def seeAll (q : Params) (w : List Token) (p : Panel) : Panel := w.foldl (fun p k => p.see q k) p

/-- The panel is not inside an unfinished command. -/
def Panel.Calm (p : Panel) : Prop := ∀ v vs, p.rx ≠ .command (v :: vs)

theorem seeAll_append (q : Params) (v w : List Token) (p : Panel) : seeAll q (v ++ w) p = seeAll q w (seeAll q v p) := by
  simp [seeAll]

theorem seeAll_cons (q : Params) (k : Token) (w : List Token) (p : Panel) :
    seeAll q (k :: w) p = seeAll q w (p.see q k) := rfl

theorem Panel.ended_calm {p : Panel} (h : p.Calm) : p.ended = { p with rx := .off } := by
  unfold Panel.ended
  split
  · rename_i e
    exact absurd e (h _ _)
  · rfl

theorem Panel.calm_off {p : Panel} (h : p.rx = .off) : p.Calm := by
  intro v vs
  rw [h]
  simp

theorem seeAll_start {q : Params} {p : Panel} (hp : p.Calm) (w : List Token) :
    seeAll q (.start :: w) p = seeAll q w { p with rx := .listening } := by
  simp only [seeAll, List.foldl_cons, Panel.see, Panel.ended_calm hp]

/-- The cursor frame (R270, R385). -/
theorem seeAll_cursor {q : Params} (hc : q.cmds = PanelCmds.defaults) {p : Panel} (hp : p.Calm) {col page : Nat}
    (h1 : col ≤ 127) (h2 : page ≤ 7) :
    seeAll q (cursorTokens q col page) p =
      { p with rx := .off, cs := col, ce := 127, pcol := col, ps := page, pe := 7, ppage := page } := by
  have e1 : col % 256 = col := by omega
  have e2 : page % 256 = page := by omega
  simp only [cursorTokens, cmdTokens, frameTokens, List.cons_append]
  rw [seeAll_start hp]
  simp [seeAll, Panel.see, Panel.byte, hc, PanelCmds.defaults, Panel.commandByte, cmdLength, Panel.obey, Panel.ended,
    e1, e2, h1, h2]

/-- What recording a command does to the record (R383): the command is the last of every group it is in, and the others
are as they were. -/
theorem find_recordTold (cs : List Byte) (c : Byte) (args : List Byte) (l : List (Byte × List Byte)) :
    (recordTold c args l).find? (cs.contains ·.1) =
      if c ∈ cs then some (c, args) else l.find? (cs.contains ·.1) := by
  by_cases h : c ∈ cs
  · simp [recordTold, h]
  · have e : (fun d : Byte × List Byte => !decide (d.1 = c) && decide (d.1 ∈ cs)) = fun d => decide (d.1 ∈ cs) := by
      funext d
      by_cases hd : d.1 = c <;> simp [hd, h]
    simp [recordTold, h, List.find?_filter, e]

/-- What a command that is recorded does to the panel's last commands. -/
@[simp] theorem Panel.latest_recordTold (cs : List Byte) (c : Byte) (args : List Byte) (p : Panel) :
    Panel.latest cs { p with told := recordTold c args p.told } = if c ∈ cs then some (c, args) else p.latest cs :=
  find_recordTold cs c args p.told

/-- The last commands are what the record says, whatever else the panel holds. -/
theorem Panel.latest_congr {p p' : Panel} (h : p'.told = p.told) (cs : List Byte) : p'.latest cs = p.latest cs := by
  unfold Panel.latest
  rw [h]

/-- Inside a command frame the bytes of a complete command are obeyed as one (R385). -/
theorem seeAll_command {q : Params} (c : Byte) (args : List Byte) :
    ∀ (got rest : List Byte) (p : Panel), args = got ++ rest → rest ≠ [] → cmdLength c = some (args.length + 1) →
      p.rx = .command (c :: got) →
      seeAll q (rest.map (Token.byte · true)) p = { p with rx := .command [] }.obey q.cmds c args
  | got, [v], p, e, _, hl, hr => by
    subst e
    simp [seeAll, Panel.see, hr, Panel.byte, Panel.commandByte, hl]
  | got, v :: w :: rest, p, e, _, hl, hr => by
    have hn : ¬(got.length + 1 = args.length) := by subst e; simp
    have e1 : p.see q (.byte v true) = { p with rx := .command (c :: (got ++ [v])) } := by
      simp [Panel.see, hr, Panel.byte, Panel.commandByte, hl, hn]
    rw [List.map_cons, seeAll_cons, e1]
    rw [seeAll_command c args (got ++ [v]) (w :: rest) _ (by simp [e]) (by simp) hl rfl]

/-- Inside a command frame, between commands, a whole command is obeyed (R385). -/
theorem seeAll_wholeCommand {q : Params} {c : Byte} {args : List Byte} (hl : cmdLength c = some (args.length + 1))
    {p : Panel} (hr : p.rx = .command []) :
    seeAll q ((c :: args).map (Token.byte · true)) p = p.obey q.cmds c args := by
  have e : ({ p with rx := .command [] } : Panel) = p := by rw [← hr]
  cases args with
  | nil =>
    have hl : cmdLength c = some 1 := hl
    simp [seeAll, Panel.see, hr, Panel.byte, Panel.commandByte, hl, e]
  | cons v vs =>
    have e1 : p.see q (.byte c true) = { p with rx := .command [c] } := by
      simp [Panel.see, hr, Panel.byte, Panel.commandByte, hl]
    rw [List.map_cons, seeAll_cons, e1, seeAll_command c (v :: vs) [] (v :: vs) _ rfl (by simp) hl rfl]
    simp only [e]

/-- The command frame of D_INIT leaves the panel's memory and cursor alone and sets the horizontal mode (R305, R385). -/
theorem seeAll_init {q : Params} (hc : q.cmds = PanelCmds.defaults) {p : Panel} (hp : p.Calm) :
    ∃ l, seeAll q (cmdTokens q (initCommands q.cmds)) p = { p with rx := .off, amode := 0, told := l } := by
  simp only [cmdTokens, frameTokens, List.cons_append]
  rw [seeAll_start hp]
  simp [seeAll, Panel.see, Panel.byte, hc, PanelCmds.defaults, initCommands, Panel.commandByte, cmdLength, Panel.obey,
    Panel.ended]

/-- The panel can take a stream: horizontal mode, cursor and ranges on the display. -/
structure Panel.Streams (p : Panel) : Prop where
  mode : p.amode = 0
  pcol : p.pcol ≤ 127
  ppage : p.ppage ≤ 7
  cs : p.cs ≤ 127
  ce : p.ce ≤ 127
  ps : p.ps ≤ 7
  pe : p.pe ≤ 7

theorem Panel.Streams.store {p : Panel} (h : p.Streams) (v : Byte) : (p.store v).Streams := by
  obtain ⟨h1, h2, h3, h4, h5, h6, h7⟩ := h
  simp only [Panel.store]
  split
  · refine ⟨h1, h4, ?_, h4, h5, h6, h7⟩
    simp only
    split <;> omega
  · refine ⟨h1, ?_, h3, h4, h5, h6, h7⟩
    simp only at *
    omega

theorem Panel.store_rx (p : Panel) (v : Byte) : (p.store v).rx = p.rx := by
  simp only [Panel.store]
  split <;> rfl

theorem Panel.store_setRx (p : Panel) (v : Byte) (r : PanelRx) :
    Panel.store v { p with rx := r } = { p.store v with rx := r } := by
  simp only [Panel.store]
  split <;> rfl

/-- Inside a data frame every byte is stored. -/
theorem seeAll_stream {q : Params} : ∀ (vs : List Byte) (p : Panel), p.rx = .data → p.Streams →
    seeAll q (vs.map (Token.byte · true)) p = vs.foldl (fun p v => p.store v) p
  | [], _, _, _ => rfl
  | v :: vs, p, hr, h => by
    have e : p.see q (.byte v true) = p.store v := by
      simp [Panel.see, hr, Panel.byte, h.mode, h.pcol, h.ppage]
    simp only [List.map_cons, List.foldl_cons, seeAll_cons, e]
    exact seeAll_stream vs _ ((Panel.store_rx p v).trans hr) (h.store v)

theorem foldl_store_setRx (vs : List Byte) (p : Panel) (r : PanelRx) :
    vs.foldl (fun p v => p.store v) { p with rx := r } = { vs.foldl (fun p v => p.store v) p with rx := r } := by
  induction vs generalizing p with
  | nil => rfl
  | cons v vs ih =>
    simp only [List.foldl_cons, Panel.store_setRx]
    exact ih _

theorem foldl_store_rx (vs : List Byte) (p : Panel) : (vs.foldl (fun p v => p.store v) p).rx = p.rx := by
  induction vs generalizing p with
  | nil => rfl
  | cons v vs ih =>
    rw [List.foldl_cons, ih, Panel.store_rx]

/-- A frame of data bytes (R384). -/
theorem seeAll_frame {q : Params} (hc : q.ctrlCmd ≠ q.ctrlData) {p : Panel} (hp : p.Calm) (h : p.Streams)
    (vs : List Byte) :
    seeAll q (frameTokens q q.ctrlData vs) p = { vs.foldl (fun p v => p.store v) p with rx := .off } := by
  have hc' : q.ctrlData ≠ q.ctrlCmd := fun e => hc e.symm
  have e1 : frameTokens q q.ctrlData vs =
      .start :: .byte q.dispAddrW true :: .byte q.ctrlData true :: (vs.map (Token.byte · true) ++ [Token.stop]) := by
    simp [frameTokens]
  rw [e1, seeAll_start hp, seeAll_cons, seeAll_cons, seeAll_append]
  have e2 : Panel.see q (.byte q.ctrlData true) (Panel.see q (.byte q.dispAddrW true) { p with rx := .listening }) =
      { p with rx := .data } := by
    simp [Panel.see, Panel.byte, hc']
  rw [e2, seeAll_stream vs { p with rx := .data } rfl
    ⟨h.mode, h.pcol, h.ppage, h.cs, h.ce, h.ps, h.pe⟩, foldl_store_setRx]
  rfl

/-- A run of data bytes leaves the same panel under either framing (R264, R384). -/
theorem seeAll_data {q : Params} (hc : q.ctrlCmd ≠ q.ctrlData) {p : Panel} (hp : p.rx = .off) (h : p.Streams)
    (vs : List Byte) :
    seeAll q (dataTokens q vs) p = vs.foldl (fun p v => p.store v) p := by
  unfold dataTokens
  split
  · induction vs generalizing p with
    | nil => rfl
    | cons v vs ih =>
      rw [List.flatMap_cons, seeAll_append, seeAll_frame hc (Panel.calm_off hp) h]
      have e : ({ p.store v with rx := .off } : Panel) = p.store v := by
        rw [← hp, ← Panel.store_rx p v]
      simp only [List.foldl_cons, List.foldl_nil, e]
      exact ih ((Panel.store_rx p v).trans hp) (h.store v)
  · rw [seeAll_frame hc (Panel.calm_off hp) h]
    have e := foldl_store_rx vs p
    rw [hp] at e
    rw [← e]

/-- `k` bytes stored from the origin on, with the full ranges, are the first `k` bytes of the memory (R384). -/
theorem foldl_store_origin (f : Nat → Byte) {p : Panel}
    (h : p.cs = 0 ∧ p.ce = 127 ∧ p.ps = 0 ∧ p.pe = 7 ∧ p.pcol = 0 ∧ p.ppage = 0) :
    ∀ k, k ≤ 1024 → ∃ g, ((List.range k).map f).foldl (fun p v => p.store v) p =
        { p with gd := g, pcol := k % 128, ppage := (k / 128) % 8 } ∧
      ∀ j, Memory.lookup g j = if j < k then some (f j) else Memory.lookup p.gd j := by
  obtain ⟨a1, a2, a3, a4, a5, a6⟩ := h
  intro k
  induction k with
  | zero =>
    intro _
    refine ⟨p.gd, ?_, by simp⟩
    cases p
    simp only at a5 a6
    simp [a5, a6]
  | succ k ih =>
    intro hk
    obtain ⟨g, e, hg⟩ := ih (by omega)
    refine ⟨Memory.write g k (f k), ?_, ?_⟩
    · rw [List.range_succ, List.map_append, List.foldl_append, e]
      have e0 : k % 128 + 128 * (k / 128 % 8) = k := by omega
      simp only [List.map_cons, List.map_nil, List.foldl_cons, List.foldl_nil, Panel.store, e0, a1, a2, a3, a4]
      split
      · have x1 : (k + 1) % 128 = 0 := by omega
        have x2 : (k + 1) / 128 % 8 = if k / 128 % 8 + 1 > 7 then 0 else k / 128 % 8 + 1 := by split <;> omega
        rw [x1, x2]
      · have x1 : (k + 1) % 128 = k % 128 + 1 := by omega
        have x2 : (k + 1) / 128 % 8 = k / 128 % 8 := by omega
        rw [x1, x2]
    · intro j
      by_cases hj : j = k
      · subst hj
        simp
      · rw [Memory.lookup_write_ne _ _ hj, hg j]
        have : (j < k) ↔ (j < k + 1) := by omega
        simp [this]

/-- Where a completed operation leaves the panel that watched it, but for whether the last stop has gone by: as if it had
seen just the operation's tokens, which end in a stop outside any unfinished command. -/
theorem completes_panel {i : Instr} {s after : State} {u : List Token}
    (h : Completes i s after (Token.start :: u ++ [Token.stop])) (hp : s.peer.isPanel = true) (hc : s.panel.Calm)
    (hu : (seeAll s.params (.start :: u) s.panel).Calm) :
    ∃ t, exec i s = .next t ∧ t.completed ∧ t = after.sentBy t ∧
      { t.panel with rx := .off } = seeAll s.params (Token.start :: u ++ [Token.stop]) s.panel := by
  obtain ⟨t, h1, h2, h3, h4, h5⟩ := h
  refine ⟨t, h1, h2, h4, ?_⟩
  obtain ⟨tests, code, e⟩ := exec_command i s
  have hsaw : s.SawOn t := by
    rw [e] at h1
    unfold command at h1
    split at h1
    · cases h1
    · cases h1
      split
      · exact .of_eq rfl rfl rfl rfl
      · exact State.SawOn.runOp (.of_eq rfl rfl rfl rfl)
  obtain ⟨-, -, x, k1, k2⟩ := hsaw
  rw [hp] at k2
  simp only [if_true] at k2
  have k2 : t.panel = seeAll s.params x s.panel := k2
  have pre : ∀ w, seeAll s.params (.stop :: .start :: w) s.panel = seeAll s.params (.start :: w) s.panel := by
    intro w
    rw [seeAll_cons]
    have e1 : s.panel.see s.params .stop = { s.panel with rx := .off } := Panel.ended_calm hc
    rw [e1, seeAll_start hc, seeAll_start (Panel.calm_off rfl)]
  obtain ⟨m, hm, em⟩ : ∃ m : List Token, (m = [] ∨ m = [.stop]) ∧ t.settledWire = t.wire ++ m := by
    unfold State.settledWire
    split
    · exact ⟨[.stop], .inr rfl, rfl⟩
    · exact ⟨[], .inl rfl, by simp⟩
  obtain ⟨n, hn, en⟩ : ∃ n : List Token, (n = [] ∨ n = [.stop]) ∧ s.settledWire = s.wire ++ n := by
    unfold State.settledWire
    split
    · exact ⟨[.stop], .inr rfl, rfl⟩
    · exact ⟨[], .inl rfl, by simp⟩
  rw [em, en, k1, List.append_assoc, List.append_assoc, List.append_cancel_left_eq] at h5
  have seen : ∀ w, seeAll s.params (n ++ Token.start :: w) s.panel = seeAll s.params (.start :: w) s.panel := by
    intro w
    rcases hn with rfl | rfl
    · rfl
    · exact pre w
  have stop : ∀ p : Panel, p.Calm → ({ p with rx := .off } : Panel) = seeAll s.params [.stop] p := fun p hp =>
    (Panel.ended_calm hp).symm
  rcases hm with rfl | rfl
  · rw [List.append_nil] at h5
    rw [k2, h5]
    have e2 := seen (u ++ [Token.stop])
    have e3 : seeAll s.params (Token.start :: u ++ [Token.stop]) s.panel =
        { seeAll s.params (.start :: u) s.panel with rx := .off } := by
      rw [seeAll_append, ← stop _ hu]
    simp only [List.cons_append] at e3 ⊢
    rw [e2, e3]
  · have e2 : x = n ++ Token.start :: u := by
      rw [← List.append_assoc] at h5
      exact List.append_cancel_right h5
    rw [k2, e2, seen u, stop _ hu, seeAll_append]

/-- A run of data ends in a data frame. -/
theorem dataTokens_last (q : Params) (l : List Byte) (v : Byte) :
    ∃ (w : List Token) (vs : List Byte), dataTokens q (l ++ [v]) = w ++ frameTokens q q.ctrlData vs ∧
      (w = [] ∨ w = dataTokens q l) := by
  unfold dataTokens
  cases q.framing with
  | perByte => exact ⟨l.flatMap fun v => frameTokens q q.ctrlData [v], [v], by simp, .inr rfl⟩
  | continuous => exact ⟨[], l ++ [v], by simp, .inl rfl⟩

theorem foldl_store_streams (vs : List Byte) {p : Panel} (h : p.Streams) :
    (vs.foldl (fun p v => p.store v) p).Streams := by
  induction vs generalizing p with
  | nil => exact h
  | cons v vs ih => exact ih (h.store v)

/-- An operation that sends some frames and then a run of data: the panel has stored the run (R264, R384). -/
theorem completes_stream {i : Instr} {s after : State} {u : List Token} {l : List Byte} {v : Byte} {p : Panel}
    (h : Completes i s after (Token.start :: u ++ dataTokens s.params (l ++ [v]))) (hp : s.peer.isPanel = true)
    (hc : s.panel.Calm) (hq : s.params.ctrlCmd ≠ s.params.ctrlData)
    (hu : seeAll s.params (.start :: u) s.panel = p) (hr : p.rx = .off) (hs : p.Streams) :
    ∃ t, exec i s = .next t ∧ t.completed ∧ t = after.sentBy t ∧
      { t.panel with rx := .off } = (l ++ [v]).foldl (fun p v => p.store v) p := by
  obtain ⟨w, vs, e, hw⟩ := dataTokens_last s.params l v
  have hq' : s.params.ctrlData ≠ s.params.ctrlCmd := fun e => hq e.symm
  have before : ∃ p' : Panel, seeAll s.params (Token.start :: u ++ w) s.panel = p' ∧ p'.rx = .off ∧ p'.Streams := by
    refine ⟨_, rfl, ?_⟩
    rw [seeAll_append, hu]
    rcases hw with rfl | rfl
    · exact ⟨hr, hs⟩
    · rw [seeAll_data hq hr hs]
      exact ⟨(foldl_store_rx l p).trans hr, foldl_store_streams l hs⟩
  obtain ⟨p', e1, hr', hs'⟩ := before
  have e2 : frameTokens s.params s.params.ctrlData vs = (.start :: .byte s.params.dispAddrW true ::
      .byte s.params.ctrlData true :: vs.map (Token.byte · true)) ++ [Token.stop] := by simp [frameTokens]
  have calm : (seeAll s.params (Token.start :: (u ++ w ++ Token.start :: .byte s.params.dispAddrW true ::
      .byte s.params.ctrlData true :: vs.map (Token.byte · true))) s.panel).Calm := by
    have e3 : Token.start :: (u ++ w ++ Token.start :: .byte s.params.dispAddrW true :: .byte s.params.ctrlData true ::
        vs.map (Token.byte · true)) = (Token.start :: u ++ w) ++ (Token.start :: .byte s.params.dispAddrW true ::
        .byte s.params.ctrlData true :: vs.map (Token.byte · true)) := by simp
    rw [e3, seeAll_append, e1, seeAll_start (Panel.calm_off hr'), seeAll_cons, seeAll_cons]
    have e4 : Panel.see s.params (.byte s.params.ctrlData true) (Panel.see s.params (.byte s.params.dispAddrW true)
        { p' with rx := .listening }) = { p' with rx := .data } := by
      simp [Panel.see, Panel.byte, hq']
    rw [e4, seeAll_stream vs { p' with rx := .data } rfl
      ⟨hs'.mode, hs'.pcol, hs'.ppage, hs'.cs, hs'.ce, hs'.ps, hs'.pe⟩, foldl_store_setRx]
    intro a as
    simp
  have e5 : Token.start :: u ++ dataTokens s.params (l ++ [v]) = .start :: (u ++ w ++ Token.start ::
      .byte s.params.dispAddrW true :: .byte s.params.ctrlData true :: vs.map (Token.byte · true)) ++ [Token.stop] := by
    rw [e, e2]
    simp
  rw [e5] at h
  obtain ⟨t, h1, h2, h3, h4⟩ := completes_panel h hp hc calm
  refine ⟨t, h1, h2, h3, ?_⟩
  rw [h4, ← e5, seeAll_append, hu, seeAll_data hq hr hs]

end Sys2Proof.Machine
end

