-- ==== Sys2Proof/Laws/PerInstr.lean ====
section
/-! SUPPORT. Laws/PerInstr.lean: the statements made per instruction. Family `Row`: the command word of the instruction
matches a row of the opcode table, its unused fields zero (30_encoding.md R113, R117). -/

namespace Sys2Proof

/-- Masking a command word masks its bytes. -/
theorem Word.ofBytes_and (op a b c d e m0 m1 m2 m3 m4 m5 : Byte) :
    Word.ofBytes op a b c d e &&& Word.ofBytes m0 m1 m2 m3 m4 m5 =
      Word.ofBytes (op &&& m0) (a &&& m1) (b &&& m2) (c &&& m3) (d &&& m4) (e &&& m5) := by
  refine BitVec.eq_of_bits fun k hk => ?_
  simp only [BitVec.getLsbD_and, Word.ofBytes_bit]
  split_ifs <;> simp

end Sys2Proof

namespace Sys2Proof.Laws.Row

/-- The word of `i` matches a row of the opcode table. -/
def Statement (i : Instr) : Prop := ∃ row ∈ opcodeTable, encode i &&& row.2 = row.1

/-- A row whose pattern and mask are given as bytes is matched by the words that agree with the pattern under it. -/
theorem matches_row {op a b c d e m0 m1 m2 m3 m4 m5 x0 x1 x2 x3 x4 x5 : Byte}
    (h : (Word.ofBytes x0 x1 x2 x3 x4 x5, Word.ofBytes m0 m1 m2 m3 m4 m5) ∈ opcodeTable)
    (h0 : op &&& m0 = x0) (h1 : a &&& m1 = x1) (h2 : b &&& m2 = x2) (h3 : c &&& m3 = x3) (h4 : d &&& m4 = x4)
    (h5 : e &&& m5 = x5) :
    ∃ row ∈ opcodeTable, Word.ofBytes op a b c d e &&& row.2 = row.1 :=
  ⟨_, h, by rw [Word.ofBytes_and, h0, h1, h2, h3, h4, h5]⟩

theorem bcInit (p : Half) : Statement (.bcInit p) := by
  rw [Statement, encode, Word.ofHalves_eq]
  exact matches_row (x0 := 0x01) (m0 := 0xFF) (x1 := 0) (m1 := 0xFF) (x2 := 0) (m2 := 0) (x3 := 0) (m3 := 0) (x4 := 0) (m4 := 0xFF) (x5 := 0) (m5 := 0xFF) (by decide)
    (by decide) (by decide) BitVec.and_zero BitVec.and_zero (by decide) (by decide)

theorem start : Statement .start := by
  rw [Statement, encode]
  exact matches_row (x0 := 0x02) (m0 := 0xFF) (x1 := 0) (m1 := 0xFF) (x2 := 0) (m2 := 0xFF) (x3 := 0) (m3 := 0xFF) (x4 := 0) (m4 := 0xFF) (x5 := 0) (m5 := 0xFF) (by decide)
    (by decide) (by decide) (by decide) (by decide) (by decide) (by decide)

theorem stop : Statement .stop := by
  rw [Statement, encode]
  exact matches_row (x0 := 0x03) (m0 := 0xFF) (x1 := 0) (m1 := 0xFF) (x2 := 0) (m2 := 0xFF) (x3 := 0) (m3 := 0xFF) (x4 := 0) (m4 := 0xFF) (x5 := 0) (m5 := 0xFF) (by decide)
    (by decide) (by decide) (by decide) (by decide) (by decide) (by decide)

theorem req (a : Byte) : Statement (.req a) := by
  rw [Statement, encode]
  exact matches_row (x0 := 0x04) (m0 := 0xFF) (x1 := 0) (m1 := 0) (x2 := 0) (m2 := 0xFF) (x3 := 0) (m3 := 0xFF) (x4 := 0) (m4 := 0xFF) (x5 := 0) (m5 := 0xFF) (by decide)
    (by decide) BitVec.and_zero (by decide) (by decide) (by decide) (by decide)

theorem wrb (a : Byte) : Statement (.wrb a) := by
  rw [Statement, encode]
  exact matches_row (x0 := 0x05) (m0 := 0xFF) (x1 := 0) (m1 := 0) (x2 := 0) (m2 := 0xFF) (x3 := 0) (m3 := 0xFF) (x4 := 0) (m4 := 0xFF) (x5 := 0) (m5 := 0xFF) (by decide)
    (by decide) BitVec.and_zero (by decide) (by decide) (by decide) (by decide)

theorem wrburst (a : Byte) (p n : Half) : Statement (.wrburst a p n) := by
  rw [Statement, encode, Word.ofHalves_eq]
  exact matches_row (x0 := 0x06) (m0 := 0xFF) (x1 := 0) (m1 := 0) (x2 := 0) (m2 := 0) (x3 := 0) (m3 := 0) (x4 := 0) (m4 := 0) (x5 := 0) (m5 := 0) (by decide)
    (by decide) BitVec.and_zero BitVec.and_zero BitVec.and_zero BitVec.and_zero BitVec.and_zero

theorem rdb : Statement .rdb := by
  rw [Statement, encode]
  exact matches_row (x0 := 0x07) (m0 := 0xFF) (x1 := 0) (m1 := 0xFF) (x2 := 0) (m2 := 0xFF) (x3 := 0) (m3 := 0xFF) (x4 := 0) (m4 := 0xFF) (x5 := 0) (m5 := 0xFF) (by decide)
    (by decide) (by decide) (by decide) (by decide) (by decide) (by decide)

theorem rdburst (a : Byte) (p n : Half) : Statement (.rdburst a p n) := by
  rw [Statement, encode, Word.ofHalves_eq]
  exact matches_row (x0 := 0x08) (m0 := 0xFF) (x1 := 0) (m1 := 0) (x2 := 0) (m2 := 0) (x3 := 0) (m3 := 0) (x4 := 0) (m4 := 0) (x5 := 0) (m5 := 0) (by decide)
    (by decide) BitVec.and_zero BitVec.and_zero BitVec.and_zero BitVec.and_zero BitVec.and_zero

theorem dInit : Statement .dInit := by
  rw [Statement, encode]
  exact matches_row (x0 := 0x10) (m0 := 0xFF) (x1 := 0) (m1 := 0xFF) (x2 := 0) (m2 := 0xFF) (x3 := 0) (m3 := 0xFF) (x4 := 0) (m4 := 0xFF) (x5 := 0) (m5 := 0xFF) (by decide)
    (by decide) (by decide) (by decide) (by decide) (by decide) (by decide)

theorem movecur (a b : Byte) : Statement (.movecur a b) := by
  rw [Statement, encode]
  exact matches_row (x0 := 0x11) (m0 := 0xFF) (x1 := 0) (m1 := 0) (x2 := 0) (m2 := 0) (x3 := 0) (m3 := 0xFF) (x4 := 0) (m4 := 0xFF) (x5 := 0) (m5 := 0xFF) (by decide)
    (by decide) BitVec.and_zero BitVec.and_zero (by decide) (by decide) (by decide)

theorem drawchar (p : Half) : Statement (.drawchar p) := by
  rw [Statement, encode, Word.ofHalves_eq]
  exact matches_row (x0 := 0x12) (m0 := 0xFF) (x1 := 0) (m1 := 0xFF) (x2 := 0) (m2 := 0) (x3 := 0) (m3 := 0) (x4 := 0) (m4 := 0xFF) (x5 := 0) (m5 := 0xFF) (by decide)
    (by decide) (by decide) BitVec.and_zero BitVec.and_zero (by decide) (by decide)

theorem drawbitmap (p : Half) : Statement (.drawbitmap p) := by
  rw [Statement, encode, Word.ofHalves_eq]
  exact matches_row (x0 := 0x13) (m0 := 0xFF) (x1 := 0) (m1 := 0xFF) (x2 := 0) (m2 := 0) (x3 := 0) (m3 := 0) (x4 := 0) (m4 := 0xFF) (x5 := 0) (m5 := 0xFF) (by decide)
    (by decide) (by decide) BitVec.and_zero BitVec.and_zero (by decide) (by decide)

theorem drawpixel (a b : Byte) : Statement (.drawpixel a b) := by
  rw [Statement, encode]
  exact matches_row (x0 := 0x14) (m0 := 0xFF) (x1 := 0) (m1 := 0) (x2 := 0) (m2 := 0) (x3 := 0) (m3 := 0xFF) (x4 := 0) (m4 := 0xFF) (x5 := 0) (m5 := 0xFF) (by decide)
    (by decide) BitVec.and_zero BitVec.and_zero (by decide) (by decide) (by decide)

theorem clearpixel (a b : Byte) : Statement (.clearpixel a b) := by
  rw [Statement, encode]
  exact matches_row (x0 := 0x15) (m0 := 0xFF) (x1 := 0) (m1 := 0) (x2 := 0) (m2 := 0) (x3 := 0) (m3 := 0xFF) (x4 := 0) (m4 := 0xFF) (x5 := 0) (m5 := 0xFF) (by decide)
    (by decide) BitVec.and_zero BitVec.and_zero (by decide) (by decide) (by decide)

theorem drawline (a b c d : Byte) : Statement (.drawline a b c d) := by
  rw [Statement, encode]
  exact matches_row (x0 := 0x16) (m0 := 0xFF) (x1 := 0) (m1 := 0) (x2 := 0) (m2 := 0) (x3 := 0) (m3 := 0) (x4 := 0) (m4 := 0) (x5 := 0) (m5 := 0xFF) (by decide)
    (by decide) BitVec.and_zero BitVec.and_zero BitVec.and_zero BitVec.and_zero (by decide)

theorem drawvline (a b c : Byte) : Statement (.drawvline a b c) := by
  rw [Statement, encode]
  exact matches_row (x0 := 0x17) (m0 := 0xFF) (x1 := 0) (m1 := 0) (x2 := 0) (m2 := 0) (x3 := 0) (m3 := 0) (x4 := 0) (m4 := 0xFF) (x5 := 0) (m5 := 0xFF) (by decide)
    (by decide) BitVec.and_zero BitVec.and_zero BitVec.and_zero (by decide) (by decide)

theorem drawhline (a b c : Byte) : Statement (.drawhline a b c) := by
  rw [Statement, encode]
  exact matches_row (x0 := 0x18) (m0 := 0xFF) (x1 := 0) (m1 := 0) (x2 := 0) (m2 := 0) (x3 := 0) (m3 := 0) (x4 := 0) (m4 := 0xFF) (x5 := 0) (m5 := 0xFF) (by decide)
    (by decide) BitVec.and_zero BitVec.and_zero BitVec.and_zero (by decide) (by decide)

theorem drawcircle (a b c : Byte) : Statement (.drawcircle a b c) := by
  rw [Statement, encode]
  exact matches_row (x0 := 0x19) (m0 := 0xFF) (x1 := 0) (m1 := 0) (x2 := 0) (m2 := 0) (x3 := 0) (m3 := 0) (x4 := 0) (m4 := 0xFF) (x5 := 0) (m5 := 0xFF) (by decide)
    (by decide) BitVec.and_zero BitVec.and_zero BitVec.and_zero (by decide) (by decide)

theorem contrast (a : Byte) : Statement (.contrast a) := by
  rw [Statement, encode]
  exact matches_row (x0 := 0x20) (m0 := 0xFF) (x1 := 0) (m1 := 0) (x2 := 0) (m2 := 0xFF) (x3 := 0) (m3 := 0xFF) (x4 := 0) (m4 := 0xFF) (x5 := 0) (m5 := 0xFF) (by decide)
    (by decide) BitVec.and_zero (by decide) (by decide) (by decide) (by decide)

theorem invert (a : Byte) : Statement (.invert a) := by
  rw [Statement, encode]
  exact matches_row (x0 := 0x21) (m0 := 0xFF) (x1 := 0) (m1 := 0) (x2 := 0) (m2 := 0xFF) (x3 := 0) (m3 := 0xFF) (x4 := 0) (m4 := 0xFF) (x5 := 0) (m5 := 0xFF) (by decide)
    (by decide) BitVec.and_zero (by decide) (by decide) (by decide) (by decide)

theorem dispon (a : Byte) : Statement (.dispon a) := by
  rw [Statement, encode]
  exact matches_row (x0 := 0x22) (m0 := 0xFF) (x1 := 0) (m1 := 0) (x2 := 0) (m2 := 0xFF) (x3 := 0) (m3 := 0xFF) (x4 := 0) (m4 := 0xFF) (x5 := 0) (m5 := 0xFF) (by decide)
    (by decide) BitVec.and_zero (by decide) (by decide) (by decide) (by decide)

theorem flip (a : Byte) : Statement (.flip a) := by
  rw [Statement, encode]
  exact matches_row (x0 := 0x23) (m0 := 0xFF) (x1 := 0) (m1 := 0) (x2 := 0) (m2 := 0xFF) (x3 := 0) (m3 := 0xFF) (x4 := 0) (m4 := 0xFF) (x5 := 0) (m5 := 0xFF) (by decide)
    (by decide) BitVec.and_zero (by decide) (by decide) (by decide) (by decide)

theorem addrmode (a : Byte) : Statement (.addrmode a) := by
  rw [Statement, encode]
  exact matches_row (x0 := 0x24) (m0 := 0xFF) (x1 := 0) (m1 := 0) (x2 := 0) (m2 := 0xFF) (x3 := 0) (m3 := 0xFF) (x4 := 0) (m4 := 0xFF) (x5 := 0) (m5 := 0xFF) (by decide)
    (by decide) BitVec.and_zero (by decide) (by decide) (by decide) (by decide)

theorem scrollh (a b c d : Byte) : Statement (.scrollh a b c d) := by
  rw [Statement, encode]
  exact matches_row (x0 := 0x28) (m0 := 0xFF) (x1 := 0) (m1 := 0) (x2 := 0) (m2 := 0) (x3 := 0) (m3 := 0) (x4 := 0) (m4 := 0) (x5 := 0) (m5 := 0xFF) (by decide)
    (by decide) BitVec.and_zero BitVec.and_zero BitVec.and_zero BitVec.and_zero (by decide)

theorem scrolldiag (a b c d e : Byte) : Statement (.scrolldiag a b c d e) := by
  rw [Statement, encode]
  exact matches_row (x0 := 0x29) (m0 := 0xFF) (x1 := 0) (m1 := 0) (x2 := 0) (m2 := 0) (x3 := 0) (m3 := 0) (x4 := 0) (m4 := 0) (x5 := 0) (m5 := 0) (by decide)
    (by decide) BitVec.and_zero BitVec.and_zero BitVec.and_zero BitVec.and_zero BitVec.and_zero

theorem setvarea (a b : Byte) : Statement (.setvarea a b) := by
  rw [Statement, encode]
  exact matches_row (x0 := 0x2A) (m0 := 0xFF) (x1 := 0) (m1 := 0) (x2 := 0) (m2 := 0) (x3 := 0) (m3 := 0xFF) (x4 := 0) (m4 := 0xFF) (x5 := 0) (m5 := 0xFF) (by decide)
    (by decide) BitVec.and_zero BitVec.and_zero (by decide) (by decide) (by decide)

theorem scrollstate (a : Byte) : Statement (.scrollstate a) := by
  rw [Statement, encode]
  exact matches_row (x0 := 0x2B) (m0 := 0xFF) (x1 := 0) (m1 := 0) (x2 := 0) (m2 := 0xFF) (x3 := 0) (m3 := 0xFF) (x4 := 0) (m4 := 0xFF) (x5 := 0) (m5 := 0xFF) (by decide)
    (by decide) BitVec.and_zero (by decide) (by decide) (by decide) (by decide)

theorem scrollv (a b c d e : Byte) : Statement (.scrollv a b c d e) := by
  rw [Statement, encode]
  exact matches_row (x0 := 0x2C) (m0 := 0xFF) (x1 := 0) (m1 := 0) (x2 := 0) (m2 := 0) (x3 := 0) (m3 := 0) (x4 := 0) (m4 := 0) (x5 := 0) (m5 := 0) (by decide)
    (by decide) BitVec.and_zero BitVec.and_zero BitVec.and_zero BitVec.and_zero BitVec.and_zero

theorem ramwrite (a b c : Byte) : Statement (.ramwrite a b c) := by
  rw [Statement, encode]
  exact matches_row (x0 := 0x30) (m0 := 0xFF) (x1 := 0) (m1 := 0) (x2 := 0) (m2 := 0) (x3 := 0) (m3 := 0) (x4 := 0) (m4 := 0xFF) (x5 := 0) (m5 := 0xFF) (by decide)
    (by decide) BitVec.and_zero BitVec.and_zero BitVec.and_zero (by decide) (by decide)

theorem ramupdatebyte (a b c : Byte) : Statement (.ramupdatebyte a b c) := by
  rw [Statement, encode]
  exact matches_row (x0 := 0x31) (m0 := 0xFF) (x1 := 0) (m1 := 0) (x2 := 0) (m2 := 0) (x3 := 0) (m3 := 0) (x4 := 0) (m4 := 0xFF) (x5 := 0) (m5 := 0xFF) (by decide)
    (by decide) BitVec.and_zero BitVec.and_zero BitVec.and_zero (by decide) (by decide)

theorem ramupdatefull : Statement .ramupdatefull := by
  rw [Statement, encode]
  exact matches_row (x0 := 0x32) (m0 := 0xFF) (x1 := 0) (m1 := 0xFF) (x2 := 0) (m2 := 0xFF) (x3 := 0) (m3 := 0xFF) (x4 := 0) (m4 := 0xFF) (x5 := 0) (m5 := 0xFF) (by decide)
    (by decide) (by decide) (by decide) (by decide) (by decide) (by decide)

theorem ramclear : Statement .ramclear := by
  rw [Statement, encode]
  exact matches_row (x0 := 0x33) (m0 := 0xFF) (x1 := 0) (m1 := 0xFF) (x2 := 0) (m2 := 0xFF) (x3 := 0) (m3 := 0xFF) (x4 := 0) (m4 := 0xFF) (x5 := 0) (m5 := 0xFF) (by decide)
    (by decide) (by decide) (by decide) (by decide) (by decide) (by decide)

end Sys2Proof.Laws.Row
end

