-- ==== Sys2Proof/Laws/Receive.lean ====
section
/-! SUPPORT. Laws/Receive.lean: the initiator receive sequences run to their end (41 R222; 42 R241, R242). -/

namespace Sys2Proof.Machine

/-! ### Storing -/

theorem State.stored_append (p : Nat) (xs ys : List Byte) (s : State) :
    State.stored p (xs ++ ys) s = State.stored (p + xs.length) ys (State.stored p xs s) := by
  induction xs generalizing p s with
  | nil => rfl
  | cons x xs ih =>
    simp only [List.cons_append, State.stored, ih, List.length_cons]
    congr 1
    omega

theorem State.stored_snoc (p : Nat) (xs : List Byte) (v : Byte) (s : State) :
    State.stored p (xs ++ [v]) s = (State.stored p xs s).bufWrite (p + xs.length) v := by
  rw [State.stored_append]
  rfl

theorem State.stored_bufWrite_fields (p : Nat) (xs : List Byte) (s : State) :
    State.stored p xs s = { s with buf := (State.stored p xs s).buf } := by
  induction xs generalizing p s with
  | nil => rfl
  | cons x xs ih =>
    simp only [State.stored]
    rw [ih]
    rfl

theorem State.stored_buf_congr (p : Nat) (xs : List Byte) {s t : State} (h : s.buf = t.buf) :
    (State.stored p xs s).buf = (State.stored p xs t).buf := by
  induction xs generalizing p s t with
  | nil => exact h
  | cons x xs ih =>
    simp only [State.stored]
    exact ih _ (by simp [State.bufWrite, h])

/-- A read of BUF after storing: the bytes stored, in order, and every other byte as it was. -/
theorem State.bufByte_stored (p : Nat) (xs : List Byte) (s : State) (q : Nat) :
    (State.stored p xs s).bufByte q =
      if p ≤ q then (xs[q - p]?).getD (s.bufByte q) else s.bufByte q := by
  induction xs generalizing p s with
  | nil => simp [State.stored]
  | cons x xs ih =>
    simp only [State.stored, ih, State.bufByte_bufWrite]
    by_cases h : p = q
    · subst h
      have : ¬p + 1 ≤ p := by omega
      simp [this]
    · by_cases h2 : p ≤ q
      · have e : q - p = (q - (p + 1)) + 1 := by omega
        have : p + 1 ≤ q := by omega
        simp [this, h2, e, Ne.symm h]
      · have : ¬p + 1 ≤ q := by omega
        simp [this, h2, Ne.symm h]

/-! ### A reception in progress -/

/-- What holds all through a reception that started in `s0`, with the bytes `vs` stored from `p` on. -/
def Reads (s0 : State) (p : Nat) (vs : List Byte) (s : State) : Prop := (State.stored p vs s0).readBy s = s

/-- The issue of a command word is among what a reception may change. -/
theorem Reads.loaded {s t : State} {w : Word} {c : List Micro} {p : Nat} {vs : List Byte} (h : Reads (s.load w c) p vs t) :
    Reads s p vs t := by
  unfold Reads at h ⊢
  rw [State.stored_bufWrite_fields] at h ⊢
  rw [State.stored_buf_congr p vs (s := s.load w c) (t := s) rfl] at h
  exact h

/-- What a reception needs of the state it starts in. -/
structure CanRead (s0 : State) : Prop where
  faulted : s0.faulted = none
  budget : s0.params.waitBudget = none

namespace Reads

variable {s0 s : State} {p : Nat} {vs : List Byte}

theorem fields (h : Reads s0 p vs s) :
    s.faulted = s0.faulted ∧ s.params = s0.params ∧ s.bus.pe = s0.bus.pe ∧ s.res = s0.res := by
  have e := State.stored_bufWrite_fields p vs s0
  unfold Reads at h
  rw [e] at h
  rw [← h]
  exact ⟨rfl, rfl, rfl, rfl⟩

theorem goto (h : Reads s0 p vs s) (c : List Micro) : Reads s0 p vs (s.goto c) := by
  unfold Reads at h ⊢
  rw [← h]; rfl

theorem reschedule (h : Reads s0 p vs s) (q : Script Agent) (d : Nat) : Reads s0 p vs (s.reschedule q d) := by
  unfold Reads at h ⊢
  rw [← h]; rfl

theorem emit (h : Reads s0 p vs s) (t : Token) : Reads s0 p vs (s.emit t) := by
  unfold Reads at h ⊢
  rw [← h]; rfl

theorem askByte (h : Reads s0 p vs s) : Reads s0 p vs s.askByte.2 := by
  unfold Reads at h ⊢
  rw [← h]; rfl

theorem bufWrite (h : Reads s0 p vs s) (v : Byte) : Reads s0 p (vs ++ [v]) (s.bufWrite (p + vs.length) v) := by
  unfold Reads at h ⊢
  rw [State.stored_snoc, ← h]; rfl

theorem withBif (h : Reads s0 p vs s) {b : Bif} (hb : (s.readBy (s.withBif b)).bus = b) :
    Reads s0 p vs (s.withBif b) := by
  have : (State.stored p vs s0).readBy (s.withBif b) = s.readBy (s.withBif b) := by
    unfold Reads at h
    conv_rhs => rw [← h]
    rfl
  unfold Reads
  rw [this]
  exact congrArg (fun x => ({ s with bus := x } : State)) hb

end Reads

theorem CanRead.step {Q : State → Prop} {s0 s : State} {p n : Nat} {vs : List Byte} (h0 : CanRead s0)
    (h : Reads s0 p vs s) (hp : s.bus.role = .master ∨ (s.bus.role = .idle ∧ s.bus.ack = false))
    (hb : s.busy = true) (hu : s.upc ≠ []) (hwait : s.waiting = true → s.bus.lineOn = true)
    (hseq : s.waiting = false → ∀ q d, Reaches Q n (s.reschedule q d).seqStep)
    (hline : s.bus.lineOn = true → ∀ q d, Reaches Q n (s.reschedule q d).lineStep) : Reaches Q (n + 1) s := by
  obtain ⟨h1, h2, -, -⟩ := h.fields
  refine Reaches.step hb (h1.trans h0.faulted) hu (by rw [h2]; exact h0.budget) ?_ hwait hseq hline
  unfold State.peerOn
  split
  · rfl
  · rename_i m rest hm
    rcases hp with hp | ⟨hp, ha⟩ <;> cases m <;> simp [PeerMove.on, *]

/-- Receiving in the initiator role: the data phase is open or ended by a NACK; the stop may be requested. -/
structure Bif.Receiving (b : Bif) : Prop where
  pe : b.pe = true
  role : b.role = .master
  opened : b.opened = true
  phase : b.phase = .data
  dir : b.dir = .rx
  sb : b.sb = false
  addr : b.addr = false
  start : b.start = false

theorem Bif.Receiving.lineOn {b : Bif} (h : b.Receiving) : b.lineOn = ((b.more && !b.shFull) || b.stop) := by
  simp only [Bif.lineOn, Bif.byteOn, Bif.addrOn, Bif.loadOn, Bif.txByteOn, Bif.rxByteOn, Bif.startOn, Bif.stopOn,
    h.pe, h.role, h.phase, h.dir, h.sb, h.addr, h.start]
  cases b.more <;> cases b.shFull <;> cases b.stop <;> rfl

theorem Bif.Receiving.lineStep {s : State} (h : s.bus.Receiving) :
    s.lineStep = if (s.bus.more && !s.bus.shFull) = true then s.lineRxByte else if s.bus.stop then s.lineStop else s := by
  simp only [State.lineStep, Bif.addrOn, Bif.loadOn, Bif.txByteOn, Bif.rxByteOn, Bif.startOn, Bif.stopOn, Bif.byteOn,
    h.pe, h.role, h.phase, h.dir, h.sb, h.addr, h.start]
  cases s.bus.more <;> cases s.bus.shFull <;> cases s.bus.stop <;> rfl

theorem Reads.lineRxByte {s0 s : State} {p : Nat} {vs : List Byte} (h : Reads s0 p vs s) :
    Reads s0 p vs s.lineRxByte := by
  refine (h.askByte.emit _).withBif ?_
  simp only [Bif.lineRxByte]
  split <;> rfl

theorem Reads.lineStop {s0 s : State} {p : Nat} {vs : List Byte} (h : Reads s0 p vs s) : Reads s0 p vs s.lineStop := by
  refine (h.emit _).withBif ?_
  simp only [Bif.lineStop]
  split <;> rfl

theorem State.askByte_eq {s : State} {v : Byte} {rest : List Byte} (h : s.peer.data.next = v :: rest) :
    s.askByte.1 = v ∧ s.askByte.2.peer.data.next = rest := by
  simp [State.askByte, Script.pop, h, State.drawn]

/-- After the stop of a reception: nothing is left to the line agent, and the bytes survive. -/
structure Bif.Ended (b : Bif) : Prop where
  role : b.role = .idle
  phase : b.phase = .idle
  dir : b.dir = .rx
  start : b.start = false

theorem Bif.Ended.lineOn {b : Bif} (h : b.Ended) : b.lineOn = false := by
  simp [Bif.lineOn, Bif.byteOn, Bif.addrOn, Bif.loadOn, Bif.txByteOn, Bif.rxByteOn, Bif.startOn, Bif.stopOn, h.role,
    h.phase, h.start]

/-! ### Where a reception stands -/

/-- Between two moves of a reception: the bytes received and not yet read, the first one in the data register. -/
def Bif.held (b : Bif) : List Byte :=
  if b.drFull then (if b.shFull then [b.dr, b.shift] else [b.dr]) else []

/-- The shift register is only full behind a full data register. -/
def Bif.ordered (b : Bif) : Prop := b.shFull = true → b.drFull = true

/-- A byte comes in. -/
theorem Bif.Receiving.lineRxByte {b : Bif} (h : b.Receiving) (ho : b.ordered) (hs : b.shFull = false) (v : Byte) :
    (b.lineRxByte v).Receiving ∧ (b.lineRxByte v).ordered ∧ (b.lineRxByte v).held = b.held ++ [v] ∧
      (b.lineRxByte v).more = (b.more && b.rxAck) ∧ (b.lineRxByte v).ack = b.ack ∧ (b.lineRxByte v).pos = b.pos ∧
      (b.lineRxByte v).stop = b.stop ∧ (b.lineRxByte v).ackLatch = b.ack := by
  have held : (b.lineRxByte v).held = b.held ++ [v] := by
    cases hd : b.drFull <;> simp [Bif.held, hd, hs]
  refine ⟨⟨?_, ?_, ?_, ?_, ?_, ?_, ?_, ?_⟩, ?_, held, ?_⟩ <;>
    simp [h.pe, h.role, h.opened, h.phase, h.dir, h.sb, h.addr, h.start, Bif.ordered]

/-- The tokens of the bytes received so far: the last byte of the transfer is not acknowledged. -/
def soFar (vs : List Byte) (done : Bool) : List Token := if done then receivedTokens vs else vs.map (Token.byte · true)

theorem soFar_snoc (vs : List Byte) (v : Byte) (done : Bool) :
    soFar (vs ++ [v]) done = vs.map (Token.byte · true) ++ [Token.byte v (!done)] := by
  cases done <;> simp [soFar, receivedTokens]

/-- A reception in progress: `vs` stored, `hs` received and not read, `cs` still to come (with `ys` behind them), the
acknowledge `k` ready for the next byte, and `ACK`, `POS`, `STOP`. -/
structure Rx (s0 : State) (p : Nat) (w : List Token) (vs hs cs ys : List Byte) (a k ps st : Bool) (s : State) :
    Prop where
  reads : Reads s0 p vs s
  recv : s.bus.Receiving
  ord : s.bus.ordered
  held : s.bus.held = hs
  next : s.peer.data.next = cs ++ ys
  ack : s.bus.ack = a
  rxAck : s.bus.rxAck = k
  pos : s.bus.pos = ps
  stop : s.bus.stop = st
  more : s.bus.more = !cs.isEmpty
  wire : s.wire = w ++ soFar (vs ++ hs) cs.isEmpty

/-- The wire after a reception of `vs` and its stop. -/
abbrev endedWire (w : List Token) (vs : List Byte) : List Token := w ++ receivedTokens vs ++ [Token.stop]

/-- A reception whose stop has gone out; `w` is the whole wire. -/
structure Over (s0 : State) (p : Nat) (w : List Token) (vs hs ys : List Byte) (s : State) : Prop where
  reads : Reads s0 p vs s
  ended : s.bus.Ended
  ord : s.bus.ordered
  held : s.bus.held = hs
  next : s.peer.data.next = ys
  ack : s.bus.ack = false
  free : s.bus.free
  wire : s.wire = w

theorem Bif.held_nil {b : Bif} (ho : b.ordered) (h : b.held = []) : b.drFull = false ∧ b.shFull = false := by
  cases hd : b.drFull <;> cases hs : b.shFull <;> simp [Bif.held, Bif.ordered, hd, hs] at h ho ⊢

theorem Bif.held_one {b : Bif} (ho : b.ordered) {x : Byte} (h : b.held = [x]) :
    b.drFull = true ∧ b.shFull = false ∧ b.dr = x := by
  cases hd : b.drFull <;> cases hs : b.shFull <;> simp [Bif.held, Bif.ordered, hd, hs] at h ho ⊢
  exact h

theorem Bif.held_two {b : Bif} {x y : Byte} (h : b.held = [x, y]) :
    b.drFull = true ∧ b.shFull = true ∧ b.dr = x ∧ b.shift = y := by
  cases hd : b.drFull <;> cases hs : b.shFull <;> simp [Bif.held, hd, hs] at h ⊢
  exact h

theorem Bif.held_length (b : Bif) : b.held.length ≤ 2 := by
  cases hd : b.drFull <;> cases hs : b.shFull <;> simp [Bif.held, hd, hs]

theorem Bif.shFull_of_held {b : Bif} (ho : b.ordered) : b.shFull = decide (b.held.length = 2) := by
  cases hd : b.drFull <;> cases hs : b.shFull <;> simp [Bif.held, Bif.ordered, hd, hs] at ho ⊢

theorem Bif.drFull_of_held (b : Bif) : b.drFull = decide (0 < b.held.length) := by
  cases hd : b.drFull <;> cases hs : b.shFull <;> simp [Bif.held, hd, hs]

section

variable {s0 s : State} {p n : Nat} {w : List Token} {vs hs cs ys : List Byte} {a k ps st : Bool}
  {Q : State → Prop}

theorem Rx.reschedule (h : Rx s0 p w vs hs cs ys a k ps st s) (q : Script Agent) (d : Nat) :
    Rx s0 p w vs hs cs ys a k ps st (s.reschedule q d) :=
  ⟨h.reads.reschedule q d, h.recv, h.ord, h.held, h.next, h.ack, h.rxAck, h.pos, h.stop, h.more, h.wire⟩

theorem Over.reschedule (h : Over s0 p w vs hs ys s) (q : Script Agent) (d : Nat) :
    Over s0 p w vs hs ys (s.reschedule q d) :=
  ⟨h.reads.reschedule q d, h.ended, h.ord, h.held, h.next, h.ack, h.free, h.wire⟩

theorem Rx.goto (h : Rx s0 p w vs hs cs ys a k ps st s) (c : List Micro) :
    Rx s0 p w vs hs cs ys a k ps st (s.goto c) :=
  ⟨h.reads.goto c, h.recv, h.ord, h.held, h.next, h.ack, h.rxAck, h.pos, h.stop, h.more, h.wire⟩

theorem Over.goto (h : Over s0 p w vs hs ys s) (c : List Micro) : Over s0 p w vs hs ys (s.goto c) :=
  ⟨h.reads.goto c, h.ended, h.ord, h.held, h.next, h.ack, h.free, h.wire⟩

/-- The next byte comes in. -/
theorem Rx.byte {x : Byte} (h : Rx s0 p w vs hs (x :: cs) ys a k ps st s) (hsh : s.bus.shFull = false)
    (hk : k = !cs.isEmpty) :
    Rx s0 p w vs (hs ++ [x]) cs ys a a ps st s.lineStep ∧ s.lineStep.upc = s.upc ∧
      s.lineStep.busy = s.busy := by
  have hstep : s.lineStep = s.lineRxByte := by
    rw [h.recv.lineStep]
    simp [h.more, hsh]
  rw [hstep]
  obtain ⟨h1, h2⟩ := State.askByte_eq (s := s) (v := x) (rest := cs ++ ys) (by rw [h.next]; rfl)
  obtain ⟨g1, g2, g3, g4, g5, g6, g7, g8⟩ := h.recv.lineRxByte h.ord hsh x
  have hb : s.lineRxByte.bus = s.bus.lineRxByte x := by simp [State.lineRxByte, h1]
  refine ⟨⟨h.reads.lineRxByte, ?_, ?_, ?_, ?_, ?_, ?_, ?_, ?_, ?_, ?_⟩, rfl, rfl⟩
  · rw [hb]; exact g1
  · rw [hb]; exact g2
  · rw [hb, g3, h.held]
  · simp [State.lineRxByte, h2]
  · rw [hb, g5, h.ack]
  · rw [hb, Bif.rxAck, g8, g5, ite_self, h.ack]
  · rw [hb, g6, h.pos]
  · rw [hb, g7, h.stop]
  · rw [hb, g4, h.more, h.rxAck, hk]
    simp
  · have hw : s.lineRxByte.wire = s.wire ++ [Token.byte x s.bus.rxAck] := by simp [State.lineRxByte, h1]
    rw [hw, h.wire, h.rxAck, hk, ← List.append_assoc vs, soFar_snoc]
    simp [soFar]

/-- The stop goes out once the last byte is in, or while there is no room for the next one. -/
theorem Rx.over (h : Rx s0 p w vs hs cs ys false k ps true s) (hr : cs = [] ∨ hs.length = 2) :
    Over s0 p (w ++ soFar (vs ++ hs) cs.isEmpty ++ [Token.stop]) vs hs (cs ++ ys) s.lineStep ∧ s.lineStep.upc = s.upc ∧ s.lineStep.busy = s.busy := by
  have hstep : s.lineStep = s.lineStop := by
    rw [h.recv.lineStep, h.more, h.stop, Bif.shFull_of_held h.ord, h.held]
    rcases hr with rfl | hr
    · simp
    · simp [hr]
  rw [hstep]
  have hdir := h.recv.dir
  refine ⟨⟨h.reads.lineStop, ⟨by simp [State.lineStop], by simp [State.lineStop], by simpa [State.lineStop] using hdir,
    by simpa [State.lineStop] using h.recv.start⟩, ?_, ?_, ?_, ?_, ?_, ?_⟩, rfl, rfl⟩
  · have := h.ord
    simpa [State.lineStop, Bif.ordered, hdir] using this
  · rw [← h.held]
    simp [State.lineStop, Bif.held, hdir]
  · simpa [State.lineStop] using h.next
  · simpa [State.lineStop] using h.ack
  · have := h.recv
    simp [State.lineStop, Bif.free, this.pe, this.sb, this.addr, this.start, Bif.byteOn, Bif.addrOn, Bif.loadOn,
      Bif.txByteOn, Bif.rxByteOn]
  · simp [State.lineStop, h.wire]

/-- A move while a reception is in progress. -/
theorem Rx.step (h0 : CanRead s0) (h : Rx s0 p w vs hs cs ys a k ps st s) (hb : s.busy = true) (hu : s.upc ≠ [])
    (hwait : s.waiting = true → (cs ≠ [] ∧ hs.length ≤ 1) ∨ st = true)
    (hbyte : ∀ x c, cs = x :: c → hs.length ≤ 1 → k = (!c.isEmpty) ∧
      ∀ u, Rx s0 p w vs (hs ++ [x]) c ys a a ps st u → u.upc = s.upc → u.busy = true → Reaches Q n u)
    (hstop : st = true → (cs ≠ [] → hs.length ≤ 1) ∧ (cs = [] → a = false ∧
      ∀ u, Over s0 p (endedWire w (vs ++ hs)) vs hs ys u → u.upc = s.upc → u.busy = true → Reaches Q n u))
    (hseq : s.waiting = false → ∀ u, Rx s0 p w vs hs cs ys a k ps st u → u.upc = s.upc → Reaches Q n u.seqStep) :
    Reaches Q (n + 1) s := by
  have hlen : s.bus.shFull = decide (hs.length = 2) := by
    rw [Bif.shFull_of_held h.ord, h.held]
  have hle : hs.length ≤ 2 := by rw [← h.held]; exact s.bus.held_length
  refine h0.step h.reads (.inl h.recv.role) hb hu ?_ ?_ ?_
  · intro hw
    rw [h.recv.lineOn, h.more, h.stop, hlen]
    rcases hwait hw with ⟨h1, h2⟩ | h1
    · cases cs with
      | nil => exact absurd rfl h1
      | cons x c =>
        have : hs.length ≠ 2 := by omega
        simp [this]
    · simp [h1]
  · intro hw q d
    exact hseq hw _ (h.reschedule q d) rfl
  · intro hl q d
    have h' := h.reschedule q d
    cases cs with
    | nil =>
      rw [h.recv.lineOn, h.more, h.stop] at hl
      have hst : st = true := by simpa using hl
      obtain ⟨-, h2⟩ := hstop hst
      obtain ⟨ha, h3⟩ := h2 rfl
      subst hst ha
      obtain ⟨g1, g2, g3⟩ := h'.over (.inl rfl)
      exact h3 _ g1 g2 (g3.trans hb)
    | cons x c =>
      have hsmall : hs.length ≤ 1 := by
        by_cases h1 : hs.length ≤ 1
        · exact h1
        · have e : hs.length = 2 := by omega
          rw [h.recv.lineOn, h.more, h.stop, hlen] at hl
          have hst : st = true := by simpa [e] using hl
          exact (hstop hst).1 (by simp)
      obtain ⟨hk, h2⟩ := hbyte x c rfl hsmall
      have hsh : (s.reschedule q d).bus.shFull = false := by
        have : hs.length ≠ 2 := by omega
        simp [hlen, this]
      obtain ⟨g1, g2, g3⟩ := h'.byte hsh hk
      exact h2 _ g1 g2 (g3.trans hb)

/-- A move after the stop: only the sequencer has one. -/
theorem Over.step (h0 : CanRead s0) (h : Over s0 p w vs hs ys s) (hb : s.busy = true) (hu : s.upc ≠ [])
    (hwait : s.waiting = false)
    (hseq : ∀ u, Over s0 p w vs hs ys u → u.upc = s.upc → Reaches Q n u.seqStep) : Reaches Q (n + 1) s := by
  refine h0.step h.reads (.inr ⟨h.ended.role, h.ack⟩) hb hu ?_ ?_ ?_
  · intro hw; rw [hwait] at hw; cases hw
  · intro _ q d
    exact hseq _ (h.reschedule q d) rfl
  · intro hl; rw [h.ended.lineOn] at hl; cases hl

/-! ### The sequencer's accesses -/

theorem Reads.rdSr2 (h : Reads s0 p vs s) : Reads s0 p vs (s.withBif s.bus.rdSr2) := by
  refine h.withBif ?_
  simp only [Bif.rdSr2]
  split <;> rfl

theorem Reads.rdDr (h : Reads s0 p vs s) : Reads s0 p vs (s.withBif s.bus.rdDr) := by
  refine h.withBif ?_
  simp only [Bif.rdDr]
  split
  · split <;> rfl
  · rfl

/-- Clearing `ADDR` opens the receive data phase (R156). -/
theorem Rx.open (h : Reads s0 p [] s) (hb : s.bus.addressed .rx) (hn : s.peer.data.next = cs ++ ys) (hcs : cs ≠ [])
    (hw : s.wire = w) (ha : s.bus.ack = a) (hp : s.bus.pos = ps) :
    Rx s0 p w [] [] cs ys a a ps false (s.withBif s.bus.rdSr2) := by
  obtain ⟨h1, h2, h3, h4, h5, h6, h7, h8, h9, h10, h11⟩ := hb
  have e : s.bus.rdSr2 =
      { s.bus with addr := false, phase := .data, more := true, sent := 0, ackLatch := s.bus.ack } := by
    simp [Bif.rdSr2, h3]
  have hr : Reads s0 p [] (s.withBif s.bus.rdSr2) := h.rdSr2
  rw [e] at hr ⊢
  refine ⟨hr, ⟨h1, h6, h7, rfl, h9, h2, rfl, h4⟩, ?_, ?_, hn, ha, ?_, hp, h5, ?_, ?_⟩
  · simp [Bif.ordered, h11]
  · simp [Bif.held, h10]
  · simp [Bif.rxAck, ha]
  · cases cs with
    | nil => exact absurd rfl hcs
    | cons => rfl
  · cases cs with
    | nil => exact absurd rfl hcs
    | cons => simp [soFar, hw]

/-- Writing `ACK` during a reception with `POS` = 0. -/
theorem Rx.setAck (h : Rx s0 p w vs hs cs ys a k false st s) (v : Bool) :
    Rx s0 p w vs hs cs ys v v false st (s.withBif (s.bus.setBit .ack v)) := by
  have r := h.recv
  refine ⟨h.reads.withBif rfl, ⟨r.pe, r.role, r.opened, r.phase, r.dir, r.sb, r.addr, r.start⟩, h.ord, h.held, h.next,
    rfl, ?_, h.pos, h.stop, h.more, h.wire⟩
  have := h.pos
  simp [Bif.rxAck, Bif.setBit, this]

/-- Writing `ACK` during a reception with `POS` = 1: the next acknowledge stays as it is. -/
theorem Rx.setAckPos (h : Rx s0 p w vs hs cs ys a k true st s) (v : Bool) :
    Rx s0 p w vs hs cs ys v k true st (s.withBif (s.bus.setBit .ack v)) := by
  have r := h.recv
  refine ⟨h.reads.withBif rfl, ⟨r.pe, r.role, r.opened, r.phase, r.dir, r.sb, r.addr, r.start⟩, h.ord, h.held, h.next,
    rfl, ?_, h.pos, h.stop, h.more, h.wire⟩
  have h1 := h.pos
  have h2 := h.rxAck
  rw [Bif.rxAck, h1] at h2
  simpa [Bif.rxAck, Bif.setBit, h1] using h2

/-- Requesting the stop during a reception. -/
theorem Rx.setStop (h : Rx s0 p w vs hs cs ys a k ps st s) :
    Rx s0 p w vs hs cs ys a k ps true (s.withBif (s.bus.setBit .stop true)) := by
  have r := h.recv
  exact ⟨h.reads.withBif rfl, ⟨r.pe, r.role, r.opened, r.phase, r.dir, r.sb, r.addr, r.start⟩, h.ord, h.held, h.next,
    h.ack, h.rxAck, h.pos, rfl, h.more, h.wire⟩

/-- What `rd_DR()` does to the bytes held (R157). -/
theorem Bif.rdDr_held {b : Bif} (hd : b.dir = .rx) (ho : b.ordered) {x : Byte} {hs : List Byte} (h : b.held = x :: hs) :
    b.dr = x ∧ b.rdDr.held = hs ∧ b.rdDr.ordered := by
  cases h1 : b.drFull <;> cases h2 : b.shFull <;>
    simp [Bif.held, Bif.ordered, Bif.rdDr, h1, h2, hd] at h ho ⊢ <;> simp [h]

/-- A received byte is read and stored. -/
theorem Rx.take {x : Byte} (h : Rx s0 p w vs (x :: hs) cs ys a k ps st s) :
    Rx s0 p w (vs ++ [x]) hs cs ys a k ps st ((s.bufWrite (p + vs.length) s.bus.dr).withBif s.bus.rdDr) := by
  obtain ⟨h1, h2, h3⟩ := Bif.rdDr_held h.recv.dir h.ord h.held
  have r := h.recv
  rw [h1]
  refine ⟨(h.reads.bufWrite x).rdDr, ⟨?_, ?_, ?_, ?_, ?_, ?_, ?_, ?_⟩, h3, h2, h.next, ?_, ?_, ?_, ?_, ?_, ?_⟩
  · simpa using r.pe
  · simpa using r.role
  · simpa using r.opened
  · simpa using r.phase
  · simpa using r.dir
  · simpa using r.sb
  · simpa using r.addr
  · simpa using r.start
  · simpa using h.ack
  · simpa [Bif.rxAck] using h.rxAck
  · simpa using h.pos
  · simpa using h.stop
  · simpa using h.more
  · simpa using h.wire

/-- A received byte is read and stored after the stop. -/
theorem Over.take {x : Byte} (h : Over s0 p w vs (x :: hs) ys s) :
    Over s0 p w (vs ++ [x]) hs ys ((s.bufWrite (p + vs.length) s.bus.dr).withBif s.bus.rdDr) := by
  obtain ⟨h1, h2, h3⟩ := Bif.rdDr_held h.ended.dir h.ord h.held
  rw [h1]
  refine ⟨(h.reads.bufWrite x).rdDr, ⟨?_, ?_, ?_, ?_⟩, h3, h2, h.next, ?_, ?_, ?_⟩
  · simpa using h.ended.role
  · simpa using h.ended.phase
  · simpa using h.ended.dir
  · simpa using h.ended.start
  · simpa using h.ack
  · have f := h.free
    obtain ⟨f1, f2, f3, f4, f5, f6⟩ := f
    have hrole := h.ended.role
    have hph := h.ended.phase
    rcases f6 with f6 | ⟨f6, -⟩
    · simp [Bif.free, Bif.byteOn, Bif.addrOn, Bif.loadOn, Bif.txByteOn, Bif.rxByteOn, hrole, hph, f1, f2, f3, f4, f6.2.1,
        f6.2.2]
    · rw [hrole] at f6; cases f6
  · simpa using h.wire

/-- A reception to BUF is complete. -/
structure Received (s0 : State) (p : Nat) (w : List Token) (vs ys : List Byte) (t : State) : Prop where
  reads : Reads s0 p vs t
  upc : t.upc = []
  busy : t.busy = false
  next : t.peer.data.next = ys
  ack : t.bus.ack = false
  free : t.bus.free
  held : t.bus.held = []
  wire : t.settledWire = w ++ receivedTokens vs ++ [Token.stop]

theorem Rx.free (h : Rx s0 p w vs hs [] ys a k ps true s) : s.bus.free := by
  have r := h.recv
  have hm := h.more
  have hst := h.stop
  simp [Bif.free, Bif.byteOn, Bif.addrOn, Bif.loadOn, Bif.txByteOn, Bif.rxByteOn, r.pe, r.sb, r.addr, r.start, r.role,
    r.opened, r.phase, r.dir, hst, hm]

theorem Rx.received (h : Rx s0 p w vs [] [] ys false k ps true s) (hb : s.busy = false) (hu : s.upc = []) :
    Received s0 p w vs ys s := by
  refine ⟨h.reads, hu, hb, h.next, h.ack, h.free, h.held, ?_⟩
  simp [State.settledWire, h.recv.role, h.stop, h.wire, soFar]

theorem Over.received (h : Over s0 p (endedWire w vs) vs [] ys s) (hb : s.busy = false) (hu : s.upc = []) :
    Received s0 p w vs ys s := by
  refine ⟨h.reads, hu, hb, h.next, h.ack, h.free, h.held, ?_⟩
  simp [State.settledWire, h.ended.role, h.wire]

/-! ### RDBURST, initiator, more than two bytes (R242) -/

/-- The last byte is read after the stop. -/
theorem Over.readOne (h0 : CanRead s0) {y : Byte} {hs : List Byte} (h : Over s0 p w vs (y :: hs) ys s)
    (hpv : p + vs.length = n) (hb : s.busy = true) (hu : s.upc = [.rdDrBuf n]) :
    Reaches (fun t => Over s0 p w (vs ++ [y]) hs ys t ∧ t.upc = [] ∧ t.busy = false) 1 s := by
  refine h.step h0 hb (by simp [hu]) (by simp [State.waiting, hu]) ?_
  intro v hv hvu
  simp only [State.seqStep, hvu, hu, Micro.run]
  have := (hv.take).goto []
  rw [hpv] at this
  exact .here ⟨this, rfl, rfl⟩

/-- The last two bytes are read after the stop. -/
theorem Over.readTwo (h0 : CanRead s0) {x y : Byte} (h : Over s0 p w vs [x, y] ys s) (hpv : p + vs.length = n)
    (hb : s.busy = true) (hu : s.upc = [.rdDrBuf n, .rdDrBuf (n + 1)]) :
    Reaches (fun t => Over s0 p w (vs ++ [x, y]) [] ys t ∧ t.upc = [] ∧ t.busy = false) 2 s := by
  have e : vs ++ [x, y] = (vs ++ [x]) ++ [y] := by simp
  refine h.step h0 hb (by simp [hu]) (by simp [State.waiting, hu]) ?_
  intro v hv hvu
  simp only [State.seqStep, hvu, hu, Micro.run]
  have := (hv.take).goto [.rdDrBuf (n + 1)]
  rw [hpv] at this
  rw [e]
  exact this.readOne h0 (by simp; omega) rfl rfl

/-- The two reads that end the tail. -/
theorem reaches_lastTwo (h0 : CanRead s0) {x y : Byte} (hpv : p + vs.length = n) (hb : s.busy = true)
    (hu : s.upc = [.rdDrBuf n, .rdDrBuf (n + 1)])
    (h : Rx s0 p w vs [x, y] [] ys false k ps true s ∨ Over s0 p (endedWire w (vs ++ [x, y])) vs [x, y] ys s) :
    Reaches (Received s0 p w (vs ++ [x, y]) ys) 4 s := by
  have e : vs ++ [x, y] = (vs ++ [x]) ++ [y] := by simp
  have len : p + (vs ++ [x]).length = n + 1 := by simp; omega
  have over2 : ∀ u, Over s0 p (endedWire w (vs ++ [x, y])) vs [x, y] ys u → u.busy = true →
      u.upc = [.rdDrBuf n, .rdDrBuf (n + 1)] → Reaches (Received s0 p w (vs ++ [x, y]) ys) 2 u :=
    fun u h hb hu => (h.readTwo h0 hpv hb hu).imp fun t ht => ht.1.received ht.2.2 ht.2.1
  -- after the first read
  have rx1 : ∀ u, Rx s0 p w (vs ++ [x]) [y] [] ys false k ps true u → u.busy = true → u.upc = [.rdDrBuf (n + 1)] →
      Reaches (Received s0 p w (vs ++ [x, y]) ys) 2 u := by
    intro u h hb hu
    refine h.step h0 hb (by simp [hu]) (by simp [State.waiting, hu]) (by simp) ?_ ?_
    · intro _
      refine ⟨by simp, fun _ => ⟨rfl, ?_⟩⟩
      intro v hv hvu hvb
      rw [e]
      exact (hv.readOne h0 len hvb (hvu.trans hu)).imp fun t ht => ht.1.received ht.2.2 ht.2.1
    · intro _ v hv hvu
      simp only [State.seqStep, hvu, hu, Micro.run]
      rw [e]
      have := (hv.take).goto []
      rw [len] at this
      exact .here (this.received rfl rfl)
  rcases h with h | h
  · refine h.step h0 hb (by simp [hu]) (by simp [State.waiting, hu]) (by simp) ?_ ?_
    · intro _
      refine ⟨by simp, fun _ => ⟨rfl, ?_⟩⟩
      intro v hv hvu hvb
      exact (over2 v hv hvb (hvu.trans hu)).mono (by omega)
    · intro _ v hv hvu
      simp only [State.seqStep, hvu, hu, Micro.run]
      have := (hv.take).goto [.rdDrBuf (n + 1)]
      rw [hpv] at this
      exact (rx1 _ this rfl rfl).mono (by omega)
  · exact (over2 s h hb hu).mono (by omega)

theorem Rx.btf (h : Rx s0 p w vs hs cs ys a k ps st s) : Cond.btf.holds s.bus = decide (hs.length = 2) := by
  simp only [Cond.holds, Bif.btf, h.recv.dir, if_true]
  rw [Bif.shFull_of_held h.ord, Bif.drFull_of_held, h.held]
  by_cases e : hs.length = 2 <;> simp [e]

theorem Over.btf (h : Over s0 p w vs hs ys s) : Cond.btf.holds s.bus = decide (hs.length = 2) := by
  simp only [Cond.holds, Bif.btf, h.ended.dir, if_true]
  rw [Bif.shFull_of_held h.ord, Bif.drFull_of_held, h.held]
  by_cases e : hs.length = 2 <;> simp [e]

theorem Rx.rxne (h : Rx s0 p w vs hs cs ys a k ps st s) : Cond.rxne.holds s.bus = decide (0 < hs.length) := by
  simp only [Cond.holds, Bif.rxne, h.recv.dir]
  rw [Bif.drFull_of_held, h.held]
  rfl

theorem Over.rxne (h : Over s0 p w vs hs ys s) : Cond.rxne.holds s.bus = decide (0 < hs.length) := by
  simp only [Cond.holds, Bif.rxne, h.ended.dir]
  rw [Bif.drFull_of_held, h.held]
  rfl

/-- The tail from the second `wait(BTF)` on. -/
theorem reaches_secondBtf (h0 : CanRead s0) {x y : Byte} (hpv : p + vs.length = n) (hb : s.busy = true)
    (hu : s.upc = [.wait .btf, .rdDrBuf n, .rdDrBuf (n + 1)])
    (h : Rx s0 p w vs [x] [y] ys false false ps true s ∨ Rx s0 p w vs [x, y] [] ys false false ps true s) :
    Reaches (Received s0 p w (vs ++ [x, y]) ys) 7 s := by
  have fin : ∀ u, Over s0 p (endedWire w (vs ++ [x, y])) vs [x, y] ys u → u.busy = true → u.upc = s.upc →
      Reaches (Received s0 p w (vs ++ [x, y]) ys) 5 u := by
    intro u h hb huu
    refine h.step h0 hb (by simp [huu, hu]) (by simp [State.waiting, huu, hu, h.btf]) ?_
    intro v hv hvu
    simp only [State.seqStep, hvu, huu, hu, Micro.run]
    exact reaches_lastTwo (k := false) (ps := false) h0 hpv rfl rfl (.inr (hv.goto _))
  have rx : ∀ u, Rx s0 p w vs [x, y] [] ys false false ps true u → u.busy = true → u.upc = s.upc →
      Reaches (Received s0 p w (vs ++ [x, y]) ys) 6 u := by
    intro u h hb huu
    refine h.step h0 hb (by simp [huu, hu]) (by simp [State.waiting, huu, hu, h.btf]) (by simp) ?_ ?_
    · intro _
      exact ⟨by simp, fun _ => ⟨rfl, fun v hv hvu hvb => fin v hv hvb (hvu.trans huu)⟩⟩
    · intro _ v hv hvu
      simp only [State.seqStep, hvu, huu, hu, Micro.run]
      exact (reaches_lastTwo h0 hpv rfl rfl (.inl (hv.goto _))).mono (by omega)
  rcases h with h | h
  · refine h.step h0 hb (by simp [hu]) ?_ ?_ ?_ ?_
    · intro _; simp
    · rintro x' c hc -
      cases hc
      exact ⟨rfl, fun v hv hvu hvb => rx v hv hvb hvu⟩
    · intro _; simp
    · intro hw
      simp [State.waiting, hu, h.btf] at hw
  · exact (rx s h hb rfl).mono (by omega)

/-- The three-byte tail from the first `wait(BTF)` on, `POS` = 0 (R242). -/
theorem reaches_tail (h0 : CanRead s0) {z x y : Byte} (hpv : p + vs.length = n) (hb : s.busy = true)
    (hu : s.upc = [.wait .btf, .clr .ack, .rdDrBuf n, .set .stop, .wait .btf, .rdDrBuf (n + 1), .rdDrBuf (n + 2)])
    (h : Rx s0 p w vs hs cs ys true true false false s) (hcs : cs ≠ []) (hall : hs ++ cs = [z, x, y]) :
    Reaches (Received s0 p w (vs ++ [z, x, y]) ys) 14 s := by
  have e : vs ++ [z, x, y] = (vs ++ [z]) ++ [x, y] := by simp
  have len : p + (vs ++ [z]).length = n + 1 := by simp; omega
  -- the stop requested
  have stop : ∀ u, (Rx s0 p w (vs ++ [z]) [x] [y] ys false false false false u ∨
        Rx s0 p w (vs ++ [z]) [x, y] [] ys false false false false u) → u.busy = true →
      u.upc = [.set .stop, .wait .btf, .rdDrBuf (n + 1), .rdDrBuf (n + 2)] →
      Reaches (Received s0 p w (vs ++ [z, x, y]) ys) 9 u := by
    have stop2 : ∀ u, Rx s0 p w (vs ++ [z]) [x, y] [] ys false false false false u → u.busy = true →
        u.upc = [.set .stop, .wait .btf, .rdDrBuf (n + 1), .rdDrBuf (n + 2)] →
        Reaches (Received s0 p w (vs ++ [z, x, y]) ys) 8 u := by
      intro u h hb hu
      refine h.step h0 hb (by simp [hu]) (by simp [State.waiting, hu]) (by simp) (by simp) ?_
      intro _ v hv hvu
      simp only [State.seqStep, hvu, hu, Micro.run]
      rw [e]
      exact reaches_secondBtf h0 len rfl rfl (.inr (hv.setStop.goto _))
    rintro u (h | h) hb hu
    · refine h.step h0 hb (by simp [hu]) (by simp [State.waiting, hu]) ?_ (by simp) ?_
      · rintro x' c hc -
        cases hc
        exact ⟨rfl, fun v hv hvu hvb => stop2 v hv hvb (hvu.trans hu)⟩
      · intro _ v hv hvu
        simp only [State.seqStep, hvu, hu, Micro.run]
        rw [e]
        exact (reaches_secondBtf h0 len rfl rfl (.inl (hv.setStop.goto _))).mono (by omega)
    · exact (stop2 u h hb hu).mono (by omega)
  -- the third-last byte read
  have third : ∀ u, Rx s0 p w vs [z, x] [y] ys false false false false u → u.busy = true →
      u.upc = [.rdDrBuf n, .set .stop, .wait .btf, .rdDrBuf (n + 1), .rdDrBuf (n + 2)] →
      Reaches (Received s0 p w (vs ++ [z, x, y]) ys) 10 u := by
    intro u h hb hu
    refine h.step h0 hb (by simp [hu]) (by simp [State.waiting, hu]) (by simp) (by simp) ?_
    intro _ v hv hvu
    simp only [State.seqStep, hvu, hu, Micro.run]
    have := (hv.take).goto [.set .stop, .wait .btf, .rdDrBuf (n + 1), .rdDrBuf (n + 2)]
    rw [hpv] at this
    exact stop _ (.inl this) rfl rfl
  -- `ACK` cleared
  have ack : ∀ u, Rx s0 p w vs [z, x] [y] ys true true false false u → u.busy = true →
      u.upc = [.clr .ack, .rdDrBuf n, .set .stop, .wait .btf, .rdDrBuf (n + 1), .rdDrBuf (n + 2)] →
      Reaches (Received s0 p w (vs ++ [z, x, y]) ys) 11 u := by
    intro u h hb hu
    refine h.step h0 hb (by simp [hu]) (by simp [State.waiting, hu]) (by simp) (by simp) ?_
    intro _ v hv hvu
    simp only [State.seqStep, hvu, hu, Micro.run]
    exact third _ ((hv.setAck false).goto _) rfl rfl
  -- the wait, with all three still to come at most
  have wait : ∀ (m : Nat) (u : State) (hs cs : List Byte), hs ++ cs = [z, x, y] → cs.length = m + 1 →
      Rx s0 p w vs hs cs ys true true false false u → u.busy = true → u.upc = s.upc →
      Reaches (Received s0 p w (vs ++ [z, x, y]) ys) (12 + m) u := by
    intro m
    induction m with
    | zero =>
      intro u hs cs hall hlen h hb huu
      have l := congrArg List.length hall
      simp only [List.length_append, hlen, List.length_cons, List.length_nil] at l
      have l2 : hs.length = 2 := by omega
      obtain ⟨hz, ho⟩ := List.append_inj (t₁ := cs) (t₂ := [y]) (s₂ := [z, x]) hall l2
      subst hz ho
      refine h.step h0 hb (by simp [huu, hu]) (by simp [State.waiting, huu, hu, h.btf]) (by simp) (by simp) ?_
      intro _ v hv hvu
      simp only [State.seqStep, hvu, huu, hu, Micro.run]
      exact ack _ (hv.goto _) rfl rfl
    | succ m ih =>
      intro u hs cs hall hlen h hb huu
      have l := congrArg List.length hall
      simp only [List.length_append, hlen, List.length_cons, List.length_nil] at l
      refine h.step h0 hb (by simp [huu, hu]) ?_ ?_ (by simp) ?_
      · intro _
        left
        refine ⟨?_, by omega⟩
        rintro rfl; simp at hlen
      · rintro x' c hc -
        subst hc
        simp only [List.length_cons] at hlen
        refine ⟨by cases c with
          | nil => simp at hlen
          | cons => rfl, ?_⟩
        intro v hv hvu hvb
        exact ih v _ c (by rw [← hall]; simp) (by omega) hv hvb (hvu.trans huu)
      · intro hw
        have : hs.length ≠ 2 := by omega
        simp [State.waiting, huu, hu, h.btf, this] at hw
  have l := congrArg List.length hall
  simp only [List.length_append, List.length_cons, List.length_nil] at l
  have l1 : 0 < cs.length := List.length_pos_of_ne_nil hcs
  exact (wait (cs.length - 1) s hs cs hall (by omega) h hb rfl).mono (by omega)

/-- What follows the polls of a long initiator read. -/
def tailCode (n : Nat) : List Micro :=
  [.wait .btf, .clr .ack, .rdDrBuf n, .set .stop, .wait .btf, .rdDrBuf (n + 1), .rdDrBuf (n + 2)]

/-- The polled part, with `es` still to come behind it; `tail` says what the tail leads to (R242). -/
theorem reaches_polled (h0 : CanRead s0) {es : List Byte} (hes : 3 ≤ es.length) {m : Nat} {all : List Byte}
    (tail : ∀ (n : Nat) (s : State) (vs hs cs : List Byte), vs = all → hs ++ cs = es → cs ≠ [] → p + vs.length = n →
      s.busy = true → s.upc = tailCode n → Rx s0 p w vs hs cs ys true true ps false s → Reaches Q m s)
    (bs : List Byte) :
    ∀ (n : Nat) (s : State) (vs hs cs : List Byte), vs ++ bs = all → hs ++ cs = bs ++ es → cs ≠ [] →
      p + vs.length = n → s.busy = true → s.upc = polledReads n bs.length ++ tailCode (n + bs.length) →
      Rx s0 p w vs hs cs ys true true ps false s → Reaches Q (2 * bs.length + cs.length + m) s := by
  induction bs with
  | nil =>
    intro n s vs hs cs hvs hall hcs hpv hb hu h
    exact (tail n s vs hs cs (by simpa using hvs) hall hcs hpv hb (by simpa [polledReads] using hu) h).mono
      (by simp)
  | cons b bs ih =>
    -- at the read, with the next byte held
    have take : ∀ (k : Nat) (n : Nat) (u : State) (vs hs cs : List Byte), vs ++ b :: bs = all → cs.length = k →
        b :: hs ++ cs = b :: bs ++ es → p + vs.length = n → u.busy = true →
        u.upc = .rdDrBuf n :: polledReads (n + 1) bs.length ++ tailCode (n + 1 + bs.length) →
        Rx s0 p w vs (b :: hs) cs ys true true ps false u →
        Reaches Q (2 * bs.length + 1 + cs.length + m) u := by
      intro k
      induction k with
      | zero =>
        intro n u vs hs cs hvs hk hall hpv hb hu h
        have l := congrArg List.length hall
        have := h.reads
        have l2 : (b :: hs).length ≤ 2 := by rw [← h.held]; exact u.bus.held_length
        simp at l l2
        omega
      | succ k ihk =>
        intro n u vs hs cs hvs hk hall hpv hb hu h
        have hall' : hs ++ cs = bs ++ es := by simpa using hall
        have hcs : cs ≠ [] := by rintro rfl; simp at hk
        have cost : 2 * bs.length + 1 + cs.length + m = (2 * bs.length + cs.length + m) + 1 := by omega
        rw [cost]
        refine h.step h0 hb (by simp [hu]) (by simp [State.waiting, hu]) ?_ (by simp) ?_
        · rintro x' c rfl hl
          have l := congrArg List.length hall'
          simp only [List.length_append, List.length_cons, List.length_nil] at l hk hl
          have hc : c ≠ [] := by rintro rfl; simp at hk l; omega
          refine ⟨by cases c with
            | nil => exact absurd rfl hc
            | cons => rfl, ?_⟩
          intro v hv hvu hvb
          have r := ihk n v vs (hs ++ [x']) c hvs (by omega) (by rw [← hall]; simp) hpv hvb (hvu.trans hu) hv
          exact r.mono (by simp only [List.length_cons]; omega)
        · intro _ v hv hvu
          simp only [List.cons_append] at hu
          simp only [State.seqStep, hvu, hu, Micro.run]
          have ht := (hv.take).goto (polledReads (n + 1) bs.length ++ tailCode (n + 1 + bs.length))
          rw [hpv] at ht
          have hb' : ((v.bufWrite n v.bus.dr).withBif v.bus.rdDr |>.goto
              (polledReads (n + 1) bs.length ++ tailCode (n + 1 + bs.length))).busy = true := by
            cases bs <;> rfl
          exact ih (n + 1) _ (vs ++ [b]) hs cs (by simpa using hvs) hall' hcs (by simp; omega) hb' rfl ht
    -- at the poll
    intro n s vs hs cs hvs hall hcs hpv hb hu
    have hu' : s.upc = .wait .rxne :: .rdDrBuf n :: (polledReads (n + 1) bs.length ++ tailCode (n + 1 + bs.length)) := by
      rw [hu]
      simp only [List.length_cons, polledReads, List.cons_append]
      congr 4
      omega
    have poll : ∀ (k : Nat) (u : State) (hs cs : List Byte), cs.length = k → hs ++ cs = b :: bs ++ es →
        u.busy = true → u.upc = s.upc → Rx s0 p w vs hs cs ys true true ps false u →
        Reaches Q (2 * bs.length + 2 + cs.length + m) u := by
      intro k
      induction k with
      | zero =>
        intro u hs cs hk hall hb huu h
        have l := congrArg List.length hall
        have l2 : hs.length ≤ 2 := by rw [← h.held]; exact u.bus.held_length
        simp at l
        omega
      | succ k ihk =>
        intro u hs cs hk hall hb huu h
        have cost : 2 * bs.length + 2 + cs.length + m = (2 * bs.length + 1 + cs.length + m) + 1 := by omega
        rw [cost]
        refine h.step h0 hb (by simp [huu, hu']) ?_ ?_ (by simp) ?_
        · intro hw
          left
          refine ⟨by rintro rfl; simp at hk, ?_⟩
          cases hs with
          | nil => simp
          | cons q hs => simp [State.waiting, huu, hu', h.rxne] at hw
        · rintro x' c rfl hl
          have l := congrArg List.length hall
          simp only [List.length_append, List.length_cons, List.length_nil] at l hk hl
          have hc : c ≠ [] := by rintro rfl; simp at hk l; omega
          refine ⟨by cases c with
            | nil => exact absurd rfl hc
            | cons => rfl, ?_⟩
          intro v hv hvu hvb
          have r := ihk v (hs ++ [x']) c (by omega) (by rw [← hall]; simp) hvb (hvu.trans huu) hv
          exact r.mono (by simp only [List.length_cons]; omega)
        · intro hw v hv hvu
          cases hs with
          | nil => simp [State.waiting, huu, hu', h.rxne] at hw
          | cons b' hs =>
            have hb' : b' = b := by
              simp only [List.cons_append, List.cons.injEq] at hall
              exact hall.1
            subst hb'
            simp only [State.seqStep, hvu, huu, hu', Micro.run]
            exact take cs.length n _ vs hs cs hvs rfl hall hpv rfl rfl (hv.goto _)
    intro h
    exact (poll cs.length s hs cs rfl hall hb rfl h).mono (by simp only [List.length_cons]; omega)

/-- RDBURST, initiator, more than two bytes, from its first micro-operation to the tail (R242): `bs` are the bytes read
by polling, `es` those the peer has for the tail and after it. -/
theorem reaches_burstTail (h0 : CanRead s0) {es bs : List Byte} (hes : 3 ≤ es.length) {m : Nat} (hs0 : Reads s0 p [] s)
    (hb : s.bus.addressed .rx) (hpos : s.bus.pos = ps) (hnext : s.peer.data.next = bs ++ es ++ ys)
    (hbusy : s.busy = true) (hu : s.upc = burstReadMany p (bs.length + 3))
    (tail : ∀ (n : Nat) (u : State) (vs hs cs : List Byte), vs = bs → hs ++ cs = es → cs ≠ [] → p + vs.length = n →
      u.busy = true → u.upc = tailCode n → Rx s0 p s.wire vs hs cs ys true true ps false u → Reaches Q m u) :
    Reaches Q (3 * bs.length + es.length + m + 2) s := by
  have hu' : s.upc = .set .ack :: .rdSr2 :: (polledReads p bs.length ++ tailCode (p + bs.length)) := by
    rw [hu]
    simp [burstReadMany, tailCode, Nat.add_assoc]
  have hline := Bif.addressed_lineOn hb
  refine h0.step (n := 3 * bs.length + es.length + m + 1) hs0 (.inl hb.2.2.2.2.2.1) hbusy (by simp [hu']) (by simp [State.waiting, hu']) ?_ ?_
  swap
  · intro hl; rw [hline] at hl; cases hl
  intro _ q d
  simp only [State.seqStep, State.reschedule_upc, hu', Micro.run]
  have hr : Reads s0 p [] ((s.reschedule q d).withBif ((s.reschedule q d).bus.setBit .ack true)) :=
    (hs0.reschedule q d).withBif rfl
  generalize hg : ((s.reschedule q d).withBif ((s.reschedule q d).bus.setBit .ack true)).goto
    (.rdSr2 :: (polledReads p bs.length ++ tailCode (p + bs.length))) = u
  have gr : Reads s0 p [] u := by rw [← hg]; exact hr.goto _
  have gb : u.bus.addressed .rx := by rw [← hg]; exact hb
  have gu : u.upc = .rdSr2 :: (polledReads p bs.length ++ tailCode (p + bs.length)) := by rw [← hg]; rfl
  have gbusy : u.busy = true := by rw [← hg]; rfl
  have gack : u.bus.ack = true := by rw [← hg]; rfl
  have gpos : u.bus.pos = ps := by rw [← hg]; exact hpos
  have gnext : u.peer.data.next = bs ++ es ++ ys := by rw [← hg]; exact hnext
  have gw : u.wire = s.wire := by rw [← hg]; rfl
  refine (h0.step (n := 3 * bs.length + es.length + m) gr (.inl gb.2.2.2.2.2.1) gbusy (by simp [gu]) (by simp [State.waiting, gu]) ?_ ?_)
  swap
  · intro hl; rw [Bif.addressed_lineOn gb] at hl; cases hl
  intro _ q d
  simp only [State.seqStep, State.reschedule_upc, gu, Micro.run]
  have ho := Rx.open (gr.reschedule q d) gb (cs := bs ++ es) gnext (by rintro e; simp [(List.append_eq_nil_iff.1 e).2] at hes) gw gack gpos
  have hbz : (((u.reschedule q d).withBif (u.reschedule q d).bus.rdSr2).goto
      (polledReads p bs.length ++ tailCode (p + bs.length))).busy = true := by cases bs <;> rfl
  have := reaches_polled h0 hes tail bs p _ [] [] (bs ++ es) rfl rfl
    (by rintro e; simp [(List.append_eq_nil_iff.1 e).2] at hes) rfl hbz rfl (ho.goto _)
  exact this.mono (by simp; omega)

/-- The read of more than two bytes with `POS` = 0 (R242, R245). -/
theorem reaches_burstMany (h0 : CanRead s0) {z x y : Byte} {bs : List Byte} (hs0 : Reads s0 p [] s)
    (hb : s.bus.addressed .rx) (hpos : s.bus.pos = false) (hnext : s.peer.data.next = bs ++ [z, x, y] ++ ys)
    (hbusy : s.busy = true) (hu : s.upc = burstReadMany p (bs.length + 3)) :
    Reaches (Received s0 p s.wire (bs ++ [z, x, y]) ys) (3 * bs.length + 19) s := by
  refine (reaches_burstTail (es := [z, x, y]) (m := 14) h0 (by simp) hs0 hb hpos hnext hbusy hu ?_).mono (by simp)
  rintro n u vs hs cs rfl hall hcs hpv hub huu h
  exact reaches_tail h0 hpv hub huu h hcs hall

/-! ### The same with `POS` = 1 (R247, R446) -/

/-- A reception of `vs` to BUF is complete with `POS` = 1: the stop went out behind them, or the peer is asked for one
byte more, which is refused and dropped, and the stop comes behind that. -/
structure ReceivedLate (s0 : State) (p : Nat) (w : List Token) (vs : List Byte) (e : Byte) (t : State) : Prop where
  reads : Reads s0 p vs t
  upc : t.upc = []
  busy : t.busy = false
  ack : t.bus.ack = false
  wire : t.wire = w ++ vs.map (Token.byte · true) ++ [Token.stop] ∨
    ∃ k ≤ 2, t.wire = w ++ vs.map (Token.byte · true) ++ [Token.byte e false, Token.stop].take k

/-- The last read while the byte too many may come in. -/
theorem reaches_lateOne (h0 : CanRead s0) {y e : Byte} (hpv : p + vs.length = n) (hb : s.busy = true)
    (hu : s.upc = [.rdDrBuf n]) (h : Rx s0 p w vs [y] [e] ys false false true true s) :
    Reaches (ReceivedLate s0 p w (vs ++ [y]) e) 3 s := by
  have late : ∀ u, Rx s0 p w vs [y, e] [] ys false false true true u → u.busy = true → u.upc = [.rdDrBuf n] →
      Reaches (ReceivedLate s0 p w (vs ++ [y]) e) 2 u := by
    intro u h hb hu
    refine h.step h0 hb (by simp [hu]) (by simp [State.waiting, hu]) (by simp) ?_ ?_
    · refine fun _ => ⟨by simp, fun _ => ⟨rfl, fun v hv hvu hvb => ?_⟩⟩
      refine (hv.readOne h0 hpv hvb (hvu.trans hu)).imp ?_
      rintro t ⟨ht, h1, h2⟩
      exact ⟨ht.reads, h1, h2, ht.ack, .inr ⟨2, by omega, by simp [ht.wire, receivedTokens]⟩⟩
    · intro _ v hv hvu
      simp only [State.seqStep, hvu, hu, Micro.run]
      have ht := (hv.take).goto []
      rw [hpv] at ht
      exact .here ⟨ht.reads, rfl, rfl, ht.ack, .inr ⟨1, by omega, by simp [hv.wire, soFar, receivedTokens]⟩⟩
  refine h.step h0 hb (by simp [hu]) (by simp [State.waiting, hu]) ?_ (by simp) ?_
  · rintro x' c hc -
    cases hc
    exact ⟨rfl, fun v hv hvu hvb => late v hv hvb (hvu.trans hu)⟩
  · intro _ v hv hvu
    simp only [State.seqStep, hvu, hu, Micro.run]
    have ht := (hv.take).goto []
    rw [hpv] at ht
    exact .here ⟨ht.reads, rfl, rfl, ht.ack, .inr ⟨0, by omega, by simp [hv.wire, soFar]⟩⟩

/-- With both registers full and the stop requested, the stop can go out before the sequencer makes room; `next` is what
the sequencer's move leads to, `cut` what the stop leads to. -/
theorem Rx.cut (h0 : CanRead s0) (h : Rx s0 p w vs hs cs ys false k ps true s) (hl : hs.length = 2) (hb : s.busy = true)
    (hu : s.upc ≠ []) (hw : s.waiting = false)
    (next : ∀ u, Rx s0 p w vs hs cs ys false k ps true u → u.upc = s.upc → Reaches Q n u.seqStep)
    (cut : ∀ u, Over s0 p (w ++ soFar (vs ++ hs) cs.isEmpty ++ [Token.stop]) vs hs (cs ++ ys) u → u.upc = s.upc →
      u.busy = true → Reaches Q n u) : Reaches Q (n + 1) s := by
  refine h0.step h.reads (.inl h.recv.role) hb hu ?_ ?_ ?_
  · intro h'; rw [hw] at h'; cases h'
  · exact fun _ q d => next _ (h.reschedule q d) rfl
  · intro _ q d
    obtain ⟨g1, g2, g3⟩ := (h.reschedule q d).over (.inr hl)
    exact cut _ g1 g2 (g3.trans hb)

/-- From the second wait on. -/
theorem reaches_lateTwo (h0 : CanRead s0) {x y e : Byte} (hpv : p + vs.length = n) (hb : s.busy = true)
    (hu : s.upc = [.wait .btf, .rdDrBuf n, .rdDrBuf (n + 1)])
    (h : Rx s0 p w vs [x] [y, e] ys false true true true s ∨ Rx s0 p w vs [x, y] [e] ys false false true true s) :
    Reaches (ReceivedLate s0 p w (vs ++ [x, y]) e) 6 s := by
  have eq : vs ++ [x, y] = (vs ++ [x]) ++ [y] := by simp
  have early : ∀ u, Over s0 p (w ++ soFar (vs ++ [x, y]) false ++ [Token.stop]) vs [x, y] ([e] ++ ys) u →
      u.busy = true → u.upc = [.rdDrBuf n, .rdDrBuf (n + 1)] → Reaches (ReceivedLate s0 p w (vs ++ [x, y]) e) 2 u := by
    intro u h hb hu
    refine (h.readTwo h0 hpv hb hu).imp ?_
    rintro t ⟨ht, h1, h2⟩
    exact ⟨ht.reads, h1, h2, ht.ack, .inl (by simp [ht.wire, soFar])⟩
  have full : ∀ u, Rx s0 p w vs [x, y] [e] ys false false true true u → u.busy = true → u.upc = s.upc →
      Reaches (ReceivedLate s0 p w (vs ++ [x, y]) e) 5 u := by
    intro u h hb huu
    refine h.cut h0 rfl hb (by simp [huu, hu]) (by simp [State.waiting, huu, hu, h.btf]) ?_ ?_
    · intro v hv hvu
      simp only [State.seqStep, hvu, huu, hu, Micro.run]
      refine (hv.goto [.rdDrBuf n, .rdDrBuf (n + 1)]).cut (n := 3) h0 rfl rfl (by simp) (by simp [State.waiting]) ?_ ?_
      · intro z hz hzu
        simp only [State.seqStep, hzu, State.goto_upc, Micro.run]
        have ht := (hz.take).goto [.rdDrBuf (n + 1)]
        rw [hpv] at ht
        rw [eq]
        exact reaches_lateOne h0 (by simp; omega) rfl rfl ht
      · exact fun z hz hzu hzb => (early z hz hzb hzu).mono (by omega)
    · intro v hv hvu hvb
      refine (hv.step h0 (n := 2) hvb (by simp [hvu, huu, hu]) (by simp [State.waiting, hvu, huu, hu, hv.btf]) ?_).mono
        (by omega)
      intro z hz hzu
      simp only [State.seqStep, hzu, hvu, huu, hu, Micro.run]
      exact early _ (hz.goto _) rfl rfl
  rcases h with h | h
  · refine h.step h0 hb (by simp [hu]) (by simp) ?_ (by simp) ?_
    · rintro x' c hc -
      cases hc
      exact ⟨rfl, fun v hv hvu hvb => full v hv hvb hvu⟩
    · intro hw
      simp [State.waiting, hu, h.btf] at hw
  · exact (full s h hb rfl).mono (by omega)

/-- The three-byte tail with `POS` = 1 (R446). -/
theorem reaches_lateTail (h0 : CanRead s0) {z x y e : Byte} (hpv : p + vs.length = n) (hb : s.busy = true)
    (hu : s.upc = tailCode n) (h : Rx s0 p w vs hs cs ys true true true false s)
    (hall : hs ++ cs = [z, x, y, e]) : Reaches (ReceivedLate s0 p w (vs ++ [z, x, y]) e) 14 s := by
  have eq : vs ++ [z, x, y] = (vs ++ [z]) ++ [x, y] := by simp
  have len : p + (vs ++ [z]).length = n + 1 := by simp; omega
  have hu : s.upc = [.wait .btf, .clr .ack, .rdDrBuf n, .set .stop, .wait .btf, .rdDrBuf (n + 1), .rdDrBuf (n + 2)] := hu
  -- the stop requested
  have stop : ∀ u, (Rx s0 p w (vs ++ [z]) [x] [y, e] ys false true true false u ∨
        Rx s0 p w (vs ++ [z]) [x, y] [e] ys false false true false u) → u.busy = true →
      u.upc = [.set .stop, .wait .btf, .rdDrBuf (n + 1), .rdDrBuf (n + 2)] →
      Reaches (ReceivedLate s0 p w (vs ++ [z, x, y]) e) 8 u := by
    have stop2 : ∀ u, Rx s0 p w (vs ++ [z]) [x, y] [e] ys false false true false u → u.busy = true →
        u.upc = [.set .stop, .wait .btf, .rdDrBuf (n + 1), .rdDrBuf (n + 2)] →
        Reaches (ReceivedLate s0 p w (vs ++ [z, x, y]) e) 7 u := by
      intro u h hb hu
      refine h.step h0 hb (by simp [hu]) (by simp [State.waiting, hu]) (by simp) (by simp) ?_
      intro _ v hv hvu
      simp only [State.seqStep, hvu, hu, Micro.run]
      rw [eq]
      exact reaches_lateTwo h0 len rfl rfl (.inr (hv.setStop.goto _))
    rintro u (h | h) hb hu
    · refine h.step h0 hb (by simp [hu]) (by simp [State.waiting, hu]) ?_ (by simp) ?_
      · rintro x' c hc -
        cases hc
        exact ⟨rfl, fun v hv hvu hvb => stop2 v hv hvb (hvu.trans hu)⟩
      · intro _ v hv hvu
        simp only [State.seqStep, hvu, hu, Micro.run]
        rw [eq]
        exact (reaches_lateTwo h0 len rfl rfl (.inl (hv.setStop.goto _))).mono (by omega)
    · exact (stop2 u h hb hu).mono (by omega)
  -- `ACK` cleared and the third-last byte read
  have third : ∀ u, Rx s0 p w vs [z, x] [y, e] ys false true true false u → u.busy = true →
      u.upc = [.rdDrBuf n, .set .stop, .wait .btf, .rdDrBuf (n + 1), .rdDrBuf (n + 2)] →
      Reaches (ReceivedLate s0 p w (vs ++ [z, x, y]) e) 9 u := by
    intro u h hb hu
    refine h.step h0 hb (by simp [hu]) (by simp [State.waiting, hu]) (by simp) (by simp) ?_
    intro _ v hv hvu
    simp only [State.seqStep, hvu, hu, Micro.run]
    have := (hv.take).goto [.set .stop, .wait .btf, .rdDrBuf (n + 1), .rdDrBuf (n + 2)]
    rw [hpv] at this
    exact stop _ (.inl this) rfl rfl
  have ack : ∀ u, Rx s0 p w vs [z, x] [y, e] ys true true true false u → u.busy = true →
      u.upc = [.clr .ack, .rdDrBuf n, .set .stop, .wait .btf, .rdDrBuf (n + 1), .rdDrBuf (n + 2)] →
      Reaches (ReceivedLate s0 p w (vs ++ [z, x, y]) e) 10 u := by
    intro u h hb hu
    refine h.step h0 hb (by simp [hu]) (by simp [State.waiting, hu]) (by simp) (by simp) ?_
    intro _ v hv hvu
    simp only [State.seqStep, hvu, hu, Micro.run]
    exact third _ ((hv.setAckPos false).goto _) rfl rfl
  -- the wait, with all four still to come at most
  have wait : ∀ (m : Nat) (u : State) (hs cs : List Byte), hs ++ cs = [z, x, y, e] → cs.length = m + 2 →
      Rx s0 p w vs hs cs ys true true true false u → u.busy = true → u.upc = s.upc →
      Reaches (ReceivedLate s0 p w (vs ++ [z, x, y]) e) (11 + m) u := by
    intro m
    induction m with
    | zero =>
      intro u hs cs hall hlen h hb huu
      have l := congrArg List.length hall
      simp only [List.length_append, hlen, List.length_cons, List.length_nil] at l
      have l2 : hs.length = 2 := by omega
      obtain ⟨hz, ho⟩ := List.append_inj (t₁ := cs) (t₂ := [y, e]) (s₂ := [z, x]) hall l2
      subst hz ho
      refine h.step h0 hb (by simp [huu, hu]) (by simp [State.waiting, huu, hu, h.btf]) (by simp) (by simp) ?_
      intro _ v hv hvu
      simp only [State.seqStep, hvu, huu, hu, Micro.run]
      exact ack _ (hv.goto _) rfl rfl
    | succ m ih =>
      intro u hs cs hall hlen h hb huu
      have l := congrArg List.length hall
      simp only [List.length_append, hlen, List.length_cons, List.length_nil] at l
      refine h.step h0 hb (by simp [huu, hu]) ?_ ?_ (by simp) ?_
      · intro _
        left
        refine ⟨?_, by omega⟩
        rintro rfl; simp at hlen
      · rintro x' c hc -
        subst hc
        simp only [List.length_cons] at hlen
        refine ⟨by cases c with
          | nil => simp at hlen
          | cons => rfl, ?_⟩
        intro v hv hvu hvb
        exact ih v _ c (by rw [← hall]; simp) (by omega) hv hvb (hvu.trans huu)
      · intro hw
        have : hs.length ≠ 2 := by omega
        simp [State.waiting, huu, hu, h.btf, this] at hw
  have l := congrArg List.length hall
  simp only [List.length_append, List.length_cons, List.length_nil] at l
  have l1 : hs.length ≤ 2 := by rw [← h.held]; exact s.bus.held_length
  exact (wait (cs.length - 2) s hs cs hall (by omega) h hb rfl).mono (by omega)

/-- The read of more than two bytes with `POS` = 1 and a peer that has a byte more to give (R247, R446). -/
theorem reaches_burstLate (h0 : CanRead s0) {z x y e : Byte} {bs : List Byte} (hs0 : Reads s0 p [] s)
    (hb : s.bus.addressed .rx) (hpos : s.bus.pos = true) (hnext : s.peer.data.next = bs ++ [z, x, y, e] ++ ys)
    (hbusy : s.busy = true) (hu : s.upc = burstReadMany p (bs.length + 3)) :
    Reaches (ReceivedLate s0 p s.wire (bs ++ [z, x, y]) e) (3 * bs.length + 20) s := by
  refine (reaches_burstTail (es := [z, x, y, e]) (m := 14) h0 (by simp) hs0 hb hpos hnext hbusy hu ?_).mono (by simp)
  rintro n u vs hs cs rfl hall - hpv hub huu h
  exact reaches_lateTail h0 hpv hub huu h hall

/-! ### RDBURST, initiator, two bytes (R241) -/

/-- From the wait on. -/
theorem reaches_btfTwo (h0 : CanRead s0) {x y : Byte} (hb : s.busy = true)
    (hu : s.upc = [.wait .btf, .set .stop, .rdDrBuf p, .rdDrBuf (p + 1)])
    (h : Rx s0 p w [] [] [x, y] ys false true true false s) : Reaches (Received s0 p w [x, y] ys) 8 s := by
  have stop : ∀ u, Rx s0 p w [] [x, y] [] ys false false true false u → u.busy = true →
      u.upc = [.set .stop, .rdDrBuf p, .rdDrBuf (p + 1)] → Reaches (Received s0 p w [x, y] ys) 5 u := by
    intro u h hb hu
    refine h.step h0 hb (by simp [hu]) (by simp [State.waiting, hu]) (by simp) (by simp) ?_
    intro _ v hv hvu
    simp only [State.seqStep, hvu, hu, Micro.run]
    exact reaches_lastTwo (vs := []) h0 rfl rfl rfl (.inl (hv.setStop.goto _))
  have two : ∀ u, Rx s0 p w [] [x, y] [] ys false false true false u → u.busy = true → u.upc = s.upc →
      Reaches (Received s0 p w [x, y] ys) 6 u := by
    intro u h hb huu
    refine h.step h0 hb (by simp [huu, hu]) (by simp [State.waiting, huu, hu, h.btf]) (by simp) (by simp) ?_
    intro _ v hv hvu
    simp only [State.seqStep, hvu, huu, hu, Micro.run]
    exact stop _ (hv.goto _) rfl rfl
  have one : ∀ u, Rx s0 p w [] [x] [y] ys false false true false u → u.busy = true → u.upc = s.upc →
      Reaches (Received s0 p w [x, y] ys) 7 u := by
    intro u h hb huu
    refine h.step h0 hb (by simp [huu, hu]) (by simp) ?_ (by simp) ?_
    · rintro x' c hc -
      cases hc
      exact ⟨rfl, fun v hv hvu hvb => two v hv hvb (hvu.trans huu)⟩
    · intro hw
      simp [State.waiting, huu, hu, h.btf] at hw
  refine h.step h0 hb (by simp [hu]) (by simp) ?_ (by simp) ?_
  · rintro x' c hc -
    cases hc
    exact ⟨rfl, fun v hv hvu hvb => one v hv hvb hvu⟩
  · intro hw
    simp [State.waiting, hu, h.btf] at hw

/-- RDBURST, initiator, two bytes, from its first micro-operation, under `run_to_wait` (R241). -/
theorem reaches_burstTwo (h0 : CanRead s0) (hr : s0.params.sched = .runToWait) {x y : Byte} (hs0 : Reads s0 p [] s)
    (hb : s.bus.addressed .rx) (hnext : s.peer.data.next = x :: y :: ys) (hbusy : s.busy = true)
    (hu : s.upc = burstRead2 p) : Reaches (Received s0 p s.wire [x, y] ys) 12 s := by
  obtain ⟨f1, f2, -, -⟩ := hs0.fields
  have hf : s.faulted = none := f1.trans h0.faulted
  have hs : s.params.sched = .runToWait := by rw [f2]; exact hr
  refine Reaches.seq hbusy hf hu (by simp) hs ?_
  rw [State.seqStep_eq hu]
  change Reaches _ _ ((s.withBif (s.bus.setBit .pos true)).goto
    [.set .ack, .rdSr2, .clr .ack, .wait .btf, .set .stop, .rdDrBuf p, .rdDrBuf (p + 1)])
  refine Reaches.seq (m := .set .ack) rfl hf rfl (by simp) hs ?_
  rw [State.seqStep_eq rfl]
  change Reaches _ _ ((State.withBif ((s.bus.setBit .pos true).setBit .ack true)
    ((s.withBif (s.bus.setBit .pos true)).goto _)).goto
    [.rdSr2, .clr .ack, .wait .btf, .set .stop, .rdDrBuf p, .rdDrBuf (p + 1)])
  generalize hg : (State.withBif ((s.bus.setBit .pos true).setBit .ack true)
    ((s.withBif (s.bus.setBit .pos true)).goto _)).goto
    [.rdSr2, .clr .ack, .wait .btf, .set .stop, .rdDrBuf p, .rdDrBuf (p + 1)] = u
  have gr : Reads s0 p [] u := by
    rw [← hg]
    refine Reads.goto (Reads.withBif (Reads.goto (hs0.withBif rfl) _) ?_) _
    rfl
  have gb : u.bus.addressed .rx := by rw [← hg]; exact hb
  have gu : u.upc = [.rdSr2, .clr .ack, .wait .btf, .set .stop, .rdDrBuf p, .rdDrBuf (p + 1)] := by rw [← hg]; rfl
  have gbusy : u.busy = true := by rw [← hg]; rfl
  have gack : u.bus.ack = true := by rw [← hg]; rfl
  have gpos : u.bus.pos = true := by rw [← hg]; rfl
  have gnext : u.peer.data.next = [x, y] ++ ys := by rw [← hg]; exact hnext
  have gw : u.wire = s.wire := by rw [← hg]; rfl
  have gf : u.faulted = none := by rw [← hg]; exact hf
  have gs : u.params.sched = .runToWait := by rw [← hg]; exact hs
  clear hg
  have ho := Rx.open gr gb gnext (by simp) gw gack gpos
  refine Reaches.seq gbusy gf gu (by simp) gs ?_
  rw [State.seqStep_eq gu]
  change Reaches _ _ ((u.withBif u.bus.rdSr2).goto [.clr .ack, .wait .btf, .set .stop, .rdDrBuf p, .rdDrBuf (p + 1)])
  refine Reaches.seq (m := .clr .ack) rfl gf rfl (by simp) gs ?_
  rw [State.seqStep_eq rfl]
  have := (((ho.goto [.clr .ack, .wait .btf, .set .stop, .rdDrBuf p, .rdDrBuf (p + 1)]).setAckPos false).goto
    [.wait .btf, .set .stop, .rdDrBuf p, .rdDrBuf (p + 1)])
  exact reaches_btfTwo h0 rfl rfl this

/-! ### RDB (R222) -/

/-- RDB is complete. -/
structure ReadOne (s0 : State) (w : List Token) (v : Byte) (ys : List Byte) (t : State) : Prop where
  reads : ({ s0 with res := v } : State).readBy t = t
  upc : t.upc = []
  busy : t.busy = false
  next : t.peer.data.next = ys
  ack : t.bus.ack = false
  free : t.bus.free
  wire : t.settledWire = w ++ [Token.byte v false, .stop]

theorem Reads.rdDrRes (h : Reads s0 p [] s) :
    ({ s0 with res := s.bus.dr } : State).readBy ({ s.withBif s.bus.rdDr with res := s.bus.dr } : State) =
      ({ s.withBif s.bus.rdDr with res := s.bus.dr } : State) := by
  have := (h.rdDr)
  unfold Reads at this
  simp only [State.stored] at this
  exact congrArg (fun x : State => ({ x with res := s.bus.dr } : State)) this

theorem reaches_rdbLast (h0 : CanRead s0) {x : Byte} (hb : s.busy = true) (hu : s.upc = [.rdDrRes])
    (h : Rx s0 0 w [] [x] [] ys false k ps true s ∨ Over s0 0 (endedWire w [x]) [] [x] ys s) :
    Reaches (ReadOne s0 w x ys) 2 s := by
  have fin : ∀ u, Over s0 0 (endedWire w [x]) [] [x] ys u → u.busy = true → u.upc = [.rdDrRes] →
      Reaches (ReadOne s0 w x ys) 1 u := by
    intro u h hb hu
    refine h.step h0 hb (by simp [hu]) (by simp [State.waiting, hu]) ?_
    intro v hv hvu
    simp only [State.seqStep, hvu, hu, Micro.run]
    obtain ⟨h1, -, -⟩ := Bif.rdDr_held hv.ended.dir hv.ord hv.held
    have ht := (hv.take).free
    have hr := hv.reads.rdDrRes
    rw [h1] at hr ⊢
    refine .here ⟨congrArg (State.goto []) hr, rfl, rfl, hv.next, ?_, ht, ?_⟩
    · simpa using hv.ack
    · simp [State.settledWire, hv.ended.role, hv.wire, receivedTokens]
  rcases h with h | h
  · refine h.step h0 hb (by simp [hu]) (by simp [State.waiting, hu]) (by simp) ?_ ?_
    · intro _
      exact ⟨by simp, fun _ => ⟨rfl, fun v hv hvu hvb => fin v hv hvb (hvu.trans hu)⟩⟩
    · intro _ v hv hvu
      simp only [State.seqStep, hvu, hu, Micro.run]
      obtain ⟨h1, -, -⟩ := Bif.rdDr_held hv.recv.dir hv.ord hv.held
      have ht := (hv.take).free
      have hr := hv.reads.rdDrRes
      rw [h1] at hr ⊢
      refine .here ⟨congrArg (State.goto []) hr, rfl, rfl, hv.next, ?_, ht, ?_⟩
      · simpa using hv.ack
      · simp [State.settledWire, hv.recv.role, hv.stop, hv.wire, soFar, receivedTokens]
  · exact (fin s h hb hu).mono (by omega)

theorem reaches_rdbWait (h0 : CanRead s0) {x : Byte} (hb : s.busy = true) (hu : s.upc = [.wait .rxne, .rdDrRes])
    (h : Rx s0 0 w [] [] [x] ys false false ps true s ∨ Rx s0 0 w [] [x] [] ys false false ps true s) :
    Reaches (ReadOne s0 w x ys) 5 s := by
  have fin : ∀ u, Over s0 0 (endedWire w [x]) [] [x] ys u → u.busy = true → u.upc = s.upc → Reaches (ReadOne s0 w x ys) 3 u := by
    intro u h hb huu
    refine h.step h0 hb (by simp [huu, hu]) (by simp [State.waiting, huu, hu, h.rxne]) ?_
    intro v hv hvu
    simp only [State.seqStep, hvu, huu, hu, Micro.run]
    exact reaches_rdbLast (k := false) (ps := false) h0 rfl rfl (.inr (hv.goto _))
  have rx : ∀ u, Rx s0 0 w [] [x] [] ys false false ps true u → u.busy = true → u.upc = s.upc →
      Reaches (ReadOne s0 w x ys) 4 u := by
    intro u h hb huu
    refine h.step h0 hb (by simp [huu, hu]) (by simp [State.waiting, huu, hu, h.rxne]) (by simp) ?_ ?_
    · intro _
      exact ⟨by simp, fun _ => ⟨rfl, fun v hv hvu hvb => fin v hv hvb (hvu.trans huu)⟩⟩
    · intro _ v hv hvu
      simp only [State.seqStep, hvu, huu, hu, Micro.run]
      exact (reaches_rdbLast h0 rfl rfl (.inl (hv.goto _))).mono (by omega)
  rcases h with h | h
  · refine h.step h0 hb (by simp [hu]) (by simp) ?_ (by simp) ?_
    · rintro x' c hc -
      cases hc
      exact ⟨rfl, fun v hv hvu hvb => rx v hv hvb hvu⟩
    · intro hw
      simp [State.waiting, hu, h.rxne] at hw
  · exact (rx s h hb rfl).mono (by omega)

/-- RDB from its first micro-operation, under every schedule (R222). -/
theorem reaches_rdb (h0 : CanRead s0) {x : Byte} (hs0 : Reads s0 0 [] s) (hb : s.bus.addressed .rx)
    (hnext : s.peer.data.next = x :: ys) (hbusy : s.busy = true)
    (hu : s.upc = [.clr .ack, .rdSr2, .set .stop, .wait .rxne, .rdDrRes]) :
    Reaches (ReadOne s0 s.wire x ys) 9 s := by
  have stop : ∀ ps u, (Rx s0 0 s.wire [] [] [x] ys false false ps false u ∨
      Rx s0 0 s.wire [] [x] [] ys false false ps false u) → u.busy = true →
      u.upc = [.set .stop, .wait .rxne, .rdDrRes] → Reaches (ReadOne s0 s.wire x ys) 7 u := by
    intro ps
    have got : ∀ u, Rx s0 0 s.wire [] [x] [] ys false false ps false u → u.busy = true →
        u.upc = [.set .stop, .wait .rxne, .rdDrRes] → Reaches (ReadOne s0 s.wire x ys) 6 u := by
      intro u h hb hu
      refine h.step h0 hb (by simp [hu]) (by simp [State.waiting, hu]) (by simp) (by simp) ?_
      intro _ v hv hvu
      simp only [State.seqStep, hvu, hu, Micro.run]
      exact reaches_rdbWait h0 rfl rfl (.inr (hv.setStop.goto _))
    rintro u (h | h) hb hu
    · refine h.step h0 hb (by simp [hu]) (by simp [State.waiting, hu]) ?_ (by simp) ?_
      · rintro x' c hc -
        cases hc
        exact ⟨rfl, fun v hv hvu hvb => got v hv hvb (hvu.trans hu)⟩
      · intro _ v hv hvu
        simp only [State.seqStep, hvu, hu, Micro.run]
        exact (reaches_rdbWait h0 rfl rfl (.inl (hv.setStop.goto _))).mono (by omega)
    · exact (got u h hb hu).mono (by omega)
  refine h0.step hs0 (.inl hb.2.2.2.2.2.1) hbusy (by simp [hu]) (by simp [State.waiting, hu]) ?_ ?_
  swap
  · intro hl; rw [Bif.addressed_lineOn hb] at hl; cases hl
  intro _ q d
  simp only [State.seqStep, State.reschedule_upc, hu, Micro.run]
  have hr : Reads s0 0 [] ((s.reschedule q d).withBif ((s.reschedule q d).bus.setBit .ack false)) :=
    (hs0.reschedule q d).withBif rfl
  generalize hg : ((s.reschedule q d).withBif ((s.reschedule q d).bus.setBit .ack false)).goto
    [.rdSr2, .set .stop, .wait .rxne, .rdDrRes] = u
  have gr : Reads s0 0 [] u := by rw [← hg]; exact hr.goto _
  have gb : u.bus.addressed .rx := by rw [← hg]; exact hb
  have gu : u.upc = [.rdSr2, .set .stop, .wait .rxne, .rdDrRes] := by rw [← hg]; rfl
  have gbusy : u.busy = true := by rw [← hg]; rfl
  have gack : u.bus.ack = false := by rw [← hg]; rfl
  have gnext : u.peer.data.next = [x] ++ ys := by rw [← hg]; exact hnext
  have gw : u.wire = s.wire := by rw [← hg]; rfl
  clear hg
  refine h0.step gr (.inl gb.2.2.2.2.2.1) gbusy (by simp [gu]) (by simp [State.waiting, gu]) ?_ ?_
  swap
  · intro hl; rw [Bif.addressed_lineOn gb] at hl; cases hl
  intro _ q d
  simp only [State.seqStep, State.reschedule_upc, gu, Micro.run]
  exact stop _ _ (.inl ((Rx.open (gr.reschedule q d) gb gnext (by simp) gw gack rfl).goto _)) rfl rfl

/-! ### A write after a read-direction address byte (R218, R231) -/

/-- `TXE` never reads 1 while the block receives: the peer's bytes come in until both registers are full or one is
refused, and then nobody has a move. -/
theorem reaches_misread : ∀ (n : Nat) (s : State) (rest : List Micro), s.bus.drFull.toNat + s.bus.shFull.toNat + n = 2 →
    s.bus.Receiving → s.bus.stop = false → s.faulted = none → s.params.waitBudget = none → s.busy = true →
    s.upc = .wait .txe :: rest →
    Reaches (fun t => t.hungAt .txe ∧ t.params.waitBudget = none ∧ t.fb = s.fb ∧ t.buf = s.buf ∧ t.res = s.res) n s := by
  have peer : ∀ s : State, s.bus.Receiving → s.peerOn = false := by
    intro s h
    unfold State.peerOn
    split
    · rfl
    · rename_i m rest _
      cases m <;> simp [PeerMove.on, h.role]
  have txe : ∀ s : State, s.bus.Receiving → Cond.txe.holds s.bus = false := by
    intro s h
    simp [Cond.holds, Bif.txe, h.dir]
  have hung : ∀ (s : State) (rest : List Micro), (s.bus.more && !s.bus.shFull) = false → s.bus.Receiving →
      s.bus.stop = false → s.faulted = none → s.busy = true → s.upc = .wait .txe :: rest → s.hungAt .txe := by
    intro s rest hm h hst hf hb hu
    refine ⟨hb, hf, by simp [hu], txe s h, ?_⟩
    rw [State.others_eq, h.lineOn, peer s h, hm, hst]
    rfl
  intro n
  induction n with
  | zero =>
    intro s rest hn h hst hf hw hb hu
    have hsh : s.bus.shFull = true := by
      cases h1 : s.bus.shFull <;> cases h2 : s.bus.drFull <;> simp [h1, h2] at hn ⊢
    exact .here ⟨hung s rest (by simp [hsh]) h hst hf hb hu, hw, rfl, rfl, rfl⟩
  | succ n ih =>
    intro s rest hn h hst hf hw hb hu
    cases hm : s.bus.more && !s.bus.shFull
    · exact .here ⟨hung s rest hm h hst hf hb hu, hw, rfl, rfl, rfl⟩
    refine Reaches.step hb hf (by simp [hu]) hw (peer s h) (fun _ => by rw [h.lineOn, hm]; rfl) ?_ ?_
    · intro hwt
      simp [State.waiting, hu, txe s h] at hwt
    · intro _ q d
      have hsh : s.bus.shFull = false := by
        cases h1 : s.bus.shFull <;> simp [h1] at hm ⊢
      have e : (s.reschedule q d).lineStep = (s.reschedule q d).lineRxByte := by
        rw [Bif.Receiving.lineStep (s := s.reschedule q d) h]
        exact if_pos hm
      rw [e]
      refine (ih (s.reschedule q d).lineRxByte rest ?_ ⟨?_, ?_, ?_, ?_, ?_, ?_, ?_, ?_⟩ ?_ hf hw hb hu).imp fun _ k => k
      · cases h2 : s.bus.drFull <;> simp [State.lineRxByte, h2, hsh] at hn ⊢ <;> omega
      all_goals simp [State.lineRxByte, h.pe, h.role, h.opened, h.phase, h.dir, h.sb, h.addr, h.start, hst]

/-- WRB and the initiator WRBURST after a read-direction address byte (R451). -/
theorem reaches_wrongWay {s : State} (hf : s.faulted = none) (hw : s.params.waitBudget = none)
    (hb : s.bus.addressed .rx) (hbusy : s.busy = true) {rest : List Micro} (hu : s.upc = .rdSr2 :: .wait .txe :: rest) :
    Reaches (fun t => t.hungAt .txe ∧ t.params.waitBudget = none ∧ t.fb = s.fb ∧ t.buf = s.buf ∧ t.res = s.res) 3 s := by
  have hline := Bif.addressed_lineOn hb
  obtain ⟨h1, h2, h3, h4, h5, h6, h7, h8, h9, h10, h11⟩ := hb
  have hp : s.peerOn = false := by
    unfold State.peerOn
    split
    · rfl
    · rename_i m rest _
      cases m <;> simp [PeerMove.on, h6]
  refine Reaches.step hbusy hf (by simp [hu]) hw hp ?_ ?_ ?_
  · intro h; simp [State.waiting, hu] at h
  · intro _ q d
    simp only [State.seqStep, State.reschedule_upc, hu, Micro.run]
    refine (reaches_misread 2 (((s.reschedule q d).withBif s.bus.rdSr2).goto (.wait .txe :: rest)) rest ?_ ⟨?_, ?_, ?_, ?_, ?_, ?_, ?_, ?_⟩ ?_ hf hw rfl rfl).imp fun _ k => k
    all_goals simp [Bif.rdSr2, *]
  · intro hl; rw [hline] at hl; cases hl

end

end Sys2Proof.Machine
end

