-- ==== Sys2Proof/Laws/Refused.lean ====
section
/-! SUPPORT. Laws/Refused.lean: what becomes of a display operation whose peer refuses a byte (43 R263; 45 R344; 70
R453). The frames before the refused byte go out whole; the operation hangs in the frame that holds it. -/

namespace Sys2Proof.Machine

/-! ### Wire images cut short -/

@[simp] theorem byteCount_nil : byteCount [] = 0 := rfl

@[simp] theorem byteCount_byte (v : Byte) (a : Bool) (w : List Token) : byteCount (.byte v a :: w) = byteCount w + 1 := by
  simp [byteCount]

@[simp] theorem byteCount_start (w : List Token) : byteCount (.start :: w) = byteCount w := by simp [byteCount]

@[simp] theorem byteCount_stop (w : List Token) : byteCount (.stop :: w) = byteCount w := by simp [byteCount]

@[simp] theorem byteCount_append (w x : List Token) : byteCount (w ++ x) = byteCount w + byteCount x := by
  simp [byteCount]

@[simp] theorem byteCount_map (vs : List Byte) (a : Bool) : byteCount (vs.map (Token.byte · a)) = vs.length := by
  induction vs with
  | nil => rfl
  | cons v vs ih => simp [ih]

@[simp] theorem refusedAt_zero (v : Byte) (a : Bool) (w : List Token) : refusedAt (.byte v a :: w) 0 = [.byte v false] :=
  rfl

@[simp] theorem refusedAt_succ (v : Byte) (a : Bool) (w : List Token) (k : Nat) :
    refusedAt (.byte v a :: w) (k + 1) = .byte v a :: refusedAt w k := rfl

@[simp] theorem refusedAt_start (w : List Token) (k : Nat) : refusedAt (.start :: w) k = .start :: refusedAt w k := by
  cases k <;> rfl

/-- In the first of two images, or after it in the second. -/
theorem refusedAt_append (w x : List Token) (k : Nat) :
    refusedAt (w ++ x) k = if k < byteCount w then refusedAt w k else w ++ refusedAt x (k - byteCount w) := by
  induction w generalizing k with
  | nil => simp
  | cons t w ih =>
    cases t with
    | byte v a =>
      cases k with
      | zero => simp
      | succ k =>
        simp only [List.cons_append, refusedAt_succ, ih, byteCount_byte, Nat.add_lt_add_iff_right]
        split
        · rfl
        · rw [Nat.add_sub_add_right]
    | _ =>
      have e : ∀ (t : Token) (y : List Token), byteCount [t] = 0 → refusedAt (t :: y) k = t :: refusedAt y k := by
        intro t y ht
        cases t <;> cases k <;> first | rfl | simp at ht
      have c : ∀ (t : Token) (y : List Token), byteCount [t] = 0 → byteCount (t :: y) = byteCount y := by
        intro t y ht
        cases t <;> first | rfl | simp at ht
      rw [List.cons_append, e _ _ rfl, e _ _ rfl, c _ _ rfl, ih]
      split <;> rfl

theorem byteCount_frame (q : Params) (ctrl : Byte) (bs : List Byte) : byteCount (frameTokens q ctrl bs) = bs.length + 2 := by
  simp [frameTokens]

theorem refusedAt_map (vs : List Byte) {k : Nat} (hk : k < vs.length) (w : List Token) :
    refusedAt (vs.map (Token.byte · true) ++ w) k = refusedTokens vs k := by
  induction vs generalizing k with
  | nil => simp at hk
  | cons v vs ih =>
    cases k with
    | zero => simp [refusedTokens]
    | succ k =>
      rw [refusedTokens_cons, ← ih (by simpa using hk)]
      rfl

/-! ### The data loop of a frame whose bytes are acknowledged, by a peer that will refuse a later one -/

/-- What a data loop leaves whose bytes were all acknowledged. -/
structure Fed (s0 : State) (r : Nat) (tail : List Micro) (w : List Token) (t : State) : Prop where
  feeds : Feeds s0 r t
  bus : t.bus.Sending
  upc : t.upc = tail
  busy : t.busy = !tail.isEmpty
  drFull : t.bus.drFull = false
  shFull : t.bus.shFull = false
  wire : t.wire = w

theorem Feeds.canSend {s0 s : State} {r : Nat} (h : Feeds s0 r s) (h0 : CanSend s0) (hp : s.bus.pe = true) : CanSend s := by
  obtain ⟨f1, f2, f3, f4, f5, -⟩ := h.facts
  refine ⟨f1.trans h0.faulted, by rw [f2]; exact h0.budget, hp, ?_⟩
  rcases h0.away with h | h
  · exact .inl (f4.trans h)
  · exact .inr (f5.trans h)

theorem refusedTokens_all (bs : List Byte) {r : Nat} (h : bs.length ≤ r) :
    refusedTokens bs r = bs.map (Token.byte · true) := by
  simp [refusedTokens, List.take_of_length_le h, List.getElem?_eq_none h]

theorem reaches_fedLoop {s0 : State} (h0 : CanSend s0) {c : Cond} (hc : c = .btf ∨ c = .btfAndTxe)
    (tail : List Micro) (w : List Token) (r0 : Nat) :
    ∀ (n : Nat) (s : State) (srcs : List Src) (r : Nat), (∀ v ∈ srcs, v ≠ .draw) → Feeds s0 r s → s.bus.Sending →
      s.busy = true → r = r0 + (s.bus.pending ++ srcs.map (·.value s0)).length →
      0 < s.bus.sent + s.bus.pending.length + srcs.length →
      w = s.wire ++ refusedTokens (s.bus.pending ++ srcs.map (·.value s0)) r →
      ((s.upc = loopCode srcs c tail ∧ 4 * srcs.length + s.bus.load + 1 ≤ n) ∨
        (s.bus.drFull = false ∧ ∃ v rest, srcs = v :: rest ∧ s.upc = .wrDr v :: loopCode rest c tail ∧
          4 * srcs.length + s.bus.load ≤ n)) →
      Reaches (Fed s0 r0 tail w) n s := by
  intro n
  induction n with
  | zero =>
    rintro s srcs r - - - - - - - (⟨-, hn⟩ | ⟨-, v, rest, rfl, -, hn⟩)
    · omega
    · simp at hn
  | succ n ih =>
    intro s srcs r hsrc hs hb hbusy hr hpos hw hcase
    obtain ⟨f1, f2, f3, f4, f5, f6, f7, f8⟩ := hs.facts
    have hc0 : CanSend s := hs.canSend h0 hb.pe
    have hpeer : s.peerOn = false := hc0.peerOn (by rw [hb.role]; decide)
    have hline : s.bus.lineOn = true → ∀ q d, Reaches (Fed s0 r0 tail w) n (s.reschedule q d).lineStep := by
      intro hl q d
      rcases (hs.reschedule q d).step h0 hb hl (srcs.map (·.value s0)) with
        ⟨r', g1, g2, g3, g4, g5, g6, g7, g8, g9⟩ | ⟨-, -, -, -, g8⟩
      · simp only [State.reschedule_bus] at g5 g8 g9
        refine ih _ srcs r' hsrc g1 g2 (g4.trans hbusy) ?_ ?_ (hw.trans g6.symm) ?_
        · simp only [List.length_append] at hr ⊢
          omega
        · rcases Nat.eq_zero_or_pos srcs.length with hz | hz
          · have := g9 (by omega)
            omega
          · omega
        · rcases hcase with ⟨hupc, hn⟩ | ⟨hd, v, rest, rfl, hupc, hn⟩
          · exact .inl ⟨g3.trans hupc, by omega⟩
          · exact .inr ⟨g7 hd, v, rest, rfl, g3.trans hupc, by omega⟩
      · simp only [List.length_append, State.reschedule_bus] at hr g8
        omega
    rcases hcase with ⟨hupc, hn⟩ | ⟨hd, v, rest, rfl, hupc, hn⟩
    · refine Reaches.step hbusy hc0.faulted ?_ hc0.budget hpeer ?_ ?_ hline
      · rw [hupc]; cases srcs <;> simp [loopCode]
      · intro hwt
        rw [hb.lineOn]
        cases srcs with
        | nil =>
          rw [loopCode_nil] at hupc
          simp only [State.waiting, hupc, hb.closed hc] at hwt
          clear ih hw hr
          cases hd : s.bus.drFull <;> cases hsh : s.bus.shFull <;> simp [hd, hsh, Bif.pending] at hwt hpos ⊢
          omega
        | cons v rest =>
          rw [loopCode_cons] at hupc
          simp only [State.waiting, hupc, Cond.holds, hb.txe] at hwt
          have hd : s.bus.drFull = true := by simpa using hwt
          simp [hd]
      · intro hwt q d
        cases srcs with
        | nil =>
          rw [loopCode_nil] at hupc
          simp only [State.waiting, hupc, hb.closed hc] at hwt
          simp only [State.seqStep, State.reschedule_upc, hupc, Micro.run]
          have hx : (s.bus.drFull = false ∧ s.bus.shFull = false) ∧ 0 < s.bus.sent := by simpa using hwt
          have hp : s.bus.pending = [] := by simp [Bif.pending, hx.1.1, hx.1.2]
          have hr0 : r = r0 := by simpa [hp] using hr
          refine .here ⟨(hr0 ▸ hs.reschedule q d).goto _, hb, rfl, rfl, hx.1.1, hx.1.2, ?_⟩
          rw [hw, hp]
          simp [refusedTokens]
        | cons v rest =>
          rw [loopCode_cons] at hupc
          simp only [State.waiting, hupc, Cond.holds, hb.txe] at hwt
          simp only [State.seqStep, State.reschedule_upc, hupc, Micro.run]
          have hdr : s.bus.drFull = false := by simpa using hwt
          exact ih _ (v :: rest) r hsrc ((hs.reschedule q d).goto _) hb rfl hr hpos hw
            (.inr ⟨hdr, v, rest, rfl, rfl, by simp at hn ⊢; omega⟩)
    · refine Reaches.step hbusy hc0.faulted (by simp [hupc]) hc0.budget hpeer ?_ ?_ hline
      · intro hwt
        simp [State.waiting, hupc] at hwt
      · intro hwt q d
        have hv : v ≠ .draw := hsrc v (by simp)
        have hval : v.value (s.reschedule q d) = v.value s0 := Src.value_congr hv f6 f7
        simp only [State.seqStep, State.reschedule_upc, hupc, Micro.run_wrDr hv, hval, State.reschedule_bus, hb.wrDr]
        have hpend : (s.bus.pending ++ (v :: rest).map (·.value s0)) =
            ({ s.bus with dr := v.value s0, drFull := true } : Bif).pending ++ rest.map (·.value s0) := by
          simp [Bif.pending, hd]
        refine ih _ rest r (fun x hx => hsrc x (List.mem_cons_of_mem _ hx))
          (((hs.reschedule q d).withBif ?_).goto _) ?_ ?_ ?_ ?_ ?_ (.inl ⟨rfl, ?_⟩)
        · rfl
        · exact ⟨hb.pe, hb.role, hb.opened, hb.phase, hb.dir, hb.sb, hb.addr, hb.start, hb.stop, hb.more⟩
        · cases rest <;> rfl
        · rw [hpend] at hr; exact hr
        · simp [Bif.pending]
        · rw [hpend] at hw; exact hw
        · cases hsh : s.bus.shFull <;> simp [Bif.load, hd, hsh] at hn ⊢ <;> omega

/-! ### A frame -/

/-- A frame has gone out and been acknowledged, by a peer that will refuse a byte after `r` more. -/
structure Between (s0 : State) (r : Nat) (tail : List Micro) (w : List Token) (t : State) : Prop where
  feeds : Feeds s0 r t
  bus : t.bus.free
  upc : t.upc = tail
  busy : t.busy = !tail.isEmpty
  wire : t.settledWire = w

/-- A display operation that hangs because a byte was refused. -/
abbrev Jilted (s0 : State) (w : List Token) (t : State) : Prop := Spurned s0 [.addr, .txe, .btfAndTxe] w t

theorem Spurned.weaken {s0 : State} {cs ds : List Cond} {w : List Token} {t : State} (h : Spurned s0 cs w t)
    (hc : ∀ c ∈ cs, c ∈ ds) : Spurned s0 ds w t :=
  ⟨by obtain ⟨c, h1, h2⟩ := h.hung; exact ⟨c, hc c h1, h2⟩, h.budget, h.af, h.kept, h.wire⟩

/-- The address byte is acknowledged, by a peer that will refuse a byte after `r` more. -/
structure Answered (s0 : State) (r : Nat) (tail : List Micro) (w : List Token) (t : State) : Prop where
  feeds : Feeds s0 r t
  bus : t.bus.addressed .tx
  upc : t.upc = tail
  busy : t.busy = !tail.isEmpty
  wire : t.wire = w

theorem reaches_answeredWait {s0 s : State} (h0 : CanSend s0) {tail : List Micro} {r : Nat} (hs : Feeds s0 r s)
    (hb : s.bus.addressed .tx) (hbusy : s.busy = true) (hupc : s.upc = .wait .addr :: tail) :
    Reaches (Answered s0 r tail s.wire) 1 s := by
  have hc := hs.canSend h0 hb.1
  have hl := Bif.addressed_lineOn hb
  refine Reaches.step hbusy hc.faulted (by simp [hupc]) hc.budget (hc.peerOn (by rw [hb.2.2.2.2.2.1]; decide)) ?_ ?_
    (fun h => by rw [hl] at h; cases h)
  · intro hw; simp [State.waiting, hupc, Cond.holds, hb.2.2.1] at hw
  · intro _ q d
    simp only [State.seqStep, State.reschedule_upc, hupc, Micro.run]
    exact .here ⟨(hs.reschedule q d).goto _, hb, rfl, rfl, rfl⟩

theorem reaches_answered {s0 s : State} (h0 : CanSend s0) {a : Byte} {tail : List Micro} {w : List Token} {r : Nat}
    (ha : a.getLsbD 0 = false) (hp : s0.peer.isPanel = false)
    (hk : ∃ ys, s0.peer.acks.next = List.replicate (r + 1) true ++ false :: ys) (h : Called s0 a tail w s) :
    Reaches (Answered s0 r tail (w ++ [Token.byte a true])) 2 s := by
  have hc0 := h.unasked.canSend h0
  have hb := h.bus
  refine Reaches.step h.busy hc0.faulted (by simp [h.upc]) hc0.budget (hc0.peerOn (by rw [hb.role]; decide)) ?_ ?_ ?_
  · intro _
    simp [Bif.lineOn, Bif.byteOn, Bif.addrOn, hb.pe, hb.role, hb.phase, hb.sb, hb.drFull]
  · intro hw; simp [State.waiting, h.upc, Cond.holds, hb.addr] at hw
  · intro _ q d
    have hon : (s.reschedule q d).bus.addrOn = true := by
      simp [Bif.addrOn, hb.pe, hb.role, hb.phase, hb.sb, hb.drFull]
    have hdr : (s.reschedule q d).bus.dr = a := hb.dr
    have hp' : s.peer.isPanel = false := h.unasked.isPanel.trans hp
    obtain ⟨ys, hk⟩ := hk
    have hn : s.peer.acks.next = true :: (List.replicate r true ++ false :: ys) := by
      rw [h.unasked.acks, hk]; rfl
    have hans : (s.reschedule q d).answerAddr a = (true, (s.reschedule q d).askAck.2) := by
      simp [State.answerAddr, hp', State.askAck, Script.pop, hn]
    simp only [State.lineStep, hon, if_true, State.lineAddr, hdr, hans]
    have f0 : Feeds s0 r (s.reschedule q d).askAck.2 :=
      ⟨by rw [← h.unasked.same]; rfl, hp, ys, by simp [State.askAck, Script.pop, hn]⟩
    have f1 : Feeds s0 r (((s.reschedule q d).askAck.2.emit (.byte a true)).withBif
        ((s.reschedule q d).bus.lineAddr true)) := by
      refine (f0.emit _).withBif ?_
      rfl
    have e1 : (((s.reschedule q d).askAck.2.emit (.byte a true)).withBif
        ((s.reschedule q d).bus.lineAddr true)).bus.addressed .tx := by
      simp only [State.withBif_bus, Bif.lineAddr, if_true, State.reschedule_bus, Bif.addressed]
      simpa [hb.pe, hb.sb, hb.start, hb.stop, hb.role, hb.opened, hb.shFull, hb.dr] using ha
    have e2 : (((s.reschedule q d).askAck.2.emit (.byte a true)).withBif
        ((s.reschedule q d).bus.lineAddr true)).wire = w ++ [Token.byte a true] := by
      simp [State.askAck, h.wire]
    have r1 := reaches_answeredWait h0 f1 e1 h.busy h.upc
    rwa [e2] at r1

/-- The data of a frame from `rd_SR2()` on, all acknowledged, and its stop (R231). -/
theorem reaches_fed {s0 s : State} (h0 : CanSend s0) {tail : List Micro} {srcs : List Src} {r : Nat}
    (hsrc : ∀ v ∈ srcs, v ≠ .draw) (hne : 0 < srcs.length) (hs : Feeds s0 (r + srcs.length) s)
    (hb : s.bus.addressed .tx) (hbusy : s.busy = true)
    (hupc : s.upc = .rdSr2 :: loopCode srcs .btfAndTxe (.set .stop :: tail)) :
    Reaches (Between s0 r tail (s.wire ++ (srcs.map (·.value s0)).map (Token.byte · true) ++ [Token.stop]))
      (4 * srcs.length + 3) s := by
  have hc := hs.canSend h0 hb.1
  have hl := Bif.addressed_lineOn hb
  have hwr := (Bif.addressed_rdSr2 hb).1
  have hdr : s.bus.rdSr2.drFull = false := hwr.2.2.2.2.2.2.2.2.2.2.1
  have hsh : s.bus.rdSr2.shFull = false := hwr.2.2.2.2.2.2.2.2.2.2.2
  have hpend : s.bus.rdSr2.pending = [] := by simp [Bif.pending, hdr, hsh]
  refine Reaches.step hbusy hc.faulted (by simp [hupc]) hc.budget (hc.peerOn (by rw [hb.2.2.2.2.2.1]; decide)) ?_ ?_
    (fun h => by rw [hl] at h; cases h)
  · intro hw; simp [State.waiting, hupc] at hw
  intro _ q d
  simp only [State.seqStep, State.reschedule_upc, hupc, Micro.run]
  have hf : Feeds s0 (r + srcs.length) ((s.reschedule q d).withBif s.bus.rdSr2) := by
    refine (hs.reschedule q d).withBif ?_
    simp only [Bif.rdSr2]
    split <;> rfl
  have hf := hf.goto (loopCode srcs .btfAndTxe (.set .stop :: tail))
  have hbz : (((s.reschedule q d).withBif s.bus.rdSr2).goto (loopCode srcs .btfAndTxe (.set .stop :: tail))).busy = true := by
    cases srcs <;> rfl
  refine (reaches_fedLoop h0 (.inr rfl) (.set .stop :: tail) _ r (4 * srcs.length + 1) _ srcs _ hsrc hf hwr.sending hbz
    ?_ ?_ rfl (.inl ⟨rfl, ?_⟩)).trans (m := 1) ?_
  · show _ = r + (s.bus.rdSr2.pending ++ _).length
    simp [hpend]
  · exact Nat.add_pos_right _ hne
  · show _ + s.bus.rdSr2.load + 1 ≤ _
    simp [Bif.load, hdr, hsh]
  intro y hy
  have hb' := hy.bus
  have hcy := hy.feeds.canSend h0 hb'.pe
  have hly : y.bus.lineOn = false := by rw [hb'.lineOn, hy.drFull, hy.shFull]; rfl
  refine Reaches.step (by rw [hy.busy]; rfl) hcy.faulted (by simp [hy.upc]) hcy.budget
    (hcy.peerOn (by rw [hb'.role]; decide)) ?_ ?_ (fun h => by rw [hly] at h; cases h)
  · intro hw; simp [State.waiting, hy.upc] at hw
  intro _ q' d'
  simp only [State.seqStep, State.reschedule_upc, hy.upc, Micro.run, Bif.setBit]
  refine .here ⟨((hy.feeds.reschedule q' d').withBif rfl).goto _, ?_, rfl, rfl, ?_⟩
  · simp [Bif.free, Bif.byteOn, Bif.addrOn, Bif.loadOn, Bif.txByteOn, Bif.rxByteOn, hb'.pe, hb'.sb, hb'.addr, hb'.start,
      hb'.role, hb'.opened, hb'.phase, hb'.dir, hy.drFull, hy.shFull]
  · have hw := hy.wire
    rw [refusedTokens_all _ (by
      show (s.bus.rdSr2.pending ++ _).length ≤ _
      simp [hpend])] at hw
    have hw : y.wire = s.wire ++ (s.bus.rdSr2.pending ++ srcs.map (·.value s0)).map (Token.byte · true) := hw
    rw [hpend, List.nil_append] at hw
    simp [State.settledWire, hb'.role, hw]

/-- A frame, from a free bus, with a peer that acknowledges `r` bytes and refuses the next (R161, R164, R263). -/
theorem reaches_refusedFrame {s : State} (h0 : CanSend s) (hd : s.params.dispAddrW.getLsbD 0 = false)
    (hp : s.peer.isPanel = false) {r : Nat} (hk : ∃ ys, s.peer.acks.next = List.replicate r true ++ false :: ys) {ctrl : Byte}
    {srcs : List Src} {tail : List Micro} (hsrc : ∀ v ∈ srcs, v ≠ .draw) (hb : s.bus.free) (hbusy : s.busy = true)
    (hupc : s.upc = sendFrame s.params ctrl srcs ++ tail) :
    Reaches (fun t =>
      if r < srcs.length + 2 then
        Jilted s (s.settledWire ++ refusedAt (frameTokens s.params ctrl (srcs.map (·.value s))) r) t
      else
        Between s (r - (srcs.length + 2)) tail (s.settledWire ++ frameTokens s.params ctrl (srcs.map (·.value s))) t)
      (4 * srcs.length + 17) s := by
  rw [sendFrame_eq] at hupc
  refine (reaches_fromFree (P := Unasked s) (n := 4 * srcs.length + 15) (fun u h => h.canSend h0)
    (fun u q d h => h.reschedule q d) (fun u h => h.lineStop) ⟨rfl, rfl⟩ hb hbusy hupc (by simp) ?_).mono (by omega)
  intro u hu hub hubusy huupc huw
  simp only [State.seqStep, huupc, hupc, Micro.run, Bif.setBit]
  have hcall : { u.bus with start := true }.calling := by
    obtain ⟨h1, h2, h3, h4, h5, h6⟩ := hub
    refine .inl ⟨h1, h2, h3, rfl, h5, ?_⟩
    rcases h6 with h6 | ⟨h6, h7, -⟩
    · exact .inl h6
    · exact .inr ⟨h6, h7⟩
  have hcw : ((u.withBif { u.bus with start := true }).goto (.wait .sb :: .wrDr (.const s.params.dispAddrW) ::
      .wait .addr :: .rdSr2 :: loopCode (.const ctrl :: srcs) .btfAndTxe (.set .stop :: tail))).calledWire =
      s.settledWire ++ [Token.start] := by
    rw [← huw]
    obtain ⟨h1, h2, h3, h4, h5, ⟨h6, h7, h8⟩ | ⟨h6, h7, h8⟩⟩ := hub <;>
      simp [State.calledWire, State.settledWire, h2, h6, h8]
  refine ((reaches_called (tail := .rdSr2 :: loopCode (.const ctrl :: srcs) .btfAndTxe (.set .stop :: tail)) h0
    ((hu.withBif rfl).goto _) hcall rfl rfl).trans (m := 4 * srcs.length + 11) ?_).mono (by omega)
  intro t ht
  have hsrc' : ∀ v ∈ Src.const ctrl :: srcs, v ≠ .draw := by
    intro v hv
    rcases List.mem_cons.1 hv with rfl | hv
    · simp
    · exact hsrc v hv
  rcases r with _ | r
  · refine ((reaches_addrNack h0 (.inr ⟨hp, by simpa using hk⟩) ht).imp ?_).mono (by omega)
    intro x hx
    rw [if_pos (by omega)]
    have := hx.weaken (ds := [.addr, .txe, .btfAndTxe]) (by simp)
    rw [hcw] at this
    simpa [frameTokens] using this
  refine ((reaches_answered h0 hd hp hk ht).trans (m := 4 * srcs.length + 9) ?_).mono (by omega)
  intro x hx
  rw [hcw] at hx
  have hlen : (Src.const ctrl :: srcs).length = srcs.length + 1 := rfl
  by_cases hr : r < srcs.length + 1
  · refine (reaches_nack h0 (.inr rfl) hsrc' hx.feeds (by rw [hlen]; exact hr) (.inl hx.bus) (by rw [hx.busy]; rfl)
      hx.upc).imp ?_ |>.mono (by rw [hlen]; omega)
    intro y hy
    rw [if_pos (by omega)]
    have := hy.weaken (ds := [.addr, .txe, .btfAndTxe]) (by simp)
    rw [hx.wire] at this
    simp only [frameTokens, List.cons_append, refusedAt_start, refusedAt_succ]
    rw [refusedAt_map _ (by simpa using hr)]
    simpa [Src.value] using this
  · obtain ⟨k, rfl⟩ : ∃ k, r = k + (srcs.length + 1) := ⟨r - (srcs.length + 1), by omega⟩
    refine ((reaches_fed h0 hsrc' (by simp) hx.feeds hx.bus (by rw [hx.busy]; rfl) hx.upc).imp ?_).mono
      (by rw [hlen]; omega)
    intro y hy
    rw [if_neg (by omega)]
    have e : k + (srcs.length + 1) + 1 - (srcs.length + 2) = k := by omega
    rw [e]
    rw [hx.wire] at hy
    simpa [frameTokens, Src.value] using hy

/-! ### A list of pieces -/

/-- What a piece that only writes `FB` is: one micro-operation, which changes nothing else. -/
theorem Item.update {x : Item} (hx : ∀ c l, x ≠ .frame c l) (q : Params) :
    (∃ m, x.code q = [m] ∧ (∀ c, m ≠ .wait c) ∧ ∀ u tail, m.run tail u = (x.apply u).goto tail) ∧
      (∀ s, x.tokens s = []) ∧
      ∀ u, (x.apply u).bus = u.bus ∧ (x.apply u).peer = u.peer ∧ (x.apply u).params = u.params ∧
        (x.apply u).faulted = u.faulted ∧ (x.apply u).wire = u.wire ∧ (x.apply u).buf = u.buf ∧ (x.apply u).res = u.res := by
  cases x with
  | frame c l => exact absurd rfl (hx c l)
  | _ =>
    refine ⟨⟨_, rfl, nofun, fun _ _ => rfl⟩, fun _ => rfl, fun _ => ?_⟩
    simp [Item.apply]

/-- The pieces run before byte `k` of their wire image goes out. -/
def madeUntil : List Item → State → Nat → State
  | [], s, _ => s
  | x :: xs, s, k =>
    if k < byteCount (x.tokens s) then s else madeUntil xs (x.apply s) (k - byteCount (x.tokens s))

theorem madeUntil_sentBy {xs : List Item} (hx : ∀ x ∈ xs, x.plain) {s t : State} (hst : s.sentBy t = t) (k : Nat) :
    (madeUntil xs t k).fb = (madeUntil xs s k).fb := by
  induction xs generalizing s t k with
  | nil => rw [← hst]; rfl
  | cons x xs ih =>
    have h1 : x.tokens t = x.tokens s := by
      rcases x.tokens_sentBy s t with h1 | h1
      · rw [hst] at h1; exact h1
      · exact absurd (hx x (by simp)) h1
    have h2 : (x.apply s).sentBy (x.apply t) = x.apply t := by
      rw [← x.apply_sentBy s t, hst]
      exact State.sentBy_self _
    simp only [madeUntil, h1]
    split
    · rw [← hst]; rfl
    · exact ih (fun y hy => hx y (List.mem_cons_of_mem _ hy)) h2 _

theorem madeUntil_append (xs ys : List Item) (s : State) (k : Nat) :
    madeUntil (xs ++ ys) s k =
      if k < byteCount (tokensOf xs s) then madeUntil xs s k
      else madeUntil ys (applyAll xs s) (k - byteCount (tokensOf xs s)) := by
  induction xs generalizing s k with
  | nil => simp [tokensOf, applyAll]
  | cons x xs ih =>
    simp only [List.cons_append, madeUntil, tokensOf, byteCount_append]
    by_cases h : k < byteCount (x.tokens s)
    · simp [h, Nat.lt_add_right]
    · simp only [h, if_false, ih]
      have e : (k - byteCount (x.tokens s) < byteCount (tokensOf xs (x.apply s))) =
          (k < byteCount (x.tokens s) + byteCount (tokensOf xs (x.apply s))) := by
        apply propext
        omega
      simp only [e, Nat.sub_sub]
      rfl

theorem madeUntil_frames {xs : List Item} (h : ∀ x ∈ xs, ∃ c l, x = .frame c l) (s : State) (k : Nat) :
    madeUntil xs s k = s := by
  induction xs generalizing k with
  | nil => rfl
  | cons x xs ih =>
    obtain ⟨c, l, rfl⟩ := h x (by simp)
    simp only [madeUntil]
    split
    · rfl
    · exact ih (fun y hy => h y (List.mem_cons_of_mem _ hy)) _

/-- An operation hangs at a refused byte with memory as in `m`. -/
structure Halted (m s : State) (w : List Token) (t : State) : Prop where
  shown : t.hungAt .addr ∨ t.hungAt .txe ∨ t.hungAt .btfAndTxe
  budget : t.params.waitBudget = none
  af : t.bus.af = true
  wire : t.wire = w
  fb : t.fb = m.fb
  rest : t.buf = s.buf ∧ t.res = s.res

theorem Halted.tick {m s : State} {w : List Token} {t : State} (h : Halted m s w t) : t.tick = none := by
  rcases h.shown with h' | h' | h' <;> exact h'.tick h.budget

theorem Spurned.halted {s0 : State} {w : List Token} {t : State} (h : Jilted s0 w t) : Halted s0 s0 w t := by
  obtain ⟨c, hc, hh⟩ := h.hung
  refine ⟨?_, h.budget, h.af, h.wire, h.kept.1, h.kept.2⟩
  simp only [List.mem_cons, List.not_mem_nil, or_false] at hc
  rcases hc with rfl | rfl | rfl
  exacts [.inl hh, .inr (.inl hh), .inr (.inr hh)]

/-- A list of pieces, with a peer that refuses a byte of one of its frames (R263). -/
theorem reaches_refusedItems {xs : List Item} (hx : ∀ x ∈ xs, x.plain) :
    ∀ {s : State} {r : Nat} {tail : List Micro}, CanSend s → s.params.dispAddrW.getLsbD 0 = false →
      s.peer.isPanel = false → (∃ ys, s.peer.acks.next = List.replicate r true ++ false :: ys) → s.bus.free →
      r < byteCount (tokensOf xs s) → (s.upc ≠ [] → s.busy = true) → s.upc = codeOf s.params xs ++ tail →
      Reaches (Halted (madeUntil xs s r) s (s.settledWire ++ refusedAt (tokensOf xs s) r)) (2 * costOf xs) s := by
  induction xs with
  | nil => intro s r tail _ _ _ _ _ hr; simp [tokensOf] at hr
  | cons x xs ih =>
    intro s r tail h0 hd hp hk hb hr hbusy hupc
    have ih := @ih fun y hy => hx y (List.mem_cons_of_mem _ hy)
    have hbusy : s.busy = true := hbusy (by
      rw [hupc]
      cases h : x.code s.params with
      | nil => exact absurd h (x.code_ne_nil _)
      | cons => simp [codeOf, h])
    have hcost : costOf (x :: xs) = x.cost + costOf xs := by simp [costOf]
    have hcount : byteCount (tokensOf (x :: xs) s) = byteCount (x.tokens s) + byteCount (tokensOf xs (x.apply s)) := by
      rw [← byteCount_append]; rfl
    have htoks : tokensOf (x :: xs) s = x.tokens s ++ tokensOf xs (x.apply s) := rfl
    have hcode : s.upc = x.code s.params ++ (codeOf s.params xs ++ tail) := by
      rw [hupc]; simp [codeOf]
    rw [hcount] at hr
    by_cases hfr : ∃ c l, x = .frame c l
    · obtain ⟨c, l, rfl⟩ := hfr
      have hl : ∀ v ∈ l, v ≠ .draw := hx (.frame c l) (by simp)
      have hcl : byteCount (Item.tokens (.frame c l) s) = l.length + 2 := by simp [Item.tokens, byteCount_frame]
      refine ((reaches_refusedFrame h0 hd hp hk hl hb hbusy hcode).trans (m := 2 * costOf xs) ?_).mono
        (by rw [hcost, Item.cost]; omega)
      intro t ht
      rw [htoks, refusedAt_append, hcl]
      simp only [madeUntil, hcl]
      split at ht
      · rename_i hlt
        simp only [if_pos hlt]
        exact .here ht.halted
      · rename_i hge
        simp only [if_neg hge]
        obtain ⟨f1, f2, f3, f4, f5, f6, f7, f8⟩ := ht.feeds.facts
        have hsame := ht.feeds.same
        have hxs : ∀ y ∈ xs, y.plain := fun y hy => hx y (List.mem_cons_of_mem _ hy)
        have htok : tokensOf xs t = tokensOf xs s := tokensOf_sentBy hxs hsame
        refine (ih (ht.feeds.canSend h0 ht.bus.1) (by rw [f2]; exact hd) f3 ht.feeds.acks ht.bus ?_ ?_
          (by rw [ht.upc, f2])).imp ?_
        · rw [htok]
          rw [hcl] at hr
          simp only [Item.apply] at hr
          omega
        · intro hne
          rw [ht.busy, ← ht.upc]
          simpa using hne
        · rintro u ⟨u1, u2, u3, u4, u5, u6⟩
          refine ⟨u1, u2, u3, ?_, ?_, u6.1.trans f7, u6.2.trans f8⟩
          · rw [u4, ht.wire, htok, List.append_assoc]
            rfl
          · rw [u5, madeUntil_sentBy hxs hsame]
            rfl
    · have hxf : ∀ c l, x ≠ .frame c l := fun c l h => hfr ⟨c, l, h⟩
      obtain ⟨⟨m, hm, hnw, hrun⟩, htk, hkeep⟩ := Item.update hxf s.params
      have hxc : x.cost = 2 := by cases x <;> first | rfl | exact absurd rfl (hxf _ _)
      rw [htk s] at hr
      have hup : s.upc = m :: (codeOf s.params xs ++ tail) := by rw [hcode, hm]; rfl
      have e1 : madeUntil (x :: xs) s r = madeUntil xs (x.apply s) r := by simp [madeUntil, htk s]
      have e2 : tokensOf (x :: xs) s = tokensOf xs (x.apply s) := by rw [htoks, htk s]; rfl
      rw [e1, e2]
      refine (reaches_fromFree (P := Unasked s) (n := 2 * costOf xs) (fun u h => h.canSend h0)
        (fun u q d h => h.reschedule q d) (fun u h => h.lineStop) ⟨rfl, rfl⟩ hb hbusy hup hnw ?_).mono
        (by rw [hcost, hxc]; omega)
      intro u hu hub hubusy huupc huw
      rw [State.seqStep_eq (huupc.trans hup), hrun]
      obtain ⟨k1, k2, k3, k4, k5, k6, k7⟩ := hkeep u
      have hcu := hu.canSend h0
      have hpar : u.params = s.params := hu.params
      have hus : s.sentBy u = u := hu.same
      have hsame : (x.apply s).sentBy ((x.apply u).goto (codeOf s.params xs ++ tail)) =
          (x.apply u).goto (codeOf s.params xs ++ tail) := by
        have := x.apply_sentBy s u ((x.apply u).goto (codeOf s.params xs ++ tail))
        rw [hus] at this
        exact this.symm
      have hxs : ∀ y ∈ xs, y.plain := fun y hy => hx y (List.mem_cons_of_mem _ hy)
      have htok := tokensOf_sentBy hxs hsame
      have hgb : ((x.apply u).goto (codeOf s.params xs ++ tail)).bus.free := by
        rw [State.goto_bus, k1]
        exact hub
      have hmv : ((x.apply u).goto (codeOf s.params xs ++ tail)).peerAway := by
        have h1 := hcu.away
        simp only [State.peerAway, State.goto_peer, State.goto_bus, k1, k2] at h1 ⊢
        exact h1
      have hpanel : u.peer.isPanel = false := hu.isPanel.trans hp
      have hacks : ∃ ys, u.peer.acks.next = List.replicate r true ++ false :: ys := by rw [hu.acks]; exact hk
      refine (ih (s := (x.apply u).goto (codeOf s.params xs ++ tail)) (r := r) (tail := tail)
        ⟨by simp only [State.goto_faulted, k4]; exact hcu.faulted, by simp only [State.goto_params, k3]; exact hcu.budget,
          hgb.1, hmv⟩
        (by simp only [State.goto_params, k3, hpar]; exact hd) (by simp only [State.goto_peer, k2]; exact hpanel)
        (by simp only [State.goto_peer, k2]; exact hacks) hgb
        (by rw [htok]; simpa using hr) (fun hne => by
          rw [State.goto_upc] at hne
          simp [State.goto, hne]) (by simp [k3, hpar])).imp ?_
      rintro t ⟨u1, u2, u3, u4, u5, u6⟩
      have hkb : u.buf = s.buf ∧ u.res = s.res := hu.kept.2
      refine ⟨u1, u2, u3, ?_, ?_, ?_, ?_⟩
      · rw [u4, htok]
        have : s.settledWire = u.settledWire := huw.symm
        rw [this]
        simp [State.settledWire, k1, k5]
      · rw [u5, madeUntil_sentBy hxs hsame]
      · exact u6.1.trans (k6.trans hkb.1)
      · exact u6.2.trans (k7.trans hkb.2)

/-! ### The operations -/

/-- An operation that is a list of pieces hangs where its peer refuses a byte (R263, R453). -/
theorem hangs_of_items {i : Instr} {tests : List (Bool × RefuseReason)} {xs : List Item} {s : State} {made : Nat → State}
    (hexec : exec i s = command i tests (codeOf s.params xs) s) (htests : firstFailing tests = none)
    (hx : ∀ x ∈ xs, x.plain) (hcost : 2 * costOf xs ≤ sliceTicks) (hr : s.ready)
    (hmade : ∀ k, k < byteCount (tokensOf xs s) → (madeUntil xs s k).fb = (made k).fb) :
    HangsRefused i s made (tokensOf xs s) := by
  intro k ys hb haw hw hd hp hk hlt
  have hsame : s.sentBy (s.load (encode i) (codeOf s.params xs)) = s.load (encode i) (codeOf s.params xs) := rfl
  have htok := tokensOf_sentBy hx hsame
  have r := reaches_refusedItems (tail := []) hx (s := s.load (encode i) (codeOf s.params xs)) ⟨hr.2, hw, hb.1, haw⟩ hd hp
    ⟨ys, hk⟩ hb (by rw [htok]; exact hlt) (fun hne => by
      rw [State.load_upc] at hne
      simp [State.load, hne]) (by simp)
  rw [htok] at r
  have e := State.runOp_of_reaches r (fun t ht => ht.tick) hcost
  refine ⟨_, exec_runOp hexec htests hr, e.shown, e.af, e.wire, ?_, e.rest⟩
  rw [e.fb, madeUntil_sentBy hx hsame, hmade k hlt]

/-- An operation that is a list of pieces, as a statement says it. -/
theorem transmits_of_items {i : Instr} {tests : List (Bool × RefuseReason)} {xs : List Item} {s : State}
    {made : Nat → State} (hexec : exec i s = command i tests (codeOf s.params xs) s) (htests : firstFailing tests = none)
    (hx : ∀ x ∈ xs, x.plain) (hcost : 2 * costOf xs ≤ sliceTicks) (hr : s.ready)
    (hmade : ∀ k, k < byteCount (tokensOf xs s) → (madeUntil xs s k).fb = (made k).fb) :
    Transmits i s (applyAll xs s) made (tokensOf xs s) :=
  ⟨completes_of_items hexec htests hx (by omega) hr, hangs_of_items hexec htests hx hcost hr hmade⟩

/-- An operation that is one command frame (R264). -/
theorem transmits_of_cmd {i : Instr} {tests : List (Bool × RefuseReason)} {cmds : List Byte} {s : State}
    (hexec : exec i s = command i tests (sendCmd s.params cmds) s) (htests : firstFailing tests = none)
    (hlen : cmds.length ≤ 1000) (hr : s.ready) :
    Transmits i s s (fun _ => s) (cmdTokens s.params cmds) := by
  rw [sendCmd_code] at hexec
  have hf : ∀ x ∈ [cmdItem s.params cmds], ∃ c l, x = .frame c l := by
    intro x hx
    rw [List.mem_singleton] at hx
    exact ⟨_, _, hx⟩
  have := transmits_of_items (made := fun _ => s) hexec htests (by simpa using cmdItem_plain s.params cmds) ?_ hr
    (fun k _ => by rw [madeUntil_frames hf])
  · rw [cmdItem_tokens, applyAll_frames hf] at this
    exact this
  · simp only [costOf, List.map_cons, List.map_nil, List.sum_cons, List.sum_nil, cmdItem, Item.cost, List.length_map,
      sliceTicks]
    omega

/-- An operation that writes `FB`, sets the cursor and pushes data: RAMUPDATEBYTE and the pixel operations (R277, R344). -/
theorem transmits_of_push {i : Instr} {tests : List (Bool × RefuseReason)} {s : State} {srcs : List Src} {x : Item}
    {c p : Nat} (hx : ∀ c l, x ≠ .frame c l)
    (e : exec i s =
      command i tests (codeOf s.params [x] ++ (cursorFrame s.params c p ++ sendData s.params srcs)) s)
    (ht : firstFailing tests = none) (hp : ∀ v ∈ srcs, v ≠ .draw) (hl : srcs.length ≤ 2000) (hr : s.ready) :
    Transmits i s (x.apply s) (fun _ => x.apply s)
      (cursorTokens s.params c p ++ dataTokens s.params (srcs.map (·.value (x.apply s)))) := by
  have hf : ∀ y ∈ [cursorItem s.params c p] ++ dataItems s.params srcs, ∃ c l, y = .frame c l := by
    intro y hy
    simp only [List.mem_append, List.mem_singleton] at hy
    rcases hy with rfl | hy
    · exact ⟨_, _, rfl⟩
    · exact dataItems_frames _ _ y hy
  have hp' := x.apply_params s
  obtain ⟨-, htk, -⟩ := Item.update hx s.params
  have hxt : tokensOf [x] s = [] := by simp [tokensOf, htk s]
  have := transmits_of_items (made := fun _ => x.apply s) (i := i) (s := s) (tests := tests)
    (xs := [x] ++ ([cursorItem s.params c p] ++ dataItems s.params srcs))
    (by rw [e, codeOf_append _ [x], codeOf_append, cursorFrame_code, sendData_code]) ht ?_ ?_ hr ?_
  · have e1 : applyAll [x] s = x.apply s := rfl
    rw [applyAll_append, applyAll_frames hf, tokensOf_append, hxt, e1, tokensOf_append] at this
    have e5 := cursorItem_tokens (x.apply s) c p
    have e6 := dataItems_tokens (x.apply s) srcs
    rw [hp'] at e5 e6
    have e4 : applyAll [cursorItem s.params c p] (x.apply s) = x.apply s :=
      applyAll_frames (fun y hy => hf y (List.mem_append_left _ hy)) _
    rw [e4, e5, e6] at this
    exact this
  · intro y hy
    simp only [List.mem_append, List.mem_singleton] at hy
    rcases hy with rfl | rfl | hx
    · cases y
      case frame c l => exact absurd rfl (hx c l)
      all_goals trivial
    · exact cmdItem_plain _ _
    · exact dataItems_plain _ hp y hx
  · rw [costOf_append, costOf_append]
    have h1 := dataItems_cost s.params srcs
    have h2 : costOf [x] = 2 := by cases x <;> first | rfl | exact absurd rfl (hx _ _)
    have h3 : costOf [cursorItem s.params c p] = 39 := rfl
    rw [h2, h3]
    simp only [sliceTicks]
    omega
  · intro k _
    rw [madeUntil_append, hxt]
    simp only [byteCount_nil, Nat.not_lt_zero, if_false]
    rw [madeUntil_frames hf]
    rfl

/-! ### Plotted points (R344) -/

theorem plotItems_plain (q : Params) (v : Bool) (p : Point) : ∀ x ∈ plotItems q v p, x.plain := by
  intro x hx
  unfold plotItems at hx
  split at hx
  · rcases List.mem_cons.1 hx with rfl | hx
    · split <;> trivial
    · rcases List.mem_cons.1 hx with rfl | hx
      · exact cmdItem_plain _ _
      · exact dataItems_plain q (srcs := [.fb (pixelIndex p)]) (by simp) x hx
  · simp at hx

theorem plotItems_cost (q : Params) (v : Bool) (p : Point) : costOf (plotItems q v p) ≤ 80 := by
  unfold plotItems
  split
  · have h1 := dataItems_cost q [.fb (pixelIndex p)]
    simp only [costOf, List.map_cons, List.sum_cons, List.length_singleton] at h1 ⊢
    have h2 : (if v = true then Item.fbOr (pixelIndex p) (pixelMask p) else Item.fbClr (pixelIndex p) (pixelMask p)).cost = 2 := by
      split <;> rfl
    rw [h2]
    simp only [cursorItem, cmdItem, Item.cost, List.length_map, List.length_cons, List.length_nil]
    omega
  · simp [costOf]

theorem plotItems_apply (s : State) (p : Point) : applyAll (plotItems s.params true p) s = s.plotted p := by
  unfold plotItems State.plotted
  split
  · show applyAll (dataItems s.params _) (s.fbWrite _ _) = _
    rw [dataItems_apply]
  · rfl

theorem State.plotted_params (s : State) (p : Point) : (s.plotted p).params = s.params := by
  unfold State.plotted
  split <;> rfl

theorem plotItems_tokens (s : State) (p : Point) : tokensOf (plotItems s.params true p) s = plottedTokens [p] s := by
  unfold plotItems plottedTokens State.plotted
  split
  · rename_i h
    have e1 := cursorItem_tokens (s.fbWrite (pixelIndex p) (s.fbByte (pixelIndex p) ||| pixelMask p)) p.1.toNat (p.2.toNat / 8)
    have e2 := dataItems_tokens (s.fbWrite (pixelIndex p) (s.fbByte (pixelIndex p) ||| pixelMask p)) [.fb (pixelIndex p)]
    simp only [tokensOf, List.append_nil] at e1
    simp only [plottedTokens, List.append_nil]
    exact (List.nil_append _).trans (congrArg₂ (· ++ ·) e1 e2)
  · simp [tokensOf, plottedTokens]

theorem plotItems_made (s : State) (p : Point) {k : Nat} (hk : k < byteCount (tokensOf (plotItems s.params true p) s)) :
    madeUntil (plotItems s.params true p) s k = s.plotted p := by
  rw [← plotItems_apply]
  unfold plotItems at hk ⊢
  split
  · have hf : ∀ x ∈ cursorItem s.params p.1.toNat (p.2.toNat / 8) :: dataItems s.params [.fb (pixelIndex p)],
        ∃ c l, x = .frame c l := by
      intro x hx
      rcases List.mem_cons.1 hx with rfl | hx
      · exact ⟨_, _, rfl⟩
      · exact dataItems_frames _ _ x hx
    have e1 := madeUntil_frames hf (s.fbWrite (pixelIndex p) (s.fbByte (pixelIndex p) ||| pixelMask p)) k
    have e2 := applyAll_frames hf (s.fbWrite (pixelIndex p) (s.fbByte (pixelIndex p) ||| pixelMask p))
    exact e1.trans e2.symm
  · rename_i h
    simp [h, tokensOf] at hk

theorem plottedTokens_cons (p : Point) (ps : List Point) (s : State) :
    plottedTokens (p :: ps) s = plottedTokens [p] s ++ plottedTokens ps (s.plotted p) := by
  simp [plottedTokens]

/-- The pieces of points plotted in order: their effect, their image, and `FB` while a byte of it goes out. -/
theorem plotsItems (ps : List Point) (s : State) :
    applyAll (ps.flatMap (plotItems s.params true)) s = s.plottedAll ps ∧
      tokensOf (ps.flatMap (plotItems s.params true)) s = plottedTokens ps s ∧
      ∀ k, k < byteCount (plottedTokens ps s) →
        madeUntil (ps.flatMap (plotItems s.params true)) s k = s.plottedUntil ps k := by
  induction ps generalizing s with
  | nil => exact ⟨rfl, rfl, fun _ _ => rfl⟩
  | cons p ps ih =>
    obtain ⟨i1, i2, i3⟩ := ih (s.plotted p)
    rw [State.plotted_params] at i1 i2 i3
    have ht := plotItems_tokens s p
    refine ⟨?_, ?_, ?_⟩
    · rw [List.flatMap_cons, applyAll_append, plotItems_apply, i1]
      rfl
    · rw [List.flatMap_cons, tokensOf_append, plotItems_apply, i2, ht, ← plottedTokens_cons]
    · intro k hk
      rw [plottedTokens_cons, byteCount_append] at hk
      rw [List.flatMap_cons, madeUntil_append, plotItems_apply]
      simp only [State.plottedUntil, ← ht]
      split
      · rename_i h
        exact plotItems_made s p h
      · rename_i h
        refine i3 _ ?_
        rw [← ht] at hk
        omega

/-- An operation that plots points (R346 to R354). -/
theorem transmits_of_points {i : Instr} {tests : List (Bool × RefuseReason)} {ps : List Point} {s : State}
    (hexec : exec i s = command i tests (plotAll s.params ps) s) (htests : firstFailing tests = none)
    (hlen : ps.length ≤ 1000000) (hr : s.ready) :
    Transmits i s (s.plottedAll ps) (s.plottedUntil ps) (plottedTokens ps s) := by
  rw [plotAll_code] at hexec
  obtain ⟨h1, h2, h3⟩ := plotsItems ps s
  have hcost : ∀ l : List Point, costOf (l.flatMap (plotItems s.params true)) ≤ 80 * l.length := by
    intro l
    induction l with
    | nil => simp [costOf]
    | cons p l ih =>
      rw [List.flatMap_cons, costOf_append, List.length_cons]
      have := plotItems_cost s.params true p
      omega
  have := transmits_of_items (made := s.plottedUntil ps) hexec htests ?_ ?_ hr (fun k hk => by rw [h3 k (by rwa [h2] at hk)])
  · rwa [h1, h2] at this
  · intro x hx
    obtain ⟨p, -, hx⟩ := List.mem_flatMap.1 hx
    exact plotItems_plain _ _ _ x hx
  · have := hcost ps
    simp only [sliceTicks]
    omega

end Sys2Proof.Machine
end

