-- ==== Sys2Proof/Laws/Respond.lean ====
section
/-! SUPPORT. Laws/Respond.lean: the responder bursts run to their end under `run_to_wait` (42 R232, R244). -/

namespace Sys2Proof.Machine

/-- What holds all through a responder operation that started in `s0`, with the bytes `vs` stored from `p` on. -/
def Serves (s0 : State) (p : Nat) (vs : List Byte) (s : State) : Prop := (State.stored p vs s0).servedBy s = s

/-- The issue of a command word is among what a responder operation may change. -/
theorem Serves.loaded {s t : State} {w : Word} {c : List Micro} {p : Nat} {vs : List Byte} (h : Serves (s.load w c) p vs t) :
    Serves s p vs t := by
  unfold Serves at h ⊢
  rw [State.stored_bufWrite_fields] at h ⊢
  rw [State.stored_buf_congr p vs (s := s.load w c) (t := s) rfl] at h
  exact h

theorem Serves.refl (s : State) (p : Nat) : Serves s p [] s := rfl

namespace Serves

variable {s0 s : State} {p : Nat} {vs : List Byte}

theorem fields (h : Serves s0 p vs s) :
    s.faulted = s0.faulted ∧ s.params = s0.params ∧ s.bus.pe = s0.bus.pe ∧ s.bus.start = s0.bus.start ∧
      s.bus.cfg = s0.bus.cfg := by
  have e := State.stored_bufWrite_fields p vs s0
  unfold Serves at h
  rw [e] at h
  rw [← h]
  exact ⟨rfl, rfl, rfl, rfl, rfl⟩

theorem buf (h : Serves s0 p vs s) : s.buf = (State.stored p vs s0).buf := by
  unfold Serves at h
  rw [← h]; rfl

theorem goto (h : Serves s0 p vs s) (c : List Micro) : Serves s0 p vs (s.goto c) := by
  unfold Serves at h ⊢
  rw [← h]; rfl

theorem reschedule (h : Serves s0 p vs s) (q : Script Agent) (d : Nat) : Serves s0 p vs (s.reschedule q d) := by
  unfold Serves at h ⊢
  rw [← h]; rfl

theorem drawn (h : Serves s0 p vs s) : Serves s0 p vs s.drawn := by
  unfold Serves at h ⊢
  rw [← h]; rfl

theorem emit (h : Serves s0 p vs s) (t : Token) : Serves s0 p vs (s.emit t) := by
  unfold Serves at h ⊢
  rw [← h]; rfl

theorem askAck (h : Serves s0 p vs s) : Serves s0 p vs s.askAck.2 := by
  unfold Serves at h ⊢
  rw [← h]; rfl

theorem moved (h : Serves s0 p vs s) (ms : List PeerMove) :
    Serves s0 p vs { s with peer := { s.peer with moves := ms } } := by
  unfold Serves at h ⊢
  rw [← h]; rfl

theorem bufWrite (h : Serves s0 p vs s) (v : Byte) : Serves s0 p (vs ++ [v]) (s.bufWrite (p + vs.length) v) := by
  unfold Serves at h ⊢
  rw [State.stored_snoc, ← h]; rfl

theorem withBif (h : Serves s0 p vs s) {b : Bif} (hb : (s.servedBy (s.withBif b)).bus = b) :
    Serves s0 p vs (s.withBif b) := by
  have : (State.stored p vs s0).servedBy (s.withBif b) = s.servedBy (s.withBif b) := by
    unfold Serves at h
    conv_rhs => rw [← h]
    rfl
  unfold Serves
  rw [this]
  exact congrArg (fun x => ({ s with bus := x } : State)) hb

theorem wrDr (h : Serves s0 p vs s) (hs : s.bus.sb = false) (v : Byte) :
    Serves s0 p vs (s.withBif (s.bus.wrDr v)) := by
  have e : s.bus.wrDr v = if s.bus.phase = .data ∧ s.bus.dir = .tx then { s.bus with dr := v, drFull := true }
      else { s.bus with dr := v } := by simp [Bif.wrDr, hs]
  rw [e]
  refine h.withBif ?_
  split <;> rfl

end Serves

/-- What a responder operation needs of the parameters. -/
structure CanServe (s0 : State) : Prop where
  faulted : s0.faulted = none
  budget : s0.params.waitBudget = none
  sched : s0.params.sched = .runToWait

/-- A sequencer step that is no wait. -/
theorem CanServe.seq {Q : State → Prop} {s0 s : State} {p n : Nat} {vs : List Byte} (h0 : CanServe s0)
    (h : Serves s0 p vs s) {m : Micro} {rest : List Micro} (hb : s.busy = true) (hu : s.upc = m :: rest)
    (hm : ∀ c, m ≠ .wait c) (next : Reaches Q n (m.run rest s)) : Reaches Q (n + 1) s := by
  obtain ⟨h1, h2, -⟩ := h.fields
  refine Reaches.seq hb (h1.trans h0.faulted) hu hm (by rw [h2]; exact h0.sched) ?_
  rw [State.seqStep_eq hu]
  exact next

/-- A move at a wait: the sequencer's if the wait holds, or another agent's. -/
theorem CanServe.wait {Q : State → Prop} {s0 s : State} {p n : Nat} {vs : List Byte} (h0 : CanServe s0)
    (h : Serves s0 p vs s) {c : Cond} {rest : List Micro} (hb : s.busy = true) (hu : s.upc = .wait c :: rest)
    (hwait : c.holds s.bus = false → s.bus.lineOn = true ∨ s.peerOn = true)
    (hseq : c.holds s.bus = true → ∀ q d, Reaches Q n ((s.reschedule q d).goto rest))
    (hline : s.bus.lineOn = true → ∀ q d, Reaches Q n (s.reschedule q d).lineStep)
    (hpeer : s.peerOn = true → ∀ q d, Reaches Q n (s.reschedule q d).peerStep) : Reaches Q (n + 1) s := by
  obtain ⟨h1, h2, -⟩ := h.fields
  have hf : s.faulted = none := h1.trans h0.faulted
  have hbud : s.params.waitBudget = none := by rw [h2]; exact h0.budget
  have hw : s.waiting = !c.holds s.bus := by simp [State.waiting, hu]
  have ho : ∀ a ∈ s.others, ∀ q d, Reaches Q n ((s.reschedule q d).agentStep a) := by
    intro a ha q d
    rcases State.mem_others ha with ⟨rfl, hl⟩ | ⟨rfl, hp⟩
    · exact hline hl q d
    · exact hpeer hp q d
  by_cases hc : c.holds s.bus = true
  · have hy : s.yields = true := by simp [State.yields, hu]
    obtain ⟨q, d, ⟨hm, e⟩ | ⟨hm, e⟩ | ⟨hm, e⟩⟩ := s.moveOne_spec (opts := .seq :: s.others) State.seqStep (by simp)
    · refine .move (t := (s.reschedule q d).seqStep) (by simp [State.tick, hb, hf, hu, hw, hc, hy, e]) ?_
      rw [State.seqStep_eq (s := s.reschedule q d) hu]
      exact hseq hc q d
    · refine .move (t := (s.reschedule q d).lineStep) (by simp [State.tick, hb, hf, hu, hw, hc, hy, e]) ?_
      exact ho .line (by simpa using hm) q d
    · refine .move (t := (s.reschedule q d).peerStep) (by simp [State.tick, hb, hf, hu, hw, hc, hy, e]) ?_
      exact ho .peer (by simpa using hm) q d
  · have hc : c.holds s.bus = false := by simpa using hc
    have hne : s.others ≠ [] := by
      rw [State.others_eq]
      rcases hwait hc with h | h <;> simp [h]
    have hne' : s.others.isEmpty = false := by simpa using hne
    obtain ⟨q, d, ⟨hm, e⟩ | ⟨hm, e⟩ | ⟨hm, e⟩⟩ := s.moveOne_spec (opts := s.others) id hne
    · rcases State.mem_others hm with ⟨hx, -⟩ | ⟨hx, -⟩ <;> cases hx
    · refine .move (t := (s.reschedule q d).lineStep) (by simp [State.tick, hb, hf, hu, hw, hc, hbud, hne', e]) ?_
      exact ho .line hm q d
    · refine .move (t := (s.reschedule q d).peerStep) (by simp [State.tick, hb, hf, hu, hw, hc, hbud, hne', e]) ?_
      exact ho .peer hm q d

/-! ### Being addressed -/

/-- The block has been addressed (R175). -/
structure Bif.Matched (read : Bool) (b : Bif) : Prop where
  pe : b.pe = true
  role : b.role = .slave
  opened : b.opened = true
  phase : b.phase = .addrAcked
  addr : b.addr = true
  dir : b.dir = if read then .tx else .rx
  ack : b.ack = true
  start : b.start = false
  sb : b.sb = false
  af : b.af = false
  stopf : b.stopf = false
  drFull : b.drFull = false
  shFull : b.shFull = false

theorem Bif.Matched.lineOn {b : Bif} {read : Bool} (h : b.Matched read) : b.lineOn = false := by
  simp [Bif.lineOn, Bif.byteOn, Bif.addrOn, Bif.loadOn, Bif.txByteOn, Bif.rxByteOn, Bif.startOn, Bif.stopOn, h.role,
    h.phase, h.start]

theorem Bif.listening_lineOn {b : Bif} (h : b.listening) : b.lineOn = false := by
  obtain ⟨h1, h2, h3, h4, h41, h5, h6, h7, h8, h9⟩ := h
  simp [Bif.lineOn, Bif.byteOn, Bif.addrOn, Bif.loadOn, Bif.txByteOn, Bif.rxByteOn, Bif.startOn, Bif.stopOn, *]

/-- Both responder operations up to their `rd_SR2()`: `ACK` is set, the peer addresses the block, `ADDR` is cleared. -/
theorem reaches_opened {Q : State → Prop} {s0 s : State} {n : Nat} (h0 : CanServe s0) {p : Nat} (h : Serves s0 p [] s)
    (hb : s.bus.listening) {sel : OwnSel} {read : Bool} {ms : List PeerMove} (hsel : s.bus.cfg.answers sel read)
    (hm : s.peer.moves = .address sel read :: ms) (hbusy : s.busy = true) {rest : List Micro}
    (hu : s.upc = .set .ack :: .wait .addr :: .rdSr2 :: rest)
    (next : ∀ u, Serves s0 p [] u → u.bus.Matched read → u.bus.cfg = s.bus.cfg → u.peer.moves = ms →
      u.peer.acks = s.peer.acks → u.sched = s.sched →
      u.wire = s.wire ++ [Token.start, .byte (s.bus.cfg.matchByte sel read) true] →
      Reaches Q n ((u.withBif u.bus.rdSr2).goto rest)) :
    Reaches Q (n + 4) s := by
  have hline := Bif.listening_lineOn hb
  obtain ⟨h1, h2, h3, h4, h41, h5, h6, h7, h8, h9⟩ := hb
  refine h0.seq h hbusy hu (by simp) ?_
  change Reaches _ _ ((s.withBif (s.bus.setBit .ack true)).goto (.wait .addr :: .rdSr2 :: rest))
  have hv : Serves s0 p [] ((s.withBif (s.bus.setBit .ack true)).goto (.wait .addr :: .rdSr2 :: rest)) :=
    (h.withBif rfl).goto _
  generalize hg : (s.withBif (s.bus.setBit .ack true)).goto (.wait .addr :: .rdSr2 :: rest) = u at hv ⊢
  have ubus : u.bus = { s.bus with ack := true } := by rw [← hg]; rfl
  have ubusy : u.busy = true := by rw [← hg]; rfl
  have uupc : u.upc = .wait .addr :: .rdSr2 :: rest := by rw [← hg]; rfl
  have umv : u.peer = s.peer := by rw [← hg]; rfl
  have uw : u.wire = s.wire := by rw [← hg]; rfl
  have usched : u.sched = s.sched := by rw [← hg]; rfl
  clear hg
  have uline : u.bus.lineOn = false := by
    rw [ubus]
    simp [Bif.lineOn, Bif.byteOn, Bif.addrOn, Bif.loadOn, Bif.txByteOn, Bif.rxByteOn, Bif.startOn, Bif.stopOn, *]
  have upeer : u.peerOn = true := by
    obtain ⟨a1, a2⟩ := hsel
    simp only [State.peerOn, umv, hm, PeerMove.on, ubus, h1, h2, h3, h4, a1]
    cases sel <;> simp_all
  obtain ⟨f1, f2, -⟩ := hv.fields
  refine Reaches.only (a := .peer) ubusy (f1.trans h0.faulted) (by simp [uupc]) (by rw [f2]; exact h0.budget)
    (by simp [State.waiting, uupc, Cond.holds, ubus, h5]) (by simp [State.others_eq, uline, upeer]) ?_
  have hstep : u.agentStep .peer =
      ((State.emit (.byte (u.bus.cfg.matchByte sel read) true) (State.emit .start
        { u with peer := { u.peer with moves := ms } })).withBif (u.bus.slaveMatch read)) := by
    have e : u.peer.moves = .address sel read :: ms := by rw [umv]; exact hm
    simp only [State.agentStep, State.peerStep, e]
  rw [hstep]
  have hv2 : Serves s0 p [] ((State.emit (.byte (u.bus.cfg.matchByte sel read) true) (State.emit .start
      { u with peer := { u.peer with moves := ms } })).withBif (u.bus.slaveMatch read)) :=
    ((hv.moved ms).emit _ |>.emit _).withBif rfl
  generalize hg : (State.emit (.byte (u.bus.cfg.matchByte sel read) true) (State.emit .start
      { u with peer := { u.peer with moves := ms } })).withBif (u.bus.slaveMatch read) = v at hv2 ⊢
  have vbus : v.bus = u.bus.slaveMatch read := by rw [← hg]; rfl
  have vmat : v.bus.Matched read := by
    rw [vbus, ubus]
    exact ⟨h1, rfl, rfl, rfl, rfl, rfl, rfl, h4, h41, h6, h7, h8, h9⟩
  have vcfg : v.bus.cfg = s.bus.cfg := by rw [vbus, ubus]; rfl
  have vbusy : v.busy = true := by rw [← hg]; exact ubusy
  have vupc : v.upc = .wait .addr :: .rdSr2 :: rest := by rw [← hg]; exact uupc
  have vmv : v.peer.moves = ms := by rw [← hg]; rfl
  have vacks : v.peer.acks = s.peer.acks := by rw [← hg, ← umv]; rfl
  have vsched : v.sched = s.sched := by rw [← hg, ← usched]; rfl
  have vw : v.wire = s.wire ++ [Token.start, .byte (s.bus.cfg.matchByte sel read) true] := by
    rw [← hg, ← uw]
    simp [ubus]
  clear hg
  have vpeer : v.peerOn = false := by
    unfold State.peerOn
    split
    · rfl
    · rename_i m _ _
      cases m <;> simp [PeerMove.on, vmat.role, vmat.phase]
  obtain ⟨k1, -⟩ := hv2.fields
  refine Reaches.alone vbusy (k1.trans h0.faulted) (by simp [vupc])
    (by simp [State.waiting, vupc, Cond.holds, vmat.addr]) (by simp [State.others_eq, vmat.lineOn, vpeer]) ?_
  rw [State.seqStep_eq vupc]
  refine h0.seq (hv2.goto _) rfl rfl (by simp) ?_
  exact next (v.goto _) (hv2.goto _) vmat vcfg vmv vacks vsched vw

/-! ### RDBURST, responder (R244) -/

/-- Receiving as responder: `vs` stored, `hs` received and not read, `cs` still to come, then the stop. -/
structure Srx (s0 : State) (p : Nat) (w : List Token) (vs hs cs : List Byte) (s : State) : Prop where
  serves : Serves s0 p vs s
  pe : s.bus.pe = true
  role : s.bus.role = .slave
  phase : s.bus.phase = .data
  dir : s.bus.dir = .rx
  addr : s.bus.addr = false
  ack : s.bus.ack = true
  latch : s.bus.ackLatch = true
  more : s.bus.more = true
  start : s.bus.start = false
  stopf : s.bus.stopf = false
  ord : s.bus.ordered
  held : s.bus.held = hs
  moves : s.peer.moves = cs.map PeerMove.send ++ [PeerMove.stop]
  wire : s.wire = w ++ (vs ++ hs).map (Token.byte · true)

/-- Receiving as responder, after the peer's stop. -/
structure Sover (s0 : State) (p : Nat) (w : List Token) (vs hs : List Byte) (s : State) : Prop where
  serves : Serves s0 p vs s
  role : s.bus.role = .idle
  phase : s.bus.phase = .data
  dir : s.bus.dir = .rx
  start : s.bus.start = false
  stopf : s.bus.stopf = true
  opened : s.bus.opened = false
  ord : s.bus.ordered
  held : s.bus.held = hs
  moves : s.peer.moves = []
  wire : s.wire = w ++ (vs ++ hs).map (Token.byte · true) ++ [Token.stop]

/-- A responder reception is complete. -/
structure Served (s0 : State) (p : Nat) (w : List Token) (vs : List Byte) (t : State) : Prop where
  serves : Serves s0 p vs t
  upc : t.upc = []
  busy : t.busy = false
  stopf : t.bus.stopf = false
  opened : t.bus.opened = false
  role : t.bus.role = .idle
  moves : t.peer.moves = []
  wire : t.wire = w ++ vs.map (Token.byte · true) ++ [Token.stop]

section

variable {s0 s : State} {p n : Nat} {w : List Token} {vs hs cs : List Byte} {Q : State → Prop}

theorem Srx.lineOn (h : Srx s0 p w vs hs cs s) : s.bus.lineOn = false := by
  simp [Bif.lineOn, Bif.byteOn, Bif.addrOn, Bif.loadOn, Bif.txByteOn, Bif.rxByteOn, Bif.startOn, Bif.stopOn, h.role,
    h.dir, h.start]

theorem Sover.lineOn (h : Sover s0 p w vs hs s) : s.bus.lineOn = false := by
  simp [Bif.lineOn, Bif.byteOn, Bif.addrOn, Bif.loadOn, Bif.txByteOn, Bif.rxByteOn, Bif.startOn, Bif.stopOn, h.role,
    h.dir, h.start]

theorem Srx.peerOn (h : Srx s0 p w vs hs cs s) : s.peerOn = decide (hs.length ≤ 1) := by
  have hl : s.bus.shFull = decide (hs.length = 2) := by rw [Bif.shFull_of_held h.ord, h.held]
  have hle : hs.length ≤ 2 := by rw [← h.held]; exact s.bus.held_length
  have e : (!decide (hs.length = 2)) = decide (hs.length ≤ 1) := by
    by_cases h1 : hs.length ≤ 1
    · have : hs.length ≠ 2 := by omega
      simp [h1, this]
    · have : hs.length = 2 := by omega
      simp [this]
  cases cs with
  | nil => simp [State.peerOn, h.moves, PeerMove.on, h.pe, h.role, h.phase, h.addr, hl, e]
  | cons c cs => simp [State.peerOn, h.moves, PeerMove.on, h.pe, h.role, h.phase, h.addr, h.dir, h.more, hl, e]

theorem Srx.holds (h : Srx s0 p w vs hs cs s) : Cond.rxneOrStopf.holds s.bus = decide (0 < hs.length) := by
  simp only [Cond.holds, Bif.rxne, h.dir, h.stopf]
  rw [Bif.drFull_of_held, h.held]
  simp

theorem Srx.reschedule (h : Srx s0 p w vs hs cs s) (q : Script Agent) (d : Nat) :
    Srx s0 p w vs hs cs (s.reschedule q d) :=
  ⟨h.serves.reschedule q d, h.pe, h.role, h.phase, h.dir, h.addr, h.ack, h.latch, h.more, h.start, h.stopf, h.ord,
    h.held, h.moves, h.wire⟩

theorem Srx.goto (h : Srx s0 p w vs hs cs s) (c : List Micro) : Srx s0 p w vs hs cs (s.goto c) :=
  ⟨h.serves.goto c, h.pe, h.role, h.phase, h.dir, h.addr, h.ack, h.latch, h.more, h.start, h.stopf, h.ord,
    h.held, h.moves, h.wire⟩

theorem Sover.reschedule (h : Sover s0 p w vs hs s) (q : Script Agent) (d : Nat) :
    Sover s0 p w vs hs (s.reschedule q d) :=
  ⟨h.serves.reschedule q d, h.role, h.phase, h.dir, h.start, h.stopf, h.opened, h.ord, h.held, h.moves, h.wire⟩

theorem Sover.goto (h : Sover s0 p w vs hs s) (c : List Micro) : Sover s0 p w vs hs (s.goto c) :=
  ⟨h.serves.goto c, h.role, h.phase, h.dir, h.start, h.stopf, h.opened, h.ord, h.held, h.moves, h.wire⟩

theorem Serves.lineRxByte (h : Serves s0 p vs s) (v : Byte) : Serves s0 p vs (s.withBif (s.bus.lineRxByte v)) := by
  refine h.withBif ?_
  simp only [Bif.lineRxByte]
  split <;> rfl

theorem Serves.rdDr (h : Serves s0 p vs s) : Serves s0 p vs (s.withBif s.bus.rdDr) := by
  refine h.withBif ?_
  simp only [Bif.rdDr]
  split
  · split <;> rfl
  · rfl

/-- The peer sends a byte. -/
theorem Srx.byte {x : Byte} (h : Srx s0 p w vs hs (x :: cs) s) (hl : hs.length ≤ 1) :
    Srx s0 p w vs (hs ++ [x]) cs s.peerStep ∧ s.peerStep.upc = s.upc ∧ s.peerStep.busy = s.busy := by
  have hs' : s.bus.shFull = false := by
    rw [Bif.shFull_of_held h.ord, h.held]
    have : hs.length ≠ 2 := by omega
    simp [this]
  have hr : s.bus.rxAck = true := by
    cases hp : s.bus.pos <;> simp [Bif.rxAck, hp, h.ack, h.latch]
  have e : s.peerStep = ((State.emit (.byte x true)
      { s with peer := { s.peer with moves := cs.map PeerMove.send ++ [PeerMove.stop] } }).withBif (s.bus.lineRxByte x)) := by
    have hm := h.moves
    simp only [List.map_cons, List.cons_append] at hm
    simp only [State.peerStep, hm, hr]
  rw [e]
  refine ⟨⟨((h.serves.moved _).emit _).lineRxByte x, ?_, ?_, ?_, ?_, ?_, ?_, ?_, ?_, ?_, ?_, ?_, ?_, rfl, ?_⟩, rfl, rfl⟩
  · simpa using h.pe
  · simpa using h.role
  · simpa using h.phase
  · simpa using h.dir
  · simpa using h.addr
  · simpa using h.ack
  · simpa using h.ack
  · simp [h.more, hr]
  · simpa using h.start
  · simpa using h.stopf
  · simp [Bif.ordered]
  · have hh := h.held
    have ho := h.ord
    cases hd : s.bus.drFull <;> simp [Bif.held, hd, hs', Bif.ordered] at hh ho ⊢ <;> simp [← hh]
  · simp [h.wire]

/-- The peer ends the transfer. -/
theorem Srx.stop (h : Srx s0 p w vs hs [] s) :
    Sover s0 p w vs hs s.peerStep ∧ s.peerStep.upc = s.upc ∧ s.peerStep.busy = s.busy := by
  have e : s.peerStep = ((State.emit .stop
      { s with peer := { s.peer with moves := [] } }).withBif s.bus.slaveStop) := by
    have hm := h.moves
    simp only [List.map_nil, List.nil_append] at hm
    simp only [State.peerStep, hm]
  rw [e]
  refine ⟨⟨((h.serves.moved []).emit _).withBif rfl, rfl, h.phase, h.dir, h.start, ?_, rfl, h.ord, h.held, rfl, ?_⟩,
    rfl, rfl⟩
  · simp [Bif.slaveStop, h.more]
  · simp [h.wire]

/-- A byte received as responder is read and stored. -/
theorem Srx.take {x : Byte} (h : Srx s0 p w vs (x :: hs) cs s) :
    Srx s0 p w (vs ++ [x]) hs cs ((s.bufWrite (p + vs.length) s.bus.dr).withBif s.bus.rdDr) := by
  obtain ⟨h1, h2, h3⟩ := Bif.rdDr_held h.dir h.ord h.held
  rw [h1]
  refine ⟨(h.serves.bufWrite x).rdDr, ?_, ?_, ?_, ?_, ?_, ?_, ?_, ?_, ?_, ?_, h3, h2, h.moves, ?_⟩
  · simpa using h.pe
  · simpa using h.role
  · simpa using h.phase
  · simpa using h.dir
  · simpa using h.addr
  · simpa using h.ack
  · simpa using h.latch
  · simpa using h.more
  · simpa using h.start
  · simpa using h.stopf
  · simpa using h.wire

theorem Sover.take {x : Byte} (h : Sover s0 p w vs (x :: hs) s) :
    Sover s0 p w (vs ++ [x]) hs ((s.bufWrite (p + vs.length) s.bus.dr).withBif s.bus.rdDr) := by
  obtain ⟨h1, h2, h3⟩ := Bif.rdDr_held h.dir h.ord h.held
  rw [h1]
  refine ⟨(h.serves.bufWrite x).rdDr, ?_, ?_, ?_, ?_, ?_, ?_, h3, h2, h.moves, ?_⟩
  · simpa using h.role
  · simpa using h.phase
  · simpa using h.dir
  · simpa using h.start
  · simpa using h.stopf
  · simpa using h.opened
  · simpa using h.wire

/-- The end of the operation, once the stop has been seen. -/
theorem reaches_wrCr1 (h0 : CanServe s0) (hb : s.busy = true) (hu : s.upc = [.wrCr1]) (h : Sover s0 p w vs [] s) :
    Reaches (Served s0 p w vs) 1 s := by
  refine h0.seq h.serves hb hu (by simp) ?_
  refine .here ⟨(h.serves.withBif (b := s.bus.wrCr1) rfl).goto [], rfl, rfl, rfl, h.opened, h.role, h.moves, ?_⟩
  have := h.wire
  rwa [List.append_nil] at this

theorem reaches_sover (h0 : CanServe s0) (hb : s.busy = true)
    (hu : s.upc = [.wait .rxneOrStopf, .rxTest p n vs.length, .wrCr1]) (h : Sover s0 p w vs hs s)
    (hl : hs.length ≤ 1) (hn : vs.length + hs.length ≤ n) : Reaches (Served s0 p w (vs ++ hs)) 5 s := by
  refine h0.wait h.serves hb hu ?_ ?_ ?_ ?_
  · intro hc; simp [Cond.holds, h.stopf] at hc
  · intro _ q d
    have h' := (h.reschedule q d).goto [.rxTest p n vs.length, .wrCr1]
    refine h0.seq h'.serves rfl rfl (by simp) ?_
    cases hs with
    | nil =>
      have hr : ((s.reschedule q d).goto [.rxTest p n vs.length, .wrCr1]).bus.rxne = false := by
        have := h.held
        rw [Bif.rxne, Bif.drFull_of_held]
        simp [this]
      simp only [Micro.run, hr, Bool.false_eq_true, if_false]
      have h2 := h'.goto [.rxUntil p n vs.length, .wrCr1]
      refine h0.seq (n := 2) h2.serves rfl rfl (by simp) ?_
      have hst : (((s.reschedule q d).goto [.rxTest p n vs.length, .wrCr1]).goto
          [.rxUntil p n vs.length, .wrCr1]).bus.stopf = true := h.stopf
      simp only [Micro.run, hst, if_true, List.append_nil]
      exact (reaches_wrCr1 h0 rfl rfl (h2.goto _)).mono (by omega)
    | cons x hs =>
      have hnil : hs = [] := by
        cases hs with
        | nil => rfl
        | cons => simp at hl
      subst hnil
      have hr : ((s.reschedule q d).goto [.rxTest p n vs.length, .wrCr1]).bus.rxne = true := by
        have := h.held
        have hd := h.dir
        rw [Bif.rxne, Bif.drFull_of_held]
        simp [this, hd]
      have hlt : ¬n ≤ vs.length := by simp at hn; omega
      simp only [Micro.run, hr, if_true, hlt, if_false]
      have h2 := h'.goto [.rxTake p n vs.length, .wrCr1]
      refine h0.seq (n := 2) h2.serves rfl rfl (by simp) ?_
      have h3 := h2.take.goto [.rxUntil p n (vs.length + 1), .wrCr1]
      refine h0.seq (n := 1) h3.serves rfl rfl (by simp) ?_
      have hst := h3.stopf
      simp only [Micro.run, hst, if_true]
      exact reaches_wrCr1 h0 rfl rfl (h3.goto _)
  · intro hl; rw [h.lineOn] at hl; cases hl
  · intro hp; simp [State.peerOn, h.moves] at hp

/-- The loop of the responder read, when the bytes fit (R244). -/
theorem reaches_srx (h0 : CanServe s0) :
    ∀ (k : Nat) (s : State) (vs hs cs : List Byte), 3 * cs.length + 2 * hs.length ≤ k →
      vs.length + hs.length + cs.length ≤ n → s.busy = true →
      s.upc = [.wait .rxneOrStopf, .rxTest p n vs.length, .wrCr1] → Srx s0 p w vs hs cs s →
      Reaches (Served s0 p w (vs ++ hs ++ cs)) (4 * k + 6) s := by
  intro k
  induction k with
  | zero =>
    intro s vs hs cs hk hn hb hu h
    have hc : cs = [] := by cases cs with
      | nil => rfl
      | cons => simp at hk
    have hh : hs = [] := by cases hs with
      | nil => rfl
      | cons => simp at hk
    subst hc hh
    refine h0.wait h.serves hb hu ?_ ?_ ?_ ?_
    · intro _; right; rw [h.peerOn]; rfl
    · intro hc; rw [h.holds] at hc; simp at hc
    · intro hl; rw [h.lineOn] at hl; cases hl
    · intro _ q d
      obtain ⟨g1, g2, g3⟩ := (h.reschedule q d).stop
      have := reaches_sover h0 (g3.trans hb) (g2.trans hu) g1 (by simp) hn
      simpa using this
  | succ k ih =>
    intro s vs hs cs hk hn hb hu h
    have hle : hs.length ≤ 2 := by rw [← h.held]; exact s.bus.held_length
    have e : 4 * (k + 1) + 6 = (4 * k + 9) + 1 := by omega
    rw [e]
    refine h0.wait h.serves hb hu ?_ ?_ ?_ ?_
    · intro hc
      right
      rw [h.holds] at hc
      rw [h.peerOn]
      simp at hc
      simp [hc]
    · intro hc q d
      rw [h.holds] at hc
      cases hs with
      | nil => simp at hc
      | cons x hs =>
        have h' := (h.reschedule q d).goto [.rxTest p n vs.length, .wrCr1]
        refine h0.seq (n := 4 * k + 8) h'.serves rfl rfl (by simp) ?_
        have hr : ((s.reschedule q d).goto [.rxTest p n vs.length, .wrCr1]).bus.rxne = true := by
          have := h.held
          have hd := h.dir
          rw [Bif.rxne, Bif.drFull_of_held]
          simp [this, hd]
        have hlt : ¬n ≤ vs.length := by simp at hn; omega
        simp only [Micro.run, hr, if_true, hlt, if_false]
        have h2 := h'.goto [.rxTake p n vs.length, .wrCr1]
        refine h0.seq (n := 4 * k + 7) h2.serves rfl rfl (by simp) ?_
        have h3 := h2.take.goto [.rxUntil p n (vs.length + 1), .wrCr1]
        refine h0.seq (n := 4 * k + 6) h3.serves rfl rfl (by simp) ?_
        have hst := h3.stopf
        simp only [Micro.run, hst, Bool.false_eq_true, if_false]
        have h4 := h3.goto [.wait .rxneOrStopf, .rxTest p n (vs ++ [x]).length, .wrCr1]
        have e2 : vs ++ x :: hs ++ cs = vs ++ [x] ++ hs ++ cs := by simp
        rw [e2]
        have := ih _ (vs ++ [x]) hs cs (by simp at hk; omega) (by simp at hn ⊢; omega) rfl rfl h4
        simpa using this
    · intro hl; rw [h.lineOn] at hl; cases hl
    · intro hp q d
      rw [h.peerOn] at hp
      have hsm : hs.length ≤ 1 := by simpa using hp
      cases cs with
      | nil =>
        obtain ⟨g1, g2, g3⟩ := (h.reschedule q d).stop
        have := reaches_sover h0 (g3.trans hb) (g2.trans hu) g1 hsm (by simpa using hn)
        simpa using this.mono (by omega)
      | cons x cs =>
        obtain ⟨g1, g2, g3⟩ := (h.reschedule q d).byte hsm
        have e2 : vs ++ hs ++ x :: cs = vs ++ (hs ++ [x]) ++ cs := by simp
        rw [e2]
        exact (ih _ vs (hs ++ [x]) cs (by simp at hk ⊢; omega) (by simp at hn ⊢; omega) (g3.trans hb) (g2.trans hu)
          g1).mono (by omega)

/-- RDBURST, responder, from its first micro-operation, when the peer writes no more than `n` bytes (R244). -/
theorem reaches_responderRead (h0 : CanServe s0) (h : Serves s0 p [] s) (hb : s.bus.listening) {sel : OwnSel}
    (hsel : s.bus.cfg.answers sel false) (hm : s.peer.moves = .address sel false :: (cs.map PeerMove.send ++ [PeerMove.stop]))
    (hn : cs.length ≤ n) (hbusy : s.busy = true) (hu : s.upc = responderRead p n) :
    Reaches (Served s0 p (s.wire ++ [Token.start, .byte (s.bus.cfg.matchByte sel false) true]) cs)
      (12 * cs.length + 10) s := by
  refine reaches_opened h0 h hb hsel hm hbusy hu ?_
  intro u hv hmat hcfg hmv hacks hsch hw
  have e : u.bus.rdSr2 = { u.bus with addr := false, phase := .data, more := true, sent := 0, ackLatch := u.bus.ack } := by
    simp [Bif.rdSr2, hmat.addr]
  have hd : Srx s0 p (s.wire ++ [Token.start, .byte (s.bus.cfg.matchByte sel false) true]) [] [] cs
      ((u.withBif u.bus.rdSr2).goto [.wait .rxneOrStopf, .rxTest p n 0, .wrCr1]) := by
    rw [e]
    refine ⟨(hv.withBif rfl).goto _, hmat.pe, hmat.role, rfl, hmat.dir, rfl, hmat.ack, hmat.ack, rfl, hmat.start,
      hmat.stopf, ?_, ?_, hmv, ?_⟩
    · simp [Bif.ordered, hmat.shFull]
    · simp [Bif.held, hmat.drFull]
    · simp [hw]
  have := reaches_srx (n := n) h0 (3 * cs.length) _ [] [] cs (by simp) (by simpa using hn) rfl rfl hd
  simpa using this.mono (by omega)

/-- The peer sends more than `n` bytes: the first `n` are stored and the operation faults (R244). -/
structure Overrun (s0 : State) (p n : Nat) (vs : List Byte) (t : State) : Prop where
  faulted : t.faulted = some .bufferOverrun
  busy : t.busy = true
  buf : t.buf = (State.stored p (vs.take n) s0).buf

theorem Overrun.tick {vs : List Byte} {t : State} (h : Overrun s0 p n vs t) : t.tick = none := by
  simp [State.tick, h.faulted]

/-- The test of `RXNE` faults when the destination is full. -/
theorem reaches_full (h0 : CanServe s0) (hsv : Serves s0 p vs s) (hb : s.busy = true)
    (hu : s.upc = [.rxTest p n vs.length, .wrCr1]) (hr : s.bus.rxne = true) (hn : vs.length = n) {rest : List Byte} :
    Reaches (Overrun s0 p n (vs ++ rest)) 1 s := by
  refine h0.seq hsv hb hu (by simp) ?_
  have hlt : n ≤ vs.length := by omega
  simp only [Micro.run, hr, if_true, hlt]
  refine .here ⟨rfl, hb, ?_⟩
  have : (vs ++ rest).take n = vs := by rw [← hn]; simp
  rw [this]
  exact hsv.buf

theorem reaches_overrunStopped (h0 : CanServe s0) (hb : s.busy = true)
    (hu : s.upc = [.wait .rxneOrStopf, .rxTest p n vs.length, .wrCr1]) (h : Sover s0 p w vs hs s)
    (hl : hs.length ≤ 1) (hn : vs.length ≤ n) (hn2 : n < vs.length + hs.length) :
    Reaches (Overrun s0 p n (vs ++ hs)) 2 s := by
  refine h0.wait h.serves hb hu ?_ ?_ ?_ ?_
  · intro hc; simp [Cond.holds, h.stopf] at hc
  · intro _ q d
    have h' := (h.reschedule q d).goto [.rxTest p n vs.length, .wrCr1]
    refine reaches_full h0 h'.serves rfl rfl ?_ (by omega)
    have := h'.held
    have hd := h'.dir
    rw [Bif.rxne, Bif.drFull_of_held, this, hd]
    have : 0 < hs.length := by omega
    simp [this]
  · intro hl; rw [h.lineOn] at hl; cases hl
  · intro hp; simp [State.peerOn, h.moves] at hp

theorem reaches_overrun (h0 : CanServe s0) :
    ∀ (k : Nat) (s : State) (vs hs cs : List Byte), 3 * cs.length + 2 * hs.length ≤ k → vs.length ≤ n →
      n < vs.length + hs.length + cs.length → s.busy = true →
      s.upc = [.wait .rxneOrStopf, .rxTest p n vs.length, .wrCr1] → Srx s0 p w vs hs cs s →
      Reaches (Overrun s0 p n (vs ++ hs ++ cs)) (4 * k + 6) s := by
  intro k
  induction k with
  | zero => intro s vs hs cs hk hn hn2; omega
  | succ k ih =>
    intro s vs hs cs hk hn hn2 hb hu h
    have e : 4 * (k + 1) + 6 = (4 * k + 9) + 1 := by omega
    rw [e]
    refine h0.wait h.serves hb hu ?_ ?_ ?_ ?_
    · intro hc
      right
      rw [h.holds] at hc
      rw [h.peerOn]
      simp at hc
      simp [hc]
    · intro hc q d
      rw [h.holds] at hc
      cases hs with
      | nil => simp at hc
      | cons x hs =>
        have h' := (h.reschedule q d).goto [.rxTest p n vs.length, .wrCr1]
        have hr : ((s.reschedule q d).goto [.rxTest p n vs.length, .wrCr1]).bus.rxne = true := by
          have := h.held
          have hd := h.dir
          rw [Bif.rxne, Bif.drFull_of_held]
          simp [this, hd]
        by_cases hlt : vs.length = n
        · rw [List.append_assoc]
          exact (reaches_full h0 h'.serves rfl rfl hr hlt).mono (by omega)
        refine h0.seq (n := 4 * k + 8) h'.serves rfl rfl (by simp) ?_
        have hlt' : ¬n ≤ vs.length := by omega
        simp only [Micro.run, hr, if_true, hlt', if_false]
        have h2 := h'.goto [.rxTake p n vs.length, .wrCr1]
        refine h0.seq (n := 4 * k + 7) h2.serves rfl rfl (by simp) ?_
        have h3 := h2.take.goto [.rxUntil p n (vs.length + 1), .wrCr1]
        refine h0.seq (n := 4 * k + 6) h3.serves rfl rfl (by simp) ?_
        have hst := h3.stopf
        simp only [Micro.run, hst, Bool.false_eq_true, if_false]
        have h4 := h3.goto [.wait .rxneOrStopf, .rxTest p n (vs ++ [x]).length, .wrCr1]
        have e2 : vs ++ x :: hs ++ cs = vs ++ [x] ++ hs ++ cs := by simp
        rw [e2]
        have := ih _ (vs ++ [x]) hs cs (by simp at hk; omega) (by simp; omega) (by simp at hn2 ⊢; omega) rfl rfl h4
        simpa using this
    · intro hl; rw [h.lineOn] at hl; cases hl
    · intro hp q d
      rw [h.peerOn] at hp
      have hsm : hs.length ≤ 1 := by simpa using hp
      cases cs with
      | nil =>
        obtain ⟨g1, g2, g3⟩ := (h.reschedule q d).stop
        have := reaches_overrunStopped h0 (g3.trans hb) (g2.trans hu) g1 hsm hn (by simpa using hn2)
        simpa using this.mono (by omega)
      | cons x cs =>
        obtain ⟨g1, g2, g3⟩ := (h.reschedule q d).byte hsm
        have e2 : vs ++ hs ++ x :: cs = vs ++ (hs ++ [x]) ++ cs := by simp
        rw [e2]
        exact (ih _ vs (hs ++ [x]) cs (by simp at hk ⊢; omega) hn (by simp at hn2 ⊢; omega) (g3.trans hb)
          (g2.trans hu) g1).mono (by omega)

/-- RDBURST, responder, when the peer writes more than `n` bytes (R244). -/
theorem reaches_responderOverrun (h0 : CanServe s0) (h : Serves s0 p [] s) (hb : s.bus.listening) {sel : OwnSel}
    (hsel : s.bus.cfg.answers sel false) (hm : s.peer.moves = .address sel false :: (cs.map PeerMove.send ++ [PeerMove.stop]))
    (hn : n < cs.length) (hbusy : s.busy = true) (hu : s.upc = responderRead p n) :
    Reaches (Overrun s0 p n cs) (12 * cs.length + 10) s := by
  refine reaches_opened h0 h hb hsel hm hbusy hu ?_
  intro u hv hmat hcfg hmv hacks hsch hw
  have e : u.bus.rdSr2 = { u.bus with addr := false, phase := .data, more := true, sent := 0, ackLatch := u.bus.ack } := by
    simp [Bif.rdSr2, hmat.addr]
  have hd : Srx s0 p (s.wire ++ [Token.start, .byte (s.bus.cfg.matchByte sel false) true]) [] [] cs
      ((u.withBif u.bus.rdSr2).goto [.wait .rxneOrStopf, .rxTest p n 0, .wrCr1]) := by
    rw [e]
    refine ⟨(hv.withBif rfl).goto _, hmat.pe, hmat.role, rfl, hmat.dir, rfl, hmat.ack, hmat.ack, rfl, hmat.start,
      hmat.stopf, ?_, ?_, hmv, ?_⟩
    · simp [Bif.ordered, hmat.shFull]
    · simp [Bif.held, hmat.drFull]
    · simp [hw]
  have := reaches_overrun (n := n) h0 (3 * cs.length) _ [] [] cs (by simp) (by simp) (by simpa using hn) rfl rfl hd
  simpa using this.mono (by omega)

/-! ### WRBURST, responder (R232 to R234) -/

variable {ms : List PeerMove}

/-- The byte written at pass `i` of the responder write: the single byte of a one-byte buffer, the byte of the buffer,
or, past its end, any byte. -/
def goodByte (s0 : State) (p n i : Nat) (v : Byte) : Prop :=
  (n = 1 → v = s0.bufByte p) ∧ (n ≠ 1 → i < n → v = s0.bufByte (p + i))

/-- The byte of BUF that a responder write gives, the one byte again and again when there is one (R232, R233). -/
theorem goodByte.spec {s : State} {p n i : Nat} {v : Byte} (hg : goodByte s p n i v) : 
      (n = 1 → v = s.bufByte p) ∧ (i < n → v = s.bufByte (p + i)) := by
  refine ⟨hg.1, fun hi => ?_⟩
  by_cases h1 : n = 1
  · have : i = 0 := by omega
    subst this
    exact hg.1 h1
  · exact hg.2 h1 hi

/-- Transmitting as responder: `os` out and acknowledged, the pending bytes written behind them, `r` + 1 bytes still to
be taken by a peer whose moves `ms` are still to come. -/
structure Stx (s0 : State) (p n : Nat) (w : List Token) (ms : List PeerMove) (os : List Byte) (r : Nat) (s : State) :
    Prop where
  serves : Serves s0 p [] s
  pe : s.bus.pe = true
  role : s.bus.role = .slave
  phase : s.bus.phase = .data
  dir : s.bus.dir = .tx
  addr : s.bus.addr = false
  sb : s.bus.sb = false
  start : s.bus.start = false
  af : s.bus.af = false
  more : s.bus.more = true
  moves : s.peer.moves = ms
  acks : ∃ ys, s.peer.acks.next = List.replicate r true ++ false :: ys
  good : ∀ i v, (os ++ s.bus.pending)[i]? = some v → goodByte s0 p n i v
  wire : s.wire = w ++ os.map (Token.byte · true)

/-- The responder write after the NACK: `os` are the bytes the peer took, the last refused; the peer has not stopped yet,
or has. -/
structure Refused (s0 : State) (p n : Nat) (w : List Token) (ms : List PeerMove) (os : List Byte) (s : State) :
    Prop where
  serves : Serves s0 p [] s
  phase : s.bus.phase = .data
  dir : s.bus.dir = .tx
  pe : s.bus.pe = true
  addr : s.bus.addr = false
  start : s.bus.start = false
  drFull : s.bus.drFull = false
  shFull : s.bus.shFull = false
  good : ∀ i v, os[i]? = some v → goodByte s0 p n i v
  stage : (s.bus.role = .slave ∧ s.peer.moves = ms ∧ s.wire = w ++ receivedTokens os) ∨
    (s.bus.role = .idle ∧ s.peer.moves = [] ∧ ms = [.stop] ∧ s.wire = endedWire w os)

theorem Stx.lineOn {os : List Byte} {r : Nat} (h : Stx s0 p n w ms os r s) :
    s.bus.lineOn = (s.bus.drFull || s.bus.shFull) := by
  simp only [Bif.lineOn, Bif.byteOn, Bif.addrOn, Bif.loadOn, Bif.txByteOn, Bif.rxByteOn, Bif.startOn, Bif.stopOn,
    h.pe, h.role, h.phase, h.dir, h.sb, h.addr, h.start, h.more]
  cases s.bus.drFull <;> cases s.bus.shFull <;> rfl

theorem Stx.lineStep {os : List Byte} {r : Nat} (h : Stx s0 p n w ms os r s) :
    s.lineStep = if s.bus.shFull then s.lineTxByte else if s.bus.drFull then s.lineLoad else s := by
  simp only [State.lineStep, Bif.addrOn, Bif.loadOn, Bif.txByteOn, Bif.rxByteOn, Bif.startOn, Bif.stopOn, Bif.byteOn,
    h.pe, h.role, h.phase, h.dir, h.sb, h.addr, h.start, h.more]
  cases s.bus.drFull <;> cases s.bus.shFull <;> rfl

theorem State.peerOn_nil (h : s.peer.moves = []) : s.peerOn = false := by
  simp [State.peerOn, h]

/-- The peer's stop is enabled in the data phase with the shift register empty (R178). -/
theorem State.peerOn_stop (h : s.peer.moves = [.stop]) (h1 : s.bus.pe = true) (h2 : s.bus.role = .slave)
    (h3 : s.bus.phase = .data) (h4 : s.bus.addr = false) : s.peerOn = !s.bus.shFull := by
  simp [State.peerOn, h, PeerMove.on, h1, h2, h3, h4]

/-- While a responder transmits the peer's stop is enabled unless a byte is in the shift register (R178). -/
theorem Stx.peerOn {os : List Byte} {r : Nat} (h : Stx s0 p n w ms os r s) (hms : ms = [] ∨ ms = [.stop]) :
    s.peerOn = (!ms.isEmpty && !s.bus.shFull) := by
  rcases hms with rfl | rfl
  · exact State.peerOn_nil h.moves
  · exact State.peerOn_stop h.moves h.pe h.role h.phase h.addr

theorem Stx.reschedule {os : List Byte} {r : Nat} (h : Stx s0 p n w ms os r s) (q : Script Agent) (d : Nat) :
    Stx s0 p n w ms os r (s.reschedule q d) :=
  ⟨h.serves.reschedule q d, h.pe, h.role, h.phase, h.dir, h.addr, h.sb, h.start, h.af, h.more, h.moves, h.acks, h.good,
    h.wire⟩

theorem Stx.goto {os : List Byte} {r : Nat} (h : Stx s0 p n w ms os r s) (c : List Micro) : Stx s0 p n w ms os r (s.goto c) :=
  ⟨h.serves.goto c, h.pe, h.role, h.phase, h.dir, h.addr, h.sb, h.start, h.af, h.more, h.moves, h.acks, h.good, h.wire⟩

theorem State.answerByte_slave (h : s.bus.role = .slave) : s.answerByte = s.askAck := by
  simp [State.answerByte, h]

theorem State.askAck_eq {v : Bool} {rest : List Bool} (h : s.peer.acks.next = v :: rest) :
    s.askAck.1 = v ∧ s.askAck.2.peer.acks.next = rest ∧ s.askAck.2.peer.moves = s.peer.moves := by
  simp [State.askAck, Script.pop, h, State.drawn]

/-- A byte moves to the shift register. -/
theorem Stx.load {os : List Byte} {r : Nat} (h : Stx s0 p n w ms os r s) (hd : s.bus.drFull = true)
    (hs : s.bus.shFull = false) :
    Stx s0 p n w ms os r s.lineStep ∧ s.lineStep.upc = s.upc ∧ s.lineStep.busy = s.busy ∧ s.lineStep.bus.drFull = false ∧
      s.lineStep.bus.shFull = true ∧ s.lineStep.bus.pending = s.bus.pending := by
  rw [h.lineStep]
  simp only [hs, hd, if_true, Bool.false_eq_true, if_false, State.lineLoad]
  have hp : s.bus.lineLoad.pending = s.bus.pending := by simp [Bif.pending, Bif.lineLoad, hd, hs]
  refine ⟨⟨h.serves.withBif rfl, h.pe, h.role, h.phase, h.dir, h.addr, h.sb, h.start, h.af, h.more, h.moves, h.acks,
    ?_, h.wire⟩, rfl, rfl, rfl, rfl, hp⟩
  intro i v hv
  exact h.good i v (by rw [← hp]; exact hv)

/-- A byte goes out and is acknowledged. -/
theorem Stx.out {os : List Byte} {r : Nat} (h : Stx s0 p n w ms os (r + 1) s) (hs : s.bus.shFull = true) :
    ∃ x, s.bus.pending = x :: s.lineStep.bus.pending ∧ Stx s0 p n w ms (os ++ [x]) r s.lineStep ∧
      s.lineStep.upc = s.upc ∧ s.lineStep.busy = s.busy ∧ s.lineStep.bus.drFull = s.bus.drFull ∧
      s.lineStep.bus.shFull = false := by
  rw [h.lineStep]
  obtain ⟨ys, ha⟩ := h.acks
  obtain ⟨a1, a2, a3⟩ := State.askAck_eq (s := s) (v := true) (rest := List.replicate r true ++ false :: ys)
    (by rw [ha]; rfl)
  simp only [hs, if_true, State.lineTxByte, State.answerByte_slave h.role, a1]
  have hp : s.bus.pending = s.bus.shift :: (s.bus.lineTxByte true).pending := by
    simp [Bif.pending, Bif.lineTxByte, hs]
  refine ⟨s.bus.shift, hp, ⟨(h.serves.askAck.emit _).withBif rfl, h.pe, h.role, h.phase, h.dir, h.addr, h.sb, h.start,
    h.af, h.more, ?_, ⟨ys, a2⟩, ?_, ?_⟩, rfl, rfl, rfl, rfl⟩
  · exact a3.trans h.moves
  · intro i v hv
    refine h.good i v ?_
    rw [hp]
    simpa using hv
  · simp [h.wire]

/-- A byte goes out and is refused: the transfer is over, and the byte behind it is dropped. -/
theorem Stx.refuse {os : List Byte} (h : Stx s0 p n w ms os 0 s) (hs : s.bus.shFull = true) :
    ∃ x, Refused s0 p n w ms (os ++ [x]) s.lineStep ∧ s.lineStep.upc = s.upc ∧ s.lineStep.busy = s.busy ∧
      s.lineStep.bus.af = true := by
  rw [h.lineStep]
  obtain ⟨ys, ha⟩ := h.acks
  obtain ⟨a1, a2, a3⟩ := State.askAck_eq (s := s) (v := false) (rest := ys) (by rw [ha]; rfl)
  simp only [hs, if_true, State.lineTxByte, State.answerByte_slave h.role, a1]
  have hbus : (s.bus.lineTxByte false).drFull = false := by simp [Bif.lineTxByte, h.role]
  refine ⟨s.bus.shift, ⟨(h.serves.askAck.emit _).withBif rfl, h.phase, h.dir, h.pe, h.addr, h.start, hbus, rfl, ?_,
    .inl ⟨h.role, a3.trans h.moves, ?_⟩⟩, rfl, rfl, rfl⟩
  · intro i v hv
    refine h.good i v ?_
    have hp : s.bus.pending = s.bus.shift :: (if s.bus.drFull then [s.bus.dr] else []) := by simp [Bif.pending, hs]
    rw [hp]
    rw [show os ++ s.bus.shift :: (if s.bus.drFull then [s.bus.dr] else []) =
      (os ++ [s.bus.shift]) ++ (if s.bus.drFull then [s.bus.dr] else []) by simp]
    obtain ⟨hi, -⟩ := List.getElem?_eq_some_iff.1 hv
    rw [List.getElem?_append_left hi]
    exact hv
  · simp [h.wire, receivedTokens]

/-- The responder write is complete: the peer took `m` bytes, refusing the last, and has stopped or still will. -/
structure Gave (s0 : State) (p n : Nat) (w : List Token) (ms : List PeerMove) (m : Nat) (t : State) : Prop where
  serves : Serves s0 p [] t
  upc : t.upc = []
  busy : t.busy = false
  af : t.bus.af = false
  took : ∃ os : List Byte, os.length = m ∧ (∀ i v, os[i]? = some v → goodByte s0 p n i v) ∧
    ((t.peer.moves = ms ∧ t.peerOn = !ms.isEmpty ∧ t.wire = w ++ receivedTokens os) ∨
      (t.peer.moves = [] ∧ ms = [.stop] ∧ t.wire = endedWire w os))

theorem Refused.goto {os : List Byte} (h : Refused s0 p n w ms os s) (c : List Micro) :
    Refused s0 p n w ms os (s.goto c) :=
  ⟨h.serves.goto c, h.phase, h.dir, h.pe, h.addr, h.start, h.drFull, h.shFull, h.good, h.stage⟩

theorem Refused.reschedule {os : List Byte} (h : Refused s0 p n w ms os s) (q : Script Agent) (d : Nat) :
    Refused s0 p n w ms os (s.reschedule q d) :=
  ⟨h.serves.reschedule q d, h.phase, h.dir, h.pe, h.addr, h.start, h.drFull, h.shFull, h.good, h.stage⟩

theorem Refused.lineOn {os : List Byte} (h : Refused s0 p n w ms os s) (hr : s.bus.role ≠ .master) :
    s.bus.lineOn = false := by
  simp [Bif.lineOn, Bif.byteOn, Bif.addrOn, Bif.loadOn, Bif.txByteOn, Bif.rxByteOn, Bif.startOn, Bif.stopOn, hr,
    h.phase, h.start, h.drFull, h.shFull]

/-- The peer's stop in the transmission. -/
theorem State.peerStep_stop (h : s.peer.moves = [.stop]) :
    s.peerStep = ({ s with peer := { s.peer with moves := [] } }.emit .stop).withBif s.bus.slaveStop := by
  simp [State.peerStep, h]

/-- The loop ends on the NACK (R232). -/
theorem reaches_refused (h0 : CanServe s0) {os : List Byte} {k : Nat} (hms : ms = [] ∨ ms = [.stop])
    (h : Refused s0 p n w ms os s) (haf : s.bus.af = true) (hb : s.busy = true)
    (hu : s.upc = [.wait .txe, .txUntil p n k, .clrAf]) : Reaches (Gave s0 p n w ms os.length) 4 s := by
  have fin : ∀ u, Refused s0 p n w ms os u → u.bus.af = true → u.upc = s.upc → ∀ q d,
      Reaches (Gave s0 p n w ms os.length) 2 ((u.reschedule q d).goto [.txUntil p n k, .clrAf]) := by
    intro u h haf huu q d
    have h1 : Serves s0 p [] ((u.reschedule q d).goto [.txUntil p n k, .clrAf]) := (h.serves.reschedule q d).goto _
    refine h0.seq h1 rfl rfl (by simp) ?_
    have e : ((u.reschedule q d).goto [.txUntil p n k, .clrAf]).bus.af = true := haf
    simp only [Micro.run, e, if_true]
    refine h0.seq (h1.goto [.clrAf]) rfl rfl (by simp) ?_
    refine .here ⟨((h1.goto [.clrAf]).withBif rfl).goto [], rfl, rfl, rfl, os, rfl, h.good, ?_⟩
    refine h.stage.imp (fun ⟨g1, g2, g3⟩ => ⟨g2, ?_, g3⟩) (fun ⟨_, g2, g3, g4⟩ => ⟨g2, g3, g4⟩)
    rcases hms with rfl | rfl
    · exact State.peerOn_nil g2
    · exact (State.peerOn_stop g2 h.pe g1 h.phase h.addr).trans (congrArg not h.shFull)
  have step : ∀ (m : Nat) (u : State), Refused s0 p n w ms os u → u.bus.af = true → u.busy = true → u.upc = s.upc →
      (u.peerOn = true → ∀ q d, Reaches (Gave s0 p n w ms os.length) (m + 2) (u.reschedule q d).peerStep) →
      Reaches (Gave s0 p n w ms os.length) (m + 3) u := by
    intro m u h haf hb huu hp
    refine h0.wait h.serves hb (huu.trans hu) ?_ ?_ ?_ hp
    · intro hc; simp [Cond.holds, Bif.txe, h.phase, h.dir, h.addr, h.drFull] at hc
    · exact fun _ q d => (fin u h haf huu q d).mono (by omega)
    · intro hl
      rw [h.lineOn (by rcases h.stage with h | h <;> rw [h.1] <;> decide)] at hl
      cases hl
  refine step 1 s h haf hb rfl ?_
  intro hp q d
  rcases h.stage with ⟨g1, g2, g3⟩ | ⟨-, g2, -⟩
  swap
  · rw [State.peerOn_nil g2] at hp; cases hp
  rcases hms with rfl | rfl
  · rw [State.peerOn_nil g2] at hp; cases hp
  have h' := h.reschedule q d
  rw [State.peerStep_stop (s := s.reschedule q d) g2]
  have hbus : ((s.reschedule q d).bus.slaveStop).af = true := haf
  refine step 0 _ ⟨((h'.serves.moved []).emit _).withBif rfl, h.phase, h.dir, h.pe, h.addr, h.start, h.drFull, h.shFull,
    h.good, .inr ⟨rfl, rfl, rfl, by simp [g3]⟩⟩ hbus hb rfl ?_
  intro hp'
  rw [State.peerOn_nil (by rfl)] at hp'
  cases hp'

/-- After the peer's stop behind an acknowledged byte, or behind the address: nothing more goes out (R178). -/
structure Stopped (s0 : State) (p n : Nat) (w : List Token) (os : List Byte) (s : State) : Prop where
  serves : Serves s0 p [] s
  phase : s.bus.phase = .data
  dir : s.bus.dir = .tx
  addr : s.bus.addr = false
  sb : s.bus.sb = false
  role : s.bus.role = .idle
  start : s.bus.start = false
  more : s.bus.more = false
  shFull : s.bus.shFull = false
  af : s.bus.af = false
  moves : s.peer.moves = []
  good : ∀ i v, os[i]? = some v → goodByte s0 p n i v
  wire : s.wire = w ++ os.map (Token.byte · true) ++ [Token.stop]

/-- The responder write hangs because the peer stopped without a NACK, after at most `m` bytes (R232). -/
structure Left (s0 : State) (p n : Nat) (w : List Token) (m : Nat → Prop) (t : State) : Prop where
  serves : Serves s0 p [] t
  hung : t.hungAt .txe
  budget : t.params.waitBudget = none
  af : t.bus.af = false
  took : ∃ os : List Byte, m os.length ∧ (∀ i v, os[i]? = some v → goodByte s0 p n i v) ∧
    t.wire = w ++ os.map (Token.byte · true) ++ [Token.stop]

theorem Stx.stop {os : List Byte} {r : Nat} (h : Stx s0 p n w [.stop] os r s) (hs : s.bus.shFull = false) :
    Stopped s0 p n w os s.peerStep ∧ s.peerStep.upc = s.upc ∧ s.peerStep.busy = s.busy := by
  rw [State.peerStep_stop h.moves]
  refine ⟨⟨((h.serves.moved []).emit _).withBif rfl, h.phase, h.dir, h.addr, h.sb, rfl, h.start, rfl, hs, h.af, rfl, ?_, ?_⟩,
    rfl, rfl⟩
  · intro i v hv
    refine h.good i v ?_
    obtain ⟨hi, -⟩ := List.getElem?_eq_some_iff.1 hv
    rw [List.getElem?_append_left hi]
    exact hv
  · simp [h.wire]

theorem Stopped.goto {os : List Byte} (h : Stopped s0 p n w os s) (c : List Micro) : Stopped s0 p n w os (s.goto c) :=
  ⟨h.serves.goto c, h.phase, h.dir, h.addr, h.sb, h.role, h.start, h.more, h.shFull, h.af, h.moves, h.good, h.wire⟩

theorem Stopped.others {os : List Byte} (h : Stopped s0 p n w os s) : s.others = [] := by
  have hl : s.bus.lineOn = false := by
    simp [Bif.lineOn, Bif.byteOn, Bif.addrOn, Bif.loadOn, Bif.txByteOn, Bif.rxByteOn, Bif.startOn, Bif.stopOn, h.role,
      h.phase, h.start, h.more, h.shFull]
  rw [State.others_eq, hl, State.peerOn_nil h.moves]
  rfl

/-- The loop after such a stop: at most one more byte is written, and `TXE` never reads 1 again. -/
theorem reaches_stopped (h0 : CanServe s0) {os : List Byte} {k : Nat} {m : Nat → Prop} (hm : m os.length)
    (h : Stopped s0 p n w os s) (hb : s.busy = true) (hu : s.upc = [.wait .txe, .txUntil p n k, .clrAf]) :
    Reaches (Left s0 p n w m) 4 s := by
  have hung : ∀ (u : State) (rest : List Micro), Stopped s0 p n w os u → u.busy = true → u.bus.drFull = true →
      u.upc = .wait .txe :: rest → Left s0 p n w m u := by
    intro u rest h hb hd hu
    obtain ⟨f1, f2, -⟩ := h.serves.fields
    exact ⟨h.serves, ⟨hb, f1.trans h0.faulted, by simp [hu], by simp [Cond.holds, Bif.txe, hd], h.others⟩,
      by rw [f2]; exact h0.budget, h.af, os, hm, h.good, h.wire⟩
  cases hd : s.bus.drFull
  swap
  · exact .here (hung s _ h hb hd hu)
  obtain ⟨f1, -⟩ := h.serves.fields
  have hx : Cond.txe.holds s.bus = true := by simp [Cond.holds, Bif.txe, h.phase, h.dir, h.addr, hd]
  refine Reaches.alone hb (f1.trans h0.faulted) (by simp [hu]) (by simp [State.waiting, hu, hx]) h.others ?_
  rw [State.seqStep_eq hu]
  have h1 := h.goto [.txUntil p n k, .clrAf]
  refine h0.seq h1.serves rfl rfl (by simp) ?_
  have haf := h1.af
  simp only [Micro.run] at haf ⊢
  simp only [haf, Bool.false_eq_true, if_false]
  have h2 := h1.goto [.txPass p n k, .clrAf]
  refine h0.seq h2.serves rfl rfl (by simp) ?_
  simp only [Micro.run]
  have h3 := h2.goto [.wrDr (txSource p n k), .wait .txe, .txUntil p n (k + 1), .clrAf]
  refine h0.seq h3.serves rfl rfl (by simp) ?_
  have e : ∀ v, s.bus.wrDr v = { s.bus with dr := v, drFull := true } := by
    intro v; simp [Bif.wrDr, h.sb, h.phase, h.dir]
  have wr : ∀ (u : State) (v : Byte), Stopped s0 p n w os u → u.bus = s.bus →
      Stopped s0 p n w os (u.withBif (u.bus.wrDr v)) ∧ (u.bus.wrDr v).drFull = true := by
    intro u v hu hbus
    have hs := hu.serves
    rw [hbus, e]
    refine ⟨⟨?_, h.phase, h.dir, h.addr, h.sb, h.role, h.start, h.more, h.shFull, h.af, hu.moves, hu.good, hu.wire⟩, rfl⟩
    rw [← hbus]
    exact hs.withBif rfl
  by_cases hv : txSource p n k = .draw
  · rw [hv]
    obtain ⟨g, gd⟩ := wr _ (Src.draw.value (((s.goto [.txUntil p n k, .clrAf]).goto [.txPass p n k, .clrAf]).goto
      [.wrDr (txSource p n k), .wait .txe, .txUntil p n (k + 1), .clrAf])) h3 rfl
    refine .here (hung _ _ ?_ rfl gd rfl)
    exact ⟨(g.serves.drawn).goto _, g.phase, g.dir, g.addr, g.sb, g.role, g.start, g.more, g.shFull, g.af, g.moves, g.good,
      g.wire⟩
  · rw [Micro.run_wrDr hv]
    obtain ⟨g, gd⟩ := wr _ ((txSource p n k).value (((s.goto [.txUntil p n k, .clrAf]).goto [.txPass p n k, .clrAf]).goto
      [.wrDr (txSource p n k), .wait .txe, .txUntil p n (k + 1), .clrAf])) h3 rfl
    exact .here (hung _ _ (g.goto _) rfl gd rfl)

/-- A byte is written to the empty data register. -/
theorem Stx.write {os : List Byte} {r : Nat} (h : Stx s0 p n w ms os r s) (hd : s.bus.drFull = false) {v : Byte}
    (hg : goodByte s0 p n (os ++ s.bus.pending).length v) :
    Stx s0 p n w ms os r (s.withBif (s.bus.wrDr v)) ∧ (s.bus.wrDr v).drFull = true ∧
      (s.bus.wrDr v).shFull = s.bus.shFull ∧ (s.bus.wrDr v).pending = s.bus.pending ++ [v] := by
  have e : s.bus.wrDr v = { s.bus with dr := v, drFull := true } := by simp [Bif.wrDr, h.sb, h.phase, h.dir]
  have hp : (s.bus.wrDr v).pending = s.bus.pending ++ [v] := by
    rw [e]
    cases hs : s.bus.shFull <;> simp [Bif.pending, hd, hs]
  refine ⟨⟨?_, ?_, ?_, ?_, ?_, ?_, ?_, ?_, ?_, ?_, h.moves, h.acks, ?_, h.wire⟩, ?_, ?_, hp⟩
  · refine h.serves.withBif ?_
    rw [e]; rfl
  all_goals try (rw [State.withBif_bus, e])
  · exact h.pe
  · exact h.role
  · exact h.phase
  · exact h.dir
  · exact h.addr
  · exact h.sb
  · exact h.start
  · exact h.af
  · exact h.more
  · intro i x hx
    have hx : (os ++ (s.bus.wrDr v).pending)[i]? = some x := by rw [e]; exact hx
    rw [hp, ← List.append_assoc] at hx
    by_cases hi : i < (os ++ s.bus.pending).length
    · rw [List.getElem?_append_left hi] at hx
      exact h.good i x hx
    · rw [List.getElem?_append_right (by omega)] at hx
      have hi0 : i - (os ++ s.bus.pending).length = 0 := by
        by_contra hne
        have h1 : [v].length ≤ i - (os ++ s.bus.pending).length := by
          rw [List.length_singleton]; omega
        rw [List.getElem?_eq_none h1] at hx
        cases hx
      rw [hi0] at hx
      have hx : v = x := by simpa using hx
      have hi' : i = (os ++ s.bus.pending).length := by omega
      rw [hi', ← hx]
      exact hg
  · rw [e]
  · rw [e]

/-- One pass's byte, whatever its source. -/
theorem reaches_pass (h0 : CanServe s0) {os : List Byte} {r : Nat} (h : Stx s0 p n w ms os r s)
    (hd : s.bus.drFull = false) (hb : s.busy = true) (hu : s.upc = [.txPass p n (os ++ s.bus.pending).length, .clrAf])
    {Q : State → Prop} {m : Nat}
    (next : ∀ u v, Stx s0 p n w ms os r u → u.sched = s.sched → u.busy = true → u.bus.drFull = true → u.bus.shFull = s.bus.shFull →
      u.bus.pending = s.bus.pending ++ [v] →
      u.upc = [.wait .txe, .txUntil p n ((os ++ s.bus.pending).length + 1), .clrAf] → Reaches Q m u) :
    Reaches Q (m + 2) s := by
  refine h0.seq h.serves hb hu (by simp) ?_
  simp only [Micro.run]
  generalize hk : (os ++ s.bus.pending).length = k at hu
  have h1 := h.goto [.wrDr (txSource p n k), .wait .txe, .txUntil p n (k + 1), .clrAf]
  refine h0.seq h1.serves rfl rfl (by simp) ?_
  have hgood : (txSource p n k) ≠ .draw → goodByte s0 p n k ((txSource p n k).value s) := by
    intro hne
    have hbuf : ∀ q, s.bufByte q = s0.bufByte q := fun q => State.bufByte_congr h.serves.buf q
    unfold txSource at hne ⊢
    by_cases h1 : n = 1
    · simp only [h1, if_true]
      exact ⟨fun _ => hbuf p, fun hc => absurd rfl hc⟩
    · simp only [h1, if_false] at hne ⊢
      by_cases h2 : k < n
      · simp only [h2, if_true]
        exact ⟨fun hc => absurd hc h1, fun _ _ => hbuf _⟩
      · simp [h2] at hne
  by_cases hdraw : txSource p n k = .draw
  · have hn : n ≠ 1 ∧ ¬k < n := by
      unfold txSource at hdraw
      by_cases h1 : n = 1
      · simp [h1] at hdraw
      · by_cases h2 : k < n
        · simp [h1, h2] at hdraw
        · exact ⟨h1, h2⟩
    rw [hdraw] at h1 ⊢
    simp only [Micro.run]
    have hg : goodByte s0 p n (os ++ s.bus.pending).length (Src.draw.value (s.goto
        [.wrDr .draw, .wait .txe, .txUntil p n (k + 1), .clrAf])) := by
      rw [hk]
      exact ⟨fun hc => absurd hc hn.1, fun _ hc => absurd hc hn.2⟩
    obtain ⟨g1, g2, g3, g4⟩ := h1.write hd hg
    have g5 : Stx s0 p n w ms os r (((s.goto [.wrDr .draw, .wait .txe, .txUntil p n (k + 1), .clrAf]).withBif
        (s.bus.wrDr (Src.draw.value (s.goto [.wrDr .draw, .wait .txe, .txUntil p n (k + 1), .clrAf])))).drawn.goto
        [.wait .txe, .txUntil p n (k + 1), .clrAf]) :=
      ⟨(g1.serves.drawn).goto _, g1.pe, g1.role, g1.phase, g1.dir, g1.addr, g1.sb, g1.start, g1.af, g1.more, g1.moves,
        g1.acks, g1.good, g1.wire⟩
    exact next _ _ g5 rfl rfl g2 g3 g4 (by rw [hk]; rfl)
  · have hg := hgood hdraw
    rw [Micro.run_wrDr hdraw]
    have hval : (txSource p n k).value (s.goto [.wrDr (txSource p n k), .wait .txe, .txUntil p n (k + 1), .clrAf]) =
        (txSource p n k).value s := Src.value_congr hdraw rfl rfl
    rw [hval]
    have hg2 : goodByte s0 p n (os ++ s.bus.pending).length ((txSource p n k).value s) := by rw [hk]; exact hg
    obtain ⟨g1, g2, g3, g4⟩ := h1.write hd (v := (txSource p n k).value s) hg2
    exact next _ _ (g1.goto _) rfl rfl g2 g3 g4 (by rw [hk]; rfl)

/-- How a responder write ends: the peer takes `m` bytes, refusing the last, or stops before that. -/
abbrev Given (s0 : State) (p n : Nat) (w : List Token) (ms : List PeerMove) (m : Nat) (t : State) : Prop :=
  Gave s0 p n w ms m t ∨ (ms = [.stop] ∧ Left s0 p n w (· < m) t)

/-- The loop of the responder write: the peer takes `r` + 1 more bytes, or stops before that (R232). -/
theorem reaches_stx (h0 : CanServe s0) (hms : ms = [] ∨ ms = [.stop]) :
    ∀ (m : Nat) (s : State) (os : List Byte) (r k : Nat), Stx s0 p n w ms os r s → s.busy = true →
      s.upc = [.wait .txe, .txUntil p n k, .clrAf] → k = (os ++ s.bus.pending).length →
      8 * r + (if s.bus.shFull then (if s.bus.drFull then 3 else 4) else (if s.bus.drFull then 5 else 6)) ≤ m →
      Reaches (Given s0 p n w ms (os.length + r + 1)) (4 * m + 4) s := by
  intro m
  induction m with
  | zero =>
    intro s os r k h hb hu hk hm
    split at hm <;> split at hm <;> omega
  | succ m ih =>
    intro s os r k h hb hu hk hm
    have e : 4 * (m + 1) + 4 = (4 * m + 7) + 1 := by omega
    rw [e]
    have htxe : Cond.txe.holds s.bus = !s.bus.drFull := by simp [Cond.holds, Bif.txe, h.phase, h.dir, h.addr]
    refine h0.wait h.serves hb hu ?_ ?_ ?_ ?_
    · intro hc
      left
      rw [htxe] at hc
      rw [h.lineOn]
      have : s.bus.drFull = true := by simpa using hc
      simp [this]
    · intro hc q d
      rw [htxe] at hc
      have hd : s.bus.drFull = false := by simpa using hc
      have h1 := (h.reschedule q d).goto [.txUntil p n k, .clrAf]
      refine h0.seq (n := 4 * m + 6) h1.serves rfl rfl (by simp) ?_
      have haf := h1.af
      simp only [Micro.run, haf, Bool.false_eq_true, if_false]
      have h2 := h1.goto [.txPass p n k, .clrAf]
      refine (reaches_pass (m := 4 * m + 4) h0 h2 hd rfl (by rw [hk]; rfl) ?_).mono (by omega)
      intro u v gu _ gb gd gs gp guu
      refine ih u os r (k + 1) gu gb ?_ ?_ ?_
      · rw [guu, hk]; rfl
      · rw [gp, hk]
        simp only [List.length_append, List.length_cons, List.length_nil]
        rfl
      · rw [gd, gs]
        rw [hd] at hm
        change 8 * r + (if s.bus.shFull = true then _ else _) ≤ m
        split at hm <;> simp_all
    · intro hl q d
      rw [h.lineOn] at hl
      have h' := h.reschedule q d
      cases hs : s.bus.shFull with
      | false =>
        have hd : s.bus.drFull = true := by simpa [hs] using hl
        obtain ⟨g1, g2, g3, g4, g5, g6⟩ := h'.load hd hs
        refine (ih _ os r k g1 (g3.trans hb) (g2.trans hu) (by rw [g6]; exact hk) ?_).mono (by omega)
        rw [g4, g5]
        rw [hs, hd] at hm
        simp at hm ⊢
        omega
      | true =>
        cases r with
        | zero =>
          obtain ⟨x, g1, g2, g3, g4⟩ := h'.refuse hs
          have := (reaches_refused h0 hms g1 g4 (g3.trans hb) (g2.trans hu)).imp (R := Given s0 p n w ms (os ++ [x]).length)
            fun _ => .inl
          simp only [List.length_append, List.length_cons, List.length_nil] at this
          exact this.mono (by omega)
        | succ r =>
          obtain ⟨x, g0, g1, g2, g3, g4, g5⟩ := h'.out hs
          have hk' : k = (os ++ [x] ++ ((s.reschedule q d).lineStep).bus.pending).length := by
            have g0' : s.bus.pending = x :: ((s.reschedule q d).lineStep).bus.pending := g0
            rw [hk, g0']
            simp
          have := ih _ (os ++ [x]) r k g1 (g3.trans hb) (g2.trans hu) hk' (by
            rw [g4, g5]
            rw [hs] at hm
            cases hdd : s.bus.drFull <;> simp [hdd] at hm ⊢ <;> omega)
          have l : (os ++ [x]).length + r + 1 = os.length + (r + 1) + 1 := by simp; omega
          rw [l] at this
          exact this.mono (by omega)
    · intro hp q d
      rw [h.peerOn hms] at hp
      rcases hms with rfl | rfl
      · cases hp
      have hs : s.bus.shFull = false := by simpa using hp
      obtain ⟨g1, g2, g3⟩ := (h.reschedule q d).stop hs
      refine ((reaches_stopped h0 (m := (· < os.length + r + 1)) (by omega) g1 (g3.trans hb) (g2.trans hu)).imp
        fun _ h => .inr ⟨rfl, h⟩).mono (by omega)

/-- WRBURST, responder, from its first micro-operation to the first byte written; `next` says what follows (R232). -/
theorem reaches_firstByte (h0 : CanServe s0) (h : Serves s0 p [] s) (hb : s.bus.listening) {sel : OwnSel} {r : Nat}
    {ys : List Bool} (hsel : s.bus.cfg.answers sel true) (hm : s.peer.moves = .address sel true :: ms)
    (ha : s.peer.acks.next = List.replicate r true ++ false :: ys) (hbusy : s.busy = true)
    (hu : s.upc = responderWrite p n) {m : Nat}
    (next : ∀ u v, Stx s0 p n (s.wire ++ [Token.start, .byte (s.bus.cfg.matchByte sel true) true]) ms [] r u →
      u.sched = s.sched → u.busy = true → u.bus.drFull = true → u.bus.shFull = false → u.bus.pending = [v] →
      u.upc = [.wait .txe, .txUntil p n 1, .clrAf] → Reaches Q m u) : Reaches Q (m + 6) s := by
  refine (reaches_opened (n := m + 2) h0 h hb hsel hm hbusy hu ?_)
  intro u hv hmat hcfg hmv hacks hsch hw
  have e : u.bus.rdSr2 = { u.bus with addr := false, phase := .data, more := true, sent := 0, ackLatch := u.bus.ack } := by
    simp [Bif.rdSr2, hmat.addr]
  have hpend : u.bus.rdSr2.pending = [] := by rw [e]; simp [Bif.pending, hmat.drFull, hmat.shFull]
  have hd : Stx s0 p n (s.wire ++ [Token.start, .byte (s.bus.cfg.matchByte sel true) true]) ms [] r
      ((u.withBif u.bus.rdSr2).goto [.txPass p n 0, .clrAf]) := by
    rw [e] at hpend ⊢
    refine ⟨(hv.withBif rfl).goto _, hmat.pe, hmat.role, rfl, hmat.dir, rfl, hmat.sb, hmat.start, hmat.af, rfl, hmv,
      ⟨ys, by rw [State.goto_peer, State.withBif_peer, hacks, ha]⟩, ?_, ?_⟩
    · intro i v hx
      simp only [State.goto_bus, State.withBif_bus, hpend] at hx
      simp at hx
    · simp [hw]
  have hdr : ((u.withBif u.bus.rdSr2).goto [.txPass p n 0, .clrAf]).bus.drFull = false := by
    simp only [State.goto_bus, State.withBif_bus]
    rw [e]; exact hmat.drFull
  have hsh : ((u.withBif u.bus.rdSr2).goto [.txPass p n 0, .clrAf]).bus.shFull = false := by
    simp only [State.goto_bus, State.withBif_bus]
    rw [e]; exact hmat.shFull
  have hpend' : ((u.withBif u.bus.rdSr2).goto [.txPass p n 0, .clrAf]).bus.pending = [] := hpend
  refine reaches_pass h0 hd hdr rfl (by rw [hpend']; rfl) ?_
  intro x v gx gsc gb gd gs gp gu
  rw [hpend'] at gp gu
  exact next x v gx (gsc.trans hsch) gb gd (gs.trans hsh) gp gu

/-- WRBURST, responder, when the peer reads `r` + 1 bytes, refusing the last, or stops (R232). -/
theorem reaches_responderWrite (h0 : CanServe s0) (h : Serves s0 p [] s) (hb : s.bus.listening) {sel : OwnSel} {r : Nat}
    {ys : List Bool} (hsel : s.bus.cfg.answers sel true) (hms : ms = [] ∨ ms = [.stop])
    (hm : s.peer.moves = .address sel true :: ms)
    (ha : s.peer.acks.next = List.replicate r true ++ false :: ys) (hbusy : s.busy = true)
    (hu : s.upc = responderWrite p n) :
    Reaches (Given s0 p n (s.wire ++ [Token.start, .byte (s.bus.cfg.matchByte sel true) true]) ms (r + 1))
      (32 * r + 34) s := by
  refine (reaches_firstByte (m := 32 * r + 28) h0 h hb hsel hm ha hbusy hu ?_)
  intro x v gx _ gb gd gs gp gu
  have := reaches_stx h0 hms (8 * r + 5) x [] r 1 gx gb gu (by rw [gp]; rfl) (by rw [gd, gs]; simp)
  simp only [List.length_nil, Nat.zero_add] at this
  exact this.mono (by omega)

/-- The schedule on which the peer stops after `j` acknowledged bytes: for each of them the line agent moves it on and
out, and the sequencer writes the next. -/
def quitting : Nat → List Agent
  | 0 => [.peer]
  | j + 1 => .line :: .line :: .seq :: quitting j

theorem State.lineStep_sched (s : State) : s.lineStep.sched = s.sched := by
  unfold State.lineStep
  split
  · simp only [State.lineAddr, State.answerAddr]
    split <;> rfl
  split
  · rfl
  split
  · simp only [State.lineTxByte, State.answerByte]
    split <;> rfl
  split
  · rfl
  split
  · simp only [State.lineStart]
    split <;> rfl
  split <;> rfl

/-- On that schedule the operation hangs with `j` more bytes out (R232). -/
theorem reaches_quit (h0 : CanServe s0) {m : Nat} : ∀ (j : Nat) (s : State) (os : List Byte) (r k : Nat) (l : List Agent),
    Stx s0 p n w [.stop] os r s → j ≤ r → os.length + j = m → s.busy = true →
    s.upc = [.wait .txe, .txUntil p n k, .clrAf] → s.bus.drFull = true → s.bus.shFull = false →
    k = (os ++ s.bus.pending).length → s.sched.next = quitting j ++ l →
    Reaches (Left s0 p n w (· = m)) (6 * j + 5) s := by
  intro j
  induction j with
  | zero =>
    intro s os r k l h _ hm hb hu hd hs hk hsc
    obtain ⟨f1, f2, -⟩ := h.serves.fields
    refine Reaches.named hb (f1.trans h0.faulted) hu (by rw [f2]; exact h0.budget) (x := .line) (y := .peer) (opts := [])
      (a := .peer) (l := l) ?_ (by simp) hsc ?_
    · simp [Cond.holds, Bif.txe, hd, State.others_eq, h.lineOn, h.peerOn (.inr rfl), hs]
    · obtain ⟨g1, g2, g3⟩ := (h.reschedule ⟨l, s.sched.rest⟩ (s.draws + 1)).stop hs
      exact reaches_stopped h0 (m := (· = m)) hm g1 (g3.trans hb) (g2.trans hu)
  | succ j ih =>
    intro s os r k l h hj hm hb hu hd hs hk hsc
    obtain ⟨r, rfl⟩ : ∃ q, r = q + 1 := ⟨r - 1, by omega⟩
    obtain ⟨f1, f2, -⟩ := h.serves.fields
    refine Reaches.named hb (f1.trans h0.faulted) hu (by rw [f2]; exact h0.budget) (x := .line) (y := .peer) (opts := [])
      (a := .line) (l := .line :: .seq :: quitting j ++ l) ?_ (by simp) hsc (n := 6 * j + 10) ?_
    · simp [Cond.holds, Bif.txe, hd, State.others_eq, h.lineOn, h.peerOn (.inr rfl), hs]
    -- the byte in the shift register
    obtain ⟨a1, a2, a3, a4, a5, a6⟩ := (h.reschedule ⟨.line :: .seq :: quitting j ++ l, s.sched.rest⟩ (s.draws + 1)).load hd hs
    have asc := State.lineStep_sched (s.reschedule ⟨.line :: .seq :: quitting j ++ l, s.sched.rest⟩ (s.draws + 1))
    rw [if_neg (by decide)]
    change Reaches _ _ (s.reschedule ⟨.line :: .seq :: quitting j ++ l, s.sched.rest⟩ (s.draws + 1)).lineStep
    generalize (s.reschedule ⟨.line :: .seq :: quitting j ++ l, s.sched.rest⟩ (s.draws + 1)).lineStep = u at a1 a2 a3 a4 a5 a6 asc ⊢
    obtain ⟨u1, u2, -⟩ := a1.serves.fields
    refine Reaches.named (a3.trans hb) (u1.trans h0.faulted) (a2.trans hu) (by rw [u2]; exact h0.budget) (x := .seq)
      (y := .line) (opts := []) (a := .line) (l := .seq :: quitting j ++ l) ?_ (by simp) (by rw [asc]; rfl)
      (n := 6 * j + 9) ?_
    · simp [Cond.holds, Bif.txe, a1.phase, a1.dir, a1.addr, a4, a5, State.others_eq, a1.lineOn, a1.peerOn (.inr rfl)]
    -- the byte out
    obtain ⟨x, b0, b1, b2, b3, b4, b5⟩ := (a1.reschedule ⟨.seq :: quitting j ++ l, u.sched.rest⟩ (u.draws + 1)).out a5
    have bsc := State.lineStep_sched (u.reschedule ⟨.seq :: quitting j ++ l, u.sched.rest⟩ (u.draws + 1))
    rw [if_neg (by decide)]
    change Reaches _ _ (u.reschedule ⟨.seq :: quitting j ++ l, u.sched.rest⟩ (u.draws + 1)).lineStep
    generalize (u.reschedule ⟨.seq :: quitting j ++ l, u.sched.rest⟩ (u.draws + 1)).lineStep = v at b0 b1 b2 b3 b4 b5 bsc ⊢
    have vd : v.bus.drFull = false := b4.trans a4
    have vpend : v.bus.pending = [] := by simp [Bif.pending, vd, b5]
    obtain ⟨v1, v2, -⟩ := b1.serves.fields
    refine Reaches.named ((b3.trans a3).trans hb) (v1.trans h0.faulted) ((b2.trans a2).trans hu)
      (by rw [v2]; exact h0.budget) (x := .seq) (y := .peer) (opts := []) (a := .seq) (l := quitting j ++ l) ?_ (by simp)
      (by rw [bsc]; rfl) (n := 6 * j + 8) ?_
    · simp [Cond.holds, Bif.txe, b1.phase, b1.dir, b1.addr, vd, b5, State.others_eq, b1.lineOn, b1.peerOn (.inr rfl)]
    -- the next byte written
    rw [if_pos rfl, State.seqStep_eq (s := v.reschedule ⟨quitting j ++ l, v.sched.rest⟩ (v.draws + 1))
      ((b2.trans a2).trans hu)]
    have c1 := (b1.reschedule ⟨quitting j ++ l, v.sched.rest⟩ (v.draws + 1)).goto [.txUntil p n k, .clrAf]
    refine h0.seq (n := 6 * j + 7) c1.serves rfl rfl (by simp) ?_
    have haf := c1.af
    simp only [Micro.run] at haf ⊢
    simp only [haf, Bool.false_eq_true, if_false]
    have c2 := c1.goto [.txPass p n k, .clrAf]
    have hk2 : k = (os ++ [x] ++ v.bus.pending).length := by
      have e : s.bus.pending = x :: v.bus.pending := a6.symm.trans b0
      rw [hk, e]; simp
    refine reaches_pass (m := 6 * j + 5) h0 c2 vd rfl (by rw [hk2]; rfl) ?_
    intro z y gz gsc gb gd gs gp gu
    refine ih z (os ++ [x]) r (k + 1) l gz (by omega) (by simp; omega) gb ?_ gd (gs.trans b5) ?_ (by rw [gsc]; rfl)
    · rw [gu, hk2]; rfl
    · rw [gp, hk2]
      simp only [List.length_append, List.length_cons, List.length_nil]
      rfl

/-- WRBURST, responder, when the peer stops after `j` acknowledged bytes (R232). -/
theorem reaches_responderLeft (h0 : CanServe s0) (h : Serves s0 p [] s) (hb : s.bus.listening) {sel : OwnSel} {r j : Nat}
    {ys : List Bool} {l : List Agent} (hj : j ≤ r) (hsel : s.bus.cfg.answers sel true)
    (hm : s.peer.moves = [.address sel true, .stop]) (ha : s.peer.acks.next = List.replicate r true ++ false :: ys)
    (hbusy : s.busy = true) (hu : s.upc = responderWrite p n) (hsc : s.sched.next = quitting j ++ l) :
    Reaches (Left s0 p n (s.wire ++ [Token.start, .byte (s.bus.cfg.matchByte sel true) true]) (· = j)) (6 * j + 11) s := by
  refine reaches_firstByte (m := 6 * j + 5) h0 h hb hsel hm ha hbusy hu ?_
  intro x v gx gsc gb gd gs gp gu
  exact reaches_quit h0 j x [] r 1 l gx hj (by simp) gb gu gd gs (by rw [gp]; rfl) (by rw [gsc]; exact hsc)

/-- WRBURST, responder, when the peer addresses the block to write and sends nothing: `TXE` never reads 1 (R232). -/
theorem reaches_responderWrongWay (h0 : CanServe s0) (h : Serves s0 p [] s) (hb : s.bus.listening) {sel : OwnSel}
    (hsel : s.bus.cfg.answers sel false) (hm : s.peer.moves = [.address sel false]) (hbusy : s.busy = true)
    (hu : s.upc = responderWrite p n) :
    Reaches (fun t => Serves s0 p [] t ∧ t.hungAt .txe ∧ t.params.waitBudget = none ∧
      t.wire = s.wire ++ [Token.start, .byte (s.bus.cfg.matchByte sel false) true]) 6 s := by
  refine reaches_opened (n := 2) h0 h hb hsel hm hbusy hu ?_
  intro u hv hmat hcfg hmv _ _ hw
  have e : u.bus.rdSr2 = { u.bus with addr := false, phase := .data, more := true, sent := 0, ackLatch := u.bus.ack } := by
    simp [Bif.rdSr2, hmat.addr]
  have h1 : Serves s0 p [] ((u.withBif u.bus.rdSr2).goto [.txPass p n 0, .clrAf]) := by
    rw [e]; exact (hv.withBif rfl).goto _
  refine h0.seq h1 rfl rfl (by simp) ?_
  simp only [Micro.run]
  have h2 := h1.goto [.wrDr (txSource p n 0), .wait .txe, .txUntil p n 1, .clrAf]
  refine h0.seq h2 rfl rfl (by simp) ?_
  have wr : ∀ v, u.bus.rdSr2.wrDr v = { u.bus.rdSr2 with dr := v } := by
    intro v; rw [e]; simp [Bif.wrDr, hmat.sb, hmat.dir]
  have fin : ∀ (x : State) (v : Byte), Serves s0 p [] x → x.bus = { u.bus.rdSr2 with dr := v } → x.busy = true →
      x.upc = [.wait .txe, .txUntil p n 1, .clrAf] → x.peer.moves = [] → x.wire = u.wire →
      Serves s0 p [] x ∧ x.hungAt .txe ∧ x.params.waitBudget = none ∧
        x.wire = s.wire ++ [Token.start, .byte (s.bus.cfg.matchByte sel false) true] := by
    intro x v hx hxb hxy hxu hxm hxw
    obtain ⟨f1, f2, -⟩ := hx.fields
    have hdir : x.bus.dir = .rx := by rw [hxb, e]; exact hmat.dir
    have hl : x.bus.lineOn = false := by
      rw [hxb, e]
      simp [Bif.lineOn, Bif.byteOn, Bif.addrOn, Bif.loadOn, Bif.txByteOn, Bif.rxByteOn, Bif.startOn, Bif.stopOn,
        hmat.role, hmat.start, hmat.dir]
    refine ⟨hx, ⟨hxy, f1.trans h0.faulted, by simp [hxu], by simp [Cond.holds, Bif.txe, hdir], ?_⟩,
      by rw [f2]; exact h0.budget, hxw.trans hw⟩
    rw [State.others_eq, hl, State.peerOn_nil hxm]
    rfl
  have hsb : ∀ c d : List Micro, ((((u.withBif u.bus.rdSr2).goto c).goto d).bus).sb = false := by
    intro c d
    simpa [Bif.rdSr2, hmat.addr] using hmat.sb
  by_cases hd : txSource p n 0 = .draw
  · rw [hd] at h2 ⊢
    exact .here (fin _ _ ((h2.wrDr (hsb _ _) _).drawn.goto _) (wr _) rfl rfl hmv rfl)
  · rw [Micro.run_wrDr hd]
    exact .here (fin _ _ ((h2.wrDr (hsb _ _) _).goto _) (wr _) rfl rfl hmv rfl)

end

end Sys2Proof.Machine
end

