-- ==== Sys2Proof/Laws/Step.lean ====
section
/-! SUPPORT. Laws/Step.lean: what one step of the machine can be (Machine/Step.lean): what the moves of the line agent, the
peer, the schedule, the host and the operations all keep, a step keeps; and a run where nobody can move stays put. -/

namespace Sys2Proof.Machine

theorem State.runFor_stuck {s : State} (h : s.tick = none) (k : Nat) : s.runFor k = s := by
  cases k <;> simp [State.runFor, h]

/-- A property that the moves of the line agent, the peer and the schedule keep. -/
structure Moves (P : State → Prop) : Prop where
  line : ∀ s, P s → P s.lineStep
  peer : ∀ s, P s → P s.peerStep
  sched : ∀ s q d, P s → P (s.reschedule q d)

theorem Moves.idleMove {P : State → Prop} (h : Moves P) {s : State} (hs : P s) : P s.idleMove := by
  unfold State.idleMove
  split
  · exact hs
  · rename_i ho
    obtain ⟨q, d, ⟨hm, e⟩ | ⟨hm, e⟩ | ⟨hm, e⟩⟩ := s.moveOne_spec id (by simpa using ho : s.others ≠ [])
    · rw [e]; exact h.sched _ _ _ hs
    · rw [e]; exact h.line _ (h.sched _ _ _ hs)
    · rw [e]; exact h.peer _ (h.sched _ _ _ hs)

theorem Moves.moveAhead {P : State → Prop} (h : Moves P) : ∀ (k : Nat) (s : State), P s → P (s.moveAhead k)
  | 0, _, hs => hs
  | k + 1, s, hs => by
    simp only [State.moveAhead]
    split
    · exact hs
    · obtain ⟨-, q, d, e⟩ := s.choose_spec (opts := .seq :: s.others) (by simp)
      rw [e]
      cases (s.choose (.seq :: s.others)).1
      · exact h.sched _ _ _ hs
      · exact h.moveAhead k _ (h.line _ (h.sched _ _ _ hs))
      · exact h.moveAhead k _ (h.peer _ (h.sched _ _ _ hs))

theorem State.moveAhead_alone {s : State} (h : s.others = []) (k : Nat) : s.moveAhead k = s := by
  cases k <;> simp [State.moveAhead, h]

/-- What every kind of move keeps, a step keeps. -/
theorem step_keeps {P : State → Prop} (h : Moves P) (hrun : ∀ s, P s → P s.runOp)
    (hhost : ∀ s q, P s → P { s with host := q }) (hwrite : ∀ s (a : Half) v, P s → P (s.bufWrite a.toNat v))
    (hrefuse : ∀ s r, P s → P (s.refuse r)) (hexec : ∀ i s t, P s → exec i s = .next t → P t) {s t : State}
    (hs : P s) (ht : step s = .next t) : P t := by
  unfold step at ht
  split at ht
  · cases ht
    unfold State.whileBusy
    split
    · exact h.idleMove hs
    · exact hrun _ hs
  · split at ht
    · cases ht
      exact h.idleMove hs
    · cases ht
      exact hwrite _ _ _ (hhost _ _ hs)
    · split at ht
      · cases ht
        exact hrefuse _ _ (h.moveAhead _ _ (hhost _ _ hs))
      · exact hexec _ _ _ (h.moveAhead _ _ (hhost _ _ hs)) ht

end Sys2Proof.Machine
end

