-- ==== Sys2Proof/Tests/Slice0.lean ====
section
/-! SUPPORT. Tests/Slice0.lean: words written out from spec/95_test_vectors.md 2.1 and 2.2, ill-formed terms for each
check of WellFormed.lean, and one step of each operation on a small state, with the outcome 95_test_vectors.md gives. -/

namespace Sys2Proof.Tests
open Sys2Proof Sys2Proof.Machine

set_option maxRecDepth 100000

/-! ### Decoding: 95 §2.1, and the refusals of §2.2 -/

theorem test_decode_bus :
    decode 0x010001000000 = .ok (.bcInit 0x0100) ∧ decode 0x020000000000 = .ok .start ∧
    decode 0x030000000000 = .ok .stop ∧ decode 0x047800000000 = .ok (.req 0x78) ∧
    decode 0x053B00000000 = .ok (.wrb 0x3B) ∧ decode 0x060002000003 = .ok (.wrburst 0 0x0200 3) ∧
    decode 0x060103000001 = .ok (.wrburst 1 0x0300 1) ∧ decode 0x070000000000 = .ok .rdb ∧
    decode 0x080002000002 = .ok (.rdburst 0 0x0200 2) := by decide

theorem test_decode_draw :
    decode 0x100000000000 = .ok .dInit ∧ decode 0x110500000000 = .ok (.movecur 5 0) ∧
    decode 0x120004000000 = .ok (.drawchar 0x0400) ∧ decode 0x130010000000 = .ok (.drawbitmap 0x1000) ∧
    decode 0x140505000000 = .ok (.drawpixel 5 5) ∧ decode 0x150505000000 = .ok (.clearpixel 5 5) ∧
    decode 0x160000030100 = .ok (.drawline 0 0 3 1) ∧ decode 0x170306020000 = .ok (.drawvline 3 6 2) ∧
    decode 0x18090C010000 = .ok (.drawhline 9 12 1) ∧ decode 0x190A0A030000 = .ok (.drawcircle 10 10 3) := by decide

theorem test_decode_display :
    decode 0x20CF00000000 = .ok (.contrast 0xCF) ∧ decode 0x210100000000 = .ok (.invert 1) ∧
    decode 0x220000000000 = .ok (.dispon 0) ∧ decode 0x230100000000 = .ok (.flip 1) ∧
    decode 0x240000000000 = .ok (.addrmode 0) ∧ decode 0x280106000700 = .ok (.scrollh 1 6 0 7) ∧
    decode 0x290006000701 = .ok (.scrolldiag 0 6 0 7 1) ∧ decode 0x2A1030000000 = .ok (.setvarea 16 48) ∧
    decode 0x2B0100000000 = .ok (.scrollstate 1) ∧ decode 0x2C0006000701 = .ok (.scrollv 0 6 0 7 1) := by decide

theorem test_decode_ram :
    decode 0x300301A50000 = .ok (.ramwrite 3 1 0xA5) ∧ decode 0x310301800000 = .ok (.ramupdatebyte 3 1 0x80) ∧
    decode 0x320000000000 = .ok .ramupdatefull ∧ decode 0x330000000000 = .ok .ramclear := by decide

/-- V200 to V204: words that decode to nothing. -/
theorem test_decode_refused :
    decode 0x000000000000 = .error .unknownOpcode ∧ decode 0x090000000000 = .error .unknownOpcode ∧
    decode 0x1A0000000000 = .error .unknownOpcode ∧ decode 0x250000000000 = .error .unknownOpcode ∧
    decode 0x2D0000000000 = .error .unknownOpcode ∧ decode 0x340000000000 = .error .unknownOpcode ∧
    decode 0xFF0000000000 = .error .unknownOpcode ∧ decode 0x020000000001 = .error .reservedField ∧
    decode 0x047801000000 = .error .reservedField ∧ decode 0x120004000001 = .error .reservedField := by decide

/-- The six bytes of a word, the opcode first, and what is left of the stream (R110); a short stream has no word. -/
theorem test_decode_bytes :
    decodeBytes [0x16, 0, 0, 3, 1, 0, 0x33] = some (.ok (.drawline 0 0 3 1), [0x33]) ∧
    decodeBytes [0x16, 0, 0, 3, 1] = none ∧ decodeTableWord 48 0x160000030100 = some (.drawline 0 0 3 1) ∧
    decodeTableWord 48 0x340000000000 = none := by decide

/-! ### Ill-formed terms -/

theorem test_ill_formed_buffers :
    (Instr.bcInit 65525).wellFormed = false ∧ (Instr.wrburst 2 0 0).wellFormed = false ∧
    (Instr.wrburst 1 0xFFFF 2).wellFormed = false ∧ (Instr.rdburst 2 0 0).wellFormed = false ∧
    (Instr.rdburst 0 0xFFFF 2).wellFormed = false ∧ (Instr.drawbitmap 64513).wellFormed = false := by decide

theorem test_ill_formed_cursor :
    (Instr.movecur 128 0).wellFormed = false ∧ (Instr.movecur 0 8).wellFormed = false ∧
    (Instr.ramwrite 128 0 0).wellFormed = false ∧ (Instr.ramwrite 0 8 0).wellFormed = false ∧
    (Instr.ramupdatebyte 128 0 0).wellFormed = false ∧ (Instr.ramupdatebyte 0 8 0).wellFormed = false := by decide

theorem test_ill_formed_flags :
    (Instr.invert 2).wellFormed = false ∧ (Instr.dispon 2).wellFormed = false ∧ (Instr.flip 2).wellFormed = false ∧
    (Instr.scrollstate 2).wellFormed = false ∧ (Instr.addrmode 3).wellFormed = false := by decide

theorem test_ill_formed_scroll :
    (∀ i ∈ [Instr.scrollh 2 0 0 0, .scrollh 0 8 0 0, .scrollh 0 0 8 0, .scrollh 0 0 0 8, .scrolldiag 2 0 0 0 0,
      .scrolldiag 0 8 0 0 0, .scrolldiag 0 0 8 0 0, .scrolldiag 0 0 0 8 0, .scrolldiag 0 0 0 0 64],
        i.wellFormed = false) ∧
    ∀ i ∈ [Instr.scrollv 2 0 0 0 0, .scrollv 0 8 0 0 0, .scrollv 0 0 8 0 0, .scrollv 0 0 0 8 0, .scrollv 0 0 0 0 8,
      .setvarea 65 0, .setvarea 0 65, .setvarea 33 32], i.wellFormed = false := by decide

theorem test_well_formed_bounds :
    ∀ i ∈ [Instr.bcInit 65524, .wrburst 1 0xFFFF 1, .rdburst 0 0xFFFF 1, .drawbitmap 64512, .movecur 127 7,
      .scrolldiag 1 7 7 7 63, .setvarea 64 0, .setvarea 0 64, .scrollv 1 7 7 7 7, .drawpixel 255 255],
      i.wellFormed = true := by decide

/-! ### Small states -/

/-- The interface enabled, a peer that acknowledges everything and supplies 0x10, 0x11, .. -/
def quiet : State :=
  { State.reset with
    bus := { Bif.reset 0 with pe := true }
    peer := ⟨⟨[], some true⟩, ⟨[0x10, 0x11, 0x12, 0x13, 0x14], none⟩, [], false⟩
    sched := ⟨[], some .seq⟩ }

/-- The peer refuses the byte after the first `k`. -/
def refusing (k : Nat) : State := { quiet with peer := ⟨⟨List.replicate k true ++ [false], none⟩, ⟨[], none⟩, [], false⟩ }

/-- A transaction is open and its address byte has been acknowledged. -/
def openBus (d : Dir) : Bif :=
  { Bif.reset 0 with pe := true, role := .master, opened := true, phase := .addrAcked, addr := true, dir := d }

/-- `quiet`, where a transaction is open. -/
def opened (d : Dir) : State := { quiet with bus := openBus d }

/-- `quiet`, with a peer that means to address the block, whose own address is 0x30. -/
def addressed (ms : List PeerMove) (acks : List Bool) : State :=
  { quiet with
    bus := { Bif.reset 0 with pe := true, cfg := { BifConfig.reset with own1 := 0x30 } }
    peer := ⟨⟨acks, none⟩, ⟨[], none⟩, ms, false⟩ }

/-- The reference panel as the peer, in horizontal mode. -/
def panelled : State :=
  { quiet with peer := ⟨⟨[], none⟩, ⟨[], none⟩, [], true⟩, panel := { Panel.reset with amode := 0 } }

/-- The state after an operation has the property. -/
def after (o : Host.Outcome State Fault Refusal) (f : State → Bool) : Bool :=
  match o with
  | .next t => f t
  | _ => false

/-- The operation completes and the wire is then `w`. -/
def sends (i : Instr) (s : State) (w : List Token) : Bool :=
  after (exec i s) fun t => !t.busy && decide (t.settledWire = w)

/-- The operation hangs in front of a wait for `c`, with `w` on the wire. -/
def hangs (i : Instr) (s : State) (c : Cond) (w : List Token) : Bool :=
  after (exec i s) fun t => t.busy && decide (t.upc.head? = some (.wait c)) && t.others.isEmpty && decide (t.wire = w)

/-- The operation is refused. -/
def refused (i : Instr) (s : State) (r : RefuseReason) : Bool :=
  after (exec i s) fun t => !t.busy && decide (t.refusal = some r) && decide (t.wire = s.wire)

/-- Acknowledged bytes. -/
def acked (vs : List Byte) : List Token := vs.map (.byte · true)

/-- `C[..]` of 95: a command frame. -/
def cmd (vs : List Byte) : List Token := .start :: acked (0x78 :: 0x00 :: vs) ++ [.stop]

/-- `D[..]` of 95: a data frame. -/
def dat (vs : List Byte) : List Token := .start :: acked (0x78 :: 0x40 :: vs) ++ [.stop]

/-- The cursor frame. -/
def cur (col page : Byte) : List Token := cmd [0x21, col, 0x7F, 0x22, page, 0x07]

/-! ### Bus operations: 95 §2.3 to §2.6 -/

/-- V1's record at BUF address 0x100, with a speed, flags and own address, and the clock of a state. -/
def record (pclk : Nat) (bytes : List Byte) : State :=
  { State.reset with
    params := { Params.defaults with pclkHz := pclk }
    buf := bytes.zipIdx.map fun x => (0x100 + x.2, x.1) }

/-- V1, V12. -/
theorem test_bcInit :
    after (exec (.bcInit 0x100) (record 36000000 [1, 0, 0xA0, 0x86, 1, 0, 0, 0, 0x30, 0, 0, 0])) (fun t =>
      t.bus.pe && !t.bus.swrst && decide (t.bus.cfg = { BifConfig.reset with freq := 36, ccr := 90, trise := 37, own1 := 0x30 })
        && !t.busy) = true ∧
    refused (.bcInit 0x100) (record 63999999 [1, 0, 0xA0, 0x86, 1, 0, 0, 0, 0, 0, 0, 0]) .operandRange = true := by decide

/-- V20, V7. -/
theorem test_bcInit_fields :
    after (exec (.bcInit 0x100) (record 36000000 [2, 1, 0xA0, 0x86, 1, 0, 0xF4, 0, 0x30, 0, 0x51, 0])) (fun t =>
      decide (t.bus.cfg =
        { mode := .smbusDevice, enarp := true, enpec := true, engc := true, nostretch := true, addmode := false
          own1 := 0x30, endual := true, own2 := 0x51, freq := 36, fs := false, duty := false, ccr := 90, trise := 37 }))
      = true ∧
    after (exec (.bcInit 0x100) (record 2000000 [1, 0, 0x80, 0x1A, 6, 0, 3, 0, 0, 0, 0, 0])) (fun t =>
      t.bus.cfg.fs && t.bus.cfg.duty && decide (t.bus.cfg.ccr = 1) && decide (t.bus.cfg.trise = 1)) = true := by decide

/-- V30. -/
theorem test_start :
    after (exec .start quiet) (fun t => t.bus.start && !t.busy && decide (t.lineStep.wire = [.start]) && t.lineStep.bus.sb)
      = true := by decide

theorem test_stop :
    after (exec .stop (opened .tx)) (fun t => !t.busy && decide (t.lineStep.wire = [.stop]) && !t.lineStep.bus.opened)
      = true := by decide

/-- V31, V32, V39a. -/
theorem test_req :
    after (exec (.req 0x78) { quiet with bus := { quiet.bus with start := true } }) (fun t =>
      t.bus.addr && decide (t.bus.dir = .tx) && !t.bus.sb && decide (t.wire = [.start, .byte 0x78 true])) = true ∧
    hangs (.req 0x78) { refusing 0 with bus := { quiet.bus with start := true } } .addr [.start, .byte 0x78 false] = true ∧
    hangs (.req 0x78) quiet .sb [] = true := by decide

/-- V33, V39b. -/
theorem test_wrb :
    sends (.wrb 0x40) (opened .tx) (acked [0x40]) = true ∧
    hangs (.wrb 0x55) (opened .rx) .txe [.byte 0x10 false] = true := by decide

/-- V34, V39c. -/
theorem test_rdb :
    sends .rdb (opened .rx) [.byte 0x10 false, .stop] = true ∧
    after (exec .rdb (opened .rx)) (fun t => decide (t.res = 0x10) && !t.bus.ack) = true ∧
    hangs .rdb (opened .tx) .rxne [.stop] = true := by decide

/-- V46, V48. -/
theorem test_wrburst :
    sends (.wrburst 0 0x200 3) { opened .tx with buf := [(0x200, 0x00), (0x201, 0x81), (0x202, 0x7F)] }
      (acked [0x00, 0x81, 0x7F]) = true ∧
    hangs (.wrburst 0 0x200 0) (opened .tx) .btfAndTxe [] = true := by decide

/-- V60, V62. -/
theorem test_wrburst_responder :
    sends (.wrburst 1 0x200 3)
      { addressed [.address .own1 true] [true, true, false] with buf := [(0x200, 1), (0x201, 2), (0x202, 3)] }
      [.start, .byte 0x61 true, .byte 1 true, .byte 2 true, .byte 3 false] = true ∧
    sends (.wrburst 1 0x200 1) { addressed [.address .own1 true] [true, true, true, false] with buf := [(0x200, 0x5A)] }
      ([.start, .byte 0x61 true] ++ acked [0x5A, 0x5A, 0x5A] ++ [.byte 0x5A false]) = true := by decide

/-- The bytes of BUF from 0x200 on. -/
def got (t : State) (vs : List Byte) : Bool := decide ((List.range vs.length).map (fun k => t.bufByte (0x200 + k)) = vs)

/-- V40, V41, V42. -/
theorem test_rdburst :
    sends (.rdburst 0 0x200 2) (opened .rx) [.byte 0x10 true, .byte 0x11 false, .stop] = true ∧
    after (exec (.rdburst 0 0x200 2) (opened .rx)) (fun t => got t [0x10, 0x11] && t.bus.pos && !t.bus.ack) = true ∧
    sends (.rdburst 0 0x200 3) (opened .rx) (acked [0x10, 0x11] ++ [.byte 0x12 false, .stop]) = true ∧
    after (exec (.rdburst 0 0x200 3) (opened .rx)) (fun t => got t [0x10, 0x11, 0x12] && !t.bus.pos) = true ∧
    sends (.rdburst 0 0x200 4) (opened .rx) (acked [0x10, 0x11, 0x12] ++ [.byte 0x13 false, .stop]) = true := by decide

/-- R232: the peer stops after one acknowledged byte. -/
theorem test_wrburst_left :
    hangs (.wrburst 1 0x200 2)
      { addressed [.address .own1 true, .stop] [true, true, false] with
        buf := [(0x200, 1), (0x201, 2)], sched := ⟨[.line, .line, .seq, .peer], none⟩ } .txe
      (.start :: acked [0x61, 1] ++ [.stop]) = true := by decide

/-- V51: the buffer is right whichever of the two traces comes about. -/
theorem test_rdburst_pos :
    after (exec (.rdburst 0 0x200 3) { opened .rx with bus := { openBus .rx with pos := true } }) (fun t =>
      got t [0x10, 0x11, 0x12] && t.bus.pos && !t.busy && decide (t.wire.take 3 = acked [0x10, 0x11, 0x12])) = true := by decide

/-- V66, V68, V218. -/
theorem test_rdburst_responder :
    after (exec (.rdburst 1 0x200 3) (addressed [.address .own1 false, .send 0x11, .send 0x22, .send 0x33, .stop] []))
      (fun t => got t [0x11, 0x22, 0x33] && !t.busy && !t.bus.stopf && t.bus.ack &&
        decide (t.wire = .start :: acked [0x60, 0x11, 0x22, 0x33] ++ [.stop])) = true ∧
    after (exec (.rdburst 1 0x200 2) (addressed [.address .own1 false, .send 0x11, .send 0x22, .send 0x33, .stop] []))
      (fun t => got t [0x11, 0x22] && t.busy && decide (t.faulted = some .bufferOverrun)) = true ∧
    hangs (.rdburst 0 0x200 1) (opened .rx) .never [] = true ∧
    refused (.rdburst 0 0x200 1) { opened .rx with params := { Params.defaults with strict := true } } .countTooSmall
      = true := by decide

/-! ### Display operations: 95 §2.7, §2.8 -/

/-- V89e: the seventeen commands, up to a panel that refuses the last byte. -/
theorem test_dInit :
    hangs .dInit (refusing 27) .btfAndTxe
      (.start :: acked [0x78, 0x00, 0xAE, 0xD5, 0x80, 0xD9, 0xF1, 0xDB, 0x40, 0x8D, 0x14, 0x20, 0x00, 0x40, 0xA1, 0xA8,
        0x3F, 0xC8, 0xD3, 0x00, 0xDA, 0x12, 0x81, 0x7F, 0xA4, 0xA6, 0x2E] ++ [.byte 0xAF false]) = true := by decide

/-- V71, V79. -/
theorem test_movecur :
    sends (.movecur 5 0) quiet (cur 5 0) = true ∧ hangs (.movecur 5 0) (refusing 0) .addr [.start, .byte 0x78 false] = true := by
  decide

/-- V88. -/
theorem test_contrast : sends (.contrast 0xCF) quiet (cmd [0x81, 0xCF]) = true := by decide

/-- V89a. -/
theorem test_invert :
    sends (.invert 1) quiet (cmd [0xA7]) = true ∧ sends (.invert 0) quiet (cmd [0xA6]) = true := by decide

/-- V89b. -/
theorem test_dispon :
    sends (.dispon 0) quiet (cmd [0xAE]) = true ∧ sends (.dispon 1) quiet (cmd [0xAF]) = true := by decide

/-- V89c. -/
theorem test_flip :
    sends (.flip 1) quiet (cmd [0xA0, 0xC0]) = true ∧ sends (.flip 0) quiet (cmd [0xA1, 0xC8]) = true := by decide

/-- V89d. -/
theorem test_addrmode : sends (.addrmode 2) quiet (cmd [0x20, 0x02]) = true := by decide

/-- V80, V214. -/
theorem test_scrollh :
    sends (.scrollh 1 6 0 7) quiet (cmd [0x27, 0x00, 0x00, 0x06, 0x07, 0x00, 0xFF]) = true ∧
    refused (.scrollh 0 8 0 7) quiet .operandRange = true := by decide

/-- V83. -/
theorem test_scrolldiag :
    sends (.scrolldiag 1 7 1 6 0x3F) quiet (cmd [0x2A, 0x00, 0x01, 0x07, 0x06, 0x3F]) = true := by decide

/-- V84, V216. -/
theorem test_setvarea :
    sends (.setvarea 16 48) quiet (cmd [0xA3, 0x10, 0x30]) = true ∧
    refused (.setvarea 33 32) quiet .operandRange = true := by decide

/-- V85. -/
theorem test_scrollstate :
    sends (.scrollstate 1) quiet (cmd [0x2F]) = true ∧ sends (.scrollstate 0) quiet (cmd [0x2E]) = true := by decide

/-- V86, V87. -/
theorem test_scrollv :
    sends (.scrollv 0 6 0 7 1) quiet
      (cmd [0xA3, 0x10, 0x30] ++ cmd [0x29, 0x00, 0x00, 0x06, 0x07, 0x01]) = true ∧
    sends (.scrollv 1 0 0 7 7) quiet
      (cmd [0xA3, 0x40, 0x00] ++ cmd [0x29, 0x00, 0x00, 0x00, 0x07, 0x3F]) = true := by decide

/-- V73. -/
theorem test_ramwrite :
    after (exec (.ramwrite 3 1 0xA5) quiet) (fun t => decide (t.fbByte 131 = 0xA5) && t.wire.isEmpty && !t.busy) = true := by
  decide

/-- V76. -/
theorem test_ramupdatebyte :
    sends (.ramupdatebyte 3 1 0x80) { quiet with fb := [(131, 0x01)] } (cur 3 1 ++ dat [0x81]) = true ∧
    after (exec (.ramupdatebyte 3 1 0x80) { quiet with fb := [(131, 0x01)] }) (fun t => decide (t.fbByte 131 = 0x81)) = true := by
  decide

/-- V78, up to a panel that refuses the second byte of `FB`. -/
theorem test_ramupdatefull :
    hangs .ramupdatefull { refusing 13 with fb := [(0, 0xC3), (1, 0x5A)] } .btfAndTxe
      (cur 0 0 ++ dat [0xC3] ++ .start :: acked [0x78, 0x40] ++ [.byte 0x5A false]) = true := by decide

/-- V75. -/
theorem test_ramclear :
    after (exec .ramclear quiet) (fun t =>
      decide (t.fbByte 0 = 0) && decide (t.fbByte 1023 = 0) && t.wire.isEmpty && !t.busy) = true := by decide

/-! ### Drawing: 95 §2.10 -/

/-- V94, V219. -/
theorem test_drawpixel :
    sends (.drawpixel 5 5) { quiet with fb := [(5, 0)] } (cur 5 0 ++ dat [0x20]) = true ∧
    sends (.drawpixel 128 0) quiet [] = true := by decide

/-- V97. -/
theorem test_clearpixel :
    sends (.clearpixel 5 5) { quiet with fb := [(5, 0xFF)] } (cur 5 0 ++ dat [0xDF]) = true ∧
    after (exec (.clearpixel 5 5) { quiet with fb := [(5, 0xFF)] }) (fun t => decide (t.fbByte 5 = 0xDF)) = true := by
  decide

/-- V101, and the points of V103, V106, V107, V108. -/
theorem test_drawline :
    sends (.drawline 0 0 3 1) { quiet with fb := [(0, 0), (1, 0), (2, 0), (3, 0)] }
      (cur 0 0 ++ dat [0x01] ++ cur 1 0 ++ dat [0x01] ++ cur 2 0 ++ dat [0x02] ++ cur 3 0 ++ dat [0x02]) = true := by
  decide

/-- R453: the line hangs in the frames of its fourth pixel, with four pixels set. -/
theorem test_drawline_refused :
    after (exec (.drawline 0 0 7 3) { refusing 33 with fb := [(0, 0), (1, 0), (2, 0), (3, 0), (4, 0)] }) (fun t =>
      t.busy && t.bus.af && decide (((List.range 5).map t.fbByte) = [1, 1, 2, 2, 0]) &&
        decide (t.wire.getLast? = some (.byte 0x78 false))) = true := by decide

theorem test_drawline_points :
    linePoints 0 0 7 3 = [(0, 0), (1, 0), (2, 1), (3, 1), (4, 2), (5, 2), (6, 3), (7, 3)] ∧
    linePoints 2 7 4 0 = [(2, 7), (2, 6), (3, 5), (3, 4), (3, 3), (3, 2), (4, 1), (4, 0)] ∧
    linePoints 10 10 4 12 = [(10, 10), (9, 10), (8, 11), (7, 11), (6, 11), (5, 12), (4, 12)] ∧
    linePoints 0 0 2 1 = [(0, 0), (1, 1), (2, 1)] := by decide

/-- V114. -/
theorem test_drawvline :
    sends (.drawvline 7 7 8) { quiet with fb := [(7, 0), (135, 0)] } (cur 7 0 ++ dat [0x80] ++ cur 7 1 ++ dat [0x01]) = true ∧
    vlinePoints 3 6 2 = [(3, 6), (3, 5), (3, 4), (3, 3), (3, 2)] := by decide

/-- V117, V116. -/
theorem test_drawhline :
    sends (.drawhline 126 130 0) { quiet with fb := [(126, 0), (127, 0)] }
      (cur 126 0 ++ dat [0x01] ++ cur 127 0 ++ dat [0x01]) = true ∧
    hlinePoints 12 9 1 = [(12, 1), (11, 1), (10, 1), (9, 1)] := by decide

/-- V120, V121. -/
theorem test_drawcircle :
    after (exec (.drawcircle 10 10 0) { quiet with fb := [(138, 0)] }) (fun t =>
      !t.busy && decide (t.fbByte 138 = 0x04)) = true ∧
    circlePoints 10 10 1 = [(11, 10), (9, 10), (11, 10), (9, 10), (10, 11), (10, 11), (10, 9), (10, 9), (10, 11), (10, 9),
      (11, 10), (9, 10)] := by decide

/-- V123. -/
theorem test_drawcircle_points :
    circlePoints 10 10 3 = [(11, 13), (9, 13), (11, 7), (9, 7), (13, 11), (7, 11), (13, 9), (7, 9)] ++
      [(12, 12), (8, 12), (12, 8), (8, 8), (12, 12), (8, 12), (12, 8), (8, 8), (10, 13), (10, 7), (13, 10), (7, 10)] := by
  decide

/-- `quiet`, with a text in BUF at 0x400 and the glyph V140 makes up. -/
def texted (text : List Byte) : State :=
  { quiet with
    params := { Params.defaults with font := [(165, 0x7C), (166, 0x12), (167, 0x11), (168, 0x12), (169, 0x7C)] }
    buf := text.zipIdx.map fun x => (0x400 + x.2, x.1) }

/-- V140, V144. -/
theorem test_drawchar :
    sends (.drawchar 0x400) (texted [0x41, 0]) (dat [0x7C] ++ dat [0x12] ++ dat [0x11] ++ dat [0x12] ++ dat [0x7C]) = true ∧
    after (exec (.drawchar 0x400) (texted [0x41, 0x0A, 0])) (fun t =>
      t.busy && decide (t.faulted = some .charRange) && decide (t.upc = [.text 0x401])) = true := by decide

/-- V145. -/
theorem test_drawchar_end :
    after (exec (.drawchar 0xFFFF) { texted [] with buf := [(0xFFFF, 0x41)] }) (fun t =>
      t.busy && decide (t.faulted = some .bufferRange)) = true := by decide

/-- V141, up to a panel that refuses the second byte of the image; V209. -/
theorem test_drawbitmap :
    hangs (.drawbitmap 0x1000) { refusing 13 with buf := [(0x1000, 0x3C), (0x1001, 0x42)] } .btfAndTxe
      (cur 0 0 ++ dat [0x3C] ++ .start :: acked [0x78, 0x40] ++ [.byte 0x42 false]) = true ∧
    refused (.drawbitmap 64513) quiet .bufferRange = true := by decide

/-! ### The host, the panel -/

/-- The host writes BUF, then issues (R99); a refused word leaves its mark (V200). -/
theorem test_step :
    after (step { quiet with host := [.write 0x200 0xAA] }) (fun t => decide (t.bufByte 0x200 = 0xAA) && t.host.isEmpty) = true ∧
    after (step (quiet.withFetchWord 48 0x000000000000)) (fun t => decide (t.refusal = some .unknownOpcode)) = true ∧
    after (step (quiet.withFetchWord 48 0x300301A50000)) (fun t => decide (t.fbByte 131 = 0xA5)) = true := by decide

/-- R383, R388: of inversion and of the scroll state the panel holds what it was told last. -/
theorem test_panel_record :
    let told : List Byte → Panel := fun cmds => (cmd cmds).foldl (fun p k => p.see Params.defaults k) Panel.reset
    (told [0xA7, 0x2F, 0x81, 0x09, 0x2E, 0xA6]).setting PanelCmds.defaults .inversion = some (0xA6, []) ∧
    (told [0x2F, 0x2E]).setting PanelCmds.defaults .scrollState = some (0x2E, []) ∧
    (told [0x2E, 0x2F]).setting PanelCmds.defaults .scrollState = some (0x2F, []) ∧
    (told [0x2F, 0x81, 0x09, 0x2E]).setting PanelCmds.defaults .contrast = some (0x81, [0x09]) ∧
    (told [0x2F]).setting PanelCmds.defaults .power = none := by decide

/-- R322, R388: SCROLLH to the left sets the scroll set-up anew and leaves the scroll state. -/
theorem test_panel_scroll :
    after (exec (.scrollh 1 4 5 6)
      { panelled with panel := { panelled.panel with told := [(0x2F, []), (0x26, [0, 1, 0, 2, 0, 0xFF])] } }) (fun t =>
      decide (t.panel.setting PanelCmds.defaults .scrollSetup = some (0x27, [0, 5, 4, 6, 0, 0xFF]) ∧
        t.panel.setting PanelCmds.defaults .scrollState = some (0x2F, []))) = true := by decide

/-- R45: the offsets, and bit 14 of OAR1 after BC_INIT and after a reset. -/
theorem test_register_file :
    [BusReg.cr1, .cr2, .oar1, .oar2, .dr, .sr1, .sr2, .ccr, .trise].map BusReg.offset =
      [0x00, 0x04, 0x08, 0x0C, 0x10, 0x14, 0x18, 0x1C, 0x20] ∧
    after (exec (.bcInit 0x100) (record 36000000 [1, 0, 0xA0, 0x86, 1, 0, 0, 0, 0x30, 0, 0, 0])) (fun t =>
      decide (t.bus.regAt 0x08 = some 0x4060)) = true ∧
    State.reset.bus.regAt 0x08 = some 0 ∧ State.reset.bus.regAt 0x20 = some 2 ∧ State.reset.bus.regAt 0x02 = none := by
  decide

/-- P2: the panel holds the byte, its cursor one further. -/
theorem test_panel :
    after (exec (.drawpixel 5 5) { panelled with fb := [(5, 0)] }) (fun t =>
      decide (t.panel.gdByte 5 = 0x20) && decide (t.panel.pcol = 6 ∧ t.panel.ppage = 0 ∧ t.panel.cs = 5)) = true := by decide

/-! ### Witnesses: a concrete state and operands that meet the hypotheses of each statement of Obligations.lean, clause
by clause -/

/-- The host is about to issue `w`. -/
def issuing (w : Word) : State := { quiet with host := [.issue w] }

theorem witness_EncodeDecode : decode 0x117F07000000 = .ok (.movecur 127 7) := by decide

theorem witness_DecodeAcceptsTable : (0x117F07000000#48 &&& 0xFF0000FFFFFF = 0x110000000000) ∧
    (0x110000000000#48, 0xFF0000FFFFFF#48) ∈ opcodeTable := by decide

theorem witness_UnknownOpcodeRefused :
    (issuing 0x340000000000).busy = false ∧ (issuing 0x340000000000).host = .issue 0x340000000000 :: [] ∧
    (Word.op 0x340000000000).toNat = 0x34 ∧ (Word.op 0xFF0000000000).toNat = 0xFF ∧ (Word.op 0x090000000000).toNat = 9 := by decide

theorem witness_ReservedFieldRefused :
    (0x020000000001#48 &&& 0xFF0000000000 = 0x020000000000) ∧
    (∃ row ∈ opcodeTable, (0x020000000001#48 : Word) &&& 0xFF0000000000 = row.1) ∧
    (∀ row ∈ opcodeTable, (0x020000000001#48 : Word) &&& row.2 ≠ row.1) ∧
    (issuing 0x020000000001).busy = false ∧ (issuing 0x020000000001).host = .issue 0x020000000001 :: [] := by
  have h : opcodeTable.all (fun row => decide ((0x020000000001#48 : Word) &&& row.2 ≠ row.1)) = true := by decide
  refine ⟨by decide, ⟨(0x020000000000, 0xFFFFFFFFFFFF), by decide, by decide⟩, fun row hr => ?_, rfl, rfl⟩
  exact of_decide_eq_true (List.all_eq_true.1 h row hr)

theorem witness_StepRunsDecoded :
    (issuing 0x117F07000000).busy = false ∧ (issuing 0x117F07000000).host = .issue 0x117F07000000 :: [] ∧
    decode 0x117F07000000 = .ok (.movecur 127 7) ∧ (issuing 0x117F07000000).others = [] := by decide

theorem witness_HostMoves :
    State.busy { quiet with host := [.write 0xFFFF 1] } = false ∧
    State.host { quiet with host := [.write 0xFFFF 1] } = .write 0xFFFF 1 :: [] ∧
    State.busy { quiet with busy := true, upc := [.wait .sb] } = true := by decide

theorem witness_ready : quiet.ready ∧ (opened .tx).ready ∧ (opened .rx).ready ∧ (refusing 0).ready ∧ panelled.ready := by
  refine ⟨⟨?_, ?_⟩, ⟨?_, ?_⟩, ⟨?_, ?_⟩, ⟨?_, ?_⟩, ⟨?_, ?_⟩⟩ <;> rfl

theorem witness_IllFormedRefused : quiet.ready ∧ (Instr.movecur 128 0).wellFormed = false :=
  ⟨witness_ready.1, by decide⟩

theorem witness_BufferOperandRefused :
    quiet.ready ∧ 1 < (2 : Byte).toNat ∧ ((1 : Byte).toNat ≤ 1 ∧ 65536 < (0xFFFF : Half).toNat + (2 : Half).toNat) ∧
    64512 < (64513 : Half).toNat ∧ 65524 < (65525 : Half).toNat := ⟨witness_ready.1, by decide⟩

/-- One record for each outcome of BC_INIT, in the order of the tests. -/
theorem witness_BcInitOutcome :
    let k : List Byte := [0xA0, 0x86, 1, 0]
    (record 36000000 []).ready ∧ (record 36000000 []).params.sched = .runToWait ∧
    refused (.bcInit 65525) (record 36000000 []) .bufferRange ∧
    refused (.bcInit 0x100) (record 36000000 ([3, 3] ++ k ++ [0, 0, 0, 0, 0, 0])) .unsupportedInstance ∧
    refused (.bcInit 0x100) (record 36000000 ([1, 3] ++ k ++ [0, 1, 0, 0, 0, 0])) .operandRange ∧
    refused (.bcInit 0x100) (record 36000000 [1, 0, 0x81, 0x1A, 6, 0, 0, 1, 0, 0, 0, 0]) .operandRange ∧
    refused (.bcInit 0x100) (record 64000000 ([1, 0] ++ k ++ [0, 0, 0, 4, 0, 0])) .reservedField ∧
    refused (.bcInit 0x100) (record 64000000 ([1, 0] ++ k ++ [0, 0, 0, 0, 0, 0])) .operandRange ∧
    after (exec (.bcInit 0x100) (record 62000000 ([1, 0] ++ k ++ [0, 0, 0xFF, 3, 0x7F, 0]))) (fun t =>
      t.bus.pe && decide (t.bus.cfg.trise = 63)) := by
  refine ⟨⟨rfl, rfl⟩, rfl, by decide, by decide, by decide, by decide, by decide, by decide, by decide⟩

theorem witness_MinimumDivisor :
    (record 2000000 [1, 0, 0x80, 0x1A, 6, 0, 3, 0, 0, 0, 0, 0]).bus.pe = false ∧
    after (exec (.bcInit 0x100) (record 2000000 [1, 0, 0x80, 0x1A, 6, 0, 3, 0, 0, 0, 0, 0])) (fun t => t.bus.pe) = true := by
  decide

theorem witness_StartAndStopConditions :
    Bif.startOn { quiet.bus with start := true } = true ∧ Bif.startOn { openBus .tx with addr := false, start := true } = true ∧
    Bif.stopOn { openBus .tx with stop := true } = true := by decide

/-- The address byte is in the data register; a data byte is in it; a data byte is in the shift register. -/
theorem witness_TransmitSteps :
    Bif.addrOn { openBus .tx with addr := false, phase := .started, drFull := true } = true ∧
    Bif.loadOn { openBus .tx with addr := false, phase := .data, drFull := true, more := true } = true ∧
    Bif.txByteOn { openBus .tx with addr := false, phase := .data, shFull := true, more := true } = true ∧
    panelled.peer.isPanel = true := by decide

theorem witness_ReceiveStep :
    Bif.rxByteOn { openBus .rx with addr := false, phase := .data, more := true, drFull := true } = true ∧
    quiet.peer.data.next = 0x10 :: [0x11, 0x12, 0x13, 0x14] := by decide

theorem witness_ResponderSteps :
    State.peerOn { addressed [.address .own1 true] [] with bus := { quiet.bus with ack := true } } = true ∧
    State.peerOn { addressed [.address .general false] [] with
      bus := { quiet.bus with ack := true, cfg := { BifConfig.reset with engc := true } } } = true ∧
    State.peerOn { addressed [.send 1] [] with
      bus := { openBus .rx with role := .slave, addr := false, phase := .data, more := true } } = true ∧
    State.peerOn { addressed [.stop] [] with
      bus := { openBus .rx with role := .slave, addr := false, phase := .data, more := true } } = true := by decide

theorem witness_LineAgentDeterministic :
    (Bif.reset 0).pe = false ∧ Bif.role { openBus .tx with stop := true } = .master ∧
    Bif.stop { openBus .tx with stop := true } = true := by decide

theorem witness_StartStopOutcome :
    quiet.params.sched = .runToWait ∧ State.reset.bus.pe = false ∧ State.reset.ready ∧
    Bif.startOn { quiet.bus with start := true } = true ∧ Bif.stopOn { openBus .tx with stop := true } = true :=
  ⟨rfl, rfl, ⟨rfl, rfl⟩, by decide, by decide⟩

/-- A START has been requested on the idle bus. -/
def called : State := { quiet with bus := { quiet.bus with start := true } }

theorem witness_ReqOutcome :
    called.ready ∧ called.params.waitBudget = none ∧ called.bus.calling ∧ called.peerAway ∧ called.peer.acknowledges ∧
    called.peer.isPanel = false ∧
    ((refusing 0).peer.isPanel = false ∧ ∃ ys, (refusing 0).peer.acks.next = false :: ys) ∧
    (panelled.peer.isPanel = true ∧ (0x79 : Byte) ≠ panelled.params.dispAddrW) ∧
    quiet.bus.sb = false ∧ quiet.others = [] := by
  refine ⟨⟨rfl, rfl⟩, rfl, .inl ?_, .inl rfl, .inr ⟨by simp [called, quiet], rfl⟩, rfl, ⟨rfl, [], rfl⟩, ⟨rfl, by decide⟩, rfl,
    rfl⟩
  exact ⟨rfl, rfl, rfl, rfl, rfl, .inl ⟨rfl, rfl, rfl⟩⟩

theorem witness_addressed (d : Dir) : (openBus d).addressed d :=
  ⟨rfl, rfl, rfl, rfl, rfl, rfl, rfl, rfl, rfl, rfl, rfl⟩

/-- A write transaction after a byte has gone out. -/
def written : Bif := { openBus .tx with addr := false, phase := .data, more := true, sent := 1 }

theorem witness_writing : written.writing ∧ 0 < written.sent + (0 : Half).toNat :=
  ⟨⟨rfl, rfl, rfl, rfl, rfl, rfl, rfl, rfl, rfl, rfl, rfl, rfl⟩, by decide⟩

/-- Clauses of WrbOutcome and WrburstOutcome in a write transaction; the others in `witness_wrong_direction`. -/
theorem witness_WrbOutcome :
    (opened .tx).params.waitBudget = none ∧ (opened .tx).peerAway ∧ (opened .tx).peer.acknowledges ∧
    (refusing 0).peer.isPanel = false ∧ (refusing 0).peer.acks.next = false :: [] :=
  ⟨rfl, .inl rfl, .inr ⟨by simp [opened, quiet], rfl⟩, rfl, rfl⟩

theorem witness_WrburstOutcome :
    (0xFFFF : Half).toNat + (1 : Half).toNat ≤ 65536 ∧ 0 < (1 : Half).toNat ∧ (0 : Half).toNat = 0 ∧
    (refusing 2).peer.acks.next = List.replicate 2 true ++ false :: [] ∧ 2 < (3 : Half).toNat := by decide

theorem witness_RdbOutcome :
    (opened .rx).bus.addressed .rx ∧ (opened .rx).peer.data.next = 0x10 :: [0x11, 0x12, 0x13, 0x14] ∧
    (opened .tx).bus.addressed .tx := ⟨witness_addressed .rx, rfl, witness_addressed .tx⟩

theorem witness_RdburstTwo :
    (opened .rx).params.sched = .runToWait ∧ (2 : Half).toNat = 2 ∧ (65534 : Half).toNat ≤ 65534 ∧
    (opened .rx).peer.data.next = 0x10 :: 0x11 :: [0x12, 0x13, 0x14] := by decide

theorem witness_RdburstMany :
    2 < (3 : Half).toNat ∧ ([0x10, 0x11, 0x12] : List Byte).length = (3 : Half).toNat ∧
    (65533 : Half).toNat + (3 : Half).toNat ≤ 65536 ∧ (opened .rx).bus.pos = false ∧
    (opened .rx).peer.data.next = [0x10, 0x11, 0x12] ++ [0x13, 0x14] := by decide

/-- The clause of RdburstMany with `POS` left at 1. -/
theorem witness_RdburstMany_pos :
    (openBus .rx).addressed .rx ∧ Bif.addressed .rx { openBus .rx with pos := true } ∧
    (opened .rx).peer.data.next = [0x10, 0x11, 0x12] ++ 0x13 :: [0x14] :=
  ⟨witness_addressed .rx, ⟨rfl, rfl, rfl, rfl, rfl, rfl, rfl, rfl, rfl, rfl, rfl⟩, rfl⟩

theorem witness_RdburstShort :
    (1 : Half).toNat < 2 ∧ (0xFFFF : Half).toNat + (1 : Half).toNat ≤ 65536 ∧ (opened .rx).params.strict = false ∧
    State.params { quiet with params := { Params.defaults with strict := true } } = { Params.defaults with strict := true } :=
  ⟨by decide, by decide, rfl, rfl⟩

theorem witness_wrong_direction :
    (opened .rx).params.waitBudget = none ∧ (opened .rx).bus.addressed .rx ∧ (opened .tx).bus.addressed .tx ∧
    0 < (1 : Half).toNat ∧ (quiet.bus.addr = false ∧ quiet.bus.txe = false ∧ quiet.others = []) :=
  ⟨rfl, witness_addressed .rx, witness_addressed .tx, by decide, rfl, rfl, rfl⟩

theorem witness_ResponderUnaddressed : quiet.peer.moves = [] ∧ quiet.others = [] ∧ quiet.bus.addr = false := ⟨rfl, rfl, rfl⟩

theorem witness_ResponderWrite :
    let s := addressed [.address .own1 true] [true, true, false]
    s.ready ∧ s.params.waitBudget = none ∧ s.params.sched = .runToWait ∧ s.bus.listening ∧ s.bus.cfg.answers .own1 true ∧
    s.peer.moves = [.address .own1 true] ∧ s.peer.acks.next = List.replicate 2 true ++ false :: [] := by
  refine ⟨⟨rfl, rfl⟩, rfl, rfl, ?_, ⟨rfl, trivial⟩, rfl, rfl⟩
  exact ⟨rfl, rfl, rfl, rfl, rfl, rfl, rfl, rfl, rfl, rfl⟩

/-- The clauses of ResponderWrite with a peer that stops, and with one that writes. -/
theorem witness_ResponderWrite_stop :
    let s := addressed [.address .own1 true, .stop] [true, true, false]
    let u := addressed [.address .own1 false] []
    s.ready ∧ s.bus.listening ∧ s.bus.cfg.answers .own1 true ∧ s.peer.moves = [.address .own1 true, .stop] ∧
    s.peer.acks.next = List.replicate 2 true ++ false :: [] ∧ 2 ≤ 65536 ∧
    u.ready ∧ u.bus.listening ∧ u.bus.cfg.answers .own1 false ∧ u.peer.moves = [.address .own1 false] := by
  refine ⟨⟨rfl, rfl⟩, ?_, ⟨rfl, trivial⟩, rfl, rfl, by decide, ⟨rfl, rfl⟩, ?_, ⟨rfl, trivial⟩, rfl⟩ <;>
    exact ⟨rfl, rfl, rfl, rfl, rfl, rfl, rfl, rfl, rfl, rfl⟩

theorem witness_ResponderRead :
    let s := addressed (.address .own1 false :: ([0x11, 0x22].map .send ++ [.stop])) []
    s.ready ∧ s.bus.listening ∧ s.bus.cfg.answers .own1 false ∧
    s.peer.moves = .address .own1 false :: ([0x11, 0x22].map .send ++ [.stop]) ∧
    ([0x11, 0x22] : List Byte).length ≤ (2 : Half).toNat ∧ (1 : Half).toNat < ([0x11, 0x22] : List Byte).length := by
  refine ⟨⟨rfl, rfl⟩, ?_, ⟨rfl, trivial⟩, rfl, by decide, by decide⟩
  exact ⟨rfl, rfl, rfl, rfl, rfl, rfl, rfl, rfl, rfl, rfl⟩

/-- What every display operation needs, with a scripted peer, and with the panel after the stop of a frame is requested. -/
theorem witness_displayReady :
    quiet.displayReady ∧ panelled.displayReady ∧ State.displayReady { opened .tx with bus := { written with stop := true } } := by
  refine ⟨⟨⟨rfl, rfl, rfl, rfl, rfl, .inl ⟨rfl, rfl, rfl⟩⟩, .inl rfl, .inr ⟨by simp [quiet], rfl⟩, rfl, by decide⟩,
    ⟨⟨rfl, rfl, rfl, rfl, rfl, .inl ⟨rfl, rfl, rfl⟩⟩, .inl rfl, .inl rfl, rfl, by decide⟩,
    ⟨⟨rfl, rfl, rfl, rfl, rfl, .inr ⟨rfl, rfl, rfl⟩⟩, .inl rfl, .inr ⟨by simp [opened, quiet], rfl⟩, rfl, by decide⟩⟩

/-- The premises under which an operation hangs at a refused byte (HangsRefused): the address byte of a command frame, the
last byte of a cursor and a data frame, and the bytes on both sides of the end of D_INIT's command frame. -/
theorem witness_HangsRefused :
    (∀ k, (refusing k).ready ∧ (refusing k).bus.free ∧ (refusing k).peerAway ∧ (refusing k).params.waitBudget = none ∧
      (refusing k).params.dispAddrW.getLsbD 0 = false ∧ (refusing k).peer.isPanel = false ∧
      (refusing k).peer.acks.next = List.replicate k true ++ false :: []) ∧
    0 < byteCount (cmdTokens Params.defaults [0x2F]) ∧
    10 < byteCount (cursorTokens Params.defaults 127 7 ++ dataTokens Params.defaults [0x80]) ∧
    27 < byteCount (cmdTokens Params.defaults (initCommands PanelCmds.defaults)) ∧
    28 < byteCount (cmdTokens Params.defaults (initCommands PanelCmds.defaults) ++ cursorTokens Params.defaults 0 0) ∧
    10 < byteCount (plottedTokens [(0, 0), (1, 0)] quiet) :=
  ⟨fun k => ⟨⟨rfl, rfl⟩, ⟨rfl, rfl, rfl, rfl, rfl, .inl ⟨rfl, rfl, rfl⟩⟩, .inl rfl, rfl,
      (by decide : Params.defaults.dispAddrW.getLsbD 0 = false), rfl, rfl⟩, by decide, by decide, by decide, by decide, by decide⟩

theorem witness_watched : panelled.watched (· = 0) ∧ panelled.watched (fun _ => True) := by
  refine ⟨⟨rfl, rfl, by decide, rfl, ?_⟩, ⟨rfl, rfl, by decide, trivial, ?_⟩⟩ <;>
    (intro v vs h; cases h)

/-- The operand bounds of MovecurOutcome, ModeOutcomes, ScrollOutcomes, ScrollvOutcome, ShadowWrites,
RamupdatebyteOutcome, on both sides. -/
theorem witness_display_operands :
    (127 < (128 : Byte).toNat ∧ 7 < (8 : Byte).toNat ∧ (127 : Byte).toNat ≤ 127 ∧ (7 : Byte).toNat ≤ 7) ∧
    (1 < (2 : Byte).toNat ∧ 2 < (3 : Byte).toNat ∧ (2 : Byte).toNat ≤ 2 ∧ (0 : Byte) = 0 ∧ (1 : Byte) = 1) ∧
    ((1 : Byte).toNat ≤ 1 ∧ (0x3F : Byte).toNat ≤ 0x3F ∧ 64 < (33 : Byte).toNat + (32 : Byte).toNat ∧
      (64 : Byte).toNat + (0 : Byte).toNat ≤ 64) ∧
    (quiet.params.sched = .runToWait ∨ quiet.others = []) := by decide

theorem witness_PixelOutcomes :
    (127 < (128 : Byte).toNat ∨ 63 < (0 : Byte).toNat) ∧ (127 < (0 : Byte).toNat ∨ 63 < (64 : Byte).toNat) ∧
    (127 : Byte).toNat ≤ 127 ∧ (63 : Byte).toNat ≤ 63 := by decide

theorem witness_LineProperties :
    ((5, 5) : Point) ∈ linePoints 5 5 5 5 ∧ (linePoints 0 0 3 1)[0]? = some (0, 0) ∧ (linePoints 0 0 3 1)[0 + 1]? = some (1, 0) := by
  decide

theorem witness_CircleSymmetry : (((10 : Byte).toNat : Int) + 1, ((10 : Byte).toNat : Int) + 3) ∈
    circlePoints (10 : Byte).toNat (10 : Byte).toNat (3 : Byte).toNat := by decide

/-- A text before its sentinel, before a code that is no character, and at the end of BUF. -/
theorem witness_DrawcharOutcome :
    (0x400 : Half).toNat + ([0x41] : List Byte).length < 65536 ∧ (∀ c ∈ ([0x41] : List Byte), 0x20 ≤ c.toNat ∧ c.toNat ≤ 0x7E) ∧
    (texted [0x41, 0]).bufByte 0x400 = 0x41 ∧ (texted [0x41, 0]).bufByte 0x401 = 0 ∧
    (texted [0x41, 0x0A]).bufByte 0x401 = 0x0A ∧ (0xFFFF : Half).toNat + ([0x41] : List Byte).length = 65536 ∧
    State.bufByte { texted [] with buf := [(0xFFFF, 0x41)] } 0xFFFF = 0x41 := by decide

theorem witness_DrawbitmapOutcome : 64512 < (64513 : Half).toNat ∧ (64512 : Half).toNat ≤ 64512 := by decide

theorem witness_SingleByteLockstep :
    panelled.ready ∧ panelled.displayReady ∧ panelled.watched (· = 0) ∧ (127 : Byte).toNat ≤ 127 ∧ (7 : Byte).toNat ≤ 7 ∧
    (63 : Byte).toNat ≤ 63 := ⟨⟨rfl, rfl⟩, witness_displayReady.2.1, witness_watched.1, by decide⟩

theorem witness_FramebufferFrame :
    after (exec (.ramwrite 127 7 1) { quiet with fb := [(1023, 0)] }) (fun t => decide (t.fbByte 1023 ≠ 0)) = true ∧
    after (exec (.drawline 0 0 1 0) { quiet with fb := [(0, 0), (1, 0)] }) (fun t => decide (t.fbByte 1 ≠ 0)) = true := by decide

theorem witness_BufferFrame :
    after (exec (.rdburst 0 0x200 2) { opened .rx with buf := [(0x201, 0)] }) (fun t => decide (t.bufByte 0x201 ≠ 0)) = true ∧
    after (exec .rdb { opened .rx with res := 0 }) (fun t => decide (t.res ≠ 0)) = true := by decide

/-- The premises of RegisterFrame and WireRecord: an operation, and a step, whose next state exists; `AF` is set. -/
theorem witness_RegisterFrame :
    after (exec (.wrburst 1 0x200 1)
      { addressed [.address .own1 true] [false] with
        bus := { (addressed [] []).bus with af := true }, buf := [(0x200, 1)] }) (fun t => !t.bus.af) = true ∧
    after (step (issuing 0x117F07000000)) (fun t => decide (0 < t.wire.length)) = true ∧
    after (exec .start quiet) (fun t => t.bus.start) = true ∧ after (exec .stop quiet) (fun t => t.bus.stop) = true ∧
    quiet.bus.start = false ∧ quiet.bus.stop = false := by decide

/-- The premises of the clause of WireRecord about a frame of commands: at the ends of the operands' ranges, with the scroll
state told twice. -/
theorem witness_WireRecord_commands :
    Params.defaults.cmds = PanelCmds.defaults ∧ (∀ v vs, Panel.reset.rx ≠ .command (v :: vs)) ∧
    ∀ c ∈ [(0x21#8, [0#8, 127#8]), (0x22#8, [0#8, 7#8]), (0x20#8, [2#8]), (0x2F#8, []), (0x81#8, [255#8]), (0x2E#8, [])],
      cmdLength c.1 = some (c.2.length + 1) ∧ (c.1 = 0x21 → ∀ v ∈ c.2, v.toNat ≤ 127) ∧
      (c.1 = 0x22 → ∀ v ∈ c.2, v.toNat ≤ 7) ∧ (c.1 = 0x20 → ∀ v ∈ c.2, v.toNat ≤ 2) :=
  ⟨rfl, by intro v vs; simp [Panel.reset], by decide⟩

theorem witness_DisabledHangs :
    State.reset.ready ∧ State.reset.params.waitBudget = none ∧ State.reset.bus.pe = false ∧ State.reset.bus.sb = false ∧
    (Instr.flip 1).wellFormed = true ∧ hangs (.flip 1) State.reset .sb [] = true := ⟨⟨rfl, rfl⟩, rfl, rfl, rfl, by decide⟩

/-- The drawing operations of DisabledHangs, with a point in a corner of the display, and DRAWCHAR. -/
theorem witness_DisabledHangs_drawing :
    (∀ p ∈ [((0, 0) : Point), (127, 63)], 0 ≤ p.1 ∧ p.1 ≤ 127 ∧ 0 ≤ p.2 ∧ p.2 ≤ 63) ∧
    ((127, 63) : Point) ∈ linePoints 127 63 130 66 ∧ ((127, 63) : Point) ∈ vlinePoints 127 70 63 ∧
    ((0, 0) : Point) ∈ hlinePoints 0 3 0 ∧ ((127, 63) : Point) ∈ circlePoints 128 63 1 ∧
    (∀ i ∈ [Instr.drawpixel 127 63, .clearpixel 0 0, .drawline 127 63 130 66, .drawvline 127 70 63, .drawhline 0 3 0] ++
      [.drawcircle 128 63 1], hangs i State.reset .sb [] = true) ∧
    (texted [0x20]).bufByte 0x400 = 0x20 ∧ (texted [0x7E]).bufByte 0x400 = 0x7E ∧
    hangs (.drawchar 0x400) { texted [0x7E] with bus := Bif.reset 0 } .sb [] = true := by decide

/-- A machine that hangs in front of `wait(SB)`, and one that has faulted. -/
def hung : State := { State.reset with busy := true, upc := [.wait .sb] }

theorem witness_HangIsFinal : hung.hungAt .sb ∧ hung.params.waitBudget = none := ⟨⟨rfl, rfl, rfl, rfl, rfl⟩, rfl⟩

theorem witness_FaultIsFinal :
    State.busy { hung with faulted := some .charRange } = true ∧
    (State.faulted { hung with faulted := some .charRange }).isSome = true := by decide

theorem witness_WaitBudgetExpires :
    State.hungAt .sb { hung with params := { Params.defaults with waitBudget := some 1 } } ∧
    Params.waitBudget { Params.defaults with waitBudget := some 1 } = some 1 ∧ hung.polls < 1 :=
  ⟨⟨rfl, rfl, rfl, rfl, rfl⟩, rfl, by decide⟩

theorem witness_StepKeepsInv :
    State.Inv (issuing 0x300301A50000) ∧ after (step (issuing 0x300301A50000)) (fun t => decide (t.fb = [(131, 0xA5)])) = true :=
  ⟨⟨rfl, by decide, rfl, rfl, rfl, rfl, rfl, rfl⟩, by decide⟩

end Sys2Proof.Tests
end

namespace Sys2Proof.Machine

/-! ### The derived flags (10_state.md R29) -/

/-- Settles O16: each flag is the conjunction of R29 on the stored fields, all of them 0 after a reset. -/
theorem derivedFlags : Obligations.DerivedFlags := by
  intro b
  refine ⟨?_, ?_, ?_, rfl, rfl, rfl⟩
  · simp [Bif.txe, and_assoc]
  · simp [Bif.rxne]
  · unfold Bif.btf
    split <;> simp [and_assoc]

end Sys2Proof.Machine

namespace Sys2Proof.Machine

/-! ### What each operation may write -/

/-- Nothing may be written. -/
def Reach.nothing : Reach := ⟨false, false, false, false, false, false, false, fun _ => False⟩

end Sys2Proof.Machine

namespace Sys2Proof
open Machine

/-- What an operation may write of the interface, `RES` and BUF (R26, R27, R222, R240, R414, R446). -/
def Instr.reach : Instr → Reach
  | .bcInit _ => { Reach.nothing with init := true }
  | .start => { Reach.nothing with start := true }
  | .stop => { Reach.nothing with stop := true }
  | .wrburst a _ _ => { Reach.nothing with ack := decide (a = 1), af := decide (a = 1) }
  | .rdb => { Reach.nothing with stop := true, ack := true, res := true }
  | .rdburst a p n =>
    { Reach.nothing with
      stop := decide (a = 0 ∧ 2 ≤ n.toNat), pos := decide (a = 0 ∧ n.toNat = 2), ack := true
      buf := fun k => p.toNat ≤ k ∧ k < p.toNat + n.toNat ∧ p.toNat + n.toNat ≤ 65536 }
  | i => { Reach.nothing with start := sendsFrames i, stop := sendsFrames i }

end Sys2Proof

namespace Sys2Proof.Machine

section Frames
/-! An operation that may set `START` and `STOP` may send frames (R263). -/

variable {q : Reach} (hs : q.start = true) (ht : q.stop = true)
include hs ht

theorem within_sendCmd (c : Params) (l : List Byte) : ∀ m ∈ sendCmd c l, m.within q :=
  (Micro.within_closed q).sendCmd hs ht c l

theorem within_sendData (c : Params) (l : List Src) : ∀ m ∈ sendData c l, m.within q :=
  (Micro.within_closed q).sendData hs ht c l

theorem within_plot (c : Params) (v : Bool) (x : Point) : ∀ m ∈ plot c v x, m.within q := by
  unfold plot
  split
  · refine List.forall_mem_cons.2 ⟨by cases v <;> trivial, ?_⟩
    exact List.forall_mem_append.2 ⟨within_sendCmd hs ht c _, within_sendData hs ht c _⟩
  · exact List.forall_mem_nil _

theorem within_plotAll (c : Params) (xs : List Point) : ∀ m ∈ plotAll c xs, m.within q := by
  intro m hm
  obtain ⟨x, -, hx⟩ := List.mem_flatMap.1 hm
  exact within_plot hs ht c true x m hx

theorem within_fullPush (c : Params) : ∀ m ∈ fullPush c, m.within q :=
  List.forall_mem_append.2 ⟨within_sendCmd hs ht c _, within_sendData hs ht c _⟩

end Frames

/-- The first test of a list of tests that all pass, and the others. -/
theorem firstFailing_cons {ok : Bool} {r : RefuseReason} {l : List (Bool × RefuseReason)} :
    firstFailing ((ok, r) :: l) = none ↔ ok = true ∧ firstFailing l = none := by
  cases ok <;> simp [firstFailing]

theorem within_polledReads {q : Reach} :
    ∀ {p k : Nat}, (∀ j < k, q.buf (p + j)) → ∀ m ∈ polledReads p k, m.within q
  | _, 0, _ => List.forall_mem_nil _
  | p, k + 1, h => by
    refine List.forall_mem_cons.2 ⟨trivial, List.forall_mem_cons.2 ⟨h 0 (by omega), ?_⟩⟩
    refine within_polledReads fun j hj => ?_
    have e : p + 1 + j = p + (j + 1) := by omega
    rw [e]
    exact h (j + 1) (by omega)

/-- The initiator's reads store within the range; two bytes or more request a stop, two move `POS` (R241 to R243). -/
theorem within_burstRead {q : Reach} {p n : Nat} (hb : ∀ j < n, q.buf (p + j)) (ha : q.ack = true)
    (hs : 2 ≤ n → q.stop = true) (hp : n = 2 → q.pos = true) : ∀ m ∈ burstRead p n, m.within q := by
  unfold burstRead
  split
  · simp [Micro.within]
  · have hs := hs (by omega)
    split
    · rename_i e
      subst e
      simp [burstRead2, Micro.within, hp rfl, ha, hs, hb 1, by simpa using hb 0 (by omega)]
    · unfold burstReadMany
      have tail : ∀ k ≤ n, 0 < k → q.buf (p + (n - k)) := fun k _ _ => hb _ (by omega)
      have polled := within_polledReads (q := q) (p := p) (k := n - 3) fun j hj => hb j (by omega)
      refine List.forall_mem_append.2 ⟨List.forall_mem_append.2 ⟨?_, polled⟩, ?_⟩
      · simp [Micro.within, ha]
      · simp [Micro.within, ha, hs, tail 3 (by omega), tail 2 (by omega), tail 1 (by omega)]

theorem within_burstWrite (q : Reach) (p n : Nat) : ∀ m ∈ burstWrite p n, m.within q :=
  List.forall_mem_cons.2 ⟨trivial, (Micro.within_closed q).sendBytes _⟩

/-- An operation is refused, with nothing else changed, or changes only what is in its reach. -/
theorem exec_kept {i : Instr} {s t : State} (h : exec i s = .next t) :
    Kept i.reach s t ∨ ∃ r, t = s.refuse r ∧ s.busy = false := by
  cases i with
  | wrburst a p n =>
    simp only [exec, execWrburst] at h
    refine command_kept (fun hf => ?_) h
    have ha : a.toNat ≤ 1 := by simpa using (firstFailing_cons.1 hf).1
    split
    · exact within_burstWrite _ _ _
    · have : a = 1 := by bv_omega
      subst this
      simp only [responderWrite, List.forall_mem_cons]
      exact ⟨rfl, trivial, trivial, trivial, rfl, List.forall_mem_nil _⟩
  | rdburst a p n =>
    simp only [exec, execRdburst] at h
    refine command_kept (fun hf => ?_) h
    have hn : p.toNat + n.toNat ≤ 65536 := by simpa using (firstFailing_cons.1 (firstFailing_cons.1 hf).2).1
    have hb : ∀ j < n.toNat, (Instr.rdburst a p n).reach.buf (p.toNat + j) := fun j hj => ⟨by omega, by omega, hn⟩
    split
    · rename_i ha
      exact within_burstRead hb rfl (fun h => decide_eq_true ⟨ha, h⟩) (fun h => decide_eq_true ⟨ha, h⟩)
    · simp only [responderRead, List.forall_mem_cons]
      exact ⟨rfl, trivial, trivial, trivial, hb, trivial, List.forall_mem_nil _⟩
  | bcInit =>
    simp only [exec, execBcInit] at h
    refine command_kept (fun _ => ?_) h
    simp only [List.forall_mem_cons]
    exact ⟨rfl, rfl, rfl, rfl, List.forall_mem_nil _⟩
  | rdb =>
    simp only [exec, execRdb] at h
    refine command_kept (fun _ => ?_) h
    simp only [List.forall_mem_cons]
    exact ⟨rfl, trivial, rfl, trivial, rfl, List.forall_mem_nil _⟩
  | req | wrb | ramwrite | ramclear =>
    simp only [exec, execReq, execWrb, execRamwrite, execRamclear] at h
    refine command_kept (fun _ => ?_) h
    simp [Micro.within]
  | start | stop =>
    simp only [exec, execStart, execStop] at h
    refine command_kept (fun _ => ?_) h
    exact List.forall_mem_singleton.2 rfl
  | drawchar p =>
    simp only [exec, execDrawchar] at h
    refine command_kept (fun _ => ?_) h
    exact List.forall_mem_singleton.2 ⟨rfl, rfl⟩
  | dInit =>
    simp only [exec, execDInit] at h
    refine command_kept (fun _ => ?_) h
    refine List.forall_mem_append.2 ⟨within_sendCmd rfl rfl _ _, ?_⟩
    exact List.forall_mem_cons.2 ⟨trivial, within_fullPush rfl rfl _⟩
  | ramupdatefull =>
    simp only [exec, execRamupdatefull] at h
    refine command_kept (fun _ => ?_) h
    exact within_fullPush rfl rfl _
  | ramupdatebyte =>
    simp only [exec, execRamupdatebyte] at h
    refine command_kept (fun _ => ?_) h
    refine List.forall_mem_cons.2 ⟨trivial, ?_⟩
    exact List.forall_mem_append.2 ⟨within_sendCmd rfl rfl _ _, within_sendData rfl rfl _ _⟩
  | drawbitmap =>
    simp only [exec, execDrawbitmap] at h
    refine command_kept (fun _ => ?_) h
    exact List.forall_mem_append.2 ⟨within_sendCmd rfl rfl _ _, within_sendData rfl rfl _ _⟩
  | drawpixel | clearpixel =>
    simp only [exec, execDrawpixel, execClearpixel] at h
    refine command_kept (fun _ => ?_) h
    exact within_plot rfl rfl _ _ _
  | drawline | drawvline | drawhline | drawcircle =>
    simp only [exec, execDrawline, execDrawvline, execDrawhline, execDrawcircle] at h
    refine command_kept (fun _ => ?_) h
    exact within_plotAll rfl rfl _ _
  | scrollv =>
    simp only [exec, execScrollv] at h
    refine command_kept (fun _ => ?_) h
    exact List.forall_mem_append.2 ⟨within_sendCmd rfl rfl _ _, within_sendCmd rfl rfl _ _⟩
  | movecur | contrast | invert | dispon | flip | addrmode | scrollh | scrolldiag | setvarea | scrollstate =>
    simp only [exec, execMovecur, execContrast, execInvert, execDispon, execFlip, execAddrmode, execScrollh,
      execScrolldiag, execSetvarea, execScrollstate] at h
    refine command_kept (fun _ => ?_) h
    exact within_sendCmd rfl rfl _ _

end Sys2Proof.Machine
namespace Sys2Proof.Machine

/-! ### Which operations may write what -/

theorem reach_init : ∀ {i : Instr}, i.reach.init = true → ∃ p, i = .bcInit p
  | .bcInit p, _ => ⟨p, rfl⟩

theorem reach_start {i : Instr} (h : i.reach.start = true) : i = .start ∨ sendsFrames i = true := by
  cases i with
  | start => exact .inl rfl
  | _ => exact .inr h

theorem reach_stop {i : Instr} (h : i.reach.stop = true) :
    i = .stop ∨ i = .rdb ∨ (∃ p n : Half, i = .rdburst 0 p n ∧ 2 ≤ n.toNat) ∨ sendsFrames i = true := by
  cases i with
  | stop => exact .inl rfl
  | rdb => exact .inr (.inl rfl)
  | rdburst a p n =>
    obtain ⟨rfl, hn⟩ := of_decide_eq_true h
    exact .inr (.inr (.inl ⟨p, n, rfl, hn⟩))
  | _ => exact .inr (.inr (.inr h))

theorem reach_pos : ∀ {i : Instr}, i.reach.pos = true → ∃ p n : Half, i = .rdburst 0 p n ∧ n.toNat = 2
  | .rdburst a p n, h => by
    obtain ⟨rfl, hn⟩ := of_decide_eq_true h
    exact ⟨p, n, rfl, hn⟩

theorem reach_ack : ∀ {i : Instr}, i.reach.ack = true →
    i = .rdb ∨ (∃ a p n, i = .rdburst a p n) ∨ ∃ p n, i = .wrburst 1 p n
  | .rdb, _ => .inl rfl
  | .rdburst a p n, _ => .inr (.inl ⟨a, p, n, rfl⟩)
  | .wrburst a p n, h => .inr (.inr ⟨p, n, by rw [of_decide_eq_true h]⟩)

theorem reach_af : ∀ {i : Instr}, i.reach.af = true → ∃ p n, i = .wrburst 1 p n
  | .wrburst a p n, h => ⟨p, n, by rw [of_decide_eq_true h]⟩

/-- Settles O53: each operation, run or refused, writes only what its reach allows. -/
theorem registerFrame : Obligations.RegisterFrame := by
  intro i s t h
  obtain hk | ⟨r, rfl, hb⟩ := exec_kept h
  · obtain ⟨-, -, bus, start, stop, ⟨hparams, hhost, hpeer⟩, hrefusal⟩ := hk
    refine ⟨?_, fun e => (start e).imp_right reach_start, fun e => (stop e).imp_right reach_stop, hparams, hhost,
      hpeer, .inl hrefusal⟩
    exact bus.imp reach_init fun ⟨hpe, hswrst, hcfg, hpos, hack, haf⟩ =>
      ⟨hpe, hswrst, hcfg, hpos.imp_right reach_pos, hack.imp_right reach_ack, fun e => (haf e).imp_right reach_af⟩
  · refine ⟨.inr ⟨rfl, rfl, rfl, .inl rfl, .inl rfl, .inl⟩, .inl, .inl, rfl, rfl, rfl, ?_⟩
    cases hr : s.refusal with
    | none => exact .inr ⟨rfl, rfl, hb⟩
    | some x => exact .inl (by simp [hr])

end Sys2Proof.Machine

namespace Sys2Proof.Machine

/-! ### The wire and the panel over a step -/

theorem State.SawOn.exec {s t : State} {i : Instr} (h : exec i s = .next t) : s.SawOn t := by
  obtain ⟨tests, code, e⟩ := exec_command i s
  rw [e, command] at h
  split at h
  · cases h
  · cases h
    split
    · exact .of_eq rfl rfl rfl rfl
    · exact .runOp (.of_eq rfl rfl rfl rfl)

/-- Over a step the wire grows by the tokens the panel sees (R32, R380). -/
theorem State.SawOn.step {s t : State} (h : step s = .next t) : s.SawOn t := by
  have moves : Moves s.SawOn :=
    ⟨fun u hu => hu.trans (.lineStep u), fun u hu => hu.trans (.peerStep u),
      fun _ _ _ hu => hu.trans (.of_eq rfl rfl rfl rfl)⟩
  exact step_keeps moves (fun _ hu => hu.runOp) (fun _ _ hu => hu.trans (.of_eq rfl rfl rfl rfl))
    (fun _ _ _ hu => hu.trans (.of_eq rfl rfl rfl rfl)) (fun _ _ hu => hu.trans (.of_eq rfl rfl rfl rfl))
    (fun _ _ _ hu e => hu.trans (.exec e)) (.refl s) h

/-! ### A frame of commands -/

/-- What a command with operands on the display does to the panel's cursor, ranges and mode (R385). -/
def Panel.moved (p : Panel) (c : Byte × List Byte) : Panel :=
  match c with
  | (0x21, [s, e]) => { p with cs := s.toNat, ce := e.toNat, pcol := s.toNat }
  | (0x22, [s, e]) => { p with ps := s.toNat, pe := e.toNat, ppage := s.toNat }
  | (0x20, [m]) => { p with amode := m.toNat }
  | _ => p

/-- The last command received of the group `cs`, when `c` comes after `r`. -/
def lastOf (cs : List Byte) (r : Option (Byte × List Byte)) (c : Byte × List Byte) : Option (Byte × List Byte) :=
  if c.1 ∈ cs ∧ c.1 ∉ [0x20#8, 0x21#8, 0x22#8] then some c else r

/-- A complete command of R385 with its operands on the display. -/
def ValidCommand (c : Byte × List Byte) : Prop :=
  cmdLength c.1 = some (c.2.length + 1) ∧ (c.1 = 0x21 → ∀ v ∈ c.2, v.toNat ≤ 127) ∧
    (c.1 = 0x22 → ∀ v ∈ c.2, v.toNat ≤ 7) ∧ (c.1 = 0x20 → ∀ v ∈ c.2, v.toNat ≤ 2)

@[simp] theorem Panel.moved_set (p : Panel) (c : Byte × List Byte) (r : PanelRx) (l : List (Byte × List Byte)) :
    Panel.moved { p with rx := r, told := l } c = { p.moved c with rx := r, told := l } := by
  unfold Panel.moved
  split <;> rfl

theorem Panel.moved_rx (p : Panel) (c : Byte × List Byte) : (p.moved c).rx = p.rx :=
  (congrArg Panel.rx (p.moved_set c p.rx p.told) :)

theorem foldl_moved_set (w : List (Byte × List Byte)) (p : Panel) (r : PanelRx) (l : List (Byte × List Byte)) :
    w.foldl Panel.moved { p with rx := r, told := l } = { w.foldl Panel.moved p with rx := r, told := l } := by
  induction w generalizing p with
  | nil => rfl
  | cons c w ih => rw [List.foldl_cons, Panel.moved_set, ih, List.foldl_cons]

theorem foldl_moved_told (w : List (Byte × List Byte)) (p : Panel) : (w.foldl Panel.moved p).told = p.told :=
  (congrArg Panel.told (foldl_moved_set w p p.rx p.told) :)

/-- A command of a range or the mode sets it, if its operands are on the display. -/
theorem Panel.obey_ranged {c : Byte × List Byte} (h : ValidCommand c) (hc : c.1 ∈ [0x20#8, 0x21#8, 0x22#8])
    (p : Panel) : p.obey .defaults c.1 c.2 = p.moved c ∧ (p.moved c).told = p.told := by
  obtain ⟨c, args⟩ := c
  obtain ⟨hl, h21, h22, h20⟩ := h
  simp only [List.mem_cons, List.not_mem_nil, or_false] at hc
  rcases hc with rfl | rfl | rfl
  · obtain ⟨m, rfl⟩ : ∃ m, args = [m] := List.length_eq_one_iff.1 (by simpa [cmdLength] using hl.symm)
    have hm : m.toNat ≤ 2 := h20 rfl m (by simp)
    simp [Panel.obey, PanelCmds.defaults, Panel.moved, hm]
  · obtain ⟨s, e, rfl⟩ : ∃ s e, args = [s, e] := List.length_eq_two.1 (by simpa [cmdLength] using hl.symm)
    have hs : s.toNat ≤ 127 := h21 rfl s (by simp)
    have he : e.toNat ≤ 127 := h21 rfl e (by simp)
    simp [Panel.obey, PanelCmds.defaults, Panel.moved, hs, he]
  · obtain ⟨s, e, rfl⟩ : ∃ s e, args = [s, e] := List.length_eq_two.1 (by simpa [cmdLength] using hl.symm)
    have hs : s.toNat ≤ 7 := h22 rfl s (by simp)
    have he : e.toNat ≤ 7 := h22 rfl e (by simp)
    simp [Panel.obey, PanelCmds.defaults, Panel.moved, hs, he]

/-- Any other command is recorded and moves nothing. -/
theorem Panel.obey_other {c : Byte × List Byte} (hc : c.1 ∉ [0x20#8, 0x21#8, 0x22#8]) (p : Panel) :
    p.obey .defaults c.1 c.2 = { p with told := recordTold c.1 c.2 p.told } ∧ p.moved c = p := by
  obtain ⟨c, args⟩ := c
  obtain ⟨h20, h21, h22⟩ : c ≠ 0x20#8 ∧ c ≠ 0x21#8 ∧ c ≠ 0x22#8 := by simpa using hc
  constructor
  · unfold Panel.obey
    split <;> simp [PanelCmds.defaults, h20, h21, h22]
  · unfold Panel.moved
    split <;> simp_all

/-- A valid command moves the panel and becomes the last of its groups, unless it is one of a range or the mode. -/
theorem Panel.obey_valid {c : Byte × List Byte} (h : ValidCommand c) (p : Panel) :
    ∃ l, p.obey .defaults c.1 c.2 = { p.moved c with told := l } ∧
      ∀ cs : List Byte, l.find? (cs.contains ·.1) = lastOf cs (p.latest cs) c := by
  by_cases hc : c.1 ∈ [0x20#8, 0x21#8, 0x22#8]
  · obtain ⟨e, ht⟩ := p.obey_ranged h hc
    exact ⟨p.told, by rw [e, ← ht], fun cs => by rw [lastOf, if_neg fun x => x.2 hc, Panel.latest]⟩
  · obtain ⟨e, hm⟩ := p.obey_other hc
    refine ⟨_, by rw [e, hm], fun cs => ?_⟩
    rw [find_recordTold]
    simp only [lastOf, hc, not_false_eq_true, and_true, Panel.latest]

/-- Inside a command frame, between commands, a run of valid commands moves the panel as one after another does, and
each group holds the last of its commands (R383, R385). -/
theorem seeAll_commands {q : Params} (hq : q.cmds = .defaults) :
    ∀ (w : List (Byte × List Byte)) (p : Panel), (∀ c ∈ w, ValidCommand c) → p.rx = .command [] →
      ∃ l, seeAll q ((w.flatMap fun c => c.1 :: c.2).map (Token.byte · true)) p =
          { w.foldl Panel.moved p with rx := .command [], told := l } ∧
        ∀ cs : List Byte, l.find? (cs.contains ·.1) = w.foldl (lastOf cs) (p.latest cs)
  | [], p, _, hr => ⟨p.told, by rw [← hr]; rfl, fun _ => rfl⟩
  | c :: w, p, hw, hr => by
    obtain ⟨hc, hw⟩ := List.forall_mem_cons.1 hw
    obtain ⟨k, e, hk⟩ := p.obey_valid hc
    have e : p.obey .defaults c.1 c.2 = { p.moved c with rx := .command [], told := k } := by
      rw [e, ← hr, ← p.moved_rx c]
    obtain ⟨l, e', hl⟩ := seeAll_commands hq w { p.moved c with rx := .command [], told := k } hw rfl
    refine ⟨l, ?_, fun cs => ?_⟩
    · rw [List.flatMap_cons, List.map_append, seeAll_append, seeAll_wholeCommand hc.1 hr, hq, e, e', foldl_moved_set]
      rfl
    · rw [hl, List.foldl_cons, ← hk]
      rfl

/-- A frame of valid commands, seen by a panel that is not inside an unfinished one (R385). -/
theorem seeAll_cmdTokens {q : Params} (hq : q.cmds = .defaults) {p : Panel} (hp : p.Calm) {w : List (Byte × List Byte)}
    (hw : ∀ c ∈ w, ValidCommand c) :
    ∃ l, seeAll q (cmdTokens q (w.flatMap fun c => c.1 :: c.2)) p =
        { w.foldl Panel.moved p with rx := .off, told := l } ∧
      ∀ cs : List Byte, l.find? (cs.contains ·.1) = w.foldl (lastOf cs) (p.latest cs) := by
  obtain ⟨l, e, hl⟩ := seeAll_commands hq w { p with rx := .command [] } hw rfl
  refine ⟨l, ?_, hl⟩
  have e1 : Panel.see q (.byte q.ctrlCmd true) (Panel.see q (.byte q.dispAddrW true) { p with rx := .listening }) =
      { p with rx := .command [] } := by simp [Panel.see, Panel.byte]
  simp only [cmdTokens, frameTokens, List.cons_append, List.map_cons]
  rw [seeAll_start hp, seeAll_cons, seeAll_cons, e1, seeAll_append, e, foldl_moved_set]
  rfl

/-- Settles O54: what every move keeps a step keeps, and a frame of commands is obeyed command by command. -/
theorem wireRecord : Obligations.WireRecord := by
  refine ⟨fun s t h => (State.SawOn.step h).2.2, fun m rest s => ?_, ?_⟩
  · obtain ⟨hw, hp, -, -⟩ := m.run_quiet rest s
    exact ⟨hw, hp⟩
  · intro q p w hq hp hw
    obtain ⟨l, e, hl⟩ := seeAll_cmdTokens hq hp hw
    intro t effect
    have ht : t = { w.foldl Panel.moved p with rx := .off, told := l } := e
    have he : effect = Panel.moved := rfl
    rw [ht, he]
    refine ⟨?_, hl, fun g => rfl⟩
    rw [← foldl_moved_told w p]

end Sys2Proof.Machine

namespace Sys2Proof

/-! ### Masks of a command word (30_encoding.md R111, R117) -/

/-- The mask of the opcode (R111). -/
def opMask : Word := 0xFF0000000000

theorem Byte.and_ff (x : Byte) : x &&& 0xFF#8 = x := BitVec.and_allOnes

theorem Word.ofBytes_inj {op a b c d e op' a' b' c' d' e' : Byte} :
    Word.ofBytes op a b c d e = Word.ofBytes op' a' b' c' d' e' ↔
      op = op' ∧ a = a' ∧ b = b' ∧ c = c' ∧ d = d' ∧ e = e' := by
  refine ⟨fun h => ?_, by rintro ⟨rfl, rfl, rfl, rfl, rfl, rfl⟩; rfl⟩
  exact ⟨by simpa using congrArg Word.op h, by simpa using congrArg Word.a h, by simpa using congrArg Word.b h,
    by simpa using congrArg Word.c h, by simpa using congrArg Word.d h, by simpa using congrArg Word.e h⟩

theorem Word.and_opMask (w : Word) : w &&& opMask = Word.ofBytes w.op 0 0 0 0 0 := by
  obtain ⟨op, a, b, c, d, e, rfl⟩ := w.bytes_cases
  rw [show opMask = Word.ofBytes 0xFF#8 0 0 0 0 0 by decide, Word.ofBytes_and, Word.ofBytes_op, Byte.and_ff]
  simp

/-- No bit of the low `k` is set exactly if the field of the low `k` bits is zero. -/
theorem Word.and_low_eq_zero (w : Word) (k : Nat) :
    w &&& BitVec.ofNat 48 (2 ^ k - 1) = 0#48 ↔ w.extractLsb' 0 k = 0#k := by
  have hbit (j : Nat) :
      (w &&& BitVec.ofNat 48 (2 ^ k - 1)).getLsbD j = (w.extractLsb' 0 k).getLsbD j := by
    by_cases hj : j < 48
    · simp only [BitVec.getLsbD_and, BitVec.getLsbD_ofNat, BitVec.getLsbD_extractLsb', Nat.testBit_two_pow_sub_one]
      simp [hj, Bool.and_comm]
    · simp [BitVec.getLsbD_of_ge w j (by omega)]
  refine ⟨fun h => BitVec.eq_of_bits fun j _ => ?_, fun h => BitVec.eq_of_bits fun j _ => ?_⟩
  · rw [← hbit, h, BitVec.getLsbD_zero, BitVec.getLsbD_zero]
  · rw [hbit, h, BitVec.getLsbD_zero, BitVec.getLsbD_zero]

/-- The same for the fields `a` and `n`. -/
theorem Word.and_an_eq_zero (w : Word) : w &&& 0x00FF0000FFFF#48 = 0#48 ↔ w.a ++ w.n = 0#(8 + 16) := by
  obtain ⟨op, a, b, c, d, e, rfl⟩ := w.bytes_cases
  rw [Word.unused_an, show 0x00FF0000FFFF#48 = Word.ofBytes 0 0xFF#8 0 0 0xFF#8 0xFF#8 by decide,
    show 0#48 = Word.ofBytes 0 0 0 0 0 0 by decide, Word.ofBytes_and, Word.ofBytes_inj]
  simp [Byte.and_ff]

/-- Under a row's mask, that of the opcode and of unused fields `m`, only the opcode is left exactly if the fields are
zero. -/
theorem Word.and_opMask_or_eq {w m : Word} (hm : opMask &&& m = 0#48) :
    w &&& (opMask ||| m) = Word.ofBytes w.op 0 0 0 0 0 ↔ w &&& m = 0#48 := by
  have absorb : (opMask ||| m) &&& m = m := by
    refine BitVec.eq_of_bits fun j _ => ?_
    rw [BitVec.getLsbD_and, BitVec.getLsbD_or]
    exact (by decide : ∀ x y : Bool, ((x || y) && y) = y) _ _
  rw [← w.and_opMask]
  constructor
  · intro h
    calc w &&& m = w &&& (opMask ||| m) &&& m := by rw [BitVec.and_assoc, absorb]
      _ = w &&& (opMask &&& m) := by rw [h, BitVec.and_assoc]
      _ = 0#48 := by rw [hm, BitVec.and_zero]
  · intro h
    rw [BitVec.and_or_distrib_left, h, BitVec.or_zero]

/-! ### The decoder's answers (R113, R116, R117) -/

/-- The opcode values of the table (R113). -/
def opcodes : List Byte := opcodeTable.map fun row => row.1.op

/-- The operation `i`, unless the word has a bit set under `m`, the mask of the fields it leaves unused (R117). -/
def maskZero (w m : Word) (i : Instr) : Except RefuseReason Instr :=
  if w &&& m = 0#48 then .ok i else .error .reservedField

theorem unusedZero_low (w : Word) (k : Nat) (i : Instr) :
    unusedZero (w.extractLsb' 0 k) i = maskZero w (BitVec.ofNat 48 (2 ^ k - 1)) i := by
  simp only [unusedZero, maskZero, w.and_low_eq_zero]

theorem unusedZero_an (w : Word) (i : Instr) : unusedZero (w.a ++ w.n) i = maskZero w 0x00FF0000FFFF#48 i := by
  simp only [unusedZero, maskZero, w.and_an_eq_zero]

theorem ok_eq_maskZero (w : Word) (i : Instr) : .ok i = maskZero w 0#48 i := by simp [maskZero]

theorem unusedZero_ne_unknownOpcode {k : Nat} (u : BitVec k) (i : Instr) :
    unusedZero u i ≠ .error .unknownOpcode := by
  unfold unusedZero
  split <;> simp

theorem ite_eq_iff_of_ne {α : Type} {c : Prop} [Decidable c] {x y z : α} (h : x ≠ z) :
    (if c then x else y) = z ↔ ¬c ∧ y = z := by
  split <;> simp [*]

/-- R116: no arm of the decoder answers `unknownOpcode`, so a word is unknown exactly if it gets past all of them. -/
theorem decode_eq_unknownOpcode_iff (w : Word) : decode w = .error .unknownOpcode ↔ w.op ∉ opcodes := by
  simp only [decode, ite_eq_iff_of_ne, unusedZero_ne_unknownOpcode, ne_eq, not_false_eq_true, reduceCtorEq]
  simp [opcodes, opcodeTable, Word.op]

/-- What the row of `w`'s opcode makes of `w`: an operation if `w` matches the row, a reserved field if not. -/
def DecodesByRow (w : Word) (d : Except RefuseReason Instr) : Prop :=
  ∃ row ∈ opcodeTable, row.1 = Word.ofBytes w.op 0 0 0 0 0 ∧
    ∃ i, d = if w &&& row.2 = row.1 then .ok i else .error .reservedField

/-- An arm of the decoder is the row of the table with its opcode and the mask of its unused fields. -/
theorem decodesByRow_arm {w m : Word} {v : Byte} {i : Instr} {rest : Except RefuseReason Instr}
    (hrow : (Word.ofBytes v 0 0 0 0 0, opMask ||| m) ∈ opcodeTable) (hm : opMask &&& m = 0#48)
    (hrest : rest = .error .unknownOpcode ∨ DecodesByRow w rest) :
    (if w.op = v then maskZero w m i else rest) = .error .unknownOpcode ∨
      DecodesByRow w (if w.op = v then maskZero w m i else rest) := by
  split
  · rename_i hv
    subst hv
    exact .inr ⟨_, hrow, rfl, i, by simp only [maskZero, Word.and_opMask_or_eq hm]⟩
  · exact hrest

/-- The decoder's 32 arms are the rows of the table. -/
theorem decode_unknownOpcode_or_byRow (w : Word) :
    decode w = .error .unknownOpcode ∨ DecodesByRow w (decode w) := by
  unfold decode
  simp only [unusedZero_low, unusedZero_an, ok_eq_maskZero w]
  iterate 32 refine decodesByRow_arm (by decide) (by decide) ?_
  exact .inl rfl

/-- R117: a known opcode leaves the decoder only its row, which a word that matches no row does not match. -/
theorem decode_eq_reservedField {w : Word} (hop : w.op ∈ opcodes) (hrow : ∀ row ∈ opcodeTable, w &&& row.2 ≠ row.1) :
    decode w = .error .reservedField := by
  obtain hu | ⟨row, hmem, -, i, e⟩ := decode_unknownOpcode_or_byRow w
  · exact absurd hop ((decode_eq_unknownOpcode_iff w).1 hu)
  · rw [e, if_neg (hrow row hmem)]

theorem Word.op_mem_opcodes {w : Word} {row : Word × Word} (hmem : row ∈ opcodeTable) (h : w &&& opMask = row.1) :
    w.op ∈ opcodes := by
  rw [w.and_opMask] at h
  exact List.mem_map.2 ⟨row, hmem, by rw [← h, Word.ofBytes_op]⟩

end Sys2Proof

namespace Sys2Proof.Machine

/-- R116, R117: a word that does not decode is refused with the decoder's reason. -/
theorem step_of_decode_error {s : State} {w : Word} {q : List HostAction} {r : RefuseReason} (hb : s.busy = false)
    (hq : s.host = .issue w :: q) (hd : decode w = .error r) : step s = .next ((s.beforeIssue q).refuse r) := by
  simp [step, hb, hq, hd]

/-- Settles O5: the values outside the table are the gaps between its opcodes. -/
theorem unknownOpcodeRefused : Obligations.UnknownOpcodeRefused := by
  unfold Obligations.UnknownOpcodeRefused
  intro unknown
  have gaps : ∀ op : Byte, op ∉ opcodes ↔ unknown op.toNat = true := by
    simp only [unknown]
    decide
  have hdecode : ∀ w, decode w = .error .unknownOpcode ↔ unknown w.op.toNat = true := fun w =>
    (decode_eq_unknownOpcode_iff w).trans (gaps w.op)
  refine ⟨rfl, fun w => ⟨hdecode w, fun hu s q hb hq => step_of_decode_error hb hq ((hdecode w).2 hu)⟩⟩

/-- Settles O6: a word of a row's opcode is what its row makes of it. -/
theorem reservedFieldRefused : Obligations.ReservedFieldRefused := by
  rintro w ⟨row, hmem, hop⟩ hrow
  have hd := decode_eq_reservedField (Word.op_mem_opcodes hmem hop) hrow
  exact ⟨hd, fun s q hb hq => step_of_decode_error hb hq hd⟩

end Sys2Proof.Machine

namespace Sys2Proof.Machine

/-! ### When a step of the line agent is enabled (40_bus_interface_line.md R160 to R167) -/

theorem Bif.addrOn_iff (b : Bif) :
    b.addrOn = true ↔ b.pe = true ∧ b.role = .master ∧ b.phase = .started ∧ b.sb = false ∧ b.drFull = true := by
  simp [Bif.addrOn, and_assoc]

theorem Bif.loadOn_iff (b : Bif) :
    b.loadOn = true ↔ b.pe = true ∧ b.phase = .data ∧ b.dir = .tx ∧ b.addr = false ∧ b.drFull = true ∧
      b.shFull = false ∧ b.more = true := by
  simp [Bif.loadOn, and_assoc]

theorem Bif.txByteOn_iff (b : Bif) :
    b.txByteOn = true ↔ b.pe = true ∧ b.phase = .data ∧ b.dir = .tx ∧ b.shFull = true := by
  simp [Bif.txByteOn, and_assoc]

theorem Bif.rxByteOn_iff (b : Bif) :
    b.rxByteOn = true ↔ b.pe = true ∧ b.role = .master ∧ b.phase = .data ∧ b.dir = .rx ∧ b.addr = false ∧
      b.more = true ∧ b.shFull = false := by
  simp [Bif.rxByteOn, and_assoc]

theorem Bif.byteOn_eq_false_iff (b : Bif) :
    b.byteOn = false ↔ b.addrOn = false ∧ b.loadOn = false ∧ b.txByteOn = false ∧ b.rxByteOn = false := by
  simp [Bif.byteOn, and_assoc]

theorem Bif.startOn_iff (b : Bif) :
    b.startOn = true ↔ b.pe = true ∧ b.start = true ∧ b.role ≠ .slave ∧ b.sb = false ∧ b.addr = false ∧
      ¬(b.role = .master ∧ b.stop = true) ∧ b.byteOn = false := by
  simp [Bif.startOn, and_assoc, imp_iff_not_or]

theorem Bif.stopOn_iff (b : Bif) :
    b.stopOn = true ↔ b.role = .master ∧ b.pe = true ∧ b.stop = true ∧ b.byteOn = false := by
  simp [Bif.stopOn, and_assoc, and_left_comm]

/-! ### The enabled step is the one the line agent takes (R168) -/

/-- An address byte goes out before the data phase. -/
theorem Bif.addrOn_of_data {b : Bif} (h : b.phase = .data) : b.addrOn = false := by
  simp [Bif.addrOn, h]

theorem State.lineStep_of_addrOn {s : State} (h : s.bus.addrOn = true) : s.lineStep = s.lineAddr := if_pos h

theorem State.lineStep_of_loadOn {s : State} (h : s.bus.loadOn = true) : s.lineStep = s.lineLoad := by
  obtain ⟨-, hphase, -⟩ := s.bus.loadOn_iff.1 h
  simp [State.lineStep, Bif.addrOn_of_data hphase, h]

theorem State.lineStep_of_txByteOn {s : State} (h : s.bus.txByteOn = true) : s.lineStep = s.lineTxByte := by
  obtain ⟨-, hphase, -, hshift⟩ := s.bus.txByteOn_iff.1 h
  have hload : s.bus.loadOn = false := by simp [Bif.loadOn, hshift]
  simp [State.lineStep, Bif.addrOn_of_data hphase, hload, h]

theorem State.lineStep_of_rxByteOn {s : State} (h : s.bus.rxByteOn = true) : s.lineStep = s.lineRxByte := by
  obtain ⟨-, -, hphase, hdir, -⟩ := s.bus.rxByteOn_iff.1 h
  have hload : s.bus.loadOn = false := by simp [Bif.loadOn, hdir]
  have htx : s.bus.txByteOn = false := by simp [Bif.txByteOn, hdir]
  simp [State.lineStep, Bif.addrOn_of_data hphase, hload, htx, h]

/-- With no byte to move the line agent sees to the start and stop requests. -/
theorem State.lineStep_of_not_byteOn {s : State} (h : s.bus.byteOn = false) :
    s.lineStep = if s.bus.startOn then s.lineStart else if s.bus.stopOn then s.lineStop else s := by
  obtain ⟨haddr, hload, htx, hrx⟩ := s.bus.byteOn_eq_false_iff.1 h
  simp [State.lineStep, haddr, hload, htx, hrx]

theorem State.lineStep_of_startOn {s : State} (h : s.bus.startOn = true) : s.lineStep = s.lineStart := by
  obtain ⟨-, -, -, -, -, -, hbyte⟩ := s.bus.startOn_iff.1 h
  rw [State.lineStep_of_not_byteOn hbyte, if_pos h]

theorem State.lineStep_of_stopOn {s : State} (h : s.bus.stopOn = true) : s.lineStep = s.lineStop := by
  obtain ⟨hrole, -, hstop, hbyte⟩ := s.bus.stopOn_iff.1 h
  have hstart : ¬s.bus.startOn = true := by simp [Bif.startOn, hrole, hstop]
  rw [State.lineStep_of_not_byteOn hbyte, if_neg hstart, if_pos h]

/-! ### What a step does to the interface -/

/-- R167: the stop drops only what was to go out. -/
theorem Bif.lineStop_eq (b : Bif) :
    b.lineStop =
      { b with
        opened := false, stop := false, role := .idle, phase := .idle, sent := 0, more := false
        drFull := if b.dir = .tx then false else b.drFull
        shFull := if b.dir = .tx then false else b.shFull } := by
  unfold Bif.lineStop
  split <;> simp [*]

/-- R165, R177: a byte that finds the data register full stays in the shift register. -/
theorem Bif.lineRxByte_eq {b : Bif} (v : Byte) (h : b.shFull = false) :
    b.lineRxByte v =
      { b with
        ackLatch := b.ack
        dr := if b.drFull = true then b.dr else v
        drFull := true
        shift := if b.drFull = true then v else b.shift
        shFull := if b.drFull = true then true else false
        more := if b.rxAck = true then b.more else false } := by
  cases hf : b.drFull <;> cases hr : b.rxAck <;> simp [Bif.lineRxByte, *]

/-- R178. -/
theorem Bif.slaveStop_eq (b : Bif) :
    b.slaveStop =
      { b with opened := false, role := .idle, stopf := if b.more = true then true else b.stopf, more := false } := by
  cases h : b.more <;> simp [Bif.slaveStop, h]

/-! ### What the peer answers (R151, R380) -/

theorem State.answerAddr_frame (s : State) (v : Byte) :
    (s.answerAddr v).2 =
      { s with peer := { s.peer with acks := (s.answerAddr v).2.peer.acks }, draws := (s.answerAddr v).2.draws } := by
  unfold State.answerAddr
  split <;> rfl

theorem State.answerAddr_of_isPanel {s : State} (h : s.peer.isPanel = true) (v : Byte) :
    (s.answerAddr v).1 = decide (v = s.params.dispAddrW) := by
  simp [State.answerAddr, h]

theorem State.answerByte_frame (s : State) :
    s.answerByte.2 =
      { s with peer := { s.peer with acks := s.answerByte.2.peer.acks }, draws := s.answerByte.2.draws } := by
  unfold State.answerByte
  split <;> rfl

theorem State.answerByte_of_isPanel {s : State} (h : s.peer.isPanel = true) (hr : s.bus.role = .master) :
    s.answerByte.1 = true := by
  simp [State.answerByte, h, hr]

/-! ### What a step of the line agent does to the state: the token, the panel, the peer's script, the interface -/

theorem State.lineStart_eq (s : State) :
    s.lineStart =
      { s with
        wire := s.wire ++ [if s.bus.opened = true then Token.restart else .start]
        panel := s.lineStart.panel
        bus := s.bus.lineStart } := by
  unfold State.lineStart
  split <;> rfl

theorem State.lineStop_eq (s : State) :
    s.lineStop =
      { s with wire := s.wire ++ [Token.stop], panel := s.lineStop.panel, bus := s.bus.lineStop } := rfl

theorem State.lineAddr_eq (s : State) :
    s.lineAddr =
      { s with
        wire := s.wire ++ [Token.byte s.bus.dr (s.answerAddr s.bus.dr).1]
        panel := s.lineAddr.panel
        peer := { s.peer with acks := s.lineAddr.peer.acks }
        draws := s.lineAddr.draws
        bus := s.bus.lineAddr (s.answerAddr s.bus.dr).1 } := by
  simp only [State.lineAddr]
  rw [s.answerAddr_frame]
  rfl

theorem State.lineTxByte_eq (s : State) :
    s.lineTxByte =
      { s with
        wire := s.wire ++ [Token.byte s.bus.shift s.answerByte.1]
        panel := s.lineTxByte.panel
        peer := { s.peer with acks := s.lineTxByte.peer.acks }
        draws := s.lineTxByte.draws
        bus := s.bus.lineTxByte s.answerByte.1 } := by
  simp only [State.lineTxByte]
  rw [s.answerByte_frame]
  rfl

theorem State.lineRxByte_eq (s : State) :
    s.lineRxByte =
      { s with
        wire := s.wire ++ [Token.byte s.askByte.1 s.bus.rxAck]
        panel := s.lineRxByte.panel
        peer := { s.peer with data := s.lineRxByte.peer.data }
        draws := s.lineRxByte.draws
        bus := s.bus.lineRxByte s.askByte.1 } := rfl

/-! ### The peer's moves (R175, R177, R178) -/

theorem PeerMove.on_address_iff (sel : OwnSel) (read : Bool) (b : Bif) :
    PeerMove.on (.address sel read) b = true ↔ b.pe = true ∧ b.role = .idle ∧ b.opened = false ∧ b.ack = true ∧
      b.start = false ∧ b.cfg.answers sel read := by
  cases sel <;> simp [PeerMove.on, BifConfig.answers, and_assoc]

theorem PeerMove.on_send_iff (v : Byte) (b : Bif) :
    PeerMove.on (.send v) b = true ↔ b.pe = true ∧ b.role = .slave ∧ b.phase = .data ∧ b.dir = .rx ∧ b.addr = false ∧
      b.more = true ∧ b.shFull = false := by
  simp [PeerMove.on, and_assoc]

theorem PeerMove.on_stop_iff (b : Bif) :
    PeerMove.on .stop b = true ↔ b.pe = true ∧ b.role = .slave ∧ b.phase = .data ∧ b.addr = false ∧
      b.shFull = false := by
  simp [PeerMove.on, and_assoc]

section
variable {s : State} {ms : List PeerMove}

theorem State.peerOn_cons {m : PeerMove} (h : s.peer.moves = m :: ms) : s.peerOn = m.on s.bus := by
  simp [State.peerOn, h]

theorem State.peerStep_address {sel : OwnSel} {read : Bool} (h : s.peer.moves = .address sel read :: ms) :
    s.peerStep =
      { s with
        wire := s.wire ++ [Token.start, .byte (s.bus.cfg.matchByte sel read) true]
        panel := s.peerStep.panel
        peer := { s.peer with moves := ms }
        bus := s.bus.slaveMatch read } := by
  simp [State.peerStep, h, State.emit, State.withBif]

theorem State.peerStep_send {v : Byte} (h : s.peer.moves = .send v :: ms) :
    s.peerStep =
      { s with
        wire := s.wire ++ [Token.byte v s.bus.rxAck]
        panel := s.peerStep.panel
        peer := { s.peer with moves := ms }
        bus := s.bus.lineRxByte v } := by
  simp [State.peerStep, h, State.emit, State.withBif]

theorem State.peerStep_stop_cons (h : s.peer.moves = .stop :: ms) :
    s.peerStep =
      { s with
        wire := s.wire ++ [Token.stop]
        panel := s.peerStep.panel
        peer := { s.peer with moves := ms }
        bus := s.bus.slaveStop } := by
  simp [State.peerStep, h, State.emit, State.withBif]

end

/-! ### The family's statements -/

/-- Settles O17: a step is enabled by its own conjunction, and is then the one taken. -/
theorem startAndStopConditions : Obligations.StartAndStopConditions := by
  intro s b moving
  have hmoving : ¬moving ↔ b.byteOn = false := by simp [moving, Bif.byteOn_eq_false_iff]
  refine ⟨?_, ?_, fun h => ?_, fun h => ?_⟩
  · rw [hmoving, b.startOn_iff]
  · rw [hmoving, b.stopOn_iff]
  · rw [State.lineStep_of_startOn h]
    exact s.lineStart_eq
  · rw [State.lineStep_of_stopOn h, ← b.lineStop_eq]
    exact s.lineStop_eq

/-- Settles O18: the address or data byte goes out with the answer the peer is asked for. -/
theorem transmitSteps : Obligations.TransmitSteps := by
  intro s b
  refine ⟨b.addrOn_iff, b.loadOn_iff, b.txByteOn_iff, fun h => ?_, fun h => ?_, fun h => ?_⟩
  · rw [State.lineStep_of_addrOn h]
    exact ⟨_, fun hp => State.answerAddr_of_isPanel hp _, s.lineAddr_eq⟩
  · exact State.lineStep_of_loadOn h
  · rw [State.lineStep_of_txByteOn h]
    exact ⟨_, fun hp hr => State.answerByte_of_isPanel hp hr, s.lineTxByte_eq⟩

/-- Settles O19: the byte the peer is asked for comes in, the shift register being empty. -/
theorem receiveStep : Obligations.ReceiveStep := by
  intro s b r
  refine ⟨b.rxByteOn_iff, fun h => ?_⟩
  obtain ⟨-, -, -, -, -, -, hshift⟩ := b.rxByteOn_iff.1 h
  have e := s.lineRxByte_eq
  rw [Bif.lineRxByte_eq _ hshift] at e
  rw [State.lineStep_of_rxByteOn h]
  exact ⟨s.askByte.1, fun x xs hx => (State.askByte_eq hx).1, e⟩

/-- Settles O20, move by move; the address byte evaluates to the statement's for each own address and direction. -/
theorem responderSteps : Obligations.ResponderSteps := by
  intro s m ms hm
  have hon := State.peerOn_cons hm
  cases m with
  | address sel read =>
    refine ⟨hon ▸ PeerMove.on_address_iff sel read s.bus, fun _ => ?_⟩
    have e := State.peerStep_address hm
    cases sel <;> cases read <;> exact e
  | send v =>
    have hiff := PeerMove.on_send_iff v s.bus
    refine ⟨hon ▸ hiff, fun h => ?_⟩
    obtain ⟨-, -, -, -, -, -, hshift⟩ := hiff.1 (hon ▸ h)
    have e := State.peerStep_send hm
    rw [Bif.lineRxByte_eq v hshift] at e
    exact e
  | stop =>
    refine ⟨hon ▸ PeerMove.on_stop_iff s.bus, fun _ => ?_⟩
    have e := State.peerStep_stop_cons hm
    rw [Bif.slaveStop_eq] at e
    exact e

/-- Settles O15: each access is one function of the interface, whose branches the statement writes out. -/
theorem registerAccesses : Obligations.RegisterAccesses := fun _ _ _ => ⟨rfl, rfl, rfl, rfl⟩

end Sys2Proof.Machine

namespace Sys2Proof.Machine

/-! ### A run whose end is known -/

/-- What a run of an operation is known to come to, where nobody has a move, is its outcome. -/
theorem exec_of_reaches {Q : State → Prop} {n : Nat} {i : Instr} {tests : List (Bool × RefuseReason)}
    {code : List Micro} {s : State} (hr : s.ready) (hrun : Reaches Q n (s.load (encode i) code))
    (hexec : exec i s = command i tests code s) (htests : firstFailing tests = none)
    (hstop : ∀ t, Q t → t.tick = none) (hn : n ≤ sliceTicks) : ∃ t, exec i s = .next t ∧ Q t :=
  ⟨_, exec_runOp hexec htests hr, State.runOp_of_reaches hrun hstop hn⟩

/-- The same where the outcome is known exactly. -/
theorem exec_eq_of_reaches {u : State} {n : Nat} {i : Instr} {tests : List (Bool × RefuseReason)} {code : List Micro}
    {s : State} (hr : s.ready) (hrun : Reaches (· = u) n (s.load (encode i) code))
    (hexec : exec i s = command i tests code s) (htests : firstFailing tests = none)
    (hstop : u.tick = none) (hn : n ≤ sliceTicks) : exec i s = .next u := by
  obtain ⟨t, ht, rfl⟩ := exec_of_reaches hr hrun hexec htests (fun _ h => h ▸ hstop) hn
  exact ht

/-- An operation with a failing test is refused. -/
theorem exec_refused {i : Instr} {tests : List (Bool × RefuseReason)} {code : List Micro} {r : RefuseReason}
    {s : State} (hexec : exec i s = command i tests code s) (htests : firstFailing tests = some r) (hr : s.ready) :
    exec i s = .next (s.refuse r) := by
  simp [hexec, command, hr.1, htests]

/-- What every move keeps holds where a run comes to, too. -/
theorem Reaches.keeping {P Q : State → Prop} {n : Nat} {s : State} (hP : ∀ u v, P u → u.tick = some v → P v)
    (r : Reaches Q n s) (hs : P s) : Reaches (fun t => Q t ∧ P t) n s := by
  induction r with
  | here hq => exact .here ⟨hq, hs⟩
  | move ht _ ih => exact .move ht (ih (hP _ _ hs ht))

theorem State.waiting_of_ne_wait {s : State} {m : Micro} {rest : List Micro} (hu : s.upc = m :: rest)
    (hm : ∀ c, m ≠ .wait c) : s.waiting = false := by
  unfold State.waiting
  split
  · rename_i c _ hc
    rw [hu] at hc
    cases hc
    exact absurd rfl (hm c)
  · rfl

/-- A micro-operation that is not a wait follows at once if the schedule lets nobody in or nobody can move (R152). -/
theorem Reaches.next {Q : State → Prop} {n : Nat} {s : State} {m : Micro} {rest : List Micro} (hb : s.busy = true)
    (hf : s.faulted = none) (hu : s.upc = m :: rest) (hm : ∀ c, m ≠ .wait c)
    (ho : s.params.sched = .runToWait ∨ s.others = []) (h : Reaches Q n (m.run rest s)) : Reaches Q (n + 1) s := by
  rw [← State.seqStep_eq hu] at h
  rcases ho with hr | ho
  · exact .seq hb hf hu hm hr h
  · exact .alone hb hf (by simp [hu]) (State.waiting_of_ne_wait hu hm) ho h

/-- In a transaction of the block no move of the peer is enabled (R175, R177, R178). -/
theorem State.peerOn_master {s : State} (h : s.bus.role = .master) : s.peerOn = false := by
  unfold State.peerOn
  split
  · rfl
  · rename_i m _ _
    cases m <;> simp [PeerMove.on, h]

theorem State.others_master {s : State} (h : s.bus.role = .master) (hl : s.bus.lineOn = false) : s.others = [] := by
  simp [State.others_eq, hl, State.peerOn_master h]

theorem State.lineStep_upc (s : State) : s.lineStep.upc = s.upc := by
  rw [← s.movedBy_lineStep]
  rfl

theorem State.peerStep_upc (s : State) : s.peerStep.upc = s.upc := by
  rw [← s.movedBy_peerStep]
  rfl

/-! ### The software reset and BC_INIT (41_bus_primitives.md R200 to R205) -/

/-- Settles O14: the interface is the reset one with `SWRST`, and `PE` = 0 stops everybody. -/
theorem softwareReset : Obligations.SoftwareReset := fun _ _ => ⟨rfl, State.others_off rfl, rfl, rfl⟩

/-- A test that fails decides; one that passes leaves it to those behind it. -/
theorem firstFailing_decide (P : Prop) [Decidable P] (r : RefuseReason) (l : List (Bool × RefuseReason)) :
    firstFailing ((decide P, r) :: l) = if ¬P then some r else firstFailing l := by
  by_cases h : P <;> simp [firstFailing, h]

/-- The tests on the record in the order of R403, neighbours of one reason taken together. -/
theorem BusRecord.firstFailing_tests (r : BusRecord) (q : Params) :
    firstFailing (r.tests q) =
      if r.inst ∉ q.supported then some .unsupportedInstance
      else if 2 < r.mode then some .operandRange
      else if r.speed = 0 ∨ 400000 < r.speed then some .operandRange
      else if r.res7 ≠ 0 ∨ 1024 ≤ r.own1 ∨ 128 ≤ r.own2 ∨ r.res11 ≠ 0 then some .reservedField
      else if 63 < freqField q.pclkHz ∨ 4095 < r.ccr q ∨ 63 < r.trise q then some .operandRange
      else none := by
  have hinst : q.supported.contains r.inst = decide (r.inst ∈ q.supported) := List.contains_eq_mem ..
  simp only [BusRecord.tests, hinst, firstFailing_decide, ite_or, not_and_or, not_le, not_lt, Nat.lt_one_iff, ne_eq]
  rfl

/-- The machine after BC_INIT with a record that passes (R200). -/
def State.bcInited (p : Half) (s : State) : State :=
  State.load (encode (.bcInit p)) []
    { s with
      draws := s.draws + 1
      bus :=
        { Bif.reset (Config.shiftAfterReset s.draws) with
          pe := true, cfg := (s.busRecord p.toNat).config s.params } }

/-- What a chain of tests leads to, read test by test. -/
theorem elim_ite_some (P : Prop) [Decidable P] (r : RefuseReason) (o : Option RefuseReason) (passed : State)
    (refused : RefuseReason → State) :
    (if P then some r else o).elim passed refused = if P then refused r else o.elim passed refused :=
  apply_ite (Option.elim · passed refused) P _ _

/-- BC_INIT is refused or runs through without a wait: after its first micro-operation nobody else can move (R26,
R200). -/
theorem exec_bcInit {p : Half} {s : State} (hr : s.ready) (ho : s.params.sched = .runToWait ∨ s.others = []) :
    exec (.bcInit p) s =
      .next ((firstFailing (fits p 12 :: (s.busRecord p.toNat).tests s.params)).elim (s.bcInited p) (s.refuse ·)) := by
  cases htests : firstFailing (fits p 12 :: (s.busRecord p.toNat).tests s.params) with
  | some r => exact exec_refused rfl htests hr
  | none =>
    have off : ∀ u : State, u.bus.pe = false → u.params.sched = .runToWait ∨ u.others = [] :=
      fun _ h => .inr (State.others_off h)
    have hrun : Reaches (· = s.bcInited p) 4 (s.load (encode (.bcInit p))
        [.set .swrst, .clr .swrst, .program ((s.busRecord p.toNat).config s.params), .set .pe]) := by
      refine .next rfl hr.2 rfl nofun ho ?_
      refine .next rfl hr.2 rfl nofun (off _ rfl) ?_
      refine .next rfl hr.2 rfl nofun (off _ rfl) ?_
      refine .next rfl hr.2 rfl nofun (off _ rfl) ?_
      exact .here rfl
    exact exec_eq_of_reaches hr hrun rfl htests (State.tick_idle rfl) (by decide)

theorem busModeOf_eq (k : Nat) :
    busModeOf k = if k = 0 then .plain else if k = 1 then .smbusDevice else .smbusHost := by
  match k with
  | 0 | 1 | _ + 2 => rfl

theorem ccrMin_eq (fast dutyAlt : Bool) : ccrMin fast dutyAlt = if fast = true ∧ dutyAlt = true then 1 else 4 := by
  cases fast <;> cases dutyAlt <;> rfl

/-- Settles O11: the first failing test refuses; where all pass, the record's configuration is left enabled. -/
theorem bcInitOutcome : Obligations.BcInitOutcome := by
  intro p s hr ho b flag speed own1 freq ccr trise
  have hspeed : (s.busRecord p.toNat).speed = speed := by
    simp only [State.busRecord, State.bufRead, speed, b, Nat.add_assoc, Nat.reduceAdd]
    omega
  have hown1 : (s.busRecord p.toNat).own1 = own1 := by
    simp only [State.busRecord, State.bufRead, own1, b, Nat.add_assoc, Nat.reduceAdd]
    omega
  have hccr : (s.busRecord p.toNat).ccr s.params = ccr := by
    rw [BusRecord.ccr, ccrValue, ccrMin_eq, hspeed]
    rfl
  have hres : ∀ k, b k ≠ 0 ↔ s.bufByte (p.toNat + k) ≠ 0 := fun k => by
    simp [b, BitVec.toNat_eq]
  have htests : firstFailing (fits p 12 :: (s.busRecord p.toNat).tests s.params) =
      if 65524 < p.toNat then some .bufferRange
      else if b 0 ∉ s.params.supported then some .unsupportedInstance
      else if 2 < b 1 then some .operandRange
      else if speed = 0 ∨ 400000 < speed then some .operandRange
      else if b 7 ≠ 0 ∨ 1024 ≤ own1 ∨ 128 ≤ b 10 ∨ b 11 ≠ 0 then some .reservedField
      else if 63 < freq ∨ 4095 < ccr ∨ 63 < trise then some .operandRange
      else none := by
    have hfits : ¬p.toNat + 12 ≤ 65536 ↔ 65524 < p.toNat := by omega
    simp only [fits, firstFailing_decide, BusRecord.firstFailing_tests, hfits, hspeed, hown1, hccr, hres]
    rfl
  rw [exec_bcInit hr ho, htests, State.bcInited, BusRecord.config, hown1, hccr, busModeOf_eq]
  simp only [elim_ite_some]
  rfl

/-! ### START and STOP (R210, R212) -/

/-- An operation that only sets a control bit completes at once. -/
theorem exec_set {i : Instr} {f : CtrlBit} {s : State} (hexec : exec i s = command i [] [.set f] s) (hf : f ≠ .swrst)
    (hr : s.ready) (ho : s.params.sched = .runToWait ∨ s.others = []) :
    exec i s = .next ((s.withBif (s.bus.setBit f true)).load (encode i) []) := by
  have hrun : Reaches (· = (s.withBif (s.bus.setBit f true)).load (encode i) []) 1 (s.load (encode i) [.set f]) := by
    refine .next rfl hr.2 rfl nofun ho (.here ?_)
    cases f with
    | swrst => exact absurd rfl hf
    | _ => rfl
  exact exec_eq_of_reaches hr hrun hexec rfl (State.tick_idle rfl) (by decide)

/-- Settles O22: the bit is the whole effect; the condition is left to the line agent's step. -/
theorem startStopOutcome : Obligations.StartStopOutcome := by
  intro s hr ho
  refine ⟨⟨_, exec_set rfl nofun hr ho, rfl, ⟨rfl, rfl, hr.2⟩, fun hon => ?_, fun hpe => State.others_off hpe⟩,
    ⟨_, exec_set rfl nofun hr ho, rfl, ⟨rfl, rfl, hr.2⟩, fun hon => ?_⟩⟩
  · rw [State.lineStep_of_startOn hon, State.lineStart_eq]
    exact ⟨rfl, rfl⟩
  · rw [State.lineStep_of_stopOn hon]
    exact ⟨rfl, Bif.lineStop_opened _⟩

/-! ### REQ (R214) -/

theorem Bif.calling_pe {b : Bif} (h : b.calling) : b.pe = true := by
  rcases h with ⟨hpe, -⟩ | ⟨hpe, -⟩ <;> exact hpe

/-- Settles O23: the start goes out first, then the address byte, whose answer decides. -/
theorem reqOutcome : Obligations.ReqOutcome := by
  intro a s hr hw
  have hexec : exec (.req a) s = command (.req a) [] [.wait .sb, .wrDr (.const a), .wait .addr] s := rfl
  have canSend : s.bus.calling → s.peerAway → CanSend s := fun hb haway => ⟨hr.2, hw, Bif.calling_pe hb, haway⟩
  refine ⟨fun hb haway hack ha => ?_, fun hb haway hnack => ?_, fun hsb ho => ?_⟩
  · have h0 := canSend hb haway
    have hrun := reaches_connected (s := s.load (encode (.req a)) [.wait .sb, .wrDr (.const a), .wait .addr]) h0 ha
      ⟨rfl, hack⟩ hb rfl rfl
    obtain ⟨t, ht, h⟩ := exec_of_reaches hr hrun hexec rfl (fun _ h => State.tick_empty h.upc) (by decide)
    exact ⟨t, ht, ⟨h.busy, h.upc, h.sends.faulted.trans hr.2⟩, h.bus, h.wire, h.sends.same.symm⟩
  · have h0 := canSend hb haway
    have hrun := (reaches_called (s := s.load (encode (.req a)) [.wait .sb, .wrDr (.const a), .wait .addr]) h0
      ⟨rfl, rfl⟩ hb rfl rfl).trans fun _ h => reaches_addrNack h0 hnack h
    obtain ⟨t, ht, ⟨c, hc, hhung⟩, -, haf, hkept, hwire⟩ := exec_of_reaches hr hrun hexec rfl
      (fun _ h => h.hung.elim fun _ hc => hc.2.tick h.budget) (by decide)
    rw [List.mem_singleton.1 hc] at hhung
    exact ⟨t, ht, hhung, haf, hwire, hkept⟩
  · have hend : (s.load (encode (.req a)) [.wait .sb, .wrDr (.const a), .wait .addr]).hungAt .sb :=
      ⟨rfl, hr.2, rfl, hsb, ho⟩
    exact ⟨_, exec_eq_of_reaches (n := 0) hr (.here rfl) hexec rfl (hend.tick hw) (by decide), hend, rfl⟩

/-! ### WRB (R218) -/

/-- Where WRB of `a` stands in a write transaction: at `wait(TXE)` the data register is empty, so it is not held
there. -/
inductive WrbAt (a : Byte) (s : State) : Prop where
  | issued (hu : s.upc = .rdSr2 :: loopCode [.const a] .btf []) (hb : s.bus.addressed .tx ∨ s.bus.writing)
  | opened (hu : s.upc = loopCode [.const a] .btf []) (hb : s.bus.writing)
  | loading (hu : s.upc = .wrDr (.const a) :: loopCode [] .btf [])
  | closing (hu : s.upc = loopCode [] .btf [])
  | done (hu : s.upc = [])

theorem Bif.writing.drFull {b : Bif} (h : b.writing) : b.drFull = false := by
  obtain ⟨-, -, -, -, -, -, -, -, -, -, hdr, -⟩ := h
  exact hdr

/-- With no byte written, the line agent has no step in a write transaction, and `rd_SR2()` finds or opens its data
phase. -/
theorem Bif.write_idle {b : Bif} (h : b.addressed .tx ∨ b.writing) :
    b.pe = true ∧ b.role = .master ∧ b.lineOn = false ∧ b.rdSr2.writing := by
  rcases h with h | h
  · have hline := Bif.addressed_lineOn h
    have hopen := (Bif.addressed_rdSr2 h).1
    obtain ⟨hpe, -, -, -, -, hrole, -⟩ := h
    exact ⟨hpe, hrole, hline, hopen⟩
  · exact ⟨h.sending.pe, h.sending.role, Bif.writing_lineOn h, (Bif.writing_rdSr2 h).symm ▸ h⟩

theorem State.others_write {s : State} (h : s.bus.addressed .tx ∨ s.bus.writing) : s.others = [] := by
  obtain ⟨-, hrole, hline, -⟩ := Bif.write_idle h
  exact State.others_master hrole hline

theorem WrbAt.seqStep {a : Byte} {s : State} (h : WrbAt a s) : WrbAt a s.seqStep := by
  cases h with
  | issued hu hb =>
    rw [State.seqStep_eq hu]
    exact .opened rfl (Bif.write_idle hb).2.2.2
  | opened hu hb =>
    rw [State.seqStep_eq hu]
    exact .loading rfl
  | loading hu =>
    rw [State.seqStep_eq hu]
    exact .closing rfl
  | closing hu =>
    rw [State.seqStep_eq hu]
    exact .done rfl
  | done hu => exact .done (by simp [State.seqStep, hu])

/-- A move that leaves `upc`, and the interface where nobody else can move: before the byte is written nobody can. -/
theorem WrbAt.moved {a : Byte} {s t : State} (h : WrbAt a s) (hu' : t.upc = s.upc)
    (hb' : s.others = [] → t.bus = s.bus) : WrbAt a t := by
  cases h with
  | issued hu hb => exact .issued (hu'.trans hu) ((hb' (State.others_write hb)).symm ▸ hb)
  | opened hu hb => exact .opened (hu'.trans hu) ((hb' (State.others_write (.inr hb))).symm ▸ hb)
  | loading hu => exact .loading (hu'.trans hu)
  | closing hu => exact .closing (hu'.trans hu)
  | done hu => exact .done (hu'.trans hu)

theorem WrbAt.tick {a : Byte} (s t : State) (h : WrbAt a s) (ht : s.tick = some t) : WrbAt a t :=
  State.tick_keeps (P := WrbAt a) (fun _ h _ _ => h.seqStep)
    (fun s h hl => h.moved s.lineStep_upc fun ho => by simp [State.others_eq, hl] at ho)
    (fun s h hp => h.moved s.peerStep_upc fun ho => by simp [State.others_eq, hp] at ho)
    (fun _ _ _ h => h.moved rfl fun _ => rfl) (fun _ h => h.moved rfl fun _ => rfl)
    (fun _ h _ _ => h.moved rfl fun _ => rfl) h ht

theorem WrbAt.not_hungAt_txe {a : Byte} {s : State} (h : WrbAt a s) : ¬s.hungAt .txe := by
  rintro ⟨-, -, hhead, htxe, -⟩
  cases h with
  | opened hu hb => simp [Cond.holds, hb.sending.txe, hb.drFull] at htxe
  | issued hu | loading hu | closing hu | done hu => simp [hu, loopCode] at hhead

/-- Settles O24: the byte goes through the data loop, or the first wait is never passed. -/
theorem wrbOutcome : Obligations.WrbOutcome := by
  intro a s hr hw
  have hexec : exec (.wrb a) s = command (.wrb a) [] (.rdSr2 :: loopCode [.const a] .btf []) s := rfl
  have canSend : (s.bus.addressed .tx ∨ s.bus.writing) → s.peerAway → CanSend s := fun hb haway =>
    ⟨hr.2, hw, (Bif.write_idle hb).1, haway⟩
  refine ⟨fun hb haway hack => ?_, fun hb haway hp hnack => ?_, fun hb => ?_, fun haddr htxe ho => ?_⟩
  · have h0 := canSend hb haway
    have hrun := reaches_data (s := s.load (encode (.wrb a)) (.rdSr2 :: loopCode [.const a] .btf [])) h0 (.inl rfl)
      (by simp) ⟨rfl, hack⟩ (hb.imp (⟨·, by simp⟩) (⟨·, by simp⟩)) rfl rfl
    obtain ⟨t, ht, h⟩ := exec_of_reaches hr hrun hexec rfl (fun _ h => State.tick_empty h.upc) (by simp [sliceTicks])
    refine ⟨t, ht, ⟨h.busy, h.upc, h.sends.faulted.trans hr.2⟩, h.writing, ?_, ?_, h.wire, h.sends.same.symm⟩
    · simp [h.bus.btf, h.drFull, h.shFull, h.sent]
    · simp [h.bus.txe, h.drFull]
  · have h0 := canSend hb haway
    have hrun := (reaches_nack (s := s.load (encode (.wrb a)) (.rdSr2 :: loopCode [.const a] .btf [])) (r := 0) h0
      (.inl rfl) (by simp) ⟨rfl, hp, hnack⟩ (by simp) hb rfl rfl).keeping WrbAt.tick (.issued rfl hb)
    obtain ⟨t, ht, ⟨⟨c, hc, hhung⟩, -, haf, hkept, hwire⟩, hat⟩ := exec_of_reaches hr hrun hexec rfl
      (fun _ h => h.1.hung.elim fun _ hc => hc.2.tick h.1.budget) (by simp [sliceTicks])
    rcases List.mem_pair.1 hc with rfl | rfl
    · exact absurd hhung hat.not_hungAt_txe
    · exact ⟨t, ht, hhung, haf, hwire, hkept⟩
  · have hrun := reaches_wrongWay (s := s.load (encode (.wrb a)) (.rdSr2 :: loopCode [.const a] .btf [])) hr.2 hw hb
      rfl rfl
    obtain ⟨t, ht, hhung, -, hkept⟩ := exec_of_reaches hr hrun hexec rfl (fun _ h => h.1.tick h.2.1) (by decide)
    exact ⟨t, ht, hhung, hkept⟩
  · have hstep : Micro.run .rdSr2 (loopCode [.const a] .btf [])
        (s.load (encode (.wrb a)) (.rdSr2 :: loopCode [.const a] .btf [])) =
          s.load (encode (.wrb a)) (loopCode [.const a] .btf []) := by
      have hrd : s.bus.rdSr2 = s.bus := by simp [Bif.rdSr2, haddr]
      simp only [Micro.run, State.load_bus, hrd]
      rfl
    have hend : (s.load (encode (.wrb a)) (loopCode [.const a] .btf [])).hungAt .txe := ⟨rfl, hr.2, rfl, htxe, ho⟩
    exact ⟨_, exec_eq_of_reaches (n := 1) hr (.next (m := .rdSr2) rfl hr.2 rfl nofun (.inr ho) (.here hstep))
      hexec rfl (hend.tick hw) (by decide), hend, rfl⟩

/-! ### RDB (R222) -/

/-- After the stop, with no start requested and `ACK` = 0, nobody has a move. -/
theorem State.others_stopped {s : State} (hrole : s.bus.role = .idle) (hphase : s.bus.phase = .idle)
    (hstart : s.bus.start = false) (hack : s.bus.ack = false) : s.others = [] := by
  have hline : s.bus.lineOn = false := by
    simp [Bif.lineOn, Bif.byteOn, Bif.addrOn, Bif.loadOn, Bif.txByteOn, Bif.rxByteOn, Bif.startOn, Bif.stopOn, hrole,
      hphase, hstart]
  have hpeer : s.peerOn = false := by
    unfold State.peerOn
    split
    · rfl
    · rename_i m _ _
      cases m <;> simp [PeerMove.on, hrole, hack]
  simp [State.others_eq, hline, hpeer]

/-- A stop requested between two bytes of a write transaction can go out (R167). -/
theorem Bif.writing.stopOn {b : Bif} (h : b.writing) : (b.setBit .stop true).stopOn = true := by
  obtain ⟨hpe, -, -, -, -, hrole, -, hphase, hdir, -, hdr, hsh⟩ := h
  simp [Bif.setBit, Bif.stopOn, Bif.byteOn, Bif.addrOn, Bif.loadOn, Bif.txByteOn, Bif.rxByteOn, *]

/-- `t` is what RDB, issued in `s`, has come to when it waits for a byte that nobody will send. -/
structure Unread (s t : State) : Prop where
  hung : t.hungAt .rxne
  budget : t.params.waitBudget = none
  kept : t.wire = s.wire ++ [Token.stop] ∧ t.res = s.res ∧ t.fb = s.fb ∧ t.buf = s.buf

/-- In a write transaction with its stop requested, the wait for a received byte only lets that stop out. -/
theorem reaches_unread {s0 s : State} {b : Bif} (hb : b.writing) (hbus : s.bus = b.setBit .stop true)
    (hs : s.wire = s0.wire ∧ s.res = s0.res ∧ s.fb = s0.fb ∧ s.buf = s0.buf) (hf : s.faulted = none)
    (hw : s.params.waitBudget = none) (hack : s.bus.ack = false) (hbusy : s.busy = true)
    (hu : s.upc = [.wait .rxne, .rdDrRes]) : Reaches (Unread s0) 1 s := by
  have hon : s.bus.stopOn = true := hbus ▸ hb.stopOn
  have hrole : s.bus.role = .master := hbus ▸ hb.sending.role
  have hdir : s.bus.dir = .tx := hbus ▸ hb.sending.dir
  have hstart : s.bus.start = false := hbus ▸ hb.sending.start
  have hwait : s.waiting = true := by simp [State.waiting, hu, Cond.holds, Bif.rxne, hdir]
  have ho : s.others = [.line] := by simp [State.others_eq, State.peerOn_master hrole, Bif.lineOn, hon]
  have hstep : s.agentStep .line = s.lineStop := State.lineStep_of_stopOn hon
  refine .only hbusy hf (by simp [hu]) hw hwait ho (.here ?_)
  rw [hstep]
  refine ⟨⟨hbusy, hf, congrArg List.head? hu, ?_, State.others_stopped ?_ ?_ ?_ ?_⟩, hw, ?_, hs.2⟩
  · simp [State.lineStop, Cond.holds, Bif.rxne, hdir]
  · exact Bif.lineStop_role _
  · exact Bif.lineStop_phase _
  · exact (Bif.lineStop_start _).trans hstart
  · exact (Bif.lineStop_ack _).trans hack
  · exact congrArg (· ++ [Token.stop]) hs.1

theorem Bif.rdSr2_ack (b : Bif) : b.rdSr2.ack = b.ack := by
  unfold Bif.rdSr2
  split <;> rfl

/-- RDB after a write-direction address byte (R222, R451). -/
theorem reaches_rdbWrongWay {s : State} (hf : s.faulted = none) (hw : s.params.waitBudget = none)
    (hb : s.bus.addressed .tx) (hbusy : s.busy = true)
    (hu : s.upc = [.clr .ack, .rdSr2, .set .stop, .wait .rxne, .rdDrRes]) :
    Reaches (Unread s) 4 s := by
  have hb' : (s.bus.setBit .ack false).addressed .tx := hb
  obtain ⟨hopen, -⟩ := Bif.addressed_rdSr2 hb'
  refine .next hbusy hf hu nofun (.inr (State.others_write (.inl hb))) ?_
  refine .next rfl hf rfl nofun (.inr (State.others_write (.inl hb'))) ?_
  refine .next rfl hf rfl nofun (.inr (State.others_write (.inr hopen))) ?_
  exact reaches_unread hopen rfl ⟨rfl, rfl, rfl, rfl⟩ hf hw (Bif.rdSr2_ack _) rfl rfl

/-- Settles O26: the peer's byte is taken whatever the order of moves; without a read transaction none comes. -/
theorem rdbOutcome : Obligations.RdbOutcome := by
  intro s hr hw
  have hexec : exec .rdb s = command .rdb [] [.clr .ack, .rdSr2, .set .stop, .wait .rxne, .rdDrRes] s := rfl
  refine ⟨fun v vs hb hnext => ?_, fun hb => ?_⟩
  · have hrun := reaches_rdb (s0 := s)
      (s := s.load (encode .rdb) [.clr .ack, .rdSr2, .set .stop, .wait .rxne, .rdDrRes]) ⟨hr.2, hw⟩ rfl hb hnext rfl rfl
    obtain ⟨t, ht, h⟩ := exec_of_reaches hr hrun hexec rfl (fun _ h => State.tick_empty h.upc) (by decide)
    have hfaulted : t.faulted = s.faulted := (congrArg State.faulted h.reads).symm
    have hres : t.res = v := (congrArg State.res h.reads).symm
    exact ⟨t, ht, ⟨h.busy, h.upc, hfaulted.trans hr.2⟩, hres, h.wire, h.ack, h.free, h.reads.symm⟩
  · have hrun := reaches_rdbWrongWay
      (s := s.load (encode .rdb) [.clr .ack, .rdSr2, .set .stop, .wait .rxne, .rdDrRes]) hr.2 hw hb rfl rfl
    obtain ⟨t, ht, h⟩ := exec_of_reaches hr hrun hexec rfl (fun _ h => h.hung.tick h.budget) (by decide)
    exact ⟨t, ht, h.hung, h.kept⟩

end Sys2Proof.Machine

namespace Sys2Proof.Machine

/-! ### The bursts as issued (42_bus_bursts.md R230, R240) -/

/-- The tests of WRBURST pass for a role of R114 and a buffer inside BUF. -/
theorem wrburst_tests {a : Byte} {p n : Half} (ha : a.toNat ≤ 1) (hfit : p.toNat + n.toNat ≤ 65536) :
    firstFailing [atMost a 1, fits p n.toNat] = none :=
  firstFailing_cons.2 ⟨decide_eq_true ha, firstFailing_cons.2 ⟨decide_eq_true hfit, rfl⟩⟩

/-- Of the tests of the initiator RDBURST only that of the count is left for a buffer inside BUF (R243, R403). -/
theorem rdburst_tests {p n : Half} {q : Params} (hfit : p.toNat + n.toNat ≤ 65536) :
    firstFailing [atMost 0 1, fits p n.toNat,
        (!(q.strict && decide ((0 : Byte) = 0) && decide (n.toNat < 2)), .countTooSmall)] =
      if q.strict = true ∧ n.toNat < 2 then some .countTooSmall else none := by
  cases hstrict : q.strict <;> by_cases hn : n.toNat < 2 <;> simp [firstFailing, atMost, fits, hfit, hn]

/-! ### WRBURST, initiator (R231) -/

theorem exec_wrburst_initiator (p n : Half) (s : State) :
    exec (.wrburst 0 p n) s = command (.wrburst 0 p n) [atMost 0 1, fits p n.toNat]
      (.rdSr2 :: loopCode (bufSources p.toNat n.toNat) .btfAndTxe []) s := rfl

theorem bufSources_ne_draw (p n : Nat) : ∀ v ∈ bufSources p n, v ≠ .draw := by
  simp [bufSources]

@[simp] theorem bufSources_length (p n : Nat) : (bufSources p n).length = n := by simp [bufSources]

theorem bufSources_value (p n : Nat) (s : State) :
    (bufSources p n).map (·.value s) = (List.range n).map fun i => s.bufByte (p + i) := by
  simp [bufSources, Src.value]

/-- The bytes of BUF that go out when byte `j` of a burst is refused. -/
theorem refusedTokens_bufSources {p n j : Nat} (hj : j < n) (s : State) :
    refusedTokens ((bufSources p n).map (·.value s)) j =
      ((List.range j).map fun i => s.bufByte (p + i)).map (Token.byte · true) ++ [.byte (s.bufByte (p + j)) false] := by
  rw [bufSources_value, refusedTokens, ← List.map_take, List.take_range, min_eq_left hj.le, List.getElem?_map,
    List.getElem?_range hj]
  rfl

/-- Before any byte is written the closing wait of a write transaction opened by `rd_SR2()` does not hold (R29, R231). -/
theorem Bif.btfAndTxe_unsent {b : Bif} (h : b.writing) (hsent : b.sent = 0) : Cond.btfAndTxe.holds b = false := by
  simp [h.sending.closed (.inr rfl), hsent]

/-- `rd_SR2()` is among what transmitting may change. -/
theorem State.sentBy_rdSr2 (s : State) (w : Word) (code rest : List Micro) :
    s.sentBy (((s.load w code).withBif s.bus.rdSr2).goto rest) = ((s.load w code).withBif s.bus.rdSr2).goto rest := by
  unfold Bif.rdSr2
  split <;> rfl

/-- The machine once the initiator WRBURST has done its `rd_SR2()` (R231). -/
def State.burstOpened (p n : Half) (s : State) : State :=
  ((s.load (encode (.wrburst 0 p n)) (.rdSr2 :: loopCode (bufSources p.toNat n.toNat) .btfAndTxe [])).withBif
    s.bus.rdSr2).goto (loopCode (bufSources p.toNat n.toNat) .btfAndTxe [])

/-- The initiator WRBURST hangs at its first wait where that does not hold after `rd_SR2()` and nobody else can move. -/
theorem exec_wrburst_hangs {p n : Half} {s : State} {c : Cond} (hr : s.ready) (hw : s.params.waitBudget = none)
    (hfit : p.toNat + n.toNat ≤ 65536) (ho : s.others = []) (hend : (s.burstOpened p n).hungAt c) :
    exec (.wrburst 0 p n) s = .next (s.burstOpened p n) :=
  exec_eq_of_reaches (n := 1) hr (.next (m := .rdSr2) rfl hr.2 rfl nofun (.inr ho) (.here rfl))
    (exec_wrburst_initiator p n s) (wrburst_tests (by decide) hfit) (hend.tick hw) (by decide)

/-- Settles O25: the bytes go through the data loop, or a wait is never passed. -/
theorem wrburstOutcome : Obligations.WrburstOutcome := by
  intro p n s hr hw hfit bytes
  have hexec := exec_wrburst_initiator p n s
  have htests := wrburst_tests (a := 0) (by decide) hfit
  have hlt := n.isLt
  have canSend : (s.bus.addressed .tx ∨ s.bus.writing) → s.peerAway → CanSend s := fun hb haway =>
    ⟨hr.2, hw, (Bif.write_idle hb).1, haway⟩
  -- the first wait of a burst of one byte or more
  have hfirst : 0 < n.toNat → ∃ v srcs, bufSources p.toNat n.toNat = v :: srcs := fun hn =>
    List.exists_cons_of_length_pos (by simpa using hn)
  refine ⟨fun hb haway hack => ?_, fun hb haway hn => ?_, fun j ys hb haway hp hnack hj => ?_, fun hb hn => ?_,
    fun haddr htxe ho hn => ?_⟩
  · have h0 := canSend (hb.imp And.left And.left) haway
    have hrun := reaches_data (tail := []) (s := s.load (encode (.wrburst 0 p n)) (.rdSr2 :: loopCode _ _ [])) h0
      (.inr rfl) (bufSources_ne_draw p.toNat n.toNat) ⟨rfl, hack⟩
      (hb.imp (fun h => ⟨h.1, List.ne_nil_of_length_pos (by simpa using h.2)⟩) (fun h => ⟨h.1, by simpa using h.2⟩)) rfl rfl
    obtain ⟨t, ht, h⟩ := exec_of_reaches hr hrun hexec htests (fun _ h => State.tick_empty h.upc)
      (by simp [sliceTicks]; omega)
    refine ⟨t, ht, ⟨h.busy, h.upc, h.sends.faulted.trans hr.2⟩, h.writing, ?_, ?_, ?_, h.sends.same.symm⟩
    · simp [h.bus.btf, h.drFull, h.shFull, h.sent]
    · simp [h.bus.txe, h.drFull]
    · simp [h.wire, bytes, bufSources, Src.value]
  · obtain ⟨hopen, hsent⟩ := Bif.addressed_rdSr2 hb
    have hend : (s.burstOpened p n).hungAt .btfAndTxe := by
      refine ⟨?_, hr.2, ?_, Bif.btfAndTxe_unsent hopen hsent, State.others_write (.inr hopen)⟩ <;>
        simp [State.burstOpened, hn, bufSources, loopCode]
    exact ⟨_, exec_wrburst_hangs hr hw hfit (State.others_write (.inl hb)) hend, hend, rfl, (s.sentBy_rdSr2 ..).symm⟩
  · have h0 := canSend hb haway
    have hrun := reaches_nack (tail := []) (s := s.load (encode (.wrburst 0 p n)) (.rdSr2 :: loopCode _ _ [])) h0
      (.inr rfl) (bufSources_ne_draw p.toNat n.toNat) ⟨rfl, hp, ys, hnack⟩ (by simpa using hj) hb rfl rfl
    obtain ⟨t, ht, ⟨c, hc, hhung⟩, -, haf, hkept, hwire⟩ := exec_of_reaches hr hrun hexec htests
      (fun _ h => h.hung.elim fun _ hc => hc.2.tick h.budget) (by simp [sliceTicks]; omega)
    refine ⟨t, ht, ?_, haf, ?_, hkept⟩
    · rcases List.mem_pair.1 hc with rfl | rfl
      · exact .inl hhung
      · exact .inr hhung
    · rw [hwire, refusedTokens_bufSources hj, ← List.append_assoc]
      rfl
  · obtain ⟨v, srcs, hsrc⟩ := hfirst hn
    have hrun := reaches_wrongWay (s := s.load (encode (.wrburst 0 p n)) (.rdSr2 :: loopCode (v :: srcs) .btfAndTxe []))
      hr.2 hw hb rfl rfl
    rw [← hsrc] at hrun
    obtain ⟨t, ht, hhung, -, hkept⟩ := exec_of_reaches hr hrun hexec htests (fun _ h => h.1.tick h.2.1) (by decide)
    exact ⟨t, ht, hhung, hkept⟩
  · obtain ⟨v, srcs, hsrc⟩ := hfirst hn
    have hrd : s.bus.rdSr2 = s.bus := by simp [Bif.rdSr2, haddr]
    have hend : (s.burstOpened p n).hungAt .txe := by
      rw [State.burstOpened, hsrc, hrd]
      exact ⟨rfl, hr.2, rfl, htxe, ho⟩
    exact ⟨_, exec_wrburst_hangs hr hw hfit ho hend, hend, rfl, hrd, rfl, rfl, rfl⟩


/-! ### RDBURST, initiator (R240 to R243) -/

theorem exec_rdburst_initiator (p n : Half) (s : State) :
    exec (.rdburst 0 p n) s = command (.rdburst 0 p n)
      [atMost 0 1, fits p n.toNat,
        (!(s.params.strict && decide ((0 : Byte) = 0) && decide (n.toNat < 2)), .countTooSmall)]
      (burstRead p.toNat n.toNat) s := rfl

theorem burstRead_short {p n : Nat} (h : n < 2) : burstRead p n = [.wait .never] := if_pos h

theorem burstRead_two (p : Nat) : burstRead p 2 = burstRead2 p := rfl

theorem burstRead_many {p n : Nat} (h : 2 < n) : burstRead p n = burstReadMany p n := by
  rw [burstRead, if_neg (by omega), if_neg (by omega)]

/-- What a read of two bytes or more comes to is its outcome. -/
theorem exec_rdburst_of_reaches {Q : State → Prop} {k : Nat} {p n : Half} {s : State} (hr : s.ready)
    (hn : 2 ≤ n.toNat) (hfit : p.toNat + n.toNat ≤ 65536)
    (hrun : Reaches Q k (s.load (encode (.rdburst 0 p n)) (burstRead p.toNat n.toNat)))
    (hstop : ∀ t, Q t → t.tick = none) (hk : k ≤ sliceTicks) : ∃ t, exec (.rdburst 0 p n) s = .next t ∧ Q t :=
  exec_of_reaches hr hrun (exec_rdburst_initiator p n s)
    ((rdburst_tests hfit).trans (if_neg fun h => absurd h.2 (by omega))) hstop hk

/-! ### Fewer than two bytes (R243) -/

/-- The operation in progress stands at the unconditional hang, with unbounded waits. -/
structure State.Halted (s : State) : Prop where
  busy : s.busy = true
  upc : s.upc = [.wait .never]
  faulted : s.faulted = none
  budget : s.params.waitBudget = none

theorem State.Halted.waiting {s : State} (h : s.Halted) : s.waiting = true := by
  simp [State.waiting, h.upc, Cond.holds]

theorem State.Halted.moved {s t : State} (h : s.Halted) (hm : s.movedBy t = t) : t.Halted := by
  rw [← hm]
  exact ⟨h.busy, h.upc, h.faulted, h.budget⟩

/-- Only the line agent and the peer move there. -/
theorem State.Halted.tick {s t : State} (h : s.Halted) (ht : s.tick = some t) : t.Halted := by
  have hgate : (!s.busy || s.faulted.isSome || s.upc.isEmpty) = false := by simp [h.busy, h.faulted, h.upc]
  simp only [State.tick, hgate, h.waiting, h.budget, Bool.false_eq_true, if_true, if_false] at ht
  split at ht
  · cases ht
  · rename_i ho
    cases ht
    obtain ⟨q, d, ⟨-, e⟩ | ⟨-, e⟩ | ⟨-, e⟩⟩ := s.moveOne_spec id (by simpa using ho)
    all_goals rw [e]
    · exact h.moved (s.movedBy_reschedule q d)
    · exact (h.moved (s.movedBy_reschedule q d)).moved (State.movedBy_lineStep _)
    · exact (h.moved (s.movedBy_reschedule q d)).moved (State.movedBy_peerStep _)

theorem State.Halted.runOp {s : State} (h : s.Halted) : s.runOp.Halted :=
  State.runFor_keeps (fun _ _ => State.Halted.tick) _ h

theorem State.Halted.tick_alone {s : State} (h : s.Halted) (ho : s.others = []) : s.tick = none :=
  State.hungAt.tick (c := .never) ⟨h.busy, h.faulted, by simp [h.upc], rfl, ho⟩ h.budget

/-- With nobody to move an operation in progress stays as it is. -/
theorem step_stuck {s : State} (hb : s.busy = true) (hf : s.faulted = none) (ht : s.tick = none) :
    step s = .next s := by
  simp [step, hb, State.whileBusy, hf, State.runOp, State.runFor_stuck ht]

/-- After an address byte nobody but the sequencer has a move (R162). -/
theorem State.others_addressed {s : State} {d : Dir} (h : s.bus.addressed d) : s.others = [] := by
  have hline := Bif.addressed_lineOn h
  obtain ⟨-, -, -, -, -, hrole, -⟩ := h
  exact State.others_master hrole hline

/-- Settles O29: the count is tested last, or the only micro-operation is a wait that never holds. -/
theorem rdburstShort : Obligations.RdburstShort := by
  intro p n s hr hn hfit
  have hexec := exec_rdburst_initiator p n s
  rw [burstRead_short hn] at hexec
  refine ⟨fun hstrict => exec_refused hexec ((rdburst_tests hfit).trans (if_pos ⟨hstrict, hn⟩)) hr,
    fun hstrict hw => ?_⟩
  have htests := (rdburst_tests (q := s.params) hfit).trans (if_neg fun h => absurd h.1 (by simp [hstrict]))
  have hissued : (s.load (encode (.rdburst 0 p n)) [.wait .never]).Halted := ⟨rfl, rfl, hr.2, hw⟩
  refine ⟨⟨_, exec_runOp hexec htests hr, hissued.runOp.busy, hissued.runOp.upc, hissued.runOp.faulted⟩, fun hb => ?_⟩
  have ho : s.others = [] := hb.elim State.others_addressed State.others_addressed
  have hstuck := hissued.tick_alone ho
  exact ⟨_, exec_eq_of_reaches (n := 0) hr (.here rfl) hexec htests hstuck (by decide), rfl,
    step_stuck hissued.busy hissued.faulted hstuck⟩


/-! ### What a read leaves (R240) -/

section
variable {s t : State} {p : Nat} {vs : List Byte}

theorem Reads.completed (h : Reads s p vs t) (hf : s.faulted = none) (hbusy : t.busy = false) (hu : t.upc = []) :
    t.completed := by
  obtain ⟨hfaulted, -⟩ := h.fields
  exact ⟨hbusy, hu, hfaulted.trans hf⟩

/-- The bytes received stand in BUF in order. -/
theorem Reads.bufByte (h : Reads s p vs t) {i : Nat} {v : Byte} (hv : vs[i]? = some v) : t.bufByte (p + i) = v := by
  rw [State.bufByte_congr (congrArg State.buf h).symm]
  change (State.stored p vs s).bufByte (p + i) = v
  simp [State.bufByte_stored, hv]

end

/-- An operation that may not write `POS`, run or refused, leaves it. -/
theorem exec_pos {i : Instr} {s t : State} (h : exec i s = .next t) (hinit : i.reach.init = false)
    (hpos : i.reach.pos = false) : t.bus.pos = s.bus.pos := by
  rcases exec_kept h with hk | ⟨r, rfl, -⟩
  · obtain hx | ⟨-, -, -, hx | hx, -⟩ := hk.bus
    · simp [hinit] at hx
    · exact hx
    · simp [hpos] at hx
  · rfl

/-! ### Two bytes (R241) -/

/-- A closed set with one more control bit set stays closed: nothing unrolls to less. -/
theorem Micro.Closed.insert_set {ok : Micro → Prop} (h : Micro.Closed ok) (f : CtrlBit) :
    Micro.Closed fun m => m = .set f ∨ ok m where
  start := fun q hq => .inr (h.start q (hq.resolve_left nofun))
  stop := fun q hq => .inr (h.stop q (hq.resolve_left nofun))
  wait := fun c => .inr (h.wait c)
  wrDr := fun v => .inr (h.wrDr v)
  rdSr2 := .inr h.rdSr2
  pass := fun p n i hq j => .inr (h.pass p n i (hq.resolve_left nofun) j)
  til := fun p n i hq j => .inr (h.til p n i (hq.resolve_left nofun) j)
  test := fun p n i hq => (h.test p n i (hq.resolve_left nofun)).imp (fun g hi => .inr (g hi)) .inr
  take := fun p n i hq => .inr (h.take p n i (hq.resolve_left nofun))
  done := fun p n i hq => .inr (h.done p n i (hq.resolve_left nofun))
  text := fun q hq => .inr (h.text q (hq.resolve_left nofun))

/-- What the two-byte read may write once it has set `POS`. -/
def Reach.posSet : Reach := { Reach.nothing with stop := true, ack := true, buf := fun _ => True }

/-- The two-byte read sets `POS` first and never clears it. -/
theorem runOp_burstRead2_pos {s : State} {p : Nat} (hu : s.upc = burstRead2 p) (hend : s.runOp.upc = []) :
    s.runOp.bus.pos = true := by
  have hrun := State.runOp_frame (F := fun t => t.upc = burstRead2 p ∨ t.bus.pos = true)
    ((Micro.within_closed Reach.posSet).insert_set .pos) (fun u m rest hm hok hF => .inr ?_)
    (fun u v hm _ hF => by rw [← hm]; exact hF) (fun _ h => h) (fun _ _ h => h) (.inl hu)
    (by simp [hu, burstRead2, Micro.within, Reach.posSet])
  · exact hrun.1.resolve_left (by simp [hend, burstRead2])
  · rcases hF with hF | hF
    · obtain ⟨rfl, -⟩ := List.cons.inj (hm.symm.trans hF)
      rfl
    · rcases hok with rfl | hok
      · rfl
      · obtain hx | ⟨-, -, -, hx | hx, -⟩ := (m.run_kept hok rest u).bus
        · cases hx
        · exact hx.trans hF
        · cases hx

/-- `t` is what a read, issued in `s`, has come to when it waits for bytes that nobody will send. -/
structure Starved (s : State) (c : Cond) (t : State) : Prop where
  hung : t.hungAt c
  budget : t.params.waitBudget = none
  wire : t.wire = s.wire
  buf : t.buf = s.buf

/-- Nothing received and nothing sent: neither wait of a read holds in a write transaction (R29, R451). -/
theorem Bif.writing.not_holds {b : Bif} (h : b.writing) (hsent : b.sent = 0) {c : Cond} (hc : c = .btf ∨ c = .rxne) :
    c.holds b = false := by
  rcases hc with rfl | rfl
  · simp [h.sending.closed (.inl rfl), hsent]
  · simp [Cond.holds, Bif.rxne, h.sending.dir]

/-- The two-byte read after a write-direction address byte (R451). -/
theorem reaches_burstTwoWrongWay {s : State} {p : Nat} (hf : s.faulted = none) (hw : s.params.waitBudget = none)
    (hb : s.bus.addressed .tx) (hbusy : s.busy = true) (hu : s.upc = burstRead2 p) :
    Reaches (Starved s .btf) 4 s := by
  have hb' : ((s.bus.setBit .pos true).setBit .ack true).addressed .tx := hb
  obtain ⟨hopen, hsent⟩ := Bif.addressed_rdSr2 hb'
  refine .next hbusy hf hu nofun (.inr (State.others_addressed hb)) ?_
  refine .next rfl hf rfl nofun (.inr (State.others_addressed (d := .tx) hb)) ?_
  refine .next rfl hf rfl nofun (.inr (State.others_addressed hb')) ?_
  refine .next rfl hf rfl nofun (.inr (State.others_write (.inr hopen))) (.here ?_)
  have hopen' : (((s.bus.setBit .pos true).setBit .ack true).rdSr2.setBit .ack false).writing := hopen
  exact ⟨⟨rfl, hf, rfl, hopen'.not_holds hsent (.inl rfl), State.others_write (.inr hopen')⟩, hw, rfl, rfl⟩

/-- Settles O27: under `run_to_wait` no byte comes in before `ACK` is cleared. -/
theorem rdburstTwo : Obligations.RdburstTwo := by
  intro p n s hr hw hn hfit
  have hcode : burstRead p.toNat n.toNat = burstRead2 p.toNat := by rw [hn, burstRead_two]
  have hfit' : p.toNat + n.toNat ≤ 65536 := by omega
  refine ⟨fun x y ys hsched hb hnext => ?_, fun hb => ?_⟩
  · have hrun := reaches_burstTwo (p := p.toNat) (s0 := s)
      (s := s.load (encode (.rdburst 0 p n)) (burstRead2 p.toNat)) ⟨hr.2, hw⟩ hsched rfl hb hnext rfl rfl
    have htests := (rdburst_tests (q := s.params) hfit').trans (if_neg fun h => absurd h.2 (by omega))
    have h := State.runOp_of_reaches hrun (fun _ h => State.tick_empty h.upc) (by decide)
    refine ⟨_, exec_runOp (hcode ▸ exec_rdburst_initiator p n s) htests hr, h.reads.completed hr.2 h.busy h.upc, ?_,
      runOp_burstRead2_pos rfl h.upc, h.ack, h.free, h.next, h.reads.symm⟩
    rw [h.wire]
    simp [receivedTokens]
  · obtain ⟨t, ht, h⟩ := exec_rdburst_of_reaches hr hn.ge hfit'
      (hcode ▸ reaches_burstTwoWrongWay (p := p.toNat)
        (s := s.load (encode (.rdburst 0 p n)) (burstRead2 p.toNat)) hr.2 hw hb rfl rfl)
      (fun _ h => h.hung.tick h.budget) (by decide)
    exact ⟨t, ht, h.hung, h.wire, h.buf⟩

/-! ### More than two bytes (R242, R245, R247) -/

/-- The first wait of a long read. -/
theorem burstReadMany_eq_cons {p n : Nat} (h : 2 < n) :
    ∃ rest, burstReadMany p n = .set .ack :: .rdSr2 :: .wait (if n = 3 then .btf else .rxne) :: rest := by
  by_cases h3 : n = 3
  · subst h3
    exact ⟨_, rfl⟩
  · obtain ⟨k, rfl⟩ : ∃ k, n = k + 1 + 3 := ⟨n - 4, by omega⟩
    rw [if_neg h3]
    exact ⟨_, rfl⟩

/-- A long read after a write-direction address byte (R451). -/
theorem reaches_burstManyWrongWay {s : State} {p n : Nat} (hn : 2 < n) (hf : s.faulted = none)
    (hw : s.params.waitBudget = none) (hb : s.bus.addressed .tx) (hbusy : s.busy = true)
    (hu : s.upc = burstReadMany p n) : Reaches (Starved s (if n = 3 then .btf else .rxne)) 2 s := by
  obtain ⟨rest, hcode⟩ := burstReadMany_eq_cons (p := p) hn
  have hb' : (s.bus.setBit .ack true).addressed .tx := hb
  obtain ⟨hopen, hsent⟩ := Bif.addressed_rdSr2 hb'
  refine .next hbusy hf (hu.trans hcode) nofun (.inr (State.others_addressed hb)) ?_
  refine .next rfl hf rfl nofun (.inr (State.others_addressed hb')) (.here ?_)
  exact ⟨⟨rfl, hf, rfl, hopen.not_holds hsent (by split <;> simp), State.others_write (.inr hopen)⟩, hw, rfl, rfl⟩

/-- The last three of three bytes or more. -/
theorem exists_append_three {α : Type} {l : List α} (h : 2 < l.length) : ∃ k x y z, l = k ++ [x, y, z] := by
  obtain ⟨x, y, z, hl⟩ := List.length_eq_three.1 (show (l.drop (l.length - 3)).length = 3 by simp; omega)
  exact ⟨l.take (l.length - 3), x, y, z, by rw [← hl, List.take_append_drop]⟩

/-- Settles O28: the reads take the bytes in order whatever the order of moves, with either `POS`. -/
theorem rdburstMany : Obligations.RdburstMany := by
  intro p n s hr hw hn hfit
  have hcode := burstRead_many (p := p.toNat) hn
  have hlt := n.isLt
  have hsplit : ∀ vs : List Byte, vs.length = n.toNat → ∃ bs x y z, vs = bs ++ [x, y, z] ∧ n.toNat = bs.length + 3 := by
    intro vs hlen
    obtain ⟨bs, x, y, z, rfl⟩ := exists_append_three (hlen ▸ hn)
    exact ⟨bs, x, y, z, rfl, by simpa using hlen.symm⟩
  refine ⟨fun vs ys hlen hb hpos hnext => ?_, fun vs ys e hlen hb hpos hnext => ?_, fun hb => ?_⟩
  · obtain ⟨bs, x, y, z, rfl, hn3⟩ := hsplit vs hlen
    have hrun := reaches_burstMany (s0 := s) (s := s.load (encode (.rdburst 0 p n)) (burstRead p.toNat n.toNat))
      ⟨hr.2, hw⟩ rfl hb hpos hnext (by rw [hcode, hn3]; rfl) (hcode.trans (by rw [hn3]))
    obtain ⟨t, ht, h⟩ := exec_rdburst_of_reaches hr hn.le hfit hrun (fun _ h => State.tick_empty h.upc)
      (by simp [sliceTicks]; omega)
    refine ⟨t, ht, h.reads.completed hr.2 h.busy h.upc, ?_, ?_, h.ack, h.free, h.next, fun i v => h.reads.bufByte,
      h.reads.symm⟩
    · rw [h.wire, receivedTokens, ← List.append_assoc]
      rfl
    · exact (exec_pos ht rfl (decide_eq_false fun h => absurd h.2 hn.ne')).trans hpos
  · obtain ⟨bs, x, y, z, rfl, hn3⟩ := hsplit vs hlen
    have hrun := reaches_burstLate (s0 := s) (s := s.load (encode (.rdburst 0 p n)) (burstRead p.toNat n.toNat)) (ys := ys)
      ⟨hr.2, hw⟩ rfl hb hpos (by simpa using hnext) (by rw [hcode, hn3]; rfl) (hcode.trans (by rw [hn3]))
    obtain ⟨t, ht, h⟩ := exec_rdburst_of_reaches hr hn.le hfit hrun (fun _ h => State.tick_empty h.upc)
      (by simp [sliceTicks]; omega)
    exact ⟨t, ht, h.reads.completed hr.2 h.busy h.upc, h.ack, fun i v => h.reads.bufByte, h.reads.symm, h.wire⟩
  · have hrun := reaches_burstManyWrongWay (s := s.load (encode (.rdburst 0 p n)) (burstRead p.toNat n.toNat)) hn hr.2 hw
      hb (by rw [hcode]; rfl) hcode
    obtain ⟨t, ht, h⟩ := exec_rdburst_of_reaches hr hn.le hfit hrun (fun _ h => h.hung.tick h.budget) (by decide)
    exact ⟨t, ht, h.hung, h.wire, h.buf⟩


/-! ### WRBURST, responder (R232 to R234) -/

/-- What the responder WRBURST comes to is its outcome. -/
theorem exec_wrburst_responder_of_reaches {Q : State → Prop} {k : Nat} {p n : Half} {s : State} (hr : s.ready)
    (hfit : p.toNat + n.toNat ≤ 65536)
    (hrun : Reaches Q k (s.load (encode (.wrburst 1 p n)) (responderWrite p.toNat n.toNat)))
    (hstop : ∀ t, Q t → t.tick = none) (hk : k ≤ sliceTicks) : ∃ t, exec (.wrburst 1 p n) s = .next t ∧ Q t :=
  exec_of_reaches hr hrun rfl (wrburst_tests (by decide) hfit) hstop hk

section
variable {s t : State} {p n : Nat} {w : List Token} {ms : List PeerMove}

theorem Given.tick {m : Nat} (h : Given s p n w ms m t) : t.tick = none := by
  rcases h with h | ⟨-, h⟩
  · exact State.tick_empty h.upc
  · exact h.hung.tick h.budget

theorem Serves.completed {vs : List Byte} (h : Serves s p vs t) (hf : s.faulted = none) (hbusy : t.busy = false)
    (hu : t.upc = []) : t.completed := by
  obtain ⟨hfaulted, -⟩ := h.fields
  exact ⟨hbusy, hu, hfaulted.trans hf⟩

end

/-- Settles O30: the loop runs until the peer's NACK, or waits for ever behind its stop. -/
theorem responderWriteOutcome : Obligations.ResponderWrite := by
  intro p n sel s hr hw hsched hfit hb called fromBuf gave left
  have h0 : CanServe s := ⟨hr.2, hw, hsched⟩
  -- in the vocabulary of the statement
  have hfrom : ∀ os : List Byte, (∀ i v, os[i]? = some v → goodByte s p.toNat n.toNat i v) → fromBuf os :=
    fun os hg i v hv => (hg i v hv).spec
  have hgave : ∀ {ms : List PeerMove} {r : Nat} {t : State}, Gave s p.toNat n.toNat (called true) ms (r + 1) t →
      ∃ os : List Byte, os.length = r + 1 ∧ gave os t ∧
        ((t.peer.moves = ms ∧ t.peerOn = !ms.isEmpty ∧ t.wire = called true ++ receivedTokens os) ∨
          (t.peer.moves = [] ∧ ms = [.stop] ∧ t.wire = called true ++ receivedTokens os ++ [Token.stop])) := by
    intro ms r t h
    obtain ⟨os, hlen, hgood, hend⟩ := h.took
    exact ⟨os, hlen, ⟨h.serves.completed hr.2 h.busy h.upc, h.af, hfrom os hgood, h.serves.symm⟩, hend⟩
  have hleft : ∀ {m : Nat → Prop} {t : State}, Left s p.toNat n.toNat (called true) m t → ∃ j, m j ∧ left j t := by
    intro m t h
    obtain ⟨os, hm, hgood, hwire⟩ := h.took
    exact ⟨_, hm, os, rfl, h.hung, h.af, hfrom os hgood, h.serves.symm, hwire⟩
  refine ⟨fun r ys hbound hsel hacks => ⟨fun hm => ?_, fun hm => ⟨?_, fun j hj => ?_⟩⟩, fun hsel hm => ?_⟩
  · have hrun := reaches_responderWrite (s := s.load (encode (.wrburst 1 p n)) (responderWrite p.toNat n.toNat))
      h0 rfl hb hsel (.inl rfl) hm hacks rfl rfl
    obtain ⟨t, ht, h⟩ := exec_wrburst_responder_of_reaches hr hfit hrun (fun _ h => Given.tick h)
      (by simp [sliceTicks]; omega)
    obtain h | ⟨hx, -⟩ := h
    swap
    · cases hx
    obtain ⟨os, hlen, hg, ⟨-, -, hwire⟩ | ⟨-, hx, -⟩⟩ := hgave h
    · exact ⟨t, os, ht, hlen, hg, by rw [hwire, receivedTokens, ← List.append_assoc]⟩
    · cases hx
  · have hrun := reaches_responderWrite (s := s.load (encode (.wrburst 1 p n)) (responderWrite p.toNat n.toNat))
      h0 rfl hb hsel (.inr rfl) hm hacks rfl rfl
    obtain ⟨t, ht, h⟩ := exec_wrburst_responder_of_reaches hr hfit hrun (fun _ h => Given.tick h)
      (by simp [sliceTicks]; omega)
    refine ⟨t, ht, ?_⟩
    obtain h | ⟨-, h⟩ := h
    · obtain ⟨os, hlen, hg, hend⟩ := hgave h
      exact .inr ⟨os, hlen, hg, hend.imp_right fun ⟨hmoves, _, hwire⟩ => ⟨hmoves, hwire⟩⟩
    · obtain ⟨j, hj, hquit⟩ := hleft h
      exact .inl ⟨j, by omega, hquit⟩
  · have hrun := reaches_responderLeft (l := [])
      (s := State.load (encode (.wrburst 1 p n)) (responderWrite p.toNat n.toNat)
        { s with sched := ⟨quitting j, none⟩ })
      h0 rfl hb hj hsel hm hacks rfl rfl (List.append_nil _).symm
    obtain ⟨t, ht, h⟩ := exec_wrburst_responder_of_reaches (s := { s with sched := ⟨quitting j, none⟩ }) hr hfit hrun
      (fun _ h => h.hung.tick h.budget) (by simp [sliceTicks]; omega)
    obtain ⟨_, rfl, hquit⟩ := hleft h
    exact ⟨_, t, ht, hquit⟩
  · have hrun := reaches_responderWrongWay (s := s.load (encode (.wrburst 1 p n)) (responderWrite p.toNat n.toNat))
      h0 rfl hb hsel hm rfl rfl
    obtain ⟨t, ht, hserves, hhung, -, hwire⟩ := exec_wrburst_responder_of_reaches hr hfit hrun
      (fun _ ⟨_, hhung, hbudget, _⟩ => hhung.tick hbudget) (by decide)
    exact ⟨t, ht, hhung, hwire, hserves.symm⟩

end Sys2Proof.Machine

namespace Sys2Proof.Machine

/-! ### Cursor operands (43_display_transport_ram.md R270, R275, R277) -/

/-- A cursor off the display fails a test, a cursor on it passes both. -/
theorem firstFailing_cursorTests (a b : Byte) :
    firstFailing (cursorTests a b) = if a.toNat ≤ 127 ∧ b.toNat ≤ 7 then none else some .operandRange := by
  simp only [cursorTests, atMost, firstFailing_decide]
  by_cases ha : a.toNat ≤ 127 <;> by_cases hb : b.toNat ≤ 7 <;> simp [ha, hb, firstFailing]

theorem firstFailing_cursorTests_on {a b : Byte} (ha : a.toNat ≤ 127) (hb : b.toNat ≤ 7) :
    firstFailing (cursorTests a b) = none := by
  rw [firstFailing_cursorTests, if_pos ⟨ha, hb⟩]

/-- An operation whose cursor is off the display is refused. -/
theorem exec_refused_cursor {i : Instr} {a b : Byte} {code : List Micro} {s : State}
    (hexec : exec i s = command i (cursorTests a b) code s) (hoff : 127 < a.toNat ∨ 7 < b.toNat) (hr : s.ready) :
    exec i s = .next (s.refuse .operandRange) :=
  exec_refused hexec (by rw [firstFailing_cursorTests, if_neg (by omega)]) hr

/-- Settles O33: the operation is one command frame, its operands unchanged as bytes. -/
theorem movecurOutcome : Obligations.MovecurOutcome := by
  intro a b s hr
  refine ⟨fun hoff => exec_refused_cursor rfl hoff hr, fun ha hb => ?_⟩
  have h := transmits_of_cmd (i := .movecur a b) rfl (firstFailing_cursorTests_on ha hb) (by simp) hr
  simpa only [BitVec.ofNat_toNat, BitVec.setWidth_eq] using h

/-! ### The shadow framebuffer (R275 to R277) -/

/-- An operation that is one write of `FB`, which becomes `fb`, completes at once and changes nothing else. -/
theorem exec_fbOnly {i : Instr} {tests : List (Bool × RefuseReason)} {m : Micro} {s : State} (fb : Memory)
    (hexec : exec i s = command i tests [m] s) (htests : firstFailing tests = none) (hm : ∀ c, m ≠ .wait c)
    (hrun : ∀ u : State, u.fb = s.fb → m.run [] u = State.goto [] { u with fb := fb }) (hr : s.ready)
    (ho : s.params.sched = .runToWait ∨ s.others = []) :
    ∃ t, exec i s = .next t ∧ t = State.load (encode i) [] { s with fb := t.fb } ∧ t.fb = fb := by
  have hreach : Reaches (· = State.load (encode i) [] { s with fb := fb }) 1 (s.load (encode i) [m]) := by
    refine .next rfl hr.2 rfl hm ho (.here ?_)
    rw [hrun (s.load (encode i) [m]) rfl]
    rfl
  exact ⟨_, exec_eq_of_reaches hr hreach hexec htests (State.tick_idle rfl) (by decide), rfl, rfl⟩

/-- Settles O37: each operation is one write of `FB`. -/
theorem shadowWrites : Obligations.ShadowWrites := by
  intro s hr
  refine ⟨fun a b c => ⟨fun hoff => exec_refused_cursor rfl hoff hr, fun ha hb ho => ?_⟩, fun ho => ?_⟩
  · obtain ⟨t, ht, hsame, hfb⟩ := exec_fbOnly (i := .ramwrite a b c) (s.fbWrite (fbIndex a.toNat b.toNat) c).fb rfl
      (firstFailing_cursorTests_on ha hb) nofun (fun u hu => by rw [State.fbWrite, ← hu]; rfl) hr ho
    exact ⟨t, ht, hsame, fun k => (State.fbByte_congr hfb k).trans (State.fbByte_fbWrite s _ k c)⟩
  · obtain ⟨t, ht, hsame, hfb⟩ := exec_fbOnly (i := .ramclear) (m := .fbZero) (tests := []) (Memory.zeros 1024) rfl
      rfl nofun (fun _ _ => rfl) hr ho
    exact ⟨t, ht, hsame, fun k hk =>
      (State.fbByte_congr (hfb.trans s.fbClear_fb.symm) k).trans (State.fbByte_fbClear s hk)⟩

/-- Settles O38: the source of the pushed byte is read after the merge, so it is the merged byte. -/
theorem ramupdatebyteOutcome : Obligations.RamupdatebyteOutcome := by
  intro a b c s hr
  refine ⟨fun hoff => exec_refused_cursor rfl hoff hr, fun ha hb => ?_⟩
  intro i merged
  have h := transmits_of_push (i := .ramupdatebyte a b c) (s := s) (x := .fbOr i c) (srcs := [.fb i])
    nofun rfl (firstFailing_cursorTests_on ha hb) (by simp) (by simp) hr
  have hread : merged.fbByte i = s.fbByte i ||| c := by
    rw [State.fbByte_fbWrite, if_pos rfl]
  rw [← hread]
  exact h

/-! ### The full push (R279) -/

/-- An operation that sets the cursor and then pushes data leaves `FB` alone. -/
theorem transmits_of_cursorData {i : Instr} {tests : List (Bool × RefuseReason)} {s : State} {srcs : List Src}
    {col page : Nat}
    (hexec : exec i s = command i tests (cursorFrame s.params col page ++ sendData s.params srcs) s)
    (htests : firstFailing tests = none) (hsrc : ∀ v ∈ srcs, v ≠ .draw) (hlen : srcs.length ≤ 100000)
    (hr : s.ready) :
    Transmits i s s (fun _ => s)
      (cursorTokens s.params col page ++ dataTokens s.params (srcs.map (·.value s))) := by
  rw [cursorFrame_code, sendData_code, ← codeOf_append] at hexec
  have hframes : ∀ x ∈ [cursorItem s.params col page] ++ dataItems s.params srcs, ∃ c l, x = .frame c l := by
    rintro x (_ | ⟨_, hx⟩)
    · exact ⟨_, _, rfl⟩
    · exact dataItems_frames _ _ x hx
  have hplain : ∀ x ∈ [cursorItem s.params col page] ++ dataItems s.params srcs, x.plain := by
    rintro x (_ | ⟨_, hx⟩)
    · exact cmdItem_plain _ _
    · exact dataItems_plain _ hsrc x hx
  have hcost : 2 * costOf ([cursorItem s.params col page] ++ dataItems s.params srcs) ≤ sliceTicks := by
    have hdata := dataItems_cost s.params srcs
    have hcursor : costOf [cursorItem s.params col page] = 39 := rfl
    rw [costOf_append, hcursor]
    simp only [sliceTicks]
    omega
  have h := transmits_of_items (made := fun _ => s) hexec htests hplain hcost hr
    fun k _ => by rw [madeUntil_frames hframes]
  have hcursor : applyAll [cursorItem s.params col page] s = s := rfl
  rwa [applyAll_frames hframes, tokensOf_append, hcursor, cursorItem_tokens, dataItems_tokens] at h

/-- The push of RAMUPDATEFULL as a transmission. -/
theorem transmits_ramupdatefull {s : State} (hr : s.ready) :
    Transmits .ramupdatefull s s (fun _ => s)
      (cursorTokens s.params 0 0 ++ dataTokens s.params ((List.range 1024).map s.fbByte)) := by
  have h := transmits_of_cursorData (i := .ramupdatefull) (tests := []) (s := s)
    (srcs := (List.range 1024).map .fb) rfl rfl (by simp) (by simp) hr
  rwa [List.map_map] at h

/-- The panel that has seen the cursor go to the origin and 1024 bytes in horizontal mode holds them, with its cursor
back at the origin (R384, R385). -/
theorem completes_fullPush {i : Instr} {s after : State} {f : Nat → Byte}
    (h : Completes i s after (cursorTokens s.params 0 0 ++ dataTokens s.params ((List.range 1024).map f)))
    (hwatched : s.watched (· = 0)) :
    ∃ t, exec i s = .next t ∧ t = after.sentBy t ∧ (∀ k, k < 1024 → t.panel.gdByte k = f k) ∧
      t.panel.pcol = 0 ∧ t.panel.ppage = 0 := by
  obtain ⟨hpanel, hcmds, hctrl, hmode, hcalm⟩ := hwatched
  have hcursor := seeAll_cursor (q := s.params) hcmds (p := s.panel) hcalm (col := 0) (page := 0)
    (Nat.zero_le _) (Nat.zero_le _)
  have hlast : (List.range 1024).map f = (List.range 1023).map f ++ [f 1023] := by
    rw [List.range_succ, List.map_append]
    rfl
  rw [hlast] at h
  obtain ⟨t, ht, -, hsent, hp⟩ := completes_stream h hpanel hcalm hctrl hcursor rfl
    ⟨hmode, Nat.zero_le _, Nat.zero_le _, Nat.zero_le _, le_rfl, Nat.zero_le _, le_rfl⟩
  rw [← hlast] at hp
  obtain ⟨g, hstored, hg⟩ := foldl_store_origin f
    (p := { s.panel with rx := .off, cs := 0, ce := 127, pcol := 0, ps := 0, pe := 7, ppage := 0 })
    ⟨rfl, rfl, rfl, rfl, rfl, rfl⟩ 1024 le_rfl
  rw [hstored] at hp
  have hgd : t.panel.gd = g := congrArg Panel.gd hp
  refine ⟨t, ht, hsent, fun k hk => ?_, congrArg Panel.pcol hp, congrArg Panel.ppage hp⟩
  rw [Panel.gdByte, hgd, hg, if_pos hk]
  rfl

/-- Settles O39: the operation is the cursor frame and the run of `FB`'s bytes, which the panel stores from the origin
on. -/
theorem ramupdatefullOutcome : Obligations.RamupdatefullOutcome := by
  intro s hr
  refine ⟨transmits_ramupdatefull hr, fun hready hwatched => ?_⟩
  obtain ⟨t, ht, hsent, hgd, hcol, hpage⟩ := completes_fullPush ((transmits_ramupdatefull hr).1 hready) hwatched
  have hfb : t.fb = (s.sentBy t).fb := congrArg State.fb hsent
  exact ⟨t, ht, fun k hk => ⟨hgd k hk, (hgd k hk).trans (State.fbByte_congr hfb k).symm⟩, hcol, hpage⟩

end Sys2Proof.Machine

namespace Sys2Proof.Machine

/-! ### The tests of the display commands (44_display_commands.md) -/

theorem firstFailing_atMost (x : Byte) (max : Nat) (tests : List (Bool × RefuseReason)) :
    firstFailing (atMost x max :: tests) = if x.toNat ≤ max then firstFailing tests else some .operandRange := by
  rw [atMost, firstFailing_decide, ite_not]

theorem firstFailing_scrollTests (a b c d : Byte) (tests : List (Bool × RefuseReason)) :
    firstFailing (scrollTests a b c d ++ tests) =
      if a.toNat ≤ 1 ∧ b.toNat ≤ 7 ∧ c.toNat ≤ 7 ∧ d.toNat ≤ 7 then firstFailing tests else some .operandRange := by
  simp only [scrollTests, List.cons_append, List.nil_append, firstFailing_atMost, ite_and]

/-- The bound of the sum implies the two others. -/
theorem firstFailing_areaTests (a b : Byte) :
    firstFailing (areaTests a b) = if a.toNat + b.toNat ≤ 64 then none else some .operandRange := by
  simp only [areaTests, firstFailing_atMost, firstFailing_decide, ite_not, ← ite_and]
  exact if_congr (by omega) rfl rfl

/-! ### One command frame (R310 to R314, R320 to R326) -/

/-- An operation that is one command frame is refused where a test fails, and is sent where none does. -/
theorem outcome_of_cmd {i : Instr} {tests : List (Bool × RefuseReason)} {cmds : List Byte} {s : State} {P : Prop}
    [Decidable P] (hexec : exec i s = command i tests (sendCmd s.params cmds) s)
    (htests : firstFailing tests = if P then none else some .operandRange) (hlen : cmds.length ≤ 1000)
    (hr : s.ready) :
    (¬P → exec i s = .next (s.refuse .operandRange)) ∧
      (P → Transmits i s s (fun _ => s) (cmdTokens s.params cmds)) :=
  ⟨fun hP => exec_refused hexec (htests.trans (if_neg hP)) hr,
    fun hP => transmits_of_cmd hexec (htests.trans (if_pos hP)) hlen hr⟩

/-- Settles O34: each operation is one command frame, whose bytes the flag selects. -/
theorem modeOutcomes : Obligations.ModeOutcomes := by
  intro a s hr sends m
  obtain ⟨invertOff, invertOn⟩ :=
    outcome_of_cmd (i := .invert a) (s := s) rfl (firstFailing_atMost a 1 []) (by simp) hr
  obtain ⟨disponOff, disponOn⟩ :=
    outcome_of_cmd (i := .dispon a) (s := s) rfl (firstFailing_atMost a 1 []) (by simp) hr
  obtain ⟨flipOff, flipOn⟩ :=
    outcome_of_cmd (i := .flip a) (s := s) rfl (firstFailing_atMost a 1 []) (by split <;> simp) hr
  obtain ⟨addrmodeOff, addrmodeOn⟩ :=
    outcome_of_cmd (i := .addrmode a) (s := s) rfl (firstFailing_atMost a 2 []) (by simp) hr
  refine ⟨fun ha => ⟨invertOff ha.not_ge, disponOff ha.not_ge, flipOff ha.not_ge⟩, fun ha => addrmodeOff ha.not_ge,
    transmits_of_cmd (i := .contrast a) (tests := []) rfl rfl (by simp) hr, ?_, ?_, addrmodeOn⟩
  all_goals
    rintro rfl
    exact ⟨invertOn (by decide), disponOn (by decide), flipOn (by decide)⟩

/-- Settles O35: each operation is one command frame behind its tests. -/
theorem scrollOutcomes : Obligations.ScrollOutcomes := by
  intro a b c d e s hr sends low m
  have hdiag : firstFailing (scrollTests a b c d ++ [atMost e 63]) =
      if low ∧ e.toNat ≤ 63 then none else some .operandRange := by
    rw [firstFailing_scrollTests, firstFailing_atMost, ← ite_and]
    rfl
  have hlow : firstFailing (scrollTests a b c d) = if low then none else some .operandRange :=
    firstFailing_scrollTests a b c d []
  obtain ⟨scrollhOff, scrollhOn⟩ := outcome_of_cmd (i := .scrollh a b c d) (s := s) rfl hlow (by simp [scrollHBytes]) hr
  obtain ⟨diagOff, diagOn⟩ :=
    outcome_of_cmd (i := .scrolldiag a b c d e) (s := s) rfl hdiag (by simp [scrollDiagBytes]) hr
  obtain ⟨areaOff, areaOn⟩ :=
    outcome_of_cmd (i := .setvarea a b) (s := s) rfl (firstFailing_areaTests a b) (by simp [areaBytes]) hr
  obtain ⟨stateOff, stateOn⟩ :=
    outcome_of_cmd (i := .scrollstate a) (s := s) rfl (firstFailing_atMost a 1 []) (by simp) hr
  exact ⟨scrollhOff, diagOff, fun h => areaOff (by omega), fun h => stateOff h.not_ge, scrollhOn,
    fun h he => diagOn ⟨h, he⟩, areaOn, stateOn⟩

/-! ### Frames one after another (R305, R328) -/

/-- An operation made of frames leaves `FB` alone. -/
theorem transmits_of_frames {i : Instr} {tests : List (Bool × RefuseReason)} {xs : List Item} {s : State}
    (hexec : exec i s = command i tests (codeOf s.params xs) s) (htests : firstFailing tests = none)
    (hframes : ∀ x ∈ xs, ∃ c l, x = .frame c l) (hplain : ∀ x ∈ xs, x.plain) (hcost : 2 * costOf xs ≤ sliceTicks)
    (hr : s.ready) : Transmits i s s (fun _ => s) (tokensOf xs s) := by
  have h := transmits_of_items (made := fun _ => s) hexec htests hplain hcost hr
    fun k _ => by rw [madeUntil_frames hframes]
  rwa [applyAll_frames hframes] at h

/-- An operation that is two command frames (R264). -/
theorem transmits_of_twoCmds {i : Instr} {tests : List (Bool × RefuseReason)} {cmds cmds' : List Byte} {s : State}
    (hexec : exec i s = command i tests (sendCmd s.params cmds ++ sendCmd s.params cmds') s)
    (htests : firstFailing tests = none) (hlen : cmds.length ≤ 1000) (hlen' : cmds'.length ≤ 1000) (hr : s.ready) :
    Transmits i s s (fun _ => s) (cmdTokens s.params cmds ++ cmdTokens s.params cmds') := by
  rw [sendCmd_code, sendCmd_code, ← codeOf_append] at hexec
  have hcost : 2 * costOf ([cmdItem s.params cmds] ++ [cmdItem s.params cmds']) ≤ sliceTicks := by
    simp only [costOf, cmdItem, List.cons_append, List.nil_append, List.map_cons, List.map_nil, List.sum_cons,
      List.sum_nil, Item.cost, List.length_map, sliceTicks]
    omega
  have h := transmits_of_frames hexec htests (by simp [cmdItem]) (by simp [cmdItem_plain]) hcost hr
  have hfirst : applyAll [cmdItem s.params cmds] s = s := rfl
  rwa [tokensOf_append, hfirst, cmdItem_tokens, cmdItem_tokens] at h

/-- Settles O36: the operation is two command frames, and its rows fit in a byte. -/
theorem scrollvOutcome : Obligations.ScrollvOutcome := by
  intro a b c d e s hr fits m
  have htests : firstFailing (scrollTests a b c d ++ [atMost e 7]) =
      if fits then none else some .operandRange := by
    rw [firstFailing_scrollTests, firstFailing_atMost, ← ite_and]
    simp only [fits, and_assoc]
    rfl
  refine ⟨fun h => exec_refused rfl (htests.trans (if_neg h)) hr, fun h => ?_⟩
  have ⟨_, _, _, _, he⟩ := h
  have hrows : (BitVec.ofNat 8 (frozenRows e)).toNat = 8 * (e.toNat + 1) := by
    rw [BitVec.toNat_ofNat, frozenRows]
    omega
  have hrest : (BitVec.ofNat 8 (64 - frozenRows e)).toNat = 64 - 8 * (e.toNat + 1) := by
    rw [BitVec.toNat_ofNat, frozenRows]
    omega
  exact ⟨_, _, hrows, by omega,
    transmits_of_twoCmds (i := .scrollv a b c d e) rfl (htests.trans (if_pos h)) (by simp) (by simp) hr⟩

/-! ### D_INIT (R305) -/

theorem byteCount_cmdTokens (q : Params) (cmds : List Byte) : byteCount (cmdTokens q cmds) = cmds.length + 2 :=
  byteCount_frame q q.ctrlCmd cmds

theorem applyAll_cons (x : Item) (xs : List Item) (s : State) : applyAll (x :: xs) s = applyAll xs (x.apply s) := rfl

theorem Item.apply_fbZero (s : State) : Item.fbZero.apply s = s.fbClear := by
  simp only [Item.apply]

theorem tokens_cmdItem (s : State) (cmds : List Byte) :
    (cmdItem s.params cmds).tokens s = cmdTokens s.params cmds := by
  rw [← cmdItem_tokens, tokensOf, tokensOf, List.append_nil]

/-- A command frame leaves `FB` alone, so the pieces after it put the same on the wire. -/
theorem tokensOf_cmdItem_cons (s : State) (cmds : List Byte) (ys : List Item) :
    tokensOf (cmdItem s.params cmds :: ys) s = cmdTokens s.params cmds ++ tokensOf ys s := by
  rw [tokensOf, tokens_cmdItem]
  rfl

theorem tokensOf_fbZero_cons (ys : List Item) (s : State) : tokensOf (.fbZero :: ys) s = tokensOf ys s.fbClear := by
  rw [tokensOf, Item.apply_fbZero]
  rfl

/-- What has run of a command frame, a clear of `FB` and further frames when byte `k` goes out: the clear comes before it
exactly where it is no byte of the command frame. -/
theorem madeUntil_clearAfterCmd {cmds : List Byte} {ys : List Item} (hframes : ∀ y ∈ ys, ∃ c l, y = .frame c l)
    (s : State) (k : Nat) :
    madeUntil (cmdItem s.params cmds :: .fbZero :: ys) s k = if k < cmds.length + 2 then s else s.fbClear := by
  rw [madeUntil, tokens_cmdItem, byteCount_cmdTokens, madeUntil, Item.apply_fbZero, madeUntil_frames hframes]
  rfl

/-- An operation that sends a command frame, clears `FB` and sends further frames, whose bytes are read after the
clear (R305). -/
theorem transmits_of_cmdClearFrames {i : Instr} {tests : List (Bool × RefuseReason)} {cmds : List Byte} {s : State}
    {ys : List Item} (hexec : exec i s = command i tests (sendCmd s.params cmds ++ .fbZero :: codeOf s.params ys) s)
    (htests : firstFailing tests = none) (hcmds : cmds.length ≤ 1000)
    (hframes : ∀ y ∈ ys, ∃ c l, y = .frame c l) (hplain : ∀ y ∈ ys, y.plain) (hcost : costOf ys ≤ 1000000)
    (hr : s.ready) :
    Transmits i s s.fbClear (fun k => if k < cmds.length + 2 then s else s.fbClear)
      (cmdTokens s.params cmds ++ tokensOf ys s.fbClear) := by
  have hcode : sendCmd s.params cmds ++ .fbZero :: codeOf s.params ys =
      codeOf s.params (cmdItem s.params cmds :: .fbZero :: ys) := by
    rw [sendCmd_code]
    exact (codeOf_append s.params [cmdItem s.params cmds] (.fbZero :: ys)).symm
  rw [hcode] at hexec
  have hallPlain : ∀ y ∈ cmdItem s.params cmds :: .fbZero :: ys, y.plain :=
    List.forall_mem_cons.2 ⟨cmdItem_plain _ _, List.forall_mem_cons.2 ⟨trivial, hplain⟩⟩
  have hallCost : 2 * costOf (cmdItem s.params cmds :: .fbZero :: ys) ≤ sliceTicks := by
    simp only [costOf, cmdItem, List.map_cons, List.sum_cons, Item.cost, List.length_map, sliceTicks] at hcost ⊢
    omega
  have h := transmits_of_items hexec htests hallPlain hallCost hr
    fun k _ => by rw [madeUntil_clearAfterCmd hframes]
  have happly : applyAll (cmdItem s.params cmds :: .fbZero :: ys) s = s.fbClear := by
    rw [applyAll_cons, applyAll_cons, applyAll_frames hframes, Item.apply_fbZero]
    rfl
  rwa [happly, tokensOf_cmdItem_cons, tokensOf_fbZero_cons] at h

/-- The full push as pieces (R279). -/
def fullPushItems (q : Params) : List Item := cursorItem q 0 0 :: dataItems q ((List.range 1024).map .fb)

theorem fullPush_code (q : Params) : fullPush q = codeOf q (fullPushItems q) := by
  rw [fullPush, cursorFrame_code, sendData_code, ← codeOf_append]
  rfl

theorem fullPushItems_frames (q : Params) : ∀ y ∈ fullPushItems q, ∃ c l, y = .frame c l :=
  List.forall_mem_cons.2 ⟨⟨_, _, rfl⟩, dataItems_frames _ _⟩

theorem fullPushItems_plain (q : Params) : ∀ y ∈ fullPushItems q, y.plain :=
  List.forall_mem_cons.2 ⟨cmdItem_plain _ _, dataItems_plain _ (by simp)⟩

theorem fullPushItems_cost (q : Params) : costOf (fullPushItems q) ≤ 20000 := by
  have hdata := dataItems_cost q ((List.range 1024).map .fb)
  rw [List.length_map, List.length_range] at hdata
  have hcursor : (cursorItem q 0 0).cost = 39 := rfl
  have hsum : costOf (fullPushItems q) = (cursorItem q 0 0).cost + costOf (dataItems q ((List.range 1024).map .fb)) :=
    rfl
  omega

theorem fullPushItems_tokens (s : State) :
    tokensOf (fullPushItems s.params) s =
      cursorTokens s.params 0 0 ++ dataTokens s.params ((List.range 1024).map s.fbByte) := by
  rw [fullPushItems, cursorItem, tokensOf_cmdItem_cons, dataItems_tokens, List.map_map]
  rfl

/-- D_INIT as a transmission; the bytes of `FB` it pushes are zero, the clear being before the push. -/
theorem transmits_dInit {s : State} (hr : s.ready) :
    Transmits .dInit s s.fbClear (fun k => if k < 28 then s else s.fbClear)
      (cmdTokens s.params (initCommands s.params.cmds) ++ cursorTokens s.params 0 0 ++
        dataTokens s.params (List.replicate 1024 0)) := by
  have hexec : exec .dInit s = command .dInit []
      (sendCmd s.params (initCommands s.params.cmds) ++ .fbZero :: codeOf s.params (fullPushItems s.params)) s := by
    rw [← fullPush_code]
    rfl
  have hzeros : (List.range 1024).map s.fbClear.fbByte = List.replicate 1024 0 :=
    List.eq_replicate_iff.2 ⟨by simp, List.forall_mem_map.2 fun k hk => State.fbByte_fbClear s (List.mem_range.1 hk)⟩
  have htokens := fullPushItems_tokens s.fbClear
  rw [State.fbClear_params, hzeros] at htokens
  have h := transmits_of_cmdClearFrames hexec rfl (by simp [initCommands]) (fullPushItems_frames _)
    (fullPushItems_plain _) ((fullPushItems_cost _).trans (by decide)) hr
  rwa [htokens, ← List.append_assoc] at h

/-- The panel that has seen some frames set the full ranges, the origin and the horizontal mode, and then 1024 bytes,
holds them (R384). -/
theorem completes_originPush {i : Instr} {s after : State} {u : List Token} {f : Nat → Byte} {p : Panel}
    (h : Completes i s after (Token.start :: u ++ dataTokens s.params ((List.range 1024).map f)))
    (hpanel : s.peer.isPanel = true) (hcalm : s.panel.Calm) (hctrl : s.params.ctrlCmd ≠ s.params.ctrlData)
    (hu : seeAll s.params (.start :: u) s.panel = p) (hrx : p.rx = .off) (hmode : p.amode = 0)
    (hcursor : p.cs = 0 ∧ p.ce = 127 ∧ p.ps = 0 ∧ p.pe = 7 ∧ p.pcol = 0 ∧ p.ppage = 0) :
    ∃ t, exec i s = .next t ∧ t.fb = after.fb ∧ t.panel.amode = 0 ∧ ∀ k, k < 1024 → t.panel.gdByte k = f k := by
  have ⟨hcs, hce, hps, hpe, hcol, hpage⟩ := hcursor
  have hlast : (List.range 1024).map f = (List.range 1023).map f ++ [f 1023] := by
    rw [List.range_succ, List.map_append]
    rfl
  have hstreams : p.Streams := by constructor <;> omega
  rw [hlast] at h
  obtain ⟨t, ht, -, hsent, hp⟩ := completes_stream h hpanel hcalm hctrl hu hrx hstreams
  obtain ⟨g, hstored, hg⟩ := foldl_store_origin f hcursor 1024 le_rfl
  rw [← hlast, hstored] at hp
  have hgd : t.panel.gd = g := congrArg Panel.gd hp
  have hamode : t.panel.amode = p.amode := (congrArg Panel.amode hp :)
  refine ⟨t, ht, (congrArg State.fb hsent :), hamode.trans hmode, fun k hk => ?_⟩
  rw [Panel.gdByte, hgd, hg, if_pos hk]
  rfl

/-- Settles O40: the panel sees the mode in the command frame, then the cursor at the origin, then the zeros. -/
theorem dInitOutcome : Obligations.DInitOutcome := by
  intro s hr
  have hdInit := transmits_dInit hr
  refine ⟨⟨s.fbClear, fun k hk => State.fbByte_fbClear s hk, by simp only [State.fbClear], hdInit⟩,
    fun hready ⟨hpanel, hcmds, hctrl, _, hcalm⟩ => ?_⟩
  obtain ⟨l, hinit⟩ := seeAll_init (q := s.params) hcmds (p := s.panel) hcalm
  have hcursor := seeAll_cursor (q := s.params) hcmds
    (p := { s.panel with rx := .off, amode := 0, told := l }) (Panel.calm_off rfl) (Nat.zero_le 127) (Nat.zero_le 7)
  have hframes := (seeAll_append s.params _ _ s.panel).trans ((congrArg (seeAll s.params _) hinit).trans hcursor)
  have hdone := hdInit.1 hready
  have hrange : (List.range 1024).map (fun _ => (0 : Byte)) = List.replicate 1024 0 := by
    rw [List.map_const', List.length_range]
  rw [← hrange] at hdone
  obtain ⟨t, ht, hfb, hmode, hgd⟩ :=
    completes_originPush hdone hpanel hcalm hctrl hframes rfl rfl ⟨rfl, rfl, rfl, rfl, rfl, rfl⟩
  exact ⟨t, ht, hmode, fun k hk => ⟨(State.fbByte_congr hfb k).trans (State.fbByte_fbClear s hk), hgd k hk⟩⟩

end Sys2Proof.Machine

namespace Sys2Proof.Machine

/-! ### The pixels of the shadow framebuffer (20_memory.md R90) -/

/-- Pixels of two bytes of `FB` lie in different columns or pages. -/
theorem fbIndex_inj {x x' g g' : Nat} (hx : x ≤ 127) (hx' : x' ≤ 127) :
    fbIndex x g = fbIndex x' g' ↔ x = x' ∧ g = g' := by
  simp only [fbIndex]
  omega

/-- The mask of row `y` holds the bit of row `y'` of the page exactly if they are one. -/
theorem rowMask_getLsbD (y y' : Nat) : (1#8 <<< (y % 8)).getLsbD (y' % 8) = decide (y % 8 = y' % 8) := by
  rw [← BitVec.twoPow_eq, BitVec.getLsbD_twoPow, decide_eq_true (Nat.mod_lt y (by decide)), Bool.true_and]

/-- A write of the byte that holds the pixel `(x', y')` decides the pixels of its column and page, and no other. -/
theorem State.pixel_fbWrite (s : State) {x x' : Nat} (y y' : Nat) (v : Byte) (hx : x ≤ 127) (hx' : x' ≤ 127) :
    (s.fbWrite (fbIndex x' (y' / 8)) v).pixel x y =
      if x = x' ∧ y / 8 = y' / 8 then v.getLsbD (y % 8) else s.pixel x y := by
  rw [State.pixel, State.fbByte_fbWrite, apply_ite (BitVec.getLsbD · _)]
  exact if_congr (fbIndex_inj hx hx') rfl rfl

/-- Two rows are one exactly if page and row of the page agree. -/
theorem row_eq_iff (y y' : Nat) : y = y' ↔ y / 8 = y' / 8 ∧ y' % 8 = y % 8 := by
  omega

/-- Setting the bit of a pixel in its byte sets that pixel and no other (R342). -/
theorem State.pixel_setBit (s : State) {x x' : Nat} (y y' : Nat) (hx : x ≤ 127) (hx' : x' ≤ 127) :
    (s.fbWrite (fbIndex x' (y' / 8)) (s.fbByte (fbIndex x' (y' / 8)) ||| 1#8 <<< (y' % 8))).pixel x y =
      if x = x' ∧ y = y' then true else s.pixel x y := by
  rw [State.pixel_fbWrite s y y' _ hx hx', BitVec.getLsbD_or, rowMask_getLsbD]
  by_cases hbyte : x = x' ∧ y / 8 = y' / 8
  · obtain ⟨rfl, hpage⟩ := hbyte
    by_cases hrow : y' % 8 = y % 8 <;> simp [row_eq_iff, hpage, hrow, State.pixel]
  · rw [if_neg hbyte, if_neg (by rintro ⟨rfl, rfl⟩; exact hbyte ⟨rfl, rfl⟩)]

/-- Clearing the bit of a pixel in its byte clears that pixel and no other (R343). -/
theorem State.pixel_clearBit (s : State) {x x' : Nat} (y y' : Nat) (hx : x ≤ 127) (hx' : x' ≤ 127) :
    (s.fbWrite (fbIndex x' (y' / 8)) (s.fbByte (fbIndex x' (y' / 8)) &&& ~~~(1#8 <<< (y' % 8)))).pixel x y =
      if x = x' ∧ y = y' then false else s.pixel x y := by
  rw [State.pixel_fbWrite s y y' _ hx hx', BitVec.getLsbD_and, BitVec.getLsbD_not, rowMask_getLsbD]
  by_cases hbyte : x = x' ∧ y / 8 = y' / 8
  · obtain ⟨rfl, hpage⟩ := hbyte
    by_cases hrow : y' % 8 = y % 8 <;> simp [row_eq_iff, hpage, hrow, State.pixel, Nat.mod_lt]
  · rw [if_neg hbyte, if_neg (by rintro ⟨rfl, rfl⟩; exact hbyte ⟨rfl, rfl⟩)]

/-! ### One pixel (45_raster.md R342, R343) -/

theorem onDisplay_coord (a b : Byte) : onDisplay (coord a, coord b) = decide (a.toNat ≤ 127 ∧ b.toNat ≤ 63) := by
  simp only [onDisplay, coord]
  exact decide_eq_decide.2 (by omega)

/-- A pixel off the display is skipped: nothing is left to run (R341). -/
theorem exec_plot_off {i : Instr} {v : Bool} {a b : Byte} {s : State}
    (hexec : exec i s = command i [] (plot s.params v (coord a, coord b)) s)
    (hoff : 127 < a.toNat ∨ 63 < b.toNat) (hr : s.ready) : exec i s = .next (s.load (encode i) []) := by
  have hskip : plot s.params v (coord a, coord b) = [] := by
    rw [plot, onDisplay_coord, decide_eq_false (by omega)]
    rfl
  rw [hskip] at hexec
  exact exec_eq_of_reaches (n := 0) hr (.here rfl) hexec rfl (State.tick_empty rfl) (Nat.zero_le _)

/-- A pixel on the display is an update of its byte, its cursor frame and the push of the byte (R344). -/
theorem plot_on (q : Params) (v : Bool) {a b : Byte} (ha : a.toNat ≤ 127) (hb : b.toNat ≤ 63) :
    plot q v (coord a, coord b) =
      (if v then .fbOr (fbIndex a.toNat (b.toNat / 8)) (1#8 <<< (b.toNat % 8))
        else .fbClr (fbIndex a.toNat (b.toNat / 8)) (1#8 <<< (b.toNat % 8))) ::
        (cursorFrame q a.toNat (b.toNat / 8) ++ sendData q [.fb (fbIndex a.toNat (b.toNat / 8))]) := by
  rw [plot, onDisplay_coord, decide_eq_true ⟨ha, hb⟩]
  rfl

/-- An operation that updates one byte of `FB` to `v` and pushes it (R344). -/
theorem transmits_of_bytePush {i : Instr} {s : State} {x : Item} {m : Micro} {k c p : Nat} {v : Byte}
    (hexec : exec i s = command i [] (m :: (cursorFrame s.params c p ++ sendData s.params [.fb k])) s)
    (hcode : x.code s.params = [m]) (hupdate : ∀ c l, x ≠ .frame c l) (happly : x.apply s = s.fbWrite k v)
    (hr : s.ready) :
    Transmits i s (s.fbWrite k v) (fun _ => s.fbWrite k v)
      (cursorTokens s.params c p ++ dataTokens s.params [v]) := by
  have hone : codeOf s.params [x] = [m] := by
    rw [codeOf, List.flatMap_singleton, hcode]
  have h := transmits_of_push (s := s) (srcs := [.fb k]) hupdate (hexec.trans (by rw [hone]; rfl)) rfl (by simp)
    (by simp) hr
  have hread : (s.fbWrite k v).fbByte k = v := by
    rw [State.fbByte_fbWrite, if_pos rfl]
  simpa only [happly, List.map_cons, List.map_nil, Src.value, hread] using h

/-- Settles O41: off the display no micro-operation is left; on it the pushed byte is the one just updated. -/
theorem pixelOutcomes : Obligations.PixelOutcomes := by
  intro a b s hr i bit
  refine ⟨fun hoff => ⟨exec_plot_off (v := true) rfl hoff hr, exec_plot_off (v := false) rfl hoff hr⟩,
    fun ha hb => ?_⟩
  refine ⟨?_, ?_, fun x y hx _ => ⟨s.pixel_setBit y b.toNat hx ha, s.pixel_clearBit y b.toNat hx ha⟩⟩
  · exact transmits_of_bytePush (i := .drawpixel a b) (x := .fbOr i bit)
      (congrArg (command _ [] · s) (plot_on s.params true ha hb)) rfl nofun rfl hr
  · exact transmits_of_bytePush (i := .clearpixel a b) (x := .fbClr i bit)
      (congrArg (command _ [] · s) (plot_on s.params false ha hb)) rfl nofun rfl hr

/-! ### Plotted points (45_raster.md R341, R344) -/

/-- Plotting a point sets that pixel, if it is one, and no other. -/
theorem State.pixel_plotted (s : State) (p : Point) {x y : Nat} (hx : x ≤ 127) (hy : y ≤ 63) :
    (s.plotted p).pixel x y = true ↔ s.pixel x y = true ∨ ((x : Int), (y : Int)) = p := by
  obtain ⟨px, py⟩ := p
  rw [State.plotted, Prod.mk.injEq]
  by_cases hon : onDisplay (px, py) = true
  · rw [if_pos hon]
    simp only [onDisplay, decide_eq_true_eq] at hon
    rw [pixelIndex, pixelMask, s.pixel_setBit y py.toNat hx (by omega), Bool.if_true_left, Bool.or_eq_true,
      decide_eq_true_eq, or_comm]
    exact or_congr_right (by omega)
  · rw [if_neg hon]
    simp only [onDisplay, decide_eq_true_eq] at hon
    exact (or_iff_left (by omega)).symm

/-- After points are plotted a pixel is set exactly if it was or is one of them. -/
theorem State.pixel_plottedAll (ps : List Point) (s : State) {x y : Nat} (hx : x ≤ 127) (hy : y ≤ 63) :
    (s.plottedAll ps).pixel x y = true ↔ s.pixel x y = true ∨ ((x : Int), (y : Int)) ∈ ps := by
  induction ps generalizing s with
  | nil => simp [State.plottedAll]
  | cons p ps ih =>
    exact (ih (s.plotted p)).trans (by rw [s.pixel_plotted p hx hy, List.mem_cons, or_assoc])

/-! ### DRAWLINE (45_raster.md R346) -/

theorem walkX_length_le (sx sy dx2 dy2 x2 : Int) (fuel : Nat) (px py err : Int) :
    (walkX sx sy dx2 dy2 x2 fuel px py err).length ≤ fuel := by
  induction fuel generalizing px py err with
  | zero => exact le_rfl
  | succ fuel ih =>
    rw [walkX]
    split
    · exact Nat.zero_le _
    · exact Nat.succ_le_succ (ih ..)

theorem walkY_length_le (sx sy dx2 dy2 y2 : Int) (fuel : Nat) (px py err : Int) :
    (walkY sx sy dx2 dy2 y2 fuel px py err).length ≤ fuel := by
  induction fuel generalizing px py err with
  | zero => exact le_rfl
  | succ fuel ih =>
    rw [walkY]
    split
    · exact Nat.zero_le _
    · exact Nat.succ_le_succ (ih ..)

theorem linePoints_length_le (x1 y1 x2 y2 : Int) :
    (linePoints x1 y1 x2 y2).length ≤ max (x2 - x1).natAbs (y2 - y1).natAbs + 1 := by
  rw [linePoints, List.length_cons]
  split
  · exact Nat.succ_le_succ ((walkX_length_le ..).trans (le_max_left _ _))
  · exact Nat.succ_le_succ ((walkY_length_le ..).trans (le_max_right _ _))

/-- Settles O42: the operation plots the points of its walk, at most 256 of them. -/
theorem drawlineOutcome : Obligations.DrawlineOutcome := by
  intro a b c d s hr ps
  exact ⟨transmits_of_points (i := .drawline a b c d) (tests := []) rfl rfl
      ((linePoints_length_le ..).trans (by omega)) hr,
    fun x y hx hy => s.pixel_plottedAll ps hx hy⟩

/-! ### DRAWVLINE and DRAWHLINE (45_raster.md R350, R351) -/

theorem walkAxis_eq (t : Int) (k : Nat) (a : Int) :
    walkAxis t k a = (List.range k).map fun (j : Nat) => a + t * (j + 1) := by
  induction k generalizing a with
  | zero => rfl
  | succ k ih =>
    rw [walkAxis, ih, List.range_succ_eq_map, List.map_cons, List.map_map]
    refine congrArg₂ List.cons (by simp) (List.map_congr_left fun j _ => ?_)
    simp only [Function.comp_apply, Nat.cast_succ]
    ring

/-- The steps along an axis as a range: forward, or backward where the second end comes first. -/
theorem axis_eq (u v : Nat) :
    axis u v = (List.range (max u v - min u v + 1)).map fun (k : Nat) =>
      if u ≤ v then (u : Int) + k else (u : Int) - k := by
  have hcount : ((v : Int) - u).natAbs = max u v - min u v := by omega
  rw [axis, walkAxis_eq, hcount, List.range_succ_eq_map, List.map_cons, List.map_map]
  refine congrArg₂ List.cons (by simp) (List.map_congr_left fun j _ => ?_)
  simp only [Function.comp_apply, stepSign, Nat.cast_succ, Nat.cast_lt]
  split_ifs <;> omega

theorem axis_length_le (u v : Byte) : (axis u.toNat v.toNat).length ≤ 1000000 := by
  rw [axis_eq, List.length_map, List.length_range]
  omega

/-- Settles O45: the walk along an axis is the span of its ends. -/
theorem axisLineOutcomes : Obligations.AxisLineOutcomes := by
  intro a b c s hr span vs hs
  have hspan : ∀ u v : Byte, span u v = axis u.toNat v.toNat := fun u v => (axis_eq u.toNat v.toNat).symm
  have hvs : vs = vlinePoints a.toNat b.toNat c.toNat := by
    simp only [vs, hspan]
    rfl
  have hhs : hs = hlinePoints a.toNat b.toNat c.toNat := by
    simp only [hs, hspan]
    rfl
  rw [hvs, hhs]
  exact ⟨transmits_of_points (i := .drawvline a b c) (tests := []) rfl rfl
      ((List.length_map _).trans_le (axis_length_le b c)) hr,
    transmits_of_points (i := .drawhline a b c) (tests := []) rfl rfl
      ((List.length_map _).trans_le (axis_length_le a b)) hr⟩

/-! ### DRAWCIRCLE (45_raster.md R354) -/

theorem walkCircle_length_le (cx cy : Int) (fuel : Nat) (cf cddx cddy xo yo : Int) :
    (walkCircle cx cy fuel cf cddx cddy xo yo).length ≤ 8 * fuel := by
  induction fuel generalizing cf cddx cddy xo yo with
  | zero => exact le_rfl
  | succ fuel ih =>
    rw [walkCircle]
    split
    · rw [List.length_append]
      exact (Nat.add_le_add_left (ih ..) 8).trans (by omega)
    · exact Nat.zero_le _

theorem circlePoints_length_le (cx cy r : Int) : (circlePoints cx cy r).length ≤ 8 * r.toNat + 4 := by
  rw [circlePoints, List.length_append]
  exact Nat.add_le_add_right (walkCircle_length_le ..) 4

/-- The walk ends by its own test: each pass closes the gap of the offsets, so as many passes as the gap is wide are
enough. -/
theorem walkCircle_add_fuel (cx cy : Int) (k fuel : Nat) (cf cddx cddy xo yo : Int) (hgap : yo - xo ≤ fuel) :
    walkCircle cx cy (fuel + k) cf cddx cddy xo yo = walkCircle cx cy fuel cf cddx cddy xo yo := by
  induction fuel generalizing cf cddx cddy xo yo with
  | zero =>
    cases k with
    | zero => rfl
    | succ k => rw [Nat.zero_add, walkCircle, walkCircle, if_neg (by omega)]
  | succ fuel ih =>
    rw [Nat.add_right_comm, walkCircle, walkCircle]
    refine if_congr Iff.rfl (congrArg (octants cx cy _ _ ++ ·) (ih _ _ _ _ _ ?_)) rfl
    split_ifs <;> omega

/-- Settles O46: the operation plots the points of its walk and the four extrema, and the gap of the offsets is the
radius at first. -/
theorem drawcircleOutcome : Obligations.DrawcircleOutcome := by
  intro a b c s hr ps
  refine ⟨transmits_of_points (i := .drawcircle a b c) (tests := []) rfl rfl
      ((circlePoints_length_le ..).trans (by omega)) hr,
    fun x y hx hy => s.pixel_plottedAll ps hx hy, fun k => ?_⟩
  rw [walkCircle_add_fuel _ _ _ _ _ _ _ _ _ (by omega)]
  rfl

/-! ### DRAWCHAR (45_raster.md R365) -/

/-- At the sentinel the text is over. -/
theorem Micro.run_text_sentinel {q : Nat} {s : State} (rest : List Micro) (hq : q < 65536) (h : s.bufByte q = 0) :
    Micro.run (.text q) rest s = s.goto rest := by
  have hin : ¬0xFFFF < q := by omega
  simp [Micro.run, hin, h]

/-- A code that is neither the sentinel nor a character of the font is a fault. -/
theorem Micro.run_text_badCode {q : Nat} {s : State} (rest : List Micro) (hq : q < 65536) (h : s.bufByte q ≠ 0)
    (hcode : (s.bufByte q).toNat < 0x20 ∨ 0x7E < (s.bufByte q).toNat) :
    Micro.run (.text q) rest s = s.fault .charRange := by
  have hin : ¬0xFFFF < q := by omega
  have hne : (s.bufByte q).toNat ≠ 0 := fun h0 => h (BitVec.eq_of_toNat_eq h0)
  simp only [Micro.run, if_neg hin, if_neg hne, if_pos hcode]

/-- A text that runs past the end of BUF is a fault. -/
theorem Micro.run_text_past {q : Nat} (s : State) (rest : List Micro) (hq : 65536 ≤ q) :
    Micro.run (.text q) rest s = s.fault .bufferRange := by
  rw [Micro.run, if_pos (by omega)]

/-- A faulted operation makes no move (R401). -/
theorem State.tick_faulted {s : State} (h : s.faulted.isSome = true) : s.tick = none := by
  simp [State.tick, h]

/-- DRAWCHAR where the characters of its text have been sent: it is at the byte behind them. -/
structure TextSent (s : State) (q : Nat) (w : List Token) (u : State) : Prop where
  same : s.sentBy u = u
  ready : u.displayReady
  faulted : u.faulted = none
  busy : u.busy = true
  upc : u.upc = [.text q]
  wire : u.settledWire = s.settledWire ++ w

namespace TextSent

variable {s u : State} {q : Nat} {w : List Token}

theorem fb (h : TextSent s q w u) : u.fb = s.fb := by rw [← h.same]; rfl
theorem buf (h : TextSent s q w u) : u.buf = s.buf := by rw [← h.same]; rfl
theorem bufByte (h : TextSent s q w u) (k : Nat) : u.bufByte k = s.bufByte k := State.bufByte_congr h.buf k

end TextSent

/-- DRAWCHAR sends the characters of a text, then looks at the byte behind it, on every schedule; its outcome is what
that comes to. -/
theorem exec_drawchar_of_text {p : Half} {cs : List Byte} {s : State} {Q : State → Prop} (hr : s.ready)
    (hready : s.displayReady) (hlen : p.toNat + cs.length ≤ 65536)
    (hprint : ∀ c ∈ cs, 0x20 ≤ c.toNat ∧ c.toNat ≤ 0x7E)
    (htext : ∀ i c, cs[i]? = some c → s.bufByte (p.toNat + i) = c)
    (hend : ∀ u, TextSent s (p.toNat + cs.length) (cs.flatMap fun c => charTokens s.params c.toNat) u →
      Q (Micro.run (.text (p.toNat + cs.length)) [] u))
    (hstop : ∀ t, Q t → t.tick = none) : ∃ t, exec (.drawchar p) s = .next t ∧ Q t := by
  have hrun : Reaches Q (114 * cs.length + 2) (s.load (encode (.drawchar p)) [.text p.toNat]) := by
    refine reaches_chars cs p.toNat _ hready hr.2 rfl rfl hlen
      (fun i c hc => ⟨htext i c hc, hprint c (List.mem_of_getElem? hc)⟩)
      fun t hsame hdisplay hfault hbusy hupc hwire => ?_
    refine reaches_text hdisplay hfault hbusy hupc fun u hsends hfree hubusy huupc huwire => .here (hend u ?_)
    exact
      { same := by
          rw [← hsends.same, ← hsame]
          rfl
        ready := hsends.displayReady hdisplay hfree
        faulted := hsends.faulted.trans hfault
        busy := hubusy
        upc := huupc
        wire := huwire.trans hwire }
  exact exec_of_reaches (tests := []) hr hrun rfl rfl hstop (by simp only [sliceTicks]; omega)

/-- Settles O48: the byte behind the text is the sentinel, a code that is no character, or past the end of BUF. -/
theorem drawcharOutcome : Obligations.DrawcharOutcome := by
  intro p cs s hr hready hlen hprint htext w next
  refine ⟨fun hin hnext => ?_, fun hin hnext hcode => ?_, fun hpast => ?_⟩
  · refine exec_drawchar_of_text hr hready hlen hprint htext (fun u hu => ?_) fun t ht => State.tick_empty ht.1.2.1
    rw [Micro.run_text_sentinel [] hin ((hu.bufByte _).trans hnext)]
    refine ⟨⟨rfl, rfl, hu.faulted⟩, hu.ready, ?_, hu.wire⟩
    rw [← hu.same]
    rfl
  · refine exec_drawchar_of_text hr hready hlen hprint htext (fun u hu => ?_)
      fun t ht => State.tick_faulted (by rw [ht.1]; rfl)
    have hbyte : u.bufByte (p.toNat + cs.length) = next := hu.bufByte _
    rw [Micro.run_text_badCode [] hin (by rwa [hbyte]) (by rwa [hbyte])]
    exact ⟨rfl, hu.busy, hu.upc, hu.wire, hu.fb, hu.buf⟩
  · refine exec_drawchar_of_text hr hready hlen hprint htext (fun u hu => ?_)
      fun t ht => State.tick_faulted (by rw [ht.1]; rfl)
    rw [Micro.run_text_past u [] hpast.ge]
    exact ⟨rfl, hu.busy, hu.wire, hu.fb, hu.buf⟩

/-! ### DRAWBITMAP (45_raster.md R367) -/

theorem firstFailing_fits (p : Half) (n : Nat) :
    firstFailing [fits p n] = if p.toNat + n ≤ 65536 then none else some .bufferRange := by
  rw [fits, firstFailing_decide, ite_not]
  rfl

/-- The 1024 bytes of the image at `p`, as sources. -/
def imageSources (p : Half) : List Src := (List.range 1024).map fun k => .buf (p.toNat + k)

theorem exec_drawbitmap (p : Half) (s : State) :
    exec (.drawbitmap p) s =
      command (.drawbitmap p) [fits p 1024] (cursorFrame s.params 0 0 ++ sendData s.params (imageSources p)) s := rfl

/-- Settles O49: the operation is the cursor frame and the run of the image's bytes, which the panel stores from the
origin on. -/
theorem drawbitmapOutcome : Obligations.DrawbitmapOutcome := by
  intro p s hr
  refine ⟨fun hp =>
    exec_refused (exec_drawbitmap p s) ((firstFailing_fits p 1024).trans (if_neg (by omega))) hr, fun hp => ?_⟩
  have hsend := transmits_of_cursorData (exec_drawbitmap p s)
    ((firstFailing_fits p 1024).trans (if_pos (by omega))) (by simp [imageSources]) (by simp [imageSources]) hr
  rw [imageSources, List.map_map] at hsend
  refine ⟨hsend, fun hready hwatched => ?_⟩
  obtain ⟨t, ht, -, hgd, -, -⟩ := completes_fullPush (hsend.1 hready) hwatched
  exact ⟨t, ht, hgd⟩

end Sys2Proof.Machine

namespace Sys2Proof.Machine

/-! ### A hang under a finite `WAIT_BUDGET` (60_exceptions.md R405) -/

/-- A hung operation makes one kind of move under a finite budget: it counts one more false evaluation, and the last of
them is the fault. -/
theorem State.hungAt.tick_budget {c : Cond} {n : Nat} {s : State} (h : s.hungAt c) (hw : s.params.waitBudget = some n) :
    s.tick = some (if n ≤ s.polls + 1 then s.polled.fault .waitTimeout else s.polled) := by
  obtain ⟨hbusy, hfault, hhead, hfalse, halone⟩ := h
  obtain ⟨rest, hupc⟩ := List.head?_eq_some_iff.1 hhead
  have hwaiting : s.waiting = true := by simp [State.waiting, hupc, hfalse]
  by_cases hlast : n ≤ s.polls + 1 <;> simp [State.tick, hbusy, hfault, hupc, hwaiting, hw, halone, hlast]

/-- Counting an evaluation helps nobody to a move. -/
theorem State.hungAt.polled {c : Cond} {s : State} (h : s.hungAt c) : s.polled.hungAt c := h

/-- `k` moves of a hung operation count up to the budget, or `k` evaluations where the budget is larger. -/
theorem State.hungAt.runFor_budget {c : Cond} {n : Nat} (k : Nat) {s : State} (h : s.hungAt c)
    (hw : s.params.waitBudget = some n) (hp : s.polls < n) :
    s.runFor k =
      if n - s.polls ≤ k then { s with polls := n, faulted := some .waitTimeout }
      else { s with polls := s.polls + k } := by
  induction k generalizing s with
  | zero => rw [if_neg (by omega)]; rfl
  | succ k ih =>
    rw [State.runFor, h.tick_budget hw]
    by_cases hlast : n ≤ s.polls + 1
    · have hcount : n = s.polls + 1 := by omega
      rw [if_pos hlast, if_pos (by omega), hcount]
      exact State.runFor_stuck (State.tick_faulted rfl) k
    · rw [if_neg hlast]
      refine (ih h.polled hw (by simp only [State.polled_polls]; omega)).trans ?_
      refine if_congr (by simp only [State.polled_polls]; omega) rfl ?_
      rw [State.polled_polls, Nat.add_assoc, Nat.add_comm 1 k]
      rfl

/-- A step of an operation in progress runs it (R401). -/
theorem step_eq_runOp {s : State} (hbusy : s.busy = true) (hfault : s.faulted = none) : step s = .next s.runOp := by
  simp [step, State.whileBusy, hbusy, hfault]

/-- Settles O58: the step is a run of at most `sliceTicks` moves; each counts one evaluation, and the fault ends it. -/
theorem waitBudgetExpires : Obligations.WaitBudgetExpires := by
  intro c n s h hw hp
  have hrun : s.runOp = _ := h.runFor_budget sliceTicks hw hp
  obtain ⟨hbusy, hfault, -⟩ := h
  exact (step_eq_runOp hbusy hfault).trans (congrArg Host.Outcome.next hrun)

end Sys2Proof.Machine

namespace Sys2Proof.Machine

/-! ### Operations issued while the interface is disabled (70_reset_and_hazards.md R437) -/

theorem Off.load {s : State} (h : Off s s) (w : Word) (code : List Micro) : Off s (s.load w code) :=
  ⟨h.pe, h.sb, h.faulted, h.budget, h.wire, h.buf, h.res⟩

theorem codeOf_ne_nil {q : Params} {x : Item} {xs : List Item} (hx : x ∈ xs) : codeOf q xs ≠ [] := fun h =>
  Item.code_ne_nil q x (List.flatMap_eq_nil_iff.1 h x hx)

theorem plotItems_length_le (q : Params) (v : Bool) (p : Point) : (plotItems q v p).length ≤ 3 := by
  have hdata : (dataItems q [.fb (pixelIndex p)]).length = 1 := by
    unfold dataItems
    split <;> rfl
  unfold plotItems
  split
  · simp [hdata]
  · exact Nat.zero_le _

/-- Points off the display leave no code (R341): what is run first is the plot of the first point on it. -/
theorem plot_prefix_plotAll (q : Params) {ps : List Point} (h : ∃ p ∈ ps, onDisplay p = true) :
    ∃ p, onDisplay p = true ∧ plot q true p <+: plotAll q ps := by
  induction ps with
  | nil =>
    obtain ⟨p, hp, -⟩ := h
    cases hp
  | cons p ps ih =>
    have hcode : plotAll q (p :: ps) = plot q true p ++ plotAll q ps := List.flatMap_cons
    by_cases hon : onDisplay p = true
    · exact ⟨p, hon, hcode ▸ List.prefix_append ..⟩
    · have hskip : plot q true p = [] := if_neg hon
      rw [hcode, hskip, List.nil_append]
      exact ih (by simpa [hon] using h)

section

variable {i : Instr} {tests : List (Bool × RefuseReason)} {code : List Micro} {s : State}

/-- What `held_of_items` says of an operation that is a list of pieces, for one that begins with them: what stands behind
the first frame does not matter, and neither does how much it is. -/
theorem held_of_pieces {xs : List Item} (hr : s.ready) (hoff : Off s s) (hexec : exec i s = command i tests code s)
    (htests : firstFailing tests = none) (hcode : codeOf s.params xs <+: code) (hx : ∃ c l, .frame c l ∈ xs)
    (hlen : xs.length ≤ sliceTicks) : ∃ t, exec i s = .next t ∧ Held s t := by
  obtain ⟨tail, rfl⟩ := hcode
  have hbusy : (s.load (encode i) (codeOf s.params xs ++ tail)).busy = true := by
    obtain ⟨c, l, hframe⟩ := hx
    simp [codeOf_ne_nil hframe]
  exact exec_of_reaches hr (reaches_held hx (hoff.load ..) hbusy (State.load_upc ..)) hexec htests
    (fun _ h => h.hung.tick h.budget) hlen

/-- An operation that begins with a command frame (R264). -/
theorem held_of_cmd {cmds : List Byte} (hr : s.ready) (hoff : Off s s) (hexec : exec i s = command i tests code s)
    (htests : firstFailing tests = none) (hcode : sendCmd s.params cmds <+: code) :
    ∃ t, exec i s = .next t ∧ Held s t := by
  rw [sendCmd_code] at hcode
  exact held_of_pieces hr hoff hexec htests hcode ⟨_, _, List.mem_singleton_self _⟩ (by simp [sliceTicks])

/-- An operation that begins with the plot of a point on the display (R344). -/
theorem held_of_plot {v : Bool} {p : Point} (hr : s.ready) (hoff : Off s s)
    (hexec : exec i s = command i [] code s) (hon : onDisplay p = true) (hcode : plot s.params v p <+: code) :
    ∃ t, exec i s = .next t ∧ Held s t := by
  rw [plot_code] at hcode
  exact held_of_pieces hr hoff hexec rfl hcode (plotItems_frame _ _ hon)
    ((plotItems_length_le ..).trans (by decide))

/-- An operation that plots points, one of them on the display (R346 to R354). -/
theorem held_of_points {ps : List Point} (hr : s.ready) (hoff : Off s s)
    (hexec : exec i s = command i [] (plotAll s.params ps) s)
    (hshows : ∃ x ∈ ps, 0 ≤ x.1 ∧ x.1 ≤ 127 ∧ 0 ≤ x.2 ∧ x.2 ≤ 63) : ∃ t, exec i s = .next t ∧ Held s t := by
  obtain ⟨p, hon, hcode⟩ := plot_prefix_plotAll s.params (by simpa only [onDisplay, decide_eq_true_eq] using hshows)
  exact held_of_plot hr hoff hexec hon hcode

end

/-- REQ begins with `wait(SB)` (R214). -/
theorem held_req (a : Byte) {s : State} (hr : s.ready) (hoff : Off s s) :
    ∃ t, exec (.req a) s = .next t ∧ Held s t := by
  obtain ⟨-, -, hang⟩ := reqOutcome a s hr hoff.budget
  obtain ⟨t, ht, hhung, rfl⟩ := hang hoff.sb (State.others_off hoff.pe)
  exact ⟨_, ht, hhung, hoff.budget, rfl, rfl, rfl⟩

/-- DRAWCHAR of a printable code begins with the frames of its glyph (R365). -/
theorem held_drawchar {p : Half} {s : State} (hr : s.ready) (hoff : Off s s)
    (hc : 0x20 ≤ (s.bufByte p.toNat).toNat ∧ (s.bufByte p.toNat).toNat ≤ 0x7E) :
    ∃ t, exec (.drawchar p) s = .next t ∧ Held s t :=
  exec_of_reaches (tests := []) hr (reaches_heldText (hoff.load ..) rfl p.isLt hc rfl) rfl rfl
    (fun _ h => h.hung.tick h.budget) (by decide)

/-- RAMUPDATEBYTE begins with the merge and the cursor frame (R277). -/
theorem held_ramupdatebyte {a b : Byte} (c : Byte) {s : State} (hr : s.ready) (hoff : Off s s)
    (ha : a.toNat ≤ 127) (hb : b.toNat ≤ 7) : ∃ t, exec (.ramupdatebyte a b c) s = .next t ∧ Held s t := by
  refine held_of_pieces (xs := [.fbOr (fbIndex a.toNat b.toNat) c, cursorItem s.params a.toNat b.toNat]) hr hoff rfl
    (firstFailing_cursorTests_on ha hb) ?_ ⟨_, _, List.mem_cons_of_mem _ (List.mem_singleton_self _)⟩
    (by simp [sliceTicks])
  rw [codeOf, List.flatMap_cons, ← codeOf, ← cursorFrame_code]
  exact (List.prefix_cons_inj _).2 (List.prefix_append ..)

/-- Settles O55: REQ stands at `wait(SB)` at once; each of the others comes, after at most a write of `FB`, to a frame,
whose `wait(SB)` nobody can end. -/
theorem disabledHangs : Obligations.DisabledHangs := by
  intro s i hr hw hpe hsb hwf shows hsends
  have hoff : Off s s := ⟨hpe, hsb, hr.2, hw, rfl, rfl, rfl⟩
  have pixel : ∀ {a b : Byte}, shows [((a.toNat : Int), (b.toNat : Int))] → onDisplay (coord a, coord b) = true := by
    simp [shows, onDisplay, coord]
  obtain ⟨t, ht, h⟩ : ∃ t, exec i s = .next t ∧ Held s t := by
    cases i with
    | bcInit | start | stop | wrb | wrburst | rdb | rdburst | ramwrite | ramclear => cases hsends
    | req a => exact held_req a hr hoff
    | drawpixel a b => exact held_of_plot hr hoff rfl (pixel hsends) List.prefix_rfl
    | clearpixel a b => exact held_of_plot hr hoff rfl (pixel hsends) List.prefix_rfl
    | drawline a b c d => exact held_of_points hr hoff rfl hsends
    | drawvline a b c => exact held_of_points hr hoff rfl hsends
    | drawhline a b c => exact held_of_points hr hoff rfl hsends
    | drawcircle a b c => exact held_of_points hr hoff rfl hsends
    | drawchar p => exact held_drawchar hr hoff hsends
    | ramupdatebyte a b c =>
      obtain ⟨ha, hb⟩ := of_decide_eq_true hwf
      exact held_ramupdatebyte c hr hoff ha hb
    | movecur a b =>
      obtain ⟨ha, hb⟩ := of_decide_eq_true hwf
      exact held_of_cmd hr hoff rfl (firstFailing_cursorTests_on ha hb) List.prefix_rfl
    | drawbitmap p =>
      have hp : p.toNat ≤ 64512 := of_decide_eq_true hwf
      exact held_of_cmd hr hoff (exec_drawbitmap p s) ((firstFailing_fits p 1024).trans (if_pos (by omega)))
        (List.prefix_append ..)
    | ramupdatefull => exact held_of_cmd (tests := []) hr hoff rfl rfl (List.prefix_append ..)
    | dInit => exact held_of_cmd (tests := []) hr hoff rfl rfl (List.prefix_append ..)
    | contrast a => exact held_of_cmd (tests := []) hr hoff rfl rfl List.prefix_rfl
    | invert a | dispon a | flip a | scrollstate a =>
      have ha : a.toNat ≤ 1 := of_decide_eq_true hwf
      exact held_of_cmd hr hoff rfl ((firstFailing_atMost a 1 []).trans (if_pos ha)) List.prefix_rfl
    | addrmode a =>
      have ha : a.toNat ≤ 2 := of_decide_eq_true hwf
      exact held_of_cmd hr hoff rfl ((firstFailing_atMost a 2 []).trans (if_pos ha)) List.prefix_rfl
    | setvarea a b =>
      obtain ⟨-, -, hab⟩ := of_decide_eq_true hwf
      exact held_of_cmd hr hoff rfl ((firstFailing_areaTests a b).trans (if_pos hab)) List.prefix_rfl
    | scrollh a b c d =>
      exact held_of_cmd hr hoff rfl
        ((firstFailing_scrollTests a b c d []).trans (if_pos (of_decide_eq_true hwf))) List.prefix_rfl
    | scrolldiag a b c d e =>
      obtain ⟨ha, hb, hc, hd, he⟩ := of_decide_eq_true hwf
      exact held_of_cmd hr hoff rfl (((firstFailing_scrollTests a b c d _).trans (if_pos ⟨ha, hb, hc, hd⟩)).trans
        ((firstFailing_atMost e 63 []).trans (if_pos he))) List.prefix_rfl
    | scrollv a b c d e =>
      obtain ⟨ha, hb, hc, hd, he⟩ := of_decide_eq_true hwf
      exact held_of_cmd hr hoff rfl (((firstFailing_scrollTests a b c d _).trans (if_pos ⟨ha, hb, hc, hd⟩)).trans
        ((firstFailing_atMost e 7 []).trans (if_pos he))) (List.prefix_append ..)
  exact ⟨t, ht, h.hung, h.wire, h.buf, h.res⟩

end Sys2Proof.Machine

namespace Sys2Proof

/-! ### Encoding and decoding (30_encoding.md R110 to R117) -/

/-- Decoding reads every field of an operation's word back and finds its unused fields zero. -/
theorem decode_encode (i : Instr) : decode (encode i) = .ok i := by
  cases i with
  | bcInit | drawchar | drawbitmap =>
    simp [encode, decode, Word.ofHalves_eq, Word.p_eq, Word.n_eq, Half.split, unusedZero_eq]
  | wrburst | rdburst =>
    simp [encode, decode, Word.ofHalves_eq, Word.p_eq, Word.n_eq, Half.split]
  | start | stop | rdb | dInit | ramupdatefull | ramclear => simp [encode, decode, unusedZero_eq, Word.unused_a]
  | req | wrb | contrast | invert | dispon | flip | addrmode | scrollstate =>
    simp [encode, decode, unusedZero_eq, Word.unused_b]
  | movecur | drawpixel | clearpixel | setvarea => simp [encode, decode, unusedZero_eq, Word.unused_c]
  | drawvline | drawhline | drawcircle | ramwrite | ramupdatebyte =>
    simp [encode, decode, unusedZero_eq, Word.unused_d]
  | drawline | scrollh => simp [encode, decode, unusedZero_eq, Word.unused_e]
  | scrolldiag | scrollv => simp [encode, decode]

/-- The six bytes of a word, the opcode first, are decoded as the word. -/
theorem decodeBytes_of_word (w : Word) (rest : List Byte) :
    decodeBytes ((List.range 6).map (fun k => w.extractLsb' (40 - 8 * k) 8) ++ rest) = some (decode w, rest) :=
  congrArg (fun v => some (decode v, rest)) w.ofBytes_fields

/-- Settles O1: the word of an operation decodes to it, and its six bytes are that word. -/
theorem decodeEncode : Obligations.DecodeEncode := by
  intro i
  exact ⟨decode_encode i, fun rest => (decodeBytes_of_word _ rest).trans (by rw [decode_encode])⟩

/-! ### No second spelling (R113, R117) -/

/-- If `w` decodes to an operation, it is the word of that operation. -/
def Spells (w : Word) (d : Except RefuseReason Instr) : Prop := ∀ i, d = .ok i → encode i = w

/-- An arm of the decoder keeps this if, with its opcode and its unused fields zero, the word is that of its
operation. -/
theorem spells_arm {w : Word} {v : Byte} {k : Nat} {u : BitVec k} {i : Instr} {rest : Except RefuseReason Instr}
    (harm : w.op = v → u = 0#k → encode i = w) (hrest : Spells w rest) :
    Spells w (if w.op = v then unusedZero u i else rest) := by
  intro j hj
  split at hj
  · rename_i hv
    rw [unusedZero_eq] at hj
    split at hj
    · rename_i hu
      cases hj
      exact harm hv hu
    · cases hj
  · exact hrest j hj

theorem ok_eq_unusedZero (i : Instr) : .ok i = unusedZero 0#0 i := rfl

/-- Settles O2: each of the decoder's 32 arms accepts only the word of its operation. -/
theorem encodeDecode : Obligations.EncodeDecode := by
  intro w
  obtain ⟨op, a, b, c, d, e, rfl⟩ := w.bytes_cases
  change Spells _ _
  unfold decode
  simp only [ok_eq_unusedZero]
  iterate 32
    refine spells_arm ?_ ?_
    · simp only [Word.unused_an, Word.unused_a, Word.unused_b, Word.unused_c, Word.unused_d, Word.unused_e]
      simp +contextual [encode, Word.ofHalves_eq, Word.p_eq, Word.n_eq, Half.append_split]
  exact nofun

/-! ### The opcode table (R113, R117) -/

/-- The masks of the table have the opcode, and so have its patterns. -/
theorem opcodeTable_opMask :
    ∀ row ∈ opcodeTable, row.2 &&& opMask = opMask ∧ row.1 &&& opMask = row.1 := by
  simp [opcodeTable, opMask]

theorem opcodeTable_patterns_nodup : (opcodeTable.map Prod.fst).Nodup := by
  simp [opcodeTable]

/-- The pattern of a row is the opcode of the words that match it. -/
theorem Word.and_opMask_of_row {w : Word} {row : Word × Word} (hmem : row ∈ opcodeTable) (h : w &&& row.2 = row.1) :
    w &&& opMask = row.1 := by
  obtain ⟨hmask, hpattern⟩ := opcodeTable_opMask row hmem
  rw [← hpattern, ← h, BitVec.and_assoc, hmask]

/-- A word decodes exactly if it matches a row (R113): the row of its opcode, which is the only one it can match. -/
theorem decode_isOk_iff (w : Word) : (∃ i, decode w = .ok i) ↔ ∃ row ∈ opcodeTable, w &&& row.2 = row.1 := by
  obtain hu | ⟨row, hmem, hop, i, e⟩ := decode_unknownOpcode_or_byRow w
  · have hno : ¬∃ row ∈ opcodeTable, w &&& row.2 = row.1 := fun ⟨row, hmem, h⟩ =>
      (decode_eq_unknownOpcode_iff w).1 hu (Word.op_mem_opcodes hmem (Word.and_opMask_of_row hmem h))
    simp [hu, hno]
  · have hsame : ∀ row' ∈ opcodeTable, w &&& row'.2 = row'.1 → row' = row := fun row' hmem' h =>
      List.inj_on_of_nodup_map opcodeTable_patterns_nodup hmem' hmem
        (by rw [hop, ← w.and_opMask, Word.and_opMask_of_row hmem' h])
    rw [e]
    constructor
    · rintro ⟨j, hj⟩
      refine ⟨row, hmem, ?_⟩
      by_contra hrow
      simp [hrow] at hj
    · rintro ⟨row', hmem', h⟩
      rw [hsame row' hmem' h] at h
      exact ⟨i, if_pos h⟩

/-- Settles O3: each word has one row, that of its opcode, and the opcodes of the rows differ. -/
theorem decodeAcceptsTable : Obligations.DecodeAcceptsTable := by
  refine ⟨decode_isOk_iff, ?_⟩
  refine (List.pairwise_map.1 opcodeTable_patterns_nodup).imp_of_mem fun hx hy hxy w ⟨h, h'⟩ => hxy ?_
  rw [← Word.and_opMask_of_row hx h, Word.and_opMask_of_row hy h']

/-- Settles O4: each word is taken apart by evaluation. -/
theorem decodeSampleWords : Obligations.DecodeSampleWords :=
  ⟨rfl, rfl, rfl, rfl, rfl, rfl, rfl, rfl, rfl, rfl, rfl, rfl, rfl⟩

end Sys2Proof

namespace Sys2Proof.Machine

/-! ### Where each operation may write in the framebuffer -/

/-- Byte `k` of `FB` holds one of the points, if it is on the display (R341, R344). -/
def holdsPoint (ps : List Point) (k : Nat) : Prop := ∃ p ∈ ps, onDisplay p = true ∧ k = pixelIndex p

/-- Byte `k` of `FB` is that of the cursor `(a, b)`, if it is on the display (R275, R277). -/
def atCursor (a b : Byte) (k : Nat) : Prop := a.toNat ≤ 127 ∧ b.toNat ≤ 7 ∧ k = fbIndex a.toNat b.toNat

end Sys2Proof.Machine

namespace Sys2Proof
open Machine

/-- The bytes of `FB` an operation addresses (R36, R275 to R277, R305, R341). -/
def Instr.addresses : Instr → Nat → Prop
  | .dInit => fun _ => True
  | .ramclear => fun _ => True
  | .ramwrite a b _ => atCursor a b
  | .ramupdatebyte a b _ => atCursor a b
  | .drawpixel a b => holdsPoint [(coord a, coord b)]
  | .clearpixel a b => holdsPoint [(coord a, coord b)]
  | .drawline a b c d => holdsPoint (linePoints (coord a) (coord b) (coord c) (coord d))
  | .drawvline a b c => holdsPoint (vlinePoints (coord a) (coord b) (coord c))
  | .drawhline a b c => holdsPoint (hlinePoints (coord a) (coord b) (coord c))
  | .drawcircle a b c => holdsPoint (circlePoints (coord a) (coord b) (coord c))
  | _ => fun _ => False

end Sys2Proof

namespace Sys2Proof.Machine

/-- A micro-operation writes memory only inside its space, and `FB` only within `T`. -/
def Micro.inside (T : Nat → Prop) (m : Micro) : Prop := m.fbWithin T ∧ m.inBounds = true

theorem Micro.inBounds_closed : Micro.Closed (fun m => m.inBounds = true) where
  start := fun _ _ => rfl
  stop := fun _ _ => rfl
  wait := fun _ => rfl
  wrDr := fun _ => rfl
  rdSr2 := rfl
  pass := fun _ _ _ _ _ => rfl
  til := fun _ _ _ _ _ => rfl
  test := fun _ _ _ h => ⟨fun hi => decide_eq_true ⟨of_decide_eq_true h, hi⟩, h⟩
  take := fun _ _ _ h => decide_eq_true (of_decide_eq_true h).1
  done := fun _ _ _ h => h
  text := fun _ _ => rfl

theorem Micro.Closed.and {ok ok' : Micro → Prop} (h : Micro.Closed ok) (h' : Micro.Closed ok') :
    Micro.Closed fun m => ok m ∧ ok' m where
  start := fun q e => ⟨h.start q e.1, h'.start q e.2⟩
  stop := fun q e => ⟨h.stop q e.1, h'.stop q e.2⟩
  wait := fun c => ⟨h.wait c, h'.wait c⟩
  wrDr := fun v => ⟨h.wrDr v, h'.wrDr v⟩
  rdSr2 := ⟨h.rdSr2, h'.rdSr2⟩
  pass := fun p n i e j => ⟨h.pass p n i e.1 j, h'.pass p n i e.2 j⟩
  til := fun p n i e j => ⟨h.til p n i e.1 j, h'.til p n i e.2 j⟩
  test := fun p n i e =>
    ⟨fun hi => ⟨(h.test p n i e.1).1 hi, (h'.test p n i e.2).1 hi⟩, (h.test p n i e.1).2, (h'.test p n i e.2).2⟩
  take := fun p n i e => ⟨h.take p n i e.1, h'.take p n i e.2⟩
  done := fun p n i e => ⟨h.done p n i e.1, h'.done p n i e.2⟩
  text := fun q e => ⟨h.text q e.1, h'.text q e.2⟩

theorem Micro.inside_closed (T : Nat → Prop) : Micro.Closed (Micro.inside T) :=
  (Micro.fbWithin_closed T).and Micro.inBounds_closed

section
variable {T : Nat → Prop}

theorem inside_sendCmd (q : Params) (l : List Byte) : ∀ m ∈ sendCmd q l, m.inside T :=
  (Micro.inside_closed T).sendCmd ⟨trivial, rfl⟩ ⟨trivial, rfl⟩ q l

theorem inside_sendData (q : Params) (l : List Src) : ∀ m ∈ sendData q l, m.inside T :=
  (Micro.inside_closed T).sendData ⟨trivial, rfl⟩ ⟨trivial, rfl⟩ q l

/-- A cursor frame and a run of data (R270, R264). -/
theorem inside_push (q : Params) (col page : Nat) (l : List Src) :
    ∀ m ∈ cursorFrame q col page ++ sendData q l, m.inside T :=
  List.forall_mem_append.2 ⟨inside_sendCmd q _, inside_sendData q l⟩

theorem pixelIndex_lt {p : Point} (h : onDisplay p = true) : pixelIndex p < 1024 := by
  simp only [onDisplay, decide_eq_true_eq] at h
  simp only [pixelIndex, fbIndex]
  omega

/-- Plotting a point writes the byte that holds it, if it is on the display. -/
theorem inside_plot (q : Params) (v : Bool) {p : Point} (h : onDisplay p = true → T (pixelIndex p)) :
    ∀ m ∈ plot q v p, m.inside T := by
  unfold plot
  split
  · rename_i hon
    have hlt := decide_eq_true (pixelIndex_lt hon)
    refine List.forall_mem_cons.2 ⟨?_, inside_push q _ _ _⟩
    cases v
    · exact ⟨h hon, hlt⟩
    · exact ⟨h hon, hlt⟩
  · exact List.forall_mem_nil _

theorem inside_plotAll (q : Params) (ps : List Point) : ∀ m ∈ plotAll q ps, m.inside (holdsPoint ps) := by
  intro m hm
  obtain ⟨p, hp, hm⟩ := List.mem_flatMap.1 hm
  exact inside_plot q true (fun hon => ⟨p, hp, hon, rfl⟩) m hm

/-- A cursor that passes its tests addresses a byte of `FB`. -/
theorem cursor_inside {a b : Byte} (h : firstFailing (cursorTests a b) = none) :
    atCursor a b (fbIndex a.toNat b.toNat) ∧ decide (fbIndex a.toNat b.toNat < 1024) = true := by
  rw [firstFailing_cursorTests] at h
  split at h
  · rename_i hab
    exact ⟨⟨hab.1, hab.2, rfl⟩, decide_eq_true (by simp only [fbIndex]; omega)⟩
  · cases h

theorem inside_polledReads : ∀ {p k : Nat}, p + k ≤ 65536 → ∀ m ∈ polledReads p k, m.inside T
  | _, 0, _ => List.forall_mem_nil _
  | _, _ + 1, h => List.forall_mem_cons.2 ⟨⟨trivial, rfl⟩,
      List.forall_mem_cons.2 ⟨⟨trivial, decide_eq_true (by omega)⟩, inside_polledReads (by omega)⟩⟩

/-- The initiator's reads store inside BUF (R241 to R243). -/
theorem inside_burstRead {p n : Nat} (h : p + n ≤ 65536) : ∀ m ∈ burstRead p n, m.inside T := by
  have hlt : ∀ k < n, p + k < 65536 := fun k hk => by omega
  unfold burstRead
  split
  · exact List.forall_mem_singleton.2 ⟨trivial, rfl⟩
  · split
    · simp [burstRead2, Micro.inside, Micro.fbWithin, Micro.inBounds, by simpa using hlt 0 (by omega),
        hlt 1 (by omega)]
    · refine List.forall_mem_append.2 ⟨List.forall_mem_append.2 ⟨?_, inside_polledReads (by omega)⟩, ?_⟩
      · simp [Micro.inside, Micro.fbWithin, Micro.inBounds]
      · simp [Micro.inside, Micro.fbWithin, Micro.inBounds, hlt (n - 3) (by omega), hlt (n - 2) (by omega),
          hlt (n - 1) (by omega)]

end

/-- Every operation is its tests and micro-operations that, once it passes them, write memory inside its space, and `FB`
only where the operation addresses it. -/
theorem exec_inside (i : Instr) (s : State) :
    ∃ tests code, exec i s = command i tests code s ∧
      (firstFailing tests = none → ∀ m ∈ code, m.inside i.addresses) := by
  cases i
  all_goals
    simp only [exec, execBcInit, execStart, execStop, execReq, execWrb, execWrburst, execRdb, execRdburst, execDInit,
      execMovecur, execDrawchar, execDrawbitmap, execDrawpixel, execClearpixel, execDrawline, execDrawvline,
      execDrawhline, execDrawcircle, execContrast, execInvert, execDispon, execFlip, execAddrmode, execScrollh,
      execScrolldiag, execSetvarea, execScrollstate, execScrollv, execRamwrite, execRamupdatebyte, execRamupdatefull,
      execRamclear]
    refine ⟨_, _, rfl, fun hf => ?_⟩
  case bcInit | start | stop | req | wrb | rdb | drawchar => simp [Micro.inside, Micro.fbWithin, Micro.inBounds]
  case wrburst a p n =>
    split
    · exact List.forall_mem_cons.2 ⟨⟨trivial, rfl⟩, (Micro.inside_closed _).sendBytes _⟩
    · simp [responderWrite, Micro.inside, Micro.fbWithin, Micro.inBounds]
  case rdburst a p n =>
    have hfit : p.toNat + n.toNat ≤ 65536 := by simpa using (firstFailing_cons.1 (firstFailing_cons.1 hf).2).1
    split
    · exact inside_burstRead hfit
    · simp [responderRead, Micro.inside, Micro.fbWithin, Micro.inBounds, hfit]
  case dInit =>
    refine List.forall_mem_append.2 ⟨inside_sendCmd _ _, ?_⟩
    exact List.forall_mem_cons.2 ⟨⟨fun _ => trivial, rfl⟩, inside_push _ _ _ _⟩
  case ramclear => exact List.forall_mem_singleton.2 ⟨fun _ => trivial, rfl⟩
  case ramwrite => exact List.forall_mem_singleton.2 (cursor_inside hf)
  case ramupdatebyte => exact List.forall_mem_cons.2 ⟨cursor_inside hf, inside_push _ _ _ _⟩
  case ramupdatefull | drawbitmap => exact inside_push _ _ _ _
  case drawpixel | clearpixel => exact inside_plot _ _ fun hon => ⟨_, List.mem_singleton_self _, hon, rfl⟩
  case drawline | drawvline | drawhline | drawcircle => exact inside_plotAll _ _
  case scrollv => exact List.forall_mem_append.2 ⟨inside_sendCmd _ _, inside_sendCmd _ _⟩
  case movecur | contrast | invert | dispon | flip | addrmode | scrollh | scrolldiag | setvarea | scrollstate =>
    exact inside_sendCmd _ _

/-! ### The memories after an operation, however it ends -/

/-- Settles O51: an operation writes `FB` only where it addresses it. -/
theorem framebufferFrame : Obligations.FramebufferFrame := by
  intro i s t h k hk touches
  obtain ⟨tests, code, e, hinside⟩ := exec_inside i s
  have haddr : i.addresses k := command_fbWithin (fun hf m hm => (hinside hf m hm).1) (e ▸ h) k hk
  cases i <;> exact haddr

theorem reach_buf : ∀ {i : Instr} {k : Nat}, i.reach.buf k →
    ∃ a p n, i = .rdburst a p n ∧ p.toNat ≤ k ∧ k < p.toNat + n.toNat ∧ p.toNat + n.toNat ≤ 65536
  | .rdburst a p n, _, h => ⟨a, p, n, rfl, h⟩

theorem reach_res : ∀ {i : Instr}, i.reach.res = true → i = .rdb
  | .rdb, _ => rfl

theorem exec_res {i : Instr} {s t : State} (hi : i ≠ .rdb) (h : exec i s = .next t) : t.res = s.res := by
  obtain hk | ⟨r, rfl, -⟩ := exec_kept h
  · by_contra hne
    exact hi (reach_res (hk.res hne))
  · rfl

/-- Settles O52: an operation, run or refused, writes only what its reach allows. -/
theorem bufferFrame : Obligations.BufferFrame := by
  intro i s t h
  refine ⟨fun k hne => ?_, fun hne => by_contra fun hi => hne (exec_res hi h)⟩
  obtain hk | ⟨r, rfl, -⟩ := exec_kept h
  · exact reach_buf (hk.buf k hne)
  · exact absurd rfl hne

/-! ### The invariant (Safety.lean) -/

/-- Settles O59: nothing is in progress, no transaction is open, and the memories list nothing. -/
theorem resetInv : Obligations.ResetInv := ⟨rfl, nofun, rfl, rfl, rfl, rfl, rfl, rfl⟩

theorem State.Inv.exec {s t : State} {i : Instr} (h : s.Inv) (ht : exec i s = .next t) : t.Inv := by
  obtain ⟨tests, code, e, hinside⟩ := exec_inside i s
  exact h.command (fun hf m hm => (hinside hf m hm).2) (e ▸ ht)

theorem State.Inv.withHost {s : State} (h : s.Inv) (q : List HostAction) : State.Inv { s with host := q } :=
  ⟨h.busyUpc, h.faultBusy, h.latched, h.openRole, h.fbWf, h.bufWf, h.gdWf, h.codeInBounds⟩

theorem State.Inv.refuse {s : State} (h : s.Inv) (r : RefuseReason) : (s.refuse r).Inv :=
  ⟨h.busyUpc, h.faultBusy, h.latched, h.openRole, h.fbWf, h.bufWf, h.gdWf, h.codeInBounds⟩

theorem State.Inv.bufWrite {s : State} (h : s.Inv) (a : Half) (v : Byte) : (s.bufWrite a.toNat v).Inv :=
  ⟨h.busyUpc, h.faultBusy, h.latched, h.openRole, h.fbWf, Memory.write_wf a.isLt h.bufWf, h.gdWf, h.codeInBounds⟩

/-- Settles O60: each kind of move keeps the invariant, and so does what each operation runs. -/
theorem stepKeepsInv : Obligations.StepKeepsInv := by
  have moves : Moves State.Inv := ⟨fun _ h => h.lineStep, fun _ h => h.peerStep, fun _ q d h => h.reschedule q d⟩
  exact fun s t hs => step_keeps moves (fun _ h => h.runOp) (fun _ q h => h.withHost q) (fun _ a v h => h.bufWrite a v)
    (fun _ r h => h.refuse r) (fun _ _ _ h ht => h.exec ht) hs

end Sys2Proof.Machine

namespace Sys2Proof.Machine

/-! ### What only the host changes (10_state.md R21, R22; 20_memory.md R99) -/

/-- The host's queue, the command word with its latches, the parameters and the refusal mark. -/
def State.hostSide (s : State) : List HostAction × Word × Latches × Params × Option RefuseReason :=
  (s.host, s.cmdw, s.latch, s.params, s.refusal)

theorem State.hostSide_moved {s t : State} (h : s.movedBy t = t) : t.hostSide = s.hostSide :=
  (congrArg State.hostSide h).symm

theorem Micro.run_hostSide (m : Micro) (rest : List Micro) (s : State) : (m.run rest s).hostSide = s.hostSide := by
  cases m with
  | set f => cases f <;> rfl
  | wrDr v => cases v <;> rfl
  | fbZero => simp [Micro.run, State.hostSide]
  | rxTest =>
    simp only [Micro.run]
    split
    · split <;> rfl
    · rfl
  | text =>
    simp only [Micro.run]
    split
    · rfl
    · split
      · rfl
      · split <;> rfl
  | _ => rfl

/-- A run of an operation in progress leaves them alone. -/
theorem State.runOp_hostSide (s : State) : s.runOp.hostSide = s.hostSide := by
  refine State.runOp_keeps (P := fun t => t.hostSide = s.hostSide) ?_ ?_ ?_ ?_ ?_ ?_ rfl
  · intro t ht _ _
    cases hu : t.upc with
    | nil => rwa [State.seqStep, hu]
    | cons m rest => rw [State.seqStep_eq hu, Micro.run_hostSide, ht]
  · exact fun t ht _ => (State.hostSide_moved t.movedBy_lineStep).trans ht
  · exact fun t ht _ => (State.hostSide_moved t.movedBy_peerStep).trans ht
  · exact fun _ _ _ ht => ht
  · exact fun _ ht => ht
  · exact fun _ ht _ _ => ht

/-- A move between operations is one of the line agent, the peer or the schedule. -/
theorem State.movedBy_idleMove (s : State) : s.movedBy s.idleMove = s.idleMove :=
  Moves.idleMove (P := fun t => s.movedBy t = t)
    ⟨fun t h => State.movedBy_trans h t.movedBy_lineStep, fun t h => State.movedBy_trans h t.movedBy_peerStep,
      fun t q d h => State.movedBy_trans h (t.movedBy_reschedule q d)⟩ rfl

theorem step_of_busy {s : State} (h : s.busy = true) : step s = .next s.whileBusy := if_pos h

theorem step_of_faulted {s : State} (hbusy : s.busy = true) (hfault : s.faulted.isSome = true) :
    step s = .next s.idleMove := by
  rw [step_of_busy hbusy, State.whileBusy, if_pos hfault]

theorem step_of_write {s : State} {a : Half} {v : Byte} {q : List HostAction} (hbusy : s.busy = false)
    (hq : s.host = .write a v :: q) : step s = .next (s.hostWrite q a v) := by
  simp [step, hbusy, hq]

theorem step_of_issue {s : State} {w : Word} {q : List HostAction} {i : Instr} (hbusy : s.busy = false)
    (hq : s.host = .issue w :: q) (hi : decode w = .ok i) : step s = exec i (s.beforeIssue q) := by
  simp [step, hbusy, hq, hi]

theorem State.whileBusy_hostSide (s : State) : s.whileBusy.hostSide = s.hostSide := by
  unfold State.whileBusy
  split
  · exact State.hostSide_moved s.movedBy_idleMove
  · exact s.runOp_hostSide

/-- Settles O8: the host's write is one write of BUF, and an operation in progress touches nothing of the host's. -/
theorem hostMoves : Obligations.HostMoves := by
  refine ⟨fun s a v q hbusy hq => ⟨_, step_of_write hbusy hq, rfl, fun k => ?_⟩, fun s hbusy => ?_⟩
  · exact State.bufByte_bufWrite { s with host := q } a.toNat k v
  · have hkept := s.whileBusy_hostSide
    simp only [State.hostSide, Prod.mk.injEq] at hkept
    exact ⟨_, step_of_busy hbusy, hkept⟩

/-- Settles O57: after a fault a step is a move of the line agent or the peer, or none. -/
theorem faultIsFinal : Obligations.FaultIsFinal := by
  intro s hbusy hfault
  refine ⟨_, step_of_faulted hbusy hfault, ?_⟩
  rw [← s.movedBy_idleMove]
  exact ⟨rfl, hbusy, rfl, rfl, rfl, rfl, rfl, rfl, rfl, rfl⟩

/-- Settles O56: nobody has a move at the wait of a hung operation. -/
theorem hangIsFinal : Obligations.HangIsFinal := by
  intro c s h hw
  have htick := h.tick hw
  obtain ⟨hbusy, hfault, -⟩ := h
  exact step_stuck hbusy hfault htick

/-! ### The host's issue (10_state.md R20, R21; 20_memory.md R94) -/

/-- Where neither the line agent nor the peer can move, the operation finds the state as it is. -/
theorem State.beforeIssue_alone {s : State} (h : s.others = []) (q : List HostAction) :
    s.beforeIssue q = { s with host := q } :=
  State.moveAhead_alone (s := { s with host := q }) h _

/-- The word of an operation, put at the head of the host's queue. -/
theorem State.withFetchWord_encode (s : State) (i : Instr) :
    s.withFetchWord 48 (encode i).toNat = { s with host := .issue (encode i) :: s.host } := by
  rw [State.withFetchWord, Nat.mod_eq_of_lt (encode i).isLt, BitVec.ofNat_toNat, BitVec.setWidth_eq]

/-- Settles O7: a step issues the word at the head of the queue, and an operation's word decodes to it. -/
theorem stepRunsDecoded : Obligations.StepRunsDecoded := by
  refine ⟨fun s w q i hbusy hq hi => ⟨step_of_issue hbusy hq hi, fun ho => ?_⟩, fun s i hbusy => ?_⟩
  · rw [step_of_issue hbusy hq hi, State.beforeIssue_alone ho]
  · rw [State.withFetchWord_encode]
    exact step_of_issue hbusy rfl (decode_encode i)

/-! ### Power-on (10_state.md R43, R45; 70_reset_and_hazards.md R431) -/

/-- The registers of R45 lie at the nine multiples of four up to 0x20. -/
theorem regAt_reset (off : Nat) :
    State.reset.bus.regAt off =
      if off % 4 = 0 ∧ off ≤ 0x20 then some (if off = 0x20 then 2 else 0) else none := by
  by_cases hlt : off < 0x21
  · interval_cases off <;> rfl
  · have hno : BusReg.at off = none := by
      refine List.find?_eq_none.2 fun r _ => ?_
      cases r <;> simp [BusReg.offset] <;> omega
    rw [Bif.regAt, hno, if_neg (by omega)]
    rfl

/-- Settles O13: the values of `State.reset`, field by field. -/
theorem resetValues : Obligations.ResetValues :=
  ⟨rfl, rfl, rfl, rfl, rfl, ⟨rfl, rfl, rfl, rfl, rfl, rfl⟩, rfl, ⟨rfl, rfl, rfl, rfl, rfl, rfl, rfl⟩,
    ⟨rfl, rfl, rfl, rfl, rfl, rfl, rfl, rfl, rfl, rfl⟩, ⟨rfl, rfl, rfl, rfl, rfl, rfl, rfl, fun _ => rfl⟩,
    regAt_reset, rfl, rfl, rfl, rfl, rfl⟩

end Sys2Proof.Machine

namespace Sys2Proof.Machine

/-! ### Refused operands (30_encoding.md R114, R115, R118; 60_exceptions.md R401 to R404) -/

/-- The tests of the two bursts that come first: the role selector, then the buffer. -/
theorem firstFailing_burst (a : Byte) (p : Half) (n : Nat) (tests : List (Bool × RefuseReason)) :
    firstFailing (atMost a 1 :: fits p n :: tests) =
      if 1 < a.toNat then some .operandRange else if 65536 < p.toNat + n then some .bufferRange
      else firstFailing tests := by
  rw [firstFailing_atMost, fits, firstFailing_decide]
  simp only [Nat.not_le]
  by_cases ha : a.toNat ≤ 1
  · rw [if_pos ha, if_neg (Nat.not_lt.2 ha)]
  · rw [if_neg ha, if_pos (Nat.not_le.1 ha)]

theorem exec_burst_refused {i : Instr} {a : Byte} {p : Half} {n : Nat} {tests : List (Bool × RefuseReason)}
    {code : List Micro} {s : State} (hexec : exec i s = command i (atMost a 1 :: fits p n :: tests) code s)
    (hr : s.ready) :
    (1 < a.toNat → exec i s = .next (s.refuse .operandRange)) ∧
      (a.toNat ≤ 1 → 65536 < p.toNat + n → exec i s = .next (s.refuse .bufferRange)) := by
  refine ⟨fun ha => exec_refused hexec ?_ hr, fun ha hpast => exec_refused hexec ?_ hr⟩
  · rw [firstFailing_burst, if_pos ha]
  · rw [firstFailing_burst, if_neg (by omega), if_pos hpast]

theorem exec_burst_illFormed {i : Instr} {a : Byte} {p : Half} {n : Nat} {tests : List (Bool × RefuseReason)}
    {code : List Micro} {s : State} (hexec : exec i s = command i (atMost a 1 :: fits p n :: tests) code s)
    (h : decide (a.toNat ≤ 1 ∧ p.toNat + n ≤ 65536) = false) (hr : s.ready) :
    exec i s = .next (s.refuse .operandRange) ∨ exec i s = .next (s.refuse .bufferRange) := by
  obtain ⟨hrole, hpast⟩ := exec_burst_refused hexec hr
  have hout := of_decide_eq_false h
  by_cases ha : a.toNat ≤ 1
  · exact .inr (hpast ha (by omega))
  · exact .inl (hrole (by omega))

theorem exec_fits_refused {i : Instr} {p : Half} {n : Nat} {tests : List (Bool × RefuseReason)}
    {code : List Micro} {s : State} (hexec : exec i s = command i (fits p n :: tests) code s)
    (hpast : 65536 < p.toNat + n) (hr : s.ready) : exec i s = .next (s.refuse .bufferRange) :=
  exec_refused hexec (by rw [fits, firstFailing_decide, if_pos (by omega)]) hr

/-- Settles O10: the role selector is the first test of a burst, the buffer the next. -/
theorem bufferOperandRefused : Obligations.BufferOperandRefused := by
  intro a p n s hr
  obtain ⟨hwRole, hwPast⟩ := exec_burst_refused (i := .wrburst a p n) rfl hr
  obtain ⟨hrRole, hrPast⟩ := exec_burst_refused (i := .rdburst a p n) rfl hr
  exact ⟨fun ha => ⟨hwRole ha, hrRole ha⟩, fun ha hpast => ⟨hwPast ha hpast, hrPast ha hpast⟩,
    (drawbitmapOutcome p s hr).1, fun hp => exec_fits_refused rfl (by omega) hr⟩

/-- An operation that is not well formed is refused for an operand or for its buffer. -/
theorem exec_illFormed {i : Instr} {s : State} (hr : s.ready) (h : i.wellFormed = false) :
    exec i s = .next (s.refuse .operandRange) ∨ exec i s = .next (s.refuse .bufferRange) := by
  cases i with
  | start | stop | req | wrb | rdb | dInit | drawchar | drawpixel | clearpixel | drawline | drawvline | drawhline
  | drawcircle | contrast | ramupdatefull | ramclear => cases h
  | bcInit p =>
    have hout := of_decide_eq_false h
    exact .inr (exec_fits_refused rfl (by omega) hr)
  | drawbitmap p =>
    have hout := of_decide_eq_false h
    exact .inr ((drawbitmapOutcome p s hr).1 (by omega))
  | wrburst | rdburst => exact exec_burst_illFormed rfl h hr
  | movecur | ramwrite | ramupdatebyte =>
    have hout := of_decide_eq_false h
    exact .inl (exec_refused_cursor rfl (by omega) hr)
  | invert a | dispon a | flip a =>
    obtain ⟨hflag, -⟩ := modeOutcomes a s hr
    obtain ⟨hinvert, hdispon, hflip⟩ := hflag (Nat.not_le.1 (of_decide_eq_false h))
    exact .inl (by assumption)
  | addrmode a =>
    obtain ⟨-, hmode, -⟩ := modeOutcomes a s hr
    exact .inl (hmode (Nat.not_le.1 (of_decide_eq_false h)))
  | scrollh a b c d =>
    obtain ⟨hscrollh, -⟩ := scrollOutcomes a b c d 0 s hr
    exact .inl (hscrollh (of_decide_eq_false h))
  | scrolldiag a b c d e =>
    obtain ⟨-, hscrolldiag, -⟩ := scrollOutcomes a b c d e s hr
    have hout := of_decide_eq_false h
    exact .inl (hscrolldiag (by omega))
  | setvarea a b =>
    obtain ⟨-, -, hsetvarea, -⟩ := scrollOutcomes a b 0 0 0 s hr
    have hout := of_decide_eq_false h
    exact .inl (hsetvarea (by omega))
  | scrollstate a =>
    obtain ⟨-, -, -, hscrollstate, -⟩ := scrollOutcomes a 0 0 0 0 s hr
    exact .inl (hscrollstate (Nat.not_le.1 (of_decide_eq_false h)))
  | scrollv a b c d e => exact .inl ((scrollvOutcome a b c d e s hr).1 (of_decide_eq_false h))

/-- Settles O9: the operand domains of the command word are the tests of the operations that have any. -/
theorem illFormedRefused : Obligations.IllFormedRefused :=
  ⟨fun _ _ hr h => exec_illFormed hr h, fun _ _ _ _ => ⟨rfl, rfl, rfl, rfl, rfl, rfl⟩,
    fun s r => by cases h : s.refusal <;> simp [State.refuse, h]⟩

/-! ### The divisor of BC_INIT (41_bus_primitives.md R204, R206) -/

/-- The divisor that passes its test fits its field, and is at least the protocol minimum. -/
theorem BusRecord.ccrMin_le_config {r : BusRecord} {q : Params} (h : firstFailing (r.tests q) = none) :
    ccrMin (r.config q).fs (r.config q).duty ≤ (r.config q).ccr.toNat := by
  have hfit : r.ccr q ≤ 4095 := by
    simp only [BusRecord.tests, firstFailing_cons, decide_eq_true_eq] at h
    tauto
  have hfield : (r.config q).ccr.toNat = r.ccr q := by
    simp only [BusRecord.config, BitVec.toNat_ofNat]
    omega
  rw [hfield]
  exact le_max_right _ _

/-- Settles O12: with `PE` set at the end the tests have passed, and the divisor is a maximum with the minimum. -/
theorem minimumDivisor : Obligations.MinimumDivisor := by
  intro p s t hr ho hpe ht hpe'
  rw [exec_bcInit hr ho] at ht
  cases hf : firstFailing (fits p 12 :: (s.busRecord p.toNat).tests s.params) with
  | some r =>
    rw [hf] at ht
    cases ht
    exact absurd (hpe.symm.trans hpe') nofun
  | none =>
    rw [hf] at ht
    cases ht
    rw [← ccrMin_eq]
    exact BusRecord.ccrMin_le_config (firstFailing_cons.1 hf).2

/-! ### One line step at most (40_bus_interface_line.md R168) -/

/-- The four byte steps exclude each other: one is enabled before the data phase, two in its transmit direction, which
differ in the shift register, and one in its receive direction. -/
theorem Bif.byte_exclusive (b : Bif) :
    (b.addrOn = true → b.loadOn = false ∧ b.txByteOn = false ∧ b.rxByteOn = false) ∧
      (b.loadOn = true → b.txByteOn = false ∧ b.rxByteOn = false) ∧ (b.txByteOn = true → b.rxByteOn = false) := by
  refine ⟨fun h => ?_, fun h => ?_, fun h => ?_⟩
  · obtain ⟨-, -, hphase, -⟩ := b.addrOn_iff.1 h
    simp [Bif.loadOn, Bif.txByteOn, Bif.rxByteOn, hphase]
  · obtain ⟨-, -, hdir, -, -, hsh, -⟩ := b.loadOn_iff.1 h
    simp [Bif.txByteOn, Bif.rxByteOn, hdir, hsh]
  · obtain ⟨-, -, hdir, -⟩ := b.txByteOn_iff.1 h
    simp [Bif.rxByteOn, hdir]

/-- A requested stop of the block's own transaction comes before a requested start (R160, R167). -/
theorem Bif.startOn_of_stop {b : Bif} (hrole : b.role = .master) (hstop : b.stop = true) : b.startOn = false := by
  simp [Bif.startOn, hrole, hstop]

theorem Bif.lineOn_off {b : Bif} (h : b.pe = false) : b.lineOn = false := by
  simp [Bif.lineOn, Bif.byteOn, Bif.addrOn, Bif.loadOn, Bif.txByteOn, Bif.rxByteOn, Bif.startOn, Bif.stopOn, h]

theorem PeerMove.on_off {b : Bif} (h : b.pe = false) (m : PeerMove) : m.on b = false := by
  cases m <;> simp [PeerMove.on, h]

/-- Start and stop wait for the byte steps (R160, R167). -/
theorem Bif.conditions_of_byteOn {b : Bif} (h : b.byteOn = true) : b.startOn = false ∧ b.stopOn = false := by
  simp [Bif.startOn, Bif.stopOn, h]

theorem Bif.stopOn_of_startOn {b : Bif} (h : b.startOn = true) : b.stopOn = false := by
  refine Bool.eq_false_iff.2 fun hon => ?_
  obtain ⟨hrole, -, hstop, -⟩ := b.stopOn_iff.1 hon
  exact absurd h (by simp [Bif.startOn_of_stop hrole hstop])

theorem count_true_le_one {l : List Bool} (h : l.Pairwise fun x y => x = true → y = false) : l.count true ≤ 1 := by
  induction l with
  | nil => exact Nat.zero_le _
  | cons x l ih =>
    obtain ⟨hx, hl⟩ := List.pairwise_cons.1 h
    cases x with
    | false => simpa using ih hl
    | true => simpa [List.count_eq_zero] using hx

/-- Settles O21: the steps exclude each other two by two. -/
theorem lineAgentDeterministic : Obligations.LineAgentDeterministic := by
  refine fun b => ⟨count_true_le_one ?_, fun hpe => ⟨Bif.lineOn_off hpe, PeerMove.on_off hpe⟩, Bif.startOn_of_stop⟩
  obtain ⟨haddr, hload, htx⟩ := b.byte_exclusive
  have hbyte : b.addrOn || b.loadOn || b.txByteOn || b.rxByteOn → b.startOn = false ∧ b.stopOn = false :=
    Bif.conditions_of_byteOn
  have hstart := b.stopOn_of_startOn
  simp_all

end Sys2Proof.Machine

namespace Sys2Proof.Machine

/-! ### Operations that address no byte of the framebuffer -/

theorem Micro.run_fb {m : Micro} (hm : m.fbWithin fun _ => False) (rest : List Micro) (s : State) :
    (m.run rest s).fb = s.fb := by
  cases m with
  | fbPut | fbOr | fbClr => exact hm.elim
  | fbZero => exact (hm 0).elim
  | set f => cases f <;> rfl
  | wrDr v => cases v <;> rfl
  | rxTest =>
    simp only [Micro.run]
    split
    · split <;> rfl
    · rfl
  | text =>
    simp only [Micro.run]
    split
    · rfl
    · split
      · rfl
      · split <;> rfl
  | _ => rfl

/-- They leave it as it is, however they end. -/
theorem exec_fb {i : Instr} {s t : State} (hi : i.addresses = fun _ => False) (h : exec i s = .next t) :
    t.fb = s.fb := by
  obtain ⟨tests, code, e, hinside⟩ := exec_inside i s
  rw [hi] at hinside
  refine command_frame (F := fun u => u.fb = s.fb) (Micro.fbWithin_closed _) ?_ ?_ ?_ ?_ ?_ ?_
    (fun hf m hm => (hinside hf m hm).1) (e ▸ h)
  · exact fun u m rest _ hm hu => (Micro.run_fb hm rest u).trans hu
  · exact fun u v hm _ hu => (congrArg State.fb hm).symm.trans hu
  · exact fun _ hu => hu
  · exact fun _ _ hu => hu
  · exact fun _ => rfl
  · rfl

/-! ### RDBURST, responder (42_bus_bursts.md R244) -/

theorem exec_rdburst_responder (p n : Half) (s : State) :
    exec (.rdburst 1 p n) s = command (.rdburst 1 p n)
      [atMost 1 1, fits p n.toNat,
        (!(s.params.strict && decide ((1 : Byte) = 0) && decide (n.toNat < 2)), .countTooSmall)]
      (responderRead p.toNat n.toNat) s := rfl

/-- The count has no lower bound in the responder role. -/
theorem rdburst_responder_tests {p n : Half} {q : Params} (hfit : p.toNat + n.toNat ≤ 65536) :
    firstFailing [atMost 1 1, fits p n.toNat,
      (!(q.strict && decide ((1 : Byte) = 0) && decide (n.toNat < 2)), .countTooSmall)] = none := by
  simp [firstFailing, atMost, fits, hfit]

/-- What the responder RDBURST comes to is its outcome. -/
theorem exec_rdburst_responder_of_reaches {Q : State → Prop} {k : Nat} {p n : Half} {s : State} (hr : s.ready)
    (hfit : p.toNat + n.toNat ≤ 65536)
    (hrun : Reaches Q k (s.load (encode (.rdburst 1 p n)) (responderRead p.toNat n.toNat)))
    (hstop : ∀ t, Q t → t.tick = none) (hk : k ≤ sliceTicks) : ∃ t, exec (.rdburst 1 p n) s = .next t ∧ Q t :=
  exec_of_reaches hr hrun (exec_rdburst_responder p n s) (rdburst_responder_tests hfit) hstop hk

/-- The bytes received are in BUF from `p` on. -/
theorem Serves.bufByte {s t : State} {p : Nat} {vs : List Byte} (h : Serves s p vs t) {i : Nat} {v : Byte}
    (hv : vs[i]? = some v) : t.bufByte (p + i) = v := by
  rw [State.bufByte_congr h.buf]
  simp [State.bufByte_stored, hv]

/-- Settles O31: with room the loop takes every byte and ends behind the peer's stop, without it ends at the first byte
that has no place. -/
theorem responderReadOutcome : Obligations.ResponderRead := by
  intro p n sel vs s hr hw hsched hfit hlen hb hsel hm
  have h0 : CanServe s := ⟨hr.2, hw, hsched⟩
  have hticks : 12 * vs.length + 10 ≤ sliceTicks := by
    simp only [sliceTicks]
    omega
  refine ⟨fun hroom => ?_, fun hover => ?_⟩
  · have hrun := reaches_responderRead (s := s.load (encode (.rdburst 1 p n)) (responderRead p.toNat n.toNat))
      h0 rfl hb hsel hm hroom rfl rfl
    obtain ⟨t, ht, h⟩ := exec_rdburst_responder_of_reaches hr hfit hrun (fun _ h => State.tick_empty h.upc) hticks
    exact ⟨t, ht, h.serves.completed hr.2 h.busy h.upc, h.stopf, h.opened, h.wire, fun _ _ hv => h.serves.bufByte hv,
      h.serves.symm⟩
  · have hrun := reaches_responderOverrun (s := s.load (encode (.rdburst 1 p n)) (responderRead p.toNat n.toNat))
      h0 rfl hb hsel hm hover rfl rfl
    obtain ⟨t, ht, h⟩ := exec_rdburst_responder_of_reaches hr hfit hrun (fun _ h => h.tick) hticks
    exact ⟨t, ht, h.faulted, h.busy, h.buf, exec_fb rfl ht, exec_res (i := .rdburst 1 p n) nofun ht⟩

/-! ### A peer that does not address the block (R232, R244) -/

/-- The responder operations wait for the address after setting `ACK`. -/
def State.awaiting (i : Instr) (rest : List Micro) (s : State) : State :=
  (s.withBif { s.bus with ack := true }).load (encode i) (.wait .addr :: rest)

theorem State.awaiting_hungAt {i : Instr} {rest : List Micro} {s : State} (hr : s.ready) (hmoves : s.peer.moves = [])
    (hothers : s.others = []) (haddr : s.bus.addr = false) : (s.awaiting i rest).hungAt .addr := by
  refine ⟨rfl, hr.2, rfl, haddr, ?_⟩
  have hpeer (t : State) (h : t.peer.moves = []) : t.others = if t.bus.lineOn then [.line] else [] := by
    simp [State.others_eq, State.peerOn_nil h]
  rw [hpeer _ hmoves] at hothers
  exact (hpeer (s.awaiting i rest) hmoves).trans hothers

/-- An operation that begins like that hangs at once if nobody else can move. -/
theorem exec_awaiting {i : Instr} {tests : List (Bool × RefuseReason)} {rest : List Micro} {s : State}
    (hexec : exec i s = command i tests (.set .ack :: .wait .addr :: rest) s) (htests : firstFailing tests = none)
    (hr : s.ready) (hw : s.params.waitBudget = none) (hmoves : s.peer.moves = []) (hothers : s.others = [])
    (haddr : s.bus.addr = false) :
    exec i s = .next (s.awaiting i rest) ∧ (s.awaiting i rest).hungAt .addr := by
  have hhung := s.awaiting_hungAt (i := i) (rest := rest) hr hmoves hothers haddr
  have hrun : Reaches (· = s.awaiting i rest) 1 (s.load (encode i) (.set .ack :: .wait .addr :: rest)) :=
    .next rfl hr.2 rfl nofun (.inr hothers) (.here rfl)
  exact ⟨exec_eq_of_reaches hr hrun hexec htests (hhung.tick hw) (by decide), hhung⟩

/-- Settles O32: both operations set `ACK` and wait for a peer that never comes. -/
theorem responderUnaddressed : Obligations.ResponderUnaddressed := by
  intro p n s hr hw hfit hmoves hothers haddr waiting
  obtain ⟨hwrite, hwriteHung⟩ := exec_awaiting (i := .wrburst 1 p n) rfl (wrburst_tests (by decide) hfit) hr hw hmoves
    hothers haddr
  obtain ⟨hread, hreadHung⟩ := exec_awaiting (exec_rdburst_responder p n s) (rdburst_responder_tests hfit) hr hw
    hmoves hothers haddr
  exact ⟨⟨_, hwrite, hwriteHung, rfl⟩, ⟨_, hread, hreadHung, rfl⟩⟩

end Sys2Proof.Machine

namespace Sys2Proof.Machine

/-! ### The lockstep of the single-byte path (46_panel_peer.md R386) -/

/-- A data byte lands at the cursor and nowhere else (R384). -/
theorem Panel.gdByte_store (p : Panel) (v : Byte) (j : Nat) :
    (p.store v).gdByte j = if j = p.pcol + 128 * p.ppage then v else p.gdByte j := by
  have hgd : (p.store v).gd = p.gd.write (p.pcol + 128 * p.ppage) v ∧ (p.store v).epoch = p.epoch := by
    simp only [Panel.store]
    split <;> exact ⟨rfl, rfl⟩
  rw [Panel.gdByte, hgd.1, hgd.2]
  split
  · rename_i hj
    rw [hj, Memory.lookup_write_same]
    rfl
  · rename_i hj
    rw [Memory.lookup_write_ne _ v hj]
    rfl

/-- An operation that writes byte `k` of `FB`, points the cursor at it and pushes it: the panel, wherever its cursor
stood, stores that byte at `k` too. -/
theorem lockstep_of_bytePush {i : Instr} {s : State} {col page : Nat} {v : Byte}
    (h : Completes i s (s.fbWrite (fbIndex col page) v) (cursorTokens s.params col page ++ dataTokens s.params [v]))
    (hwatched : s.watched (· = 0)) (hcol : col ≤ 127) (hpage : page ≤ 7) :
    ∃ t, exec i s = .next t ∧ t.completed ∧ t.lockstep (fbIndex col page) ∧
      ∀ j, j ≠ fbIndex col page → t.panel.gdByte j = s.panel.gdByte j ∧ t.fbByte j = s.fbByte j := by
  obtain ⟨hpanel, hcmds, hctrl, hmode, hcalm⟩ := hwatched
  have hcursor := seeAll_cursor (q := s.params) hcmds (p := s.panel) hcalm hcol hpage
  obtain ⟨t, ht, hdone, hsent, hp⟩ := completes_stream (l := []) h hpanel hcalm hctrl hcursor rfl
    ⟨hmode, hcol, hpage, hcol, le_rfl, hpage, le_rfl⟩
  have hgd (j : Nat) : t.panel.gdByte j = if j = fbIndex col page then v else s.panel.gdByte j :=
    (congrArg (Panel.gdByte · j) hp).trans (Panel.gdByte_store _ v j)
  have hfb (j : Nat) : t.fbByte j = if j = fbIndex col page then v else s.fbByte j :=
    (State.fbByte_congr (congrArg State.fb hsent) j).trans (s.fbByte_fbWrite _ j v)
  refine ⟨t, ht, hdone, ?_, fun j hj => ⟨?_, ?_⟩⟩
  · rw [State.lockstep, hgd, hfb, if_pos rfl, if_pos rfl]
  · rw [hgd, if_neg hj]
  · rw [hfb, if_neg hj]

/-- Settles O50: each of the three is a write of its byte and the push of it. -/
theorem singleByteLockstep : Obligations.SingleByteLockstep := by
  rintro a b c s i k hr hready hwatched ha (⟨hb, rfl, rfl⟩ | ⟨hb, rfl | rfl, rfl⟩)
  · exact lockstep_of_bytePush (((ramupdatebyteOutcome a b c s hr).2 ha hb).1 hready) hwatched ha hb
  · obtain ⟨hdraw, -, -⟩ := (pixelOutcomes a b s hr).2 ha hb
    exact lockstep_of_bytePush (hdraw.1 hready) hwatched ha (by omega)
  · obtain ⟨-, hclear, -⟩ := (pixelOutcomes a b s hr).2 ha hb
    exact lockstep_of_bytePush (hclear.1 hready) hwatched ha (by omega)

/-! ### The symmetry of a circle (45_raster.md R356) -/

/-- The points are closed under the eight reflections about `(cx, cy)`, by three that generate them. -/
def ReflectedAbout (cx cy : Int) (ps : List Point) : Prop :=
  ∀ u v : Int, (cx + u, cy + v) ∈ ps →
    (cx - u, cy + v) ∈ ps ∧ (cx + u, cy - v) ∈ ps ∧ (cx + v, cy + u) ∈ ps

theorem ReflectedAbout.append {cx cy : Int} {ps qs : List Point} (hp : ReflectedAbout cx cy ps) (hq : ReflectedAbout cx cy qs) :
    ReflectedAbout cx cy (ps ++ qs) := by
  intro u v h
  simp only [List.mem_append] at h ⊢
  obtain h | h := h
  · obtain ⟨hx, hy, hswap⟩ := hp u v h
    exact ⟨.inl hx, .inl hy, .inl hswap⟩
  · obtain ⟨hx, hy, hswap⟩ := hq u v h
    exact ⟨.inr hx, .inr hy, .inr hswap⟩

/-- The eight points of a pass are those whose offsets are the two of the pass, up to sign, in either order. -/
theorem mem_octants {cx cy xo yo u v : Int} :
    (cx + u, cy + v) ∈ octants cx cy xo yo ↔ |u| = |xo| ∧ |v| = |yo| ∨ |u| = |yo| ∧ |v| = |xo| := by
  simp only [octants, List.mem_cons, List.not_mem_nil, or_false, Prod.mk.injEq, sub_eq_add_neg, add_right_inj,
    abs_eq_abs, and_or_left]
  simp only [or_and_right, or_assoc]

theorem octants_symmetric (cx cy xo yo : Int) : ReflectedAbout cx cy (octants cx cy xo yo) := by
  intro u v h
  simp only [sub_eq_add_neg, mem_octants, abs_neg] at h ⊢
  exact ⟨h, h, h.symm.imp And.symm And.symm⟩

theorem walkCircle_symmetric (cx cy : Int) (fuel : Nat) (cf cddx cddy xo yo : Int) :
    ReflectedAbout cx cy (walkCircle cx cy fuel cf cddx cddy xo yo) := by
  induction fuel generalizing cf cddx cddy xo yo with
  | zero => exact nofun
  | succ fuel ih =>
    rw [walkCircle]
    split
    · exact (octants_symmetric cx cy _ _).append (ih _ _ _ _ _)
    · exact nofun

/-- The four extrema are the octants of the point straight below the centre. -/
theorem extrema_symmetric (cx cy r : Int) :
    ReflectedAbout cx cy [(cx, cy + r), (cx, cy - r), (cx + r, cy), (cx - r, cy)] := by
  have hsame : ∀ p, p ∈ [(cx, cy + r), (cx, cy - r), (cx + r, cy), (cx - r, cy)] ↔ p ∈ octants cx cy 0 r := by
    simp only [octants, add_zero, sub_zero, List.mem_cons, List.not_mem_nil, or_false]
    tauto
  intro u v h
  simp only [hsame] at h ⊢
  exact octants_symmetric cx cy 0 r u v h

/-- Settles O47: each pass plots its point's eight reflections, and the extrema are reflections of one another. -/
theorem circleSymmetry : Obligations.CircleSymmetry := by
  intro a b c ps
  refine ⟨(walkCircle_symmetric _ _ _ _ _ _ _ _).append (extrema_symmetric _ _ _), ?_⟩
  simp [ps, circlePoints]

end Sys2Proof.Machine

namespace Sys2Proof.Machine

/-! ### The walk of a line in closed form (45_raster.md R346) -/

/-- The unit steps a line takes along its minor axis, `N` long, with `k` of the `M` along its dominant one: the nearest
number to `k * N / M`, halves rounding up. -/
def minorSteps (N M k : Nat) : Nat := (2 * k * N + M) / (2 * M)

/-- The error term of the loop after `k` passes: not negative exactly if the next step is diagonal. -/
def lineErr (N M k : Nat) : Int := 2 * N * (k + 1) - M - 2 * M * minorSteps N M k

section
variable {N M : Nat}

theorem minorSteps_zero (N M : Nat) : minorSteps N M 0 = 0 := by
  rw [minorSteps]
  obtain rfl | hM := M.eq_zero_or_pos
  · simp
  · exact Nat.div_eq_of_lt (by omega)

theorem minorSteps_bounds (hM : 0 < M) (k : Nat) :
    2 * M * minorSteps N M k ≤ 2 * k * N + M ∧ 2 * k * N + M < 2 * M * minorSteps N M k + 2 * M := by
  have hdiv := Nat.div_add_mod (2 * k * N + M) (2 * M)
  have hmod := Nat.mod_lt (2 * k * N + M) (show 0 < 2 * M by omega)
  rw [minorSteps]
  omega

theorem minorSteps_unique {k q : Nat} (hlo : 2 * M * q ≤ 2 * k * N + M) (hhi : 2 * k * N + M < 2 * M * q + 2 * M) :
    minorSteps N M k = q :=
  Nat.div_eq_of_lt_le (by rwa [mul_comm]) (by rwa [mul_comm (q + 1), Nat.mul_succ])

theorem lineErr_nonneg (N M k : Nat) :
    0 ≤ lineErr N M k ↔ 2 * M * minorSteps N M k + 2 * M ≤ 2 * k * N + 2 * N + M := by
  rw [lineErr, ← Nat.cast_le (α := Int)]
  push_cast
  constructor <;> intro h <;> linarith

/-- The minor axis takes a step where the error is not negative. -/
theorem minorSteps_succ (hM : 0 < M) (hN : N ≤ M) (k : Nat) :
    minorSteps N M (k + 1) = if 0 ≤ lineErr N M k then minorSteps N M k + 1 else minorSteps N M k := by
  obtain ⟨hlo, hhi⟩ := minorSteps_bounds (N := N) hM k
  have hnext : 2 * (k + 1) * N = 2 * k * N + 2 * N := by ring
  by_cases hstep : 0 ≤ lineErr N M k
  · rw [if_pos hstep]
    rw [lineErr_nonneg] at hstep
    refine minorSteps_unique ?_ ?_ <;> rw [hnext, Nat.mul_succ] <;> omega
  · rw [if_neg hstep]
    rw [lineErr_nonneg] at hstep
    refine minorSteps_unique ?_ ?_ <;> rw [hnext] <;> omega

theorem lineErr_zero (N M : Nat) : lineErr N M 0 = 2 * N - M := by
  simp [lineErr, minorSteps_zero]

theorem lineErr_succ (hM : 0 < M) (hN : N ≤ M) (k : Nat) :
    lineErr N M (k + 1) = (if 0 ≤ lineErr N M k then lineErr N M k - 2 * M else lineErr N M k) + 2 * N := by
  rw [lineErr, minorSteps_succ hM hN k]
  split
  · rw [lineErr]
    push_cast
    ring
  · rw [lineErr]
    push_cast
    ring

end

/-- The loop with x dominant, `fuel` passes before its end: pass after pass a step along x, and along y as the error
says. -/
theorem walkX_eq {N M : Nat} (hM : 0 < M) (hN : N ≤ M) {sx : Int} (hsx : sx ≠ 0) (sy x2 y : Int) (fuel k : Nat)
    {px : Int} (hend : px + sx * fuel = x2) :
    walkX sx sy (2 * M) (2 * N) x2 fuel px (y + sy * minorSteps N M k) (lineErr N M k) =
      (List.range fuel).map fun (j : Nat) => (px + sx * (j + 1), y + sy * minorSteps N M (k + j + 1)) := by
  induction fuel generalizing k px with
  | zero => rfl
  | succ fuel ih =>
    have hgo : px ≠ x2 := by
      have hfar : sx * ((fuel + 1 : Nat) : Int) ≠ 0 := mul_ne_zero hsx (by omega)
      omega
    have hy : (if 0 ≤ lineErr N M k then y + sy * minorSteps N M k + sy else y + sy * minorSteps N M k) =
        y + sy * minorSteps N M (k + 1) := by
      rw [minorSteps_succ hM hN]
      split
      · push_cast
        ring
      · rfl
    rw [walkX, if_neg hgo]
    simp only [hy, ← lineErr_succ hM hN]
    rw [ih (k + 1) (by rw [← hend]; push_cast; ring), List.range_succ_eq_map, List.map_cons, List.map_map]
    refine congrArg₂ List.cons (by simp) (List.map_congr_left fun j _ => ?_)
    refine Prod.ext ?_ ?_
    · simp only [Function.comp_apply]
      push_cast
      ring
    · simp only [Function.comp_apply, Nat.add_right_comm k 1 j, Nat.add_assoc k j 1]

/-- The loop with y dominant is the other with the axes exchanged. -/
theorem walkY_eq_map_swap (sx sy dx2 dy2 y2 : Int) (fuel : Nat) (px py err : Int) :
    walkY sx sy dx2 dy2 y2 fuel px py err = (walkX sy sx dy2 dx2 y2 fuel py px err).map Prod.swap := by
  induction fuel generalizing px py err with
  | zero => rfl
  | succ fuel ih =>
    rw [walkX, walkY]
    split
    · rfl
    · simp only [ih, List.map_cons, Prod.swap_prod_mk]

/-! ### The points of a line -/

/-- How far a line goes along an axis. -/
def span (u v : Nat) : Nat := max u v - min u v

/-- The unit steps along x and along y to point `k` of a line `dx` wide and `dy` high; ties go to y. -/
def lineSteps (dx dy k : Nat) : Nat × Nat :=
  if dy < dx then (k, minorSteps dy dx k) else (minorSteps dx dy k, k)

/-- Point `k` of the line from `(a, b)` to `(c, d)`. -/
def lineAt (a b c d k : Nat) : Point :=
  let n := lineSteps (span a c) (span b d) k
  (a + stepSign a c * n.1, b + stepSign b d * n.2)

theorem stepSign_ne_zero (u v : Int) : stepSign u v ≠ 0 := by
  unfold stepSign
  split <;> decide

theorem add_stepSign_mul_span (u v : Nat) : (u : Int) + stepSign u v * span u v = v := by
  unfold stepSign span
  split <;> omega

theorem natAbs_eq_span (u v : Nat) : ((v : Int) - u).natAbs = span u v := by
  unfold span
  omega

/-- The walk of DRAWLINE is its points in order. -/
theorem linePoints_eq_map (a b c d : Nat) :
    linePoints a b c d = (List.range (max (span a c) (span b d) + 1)).map (lineAt a b c d) := by
  have hhalf (M : Nat) : 2 * (M : Int) / 2 = M := Int.mul_ediv_cancel_left _ two_ne_zero
  have hfirst : lineAt a b c d 0 = ((a : Int), (b : Int)) := by
    simp [lineAt, lineSteps, minorSteps_zero]
  rw [List.range_succ_eq_map, List.map_cons, List.map_map, hfirst, linePoints]
  refine congrArg (List.cons _) ?_
  simp only [natAbs_eq_span, hhalf]
  by_cases hdom : span b d < span a c
  · have h := walkX_eq (by omega) hdom.le (stepSign_ne_zero a c) (stepSign b d) c b (span a c) 0
      (add_stepSign_mul_span a c)
    rw [minorSteps_zero, lineErr_zero, Nat.cast_zero, mul_zero, add_zero] at h
    rw [if_pos (by omega), h, max_eq_left hdom.le]
    refine List.map_congr_left fun j _ => ?_
    simp [lineAt, lineSteps, hdom]
  · rw [if_neg (by omega), max_eq_right (Nat.le_of_not_lt hdom), walkY_eq_map_swap]
    obtain hnone | hsome := (span b d).eq_zero_or_pos
    · rw [hnone]
      rfl
    · have h := walkX_eq hsome (Nat.le_of_not_lt hdom) (stepSign_ne_zero b d) (stepSign a c) d a (span b d) 0
        (add_stepSign_mul_span b d)
      rw [minorSteps_zero, lineErr_zero, Nat.cast_zero, mul_zero, add_zero] at h
      rw [h, List.map_map]
      refine List.map_congr_left fun j _ => ?_
      simp [lineAt, lineSteps, hdom]

/-- Settles O43: the points of the walk, with the ties of the rounding where the error is zero. -/
theorem lineClosedForm : Obligations.LineClosedForm := by
  intro a b c d sx sy dx dy near
  refine (linePoints_eq_map ..).trans (List.map_congr_left fun k _ => ?_)
  have hsx : stepSign (a.toNat : Int) c.toNat = sx := by simp only [stepSign, Nat.cast_lt, sx]
  have hsy : stepSign (b.toNat : Int) d.toNat = sy := by simp only [stepSign, Nat.cast_lt, sy]
  rw [lineAt, hsx, hsy, lineSteps]
  split
  · rename_i hdom
    exact (if_pos hdom).symm
  · rename_i hdom
    exact (if_neg hdom).symm

/-! ### What a line is (45_raster.md R347) -/

theorem minorSteps_last {N M : Nat} (hN : N ≤ M) : minorSteps N M M = N := by
  obtain rfl | hM := M.eq_zero_or_pos
  · rw [minorSteps_zero]
    omega
  · exact minorSteps_unique (by omega) (by omega)

theorem minorSteps_le {N M k : Nat} (hN : N ≤ M) (hk : k ≤ M) : minorSteps N M k ≤ N :=
  calc minorSteps N M k ≤ minorSteps N M M := Nat.div_le_div_right (by gcongr)
    _ = N := minorSteps_last hN

theorem lineSteps_zero (dx dy : Nat) : lineSteps dx dy 0 = (0, 0) := by
  simp [lineSteps, minorSteps_zero]

theorem lineSteps_last (dx dy : Nat) : lineSteps dx dy (max dx dy) = (dx, dy) := by
  unfold lineSteps
  split
  · rw [max_eq_left (by omega), minorSteps_last (by omega)]
  · rw [max_eq_right (by omega), minorSteps_last (by omega)]

theorem lineSteps_le {dx dy k : Nat} (hk : k ≤ max dx dy) :
    (lineSteps dx dy k).1 ≤ dx ∧ (lineSteps dx dy k).2 ≤ dy := by
  unfold lineSteps
  split
  · exact ⟨by omega, minorSteps_le (by omega) (by omega)⟩
  · exact ⟨minorSteps_le (by omega) (by omega), by omega⟩

/-- From a point to the next there is one step along the dominant axis, and one or none along the other. -/
theorem lineSteps_succ {dx dy k : Nat} (hk : k < max dx dy) :
    ∃ i j, i ≤ 1 ∧ j ≤ 1 ∧ 1 ≤ i + j ∧
      lineSteps dx dy (k + 1) = ((lineSteps dx dy k).1 + i, (lineSteps dx dy k).2 + j) := by
  have hminor {N M : Nat} (hM : 0 < M) (hN : N ≤ M) : ∃ i ≤ 1, minorSteps N M (k + 1) = minorSteps N M k + i := by
    rw [minorSteps_succ hM hN]
    split
    · exact ⟨1, le_rfl, rfl⟩
    · exact ⟨0, Nat.zero_le _, rfl⟩
  unfold lineSteps
  split
  · obtain ⟨i, hi, e⟩ := hminor (N := dy) (M := dx) (by omega) (by omega)
    exact ⟨1, i, le_rfl, hi, by omega, by rw [e]⟩
  · obtain ⟨i, hi, e⟩ := hminor (N := dx) (M := dy) (by omega) (by omega)
    exact ⟨i, 1, hi, le_rfl, by omega, by rw [e]⟩

theorem natAbs_stepSign_mul (u v : Int) (n : Nat) : (stepSign u v * n).natAbs = n := by
  have hone : (stepSign u v).natAbs = 1 := by
    unfold stepSign
    split <;> rfl
  rw [Int.natAbs_mul, hone, one_mul, Int.natAbs_natCast]

/-- Consecutive points differ by at most one along either axis, and by one along at least one. -/
theorem lineAt_succ (a b c d : Nat) {k : Nat} (hk : k < max (span a c) (span b d)) :
    ∃ i j, i ≤ 1 ∧ j ≤ 1 ∧ 1 ≤ i + j ∧ ((lineAt a b c d (k + 1)).1 - (lineAt a b c d k).1).natAbs = i ∧
      ((lineAt a b c d (k + 1)).2 - (lineAt a b c d k).2).natAbs = j := by
  obtain ⟨i, j, hi, hj, hij, e⟩ := lineSteps_succ hk
  refine ⟨i, j, hi, hj, hij, ?_, ?_⟩
  · rw [← natAbs_stepSign_mul a c i, lineAt, lineAt, e]
    congr 1
    push_cast
    ring
  · rw [← natAbs_stepSign_mul b d j, lineAt, lineAt, e]
    congr 1
    push_cast
    ring

/-- Steps along an axis, no more than it is long, stay between its ends. -/
theorem add_stepSign_mul_mem {u v n : Nat} (h : n ≤ span u v) :
    min (u : Int) v ≤ u + stepSign u v * n ∧ u + stepSign u v * n ≤ max (u : Int) v := by
  unfold stepSign
  unfold span at h
  split <;> omega

/-- Settles O44: the properties of the steps, point by point. -/
theorem lineProperties : Obligations.LineProperties := by
  intro a b c d ps
  have hps : ps = (List.range (max (span a.toNat c.toNat) (span b.toNat d.toNat) + 1)).map
      (lineAt a.toNat b.toNat c.toNat d.toNat) := linePoints_eq_map ..
  rw [hps]
  refine ⟨?_, ?_, ?_, ?_, ?_⟩
  · simp [List.range_succ_eq_map, lineAt, lineSteps_zero]
  · simp [List.range_succ, lineAt, lineSteps_last, add_stepSign_mul_span]
  · rintro p hp
    obtain ⟨k, hk, rfl⟩ := List.mem_map.1 hp
    obtain ⟨hx, hy⟩ := lineSteps_le (Nat.le_of_lt_succ (List.mem_range.1 hk))
    obtain ⟨hx1, hx2⟩ := add_stepSign_mul_mem hx
    obtain ⟨hy1, hy2⟩ := add_stepSign_mul_mem hy
    exact ⟨hx1, hx2, hy1, hy2⟩
  · intro k p q hp hq
    obtain ⟨-, rfl⟩ := List.getElem?_eq_some_iff.1 hp
    obtain ⟨hk, rfl⟩ := List.getElem?_eq_some_iff.1 hq
    rw [List.length_map, List.length_range] at hk
    simp only [List.getElem_map, List.getElem_range]
    obtain ⟨i, j, hi, hj, hij, hx, hy⟩ := lineAt_succ a.toNat b.toNat c.toNat d.toNat (Nat.lt_of_succ_lt_succ hk)
    refine ⟨hx.trans_le hi, hy.trans_le hj, fun hsame => ?_⟩
    rw [hsame, sub_self, Int.natAbs_zero] at hx hy
    omega
  · rintro rfl rfl
    simp [span, lineAt, lineSteps_zero]

end Sys2Proof.Machine
